-- ==== Sys2Proof/Word.lean ====
section
/-! DEFINITION. The fixed-width values of the R68k core: B = 8, W = 16 and L = 32 bits (R5). -/

namespace Sys2Proof

/-- A value of size B. -/
abbrev Byte := BitVec 8

/-- A value of size W, and one word of the program store (R35). -/
abbrev Word := BitVec 16

/-- A value of size L: a data or address register, the program counter, an address (R21, R22, R25). -/
abbrev Long := BitVec 32

end Sys2Proof
end

