-- ==== Sys2Proof/Config.lean ====
section
/-! DEFINITION. The implementation parameters of R4: fixed at construction, read by the step, written by nothing
(R37).  They are plain data, carried in the state so that the core can be instantiated in every legal way. -/

namespace Sys2Proof

/-- DIV_OVF_NZ (R4, D21): what DIVU and DIVS leave in N and Z when the quotient does not fit. -/
inductive DivOvf where
  /-- The spec's default: both keep their old value. -/
  | unchanged
  /-- Any other choice of an instantiation: the `k`-th free function `Config.divOvfNZ k`. -/
  | param (k : Nat)
deriving DecidableEq, Repr

/-- The parameters of R4.  `XLEN` is the width of `Long`; `PROG_END` and `ISTART` are derived (`Config.progEnd`,
`inIStart`). -/
structure Config where
  /-- MEM_SIZE in bytes, at most 2^32 in a well-formed instantiation. -/
  memSize : Nat
  /-- MEM_INIT in the canonical form of `Memory.wf`: an unlisted byte is 0 (D9). -/
  memInit : List Host.Cell
  /-- PROG_BASE, the address of the first program word. -/
  progBase : Long
  /-- PROG, the words of the program store (R35). -/
  prog : List Word
  /-- ENTRY, the reset value of the program counter. -/
  entry : Long
  /-- SP_RESET, the reset value of A7. -/
  spReset : Long
  /-- ALIGN_FAULT (D4): whether a W or L data access at an odd address raises AddressError. -/
  alignFault : Bool
  /-- DIV_OVF_NZ (D21). -/
  divOvf : DivOvf
  /-- RS_MAX: the longest answer to a ReadString trap (D15). -/
  rsMax : Nat
  /-- LINE_OF (D31) as a table by program word: entry `k` is the line of an instruction at PROG_BASE + 2k, and counts
  only where one starts (log entry 4). -/
  lines : List Nat
deriving DecidableEq, Repr

namespace Config

/-- FREE VALUE (log entry 3).  DIV_OVF_NZ of an instantiation that does not take the default: (N, Z) as a function
of the dividend, the divisor, the signedness and the old N and Z; no value of it is known. -/
opaque divOvfNZ (k : Nat) (dividend : Long) (divisor : Word) (signed oldN oldZ : Bool) : Bool × Bool

/-- PROG_END (R4), as a natural number: it need not fit 32 bits in an instantiation that is not well formed. -/
def progEnd (c : Config) : Nat := c.progBase.toNat + 2 * c.prog.length

/-- LINE_OF at `a`; every instruction start of a well-formed instantiation has a line. -/
def lineOf (c : Config) (a : Long) : Option Nat := c.lines[(a.toNat - c.progBase.toNat) / 2]?

/-- The default of SP_RESET: the largest even number that is at most MEM_SIZE, modulo 2^32 (R4, D8). -/
def defaultSpReset (memSize : Nat) : Long := BitVec.ofNat 32 (2 * (memSize / 2))

/-- The instantiation for a memory size and a compiled program (image, base, words and lines) with every other
parameter at its default (R4, R390). -/
def ofProgram (memSize : Nat) (memInit : List Host.Cell) (progBase : Long) (prog : List Word) (lines : List Nat) :
    Config where
  memSize := memSize
  memInit := memInit
  progBase := progBase
  prog := prog
  entry := progBase
  spReset := defaultSpReset memSize
  alignFault := false
  divOvf := .unchanged
  rsMax := 80
  lines := lines

/-- The default of MEM_SIZE (R4, R34). -/
def defaultMemSize : Nat := 16777215

/-- The instantiation that `State.reset` uses: every default of R4, an empty memory image and no program.
PROG_BASE has no default; 0x1000 is the value of the spec's own vectors (log entry 1). -/
def default : Config := ofProgram defaultMemSize [] 0x1000#32 [] []

end Config
end Sys2Proof
end

