-- ==== Sys2Proof/Machine/Memory.lean ====
section
/-! DEFINITION. Data memory as a list of (address, byte) pairs in one canonical form (R34, R60): addresses strictly
rising, and no entry equal to what an unlisted address reads as. -/

namespace Sys2Proof.Machine

/-- The bytes of data memory that differ from `Memory.unlisted`. -/
structure Memory where
  cells : List Host.Cell
deriving DecidableEq, Repr

/-- What an unlisted address reads as: "bytes the image does not define are 0" (R4, R390, D9). -/
def Memory.unlisted : Byte := 0

/-- The byte at `a` in a rising list of cells. -/
def readCell : List Host.Cell → Nat → Byte
  | [], _ => Memory.unlisted
  | (k, b) :: cs, a => if k < a then readCell cs a else if k = a then b else Memory.unlisted

/-- No entry of a rising list is at or below `a`. -/
def headAbove : List Host.Cell → Nat → Bool
  | [], _ => true
  | (k, _) :: _, a => decide (a < k)

/-- The list with byte `b` at `a`; writing what an unlisted address reads as removes the entry.  The test `headAbove`
holds in every canonical list; with it a read after a write is right in every list. -/
def writeCell : List Host.Cell → Nat → Byte → List Host.Cell
  | [], a, b => if b = Memory.unlisted then [] else [(a, b)]
  | (k, c) :: cs, a, b =>
    if k < a then (k, c) :: writeCell cs a b
    else if k = a then (if b = Memory.unlisted && headAbove cs a then cs else (a, b) :: cs)
    else if b = Memory.unlisted then (k, c) :: cs else (a, b) :: (k, c) :: cs

/-- The canonical form of a list of cells, all of whose addresses are at least `lo`. -/
def cellsWf : Nat → List Host.Cell → Bool
  | _, [] => true
  | lo, (k, b) :: cs => decide (lo ≤ k) && b != Memory.unlisted && cellsWf (k + 1) cs

namespace Memory

/-- The canonical form. -/
def wf (m : Memory) : Bool := cellsWf 0 m.cells

/-- Every listed address is below `n`. -/
def below (m : Memory) (n : Nat) : Bool := m.cells.all fun c => decide (c.1 < n)

/-- One byte. -/
def read (m : Memory) (a : Nat) : Byte := readCell m.cells a

/-- Write one byte. -/
def write (m : Memory) (a : Nat) (b : Byte) : Memory := ⟨writeCell m.cells a b⟩

/-- The unsigned value of the `n` bytes at `a`, most significant byte first (R60). -/
def readNat (m : Memory) (a : Nat) : Nat → Nat
  | 0 => 0
  | n + 1 => m.readNat a n * 256 + (m.read (a + n)).toNat

/-- Store the low `n` bytes of `v` at `a`, most significant byte first (R60, R63). -/
def writeNat (m : Memory) (a : Nat) : Nat → Nat → Memory
  | 0, _ => m
  | n + 1, v => (m.writeNat a n (v / 256)).write (a + n) (BitVec.ofNat 8 v)

end Memory

/-- The bytes from `a` up to, not including, the first zero byte, when `n` addresses from `a` on are in range; `none`
when they hold no zero byte.  Addresses are natural numbers: no wrap-around (R320). -/
def scanBytes (m : Memory) : Nat → Nat → Option (List Byte)
  | 0, _ => none
  | n + 1, a => if m.read a = 0 then some [] else (scanBytes m n (a + 1)).map (m.read a :: ·)

end Sys2Proof.Machine
end

