-- ==== Sys2Proof/Machine/State.lean ====
section
/-! DEFINITION. The state of the core as plain data: everything spec/10_state.md names, and the parameters of R4. -/

namespace Sys2Proof.Machine

/-- The five condition flags (R27). -/
structure Ccr where
  x : Bool
  n : Bool
  z : Bool
  v : Bool
  c : Bool
deriving DecidableEq, Repr

/-- STATUS (R30). -/
inductive Status where
  | running
  | awaitingInterrupt
  | terminated
  | terminatedByFault
deriving DecidableEq, Repr

/-- An Interrupt descriptor: a trap kind that can be pending, with its request parameters (R31, R357). -/
inductive Interrupt where
  | readString (buffer : Long) (max : Nat)
  | writeInteger (value : Long)
  | readInteger
  | writeString (text : List Byte)
deriving DecidableEq, Repr

/-- Read or write, in the record of an access fault (R340). -/
inductive AccessKind where
  | read
  | write
deriving DecidableEq, Repr

/-- The closed set of fault causes with the `info` each records (R340). -/
inductive Cause where
  /-- The address that could not be fetched. -/
  | fetchFault (addr : Long)
  /-- The data address, the byte count and the direction.  The address is a natural number because `ScanString` counts
  its addresses without wrap-around (R320). -/
  | accessFault (addr : Nat) (bytes : Nat) (kind : AccessKind)
  /-- As `accessFault`; only when ALIGN_FAULT is true. -/
  | addressError (addr : Nat) (bytes : Nat) (kind : AccessKind)
  /-- The opcode word, and the extension word if that is the offender. -/
  | illegalInstruction (word : Word) (ext : Option Word)
  | zeroDivide
  /-- The vector, and the task number when the vector is 15. -/
  | unimplementedTrap (v : Fin 16) (task : Option Byte)
deriving DecidableEq, Repr

/-- The FAULT record (R32): the cause with its info, and the address of the faulting instruction. -/
structure FaultRecord where
  cause : Cause
  pc0 : Long
deriving DecidableEq, Repr

/-- The host outcome "the machine stops with a fault" never occurs, so this type has no constructor: every fault of the
spec is a state change (STATUS and FAULT, R341), and a step that the spec rejects changes no state (R360). -/
inductive Fault where
deriving DecidableEq, Repr

/-- Why an instruction has no meaning. -/
inductive Refusal where
  /-- Raised by an arm of `exec` whose instruction has no meaning yet (safe: the machine stops).  No arm is so. -/
  | notModelled (mnemonic : String)
deriving DecidableEq, Repr

/-- The state of the core (R2 (a), spec/10_state.md). -/
structure State where
  /-- The parameters of the instantiation (R4), the program store among them (R35); no step changes them (R37). -/
  cfg : Config
  /-- D0 to D7 (R21). -/
  d : Vector Long 8
  /-- A0 to A7; A7 is SP (R22). -/
  a : Vector Long 8
  /-- The program counter (R25). -/
  pc : Long
  /-- The condition flags (R27). -/
  ccr : Ccr
  /-- STATUS (R30). -/
  status : Status
  /-- PENDING (R31). -/
  pending : Option Interrupt
  /-- FAULT (R32). -/
  fault : Option FaultRecord
  /-- Data memory (R34). -/
  mem : Memory
deriving DecidableEq, Repr

/-- The core right after its construction with the parameters `c` (R39, R390). -/
def State.resetOf (c : Config) : State where
  cfg := c
  d := Vector.replicate 8 0
  a := (Vector.replicate 8 0).set 7 c.spReset
  pc := c.entry
  ccr := ⟨false, false, false, false, false⟩
  status := if c.entry.toNat = c.progEnd then .terminated else .running
  pending := none
  fault := none
  mem := ⟨c.memInit⟩

/-- The core right after its construction with the default parameters and no program (log entry 1): by R390 its STATUS
is Terminated, since ENTRY = PROG_END. -/
def State.reset : State := State.resetOf Config.default

end Sys2Proof.Machine
end

