-- ==== Sys2Proof/Syntax.lean ====
section
/-! DEFINITION. The admitted instructions: one constructor of `Instr` for each row of spec/opcode_table.json (R101). -/

namespace Sys2Proof

/-- A data or address register number. -/
abbrev RegNum := Fin 8

/-- Operation size (R5). -/
inductive Size where
  | b | w | l
deriving DecidableEq, Repr

namespace Size

/-- `bytes(sz)` of R5. -/
abbrev bytes : Size → Nat
  | b => 1
  | w => 2
  | l => 4

/-- `bits(sz)` of R5. -/
abbrev bits : Size → Nat
  | b => 8
  | w => 16
  | l => 32

end Size

/-- The sixteen conditions, in the order of their codes (R290). -/
inductive Cond where
  | t | f | hi | ls | cc | cs | ne | eq | vc | vs | pl | mi | ge | lt | gt | le
deriving DecidableEq, Repr

/-- A brief extension word (R98), all its bits kept: a word with `rsv ≠ 0` raises IllegalInstruction only when the
operand is evaluated (R138, R344). -/
structure Brief where
  /-- `da`: the index register is An (true) or Dn (false). -/
  isA : Bool
  /-- The index register number. -/
  xn : RegNum
  /-- `wl`: the index is the whole register (true) or its sign-extended low word (false). -/
  long : Bool
  /-- Bits 10:8, which must be 000. -/
  rsv : Fin 8
  /-- The 8-bit displacement. -/
  d8 : Byte
deriving DecidableEq, Repr

/-- An effective-address field without its extension words (R92). -/
inductive EaMode where
  | dreg (n : RegNum)
  | areg (n : RegNum)
  | ind (n : RegNum)
  | postInc (n : RegNum)
  | preDec (n : RegNum)
  | disp (n : RegNum)
  | index (n : RegNum)
  | absW
  | absL
  | pcDisp
  | pcIndex
  | imm
deriving DecidableEq, Repr

/-- The effective-address classes of R100, and the three combinations that R101 uses. -/
inductive EaClass where
  | all | data | memory | control | alterable | dataAlterable | memAlterable | controlAlterable
  /-- Static BTST: data except `#imm` (R281). -/
  | dataNoImm
  /-- MOVEM registers to memory: control alterable or `-(an)` (R165). -/
  | movemDst
  /-- MOVEM memory to registers: control or `(an)+` (R166). -/
  | movemSrc
deriving DecidableEq, Repr

/-- An effective-address operand with its extension words (R92): the twelve modes of R132 to R143. -/
inductive Ea where
  /-- `dn` -/
  | dreg (n : RegNum)
  /-- `an` -/
  | areg (n : RegNum)
  /-- `(an)` -/
  | ind (n : RegNum)
  /-- `(an)+` -/
  | postInc (n : RegNum)
  /-- `-(an)` -/
  | preDec (n : RegNum)
  /-- `d16(an)` -/
  | disp (n : RegNum) (d : Word)
  /-- `d8(an,xn.s)` -/
  | index (n : RegNum) (x : Brief)
  /-- `addr.w` -/
  | absW (a : Word)
  /-- `addr.l` -/
  | absL (a : Long)
  /-- `d16(pc)` -/
  | pcDisp (d : Word)
  /-- `d8(pc,xn.s)` -/
  | pcIndex (x : Brief)
  /-- `#imm`: the immediate zero-extended from the operation size (R96). -/
  | imm (v : Long)
deriving DecidableEq, Repr

/-- The mode of an operand, its extension words forgotten. -/
def Ea.mode : Ea → EaMode
  | .dreg n => .dreg n
  | .areg n => .areg n
  | .ind n => .ind n
  | .postInc n => .postInc n
  | .preDec n => .preDec n
  | .disp n _ => .disp n
  | .index n _ => .index n
  | .absW _ => .absW
  | .absL _ => .absL
  | .pcDisp _ => .pcDisp
  | .pcIndex _ => .pcIndex
  | .imm _ => .imm

/-- The displacement of a BRANCH-format instruction (R98). -/
inductive Disp where
  /-- Bits 7:0 of the opcode word, not 0. -/
  | short (d : Byte)
  /-- One extension word. -/
  | long (d : Word)
deriving DecidableEq, Repr

/-- The count of a register shift or rotate (R261). -/
inductive Count where
  /-- An immediate count, 1 to 8. -/
  | imm (q : Nat)
  /-- The low six bits of data register `m`. -/
  | reg (m : RegNum)
deriving DecidableEq, Repr

/-- The admitted instructions, in the order of R101.  Operands stand in assembler order: source first. -/
inductive Instr where
  -- Line 0: immediates and bit operations.
  | oriCcr (imm : BitVec 5)
  | ori (sz : Size) (imm : Long) (ea : Ea)
  | andiCcr (imm : BitVec 5)
  | andi (sz : Size) (imm : Long) (ea : Ea)
  | subi (sz : Size) (imm : Long) (ea : Ea)
  | addi (sz : Size) (imm : Long) (ea : Ea)
  | btstImm (n : Byte) (ea : Ea)
  | bchgImm (n : Byte) (ea : Ea)
  | bclrImm (n : Byte) (ea : Ea)
  | bsetImm (n : Byte) (ea : Ea)
  | eoriCcr (imm : BitVec 5)
  | eori (sz : Size) (imm : Long) (ea : Ea)
  | cmpi (sz : Size) (imm : Long) (ea : Ea)
  | btstDn (dn : RegNum) (ea : Ea)
  | bchgDn (dn : RegNum) (ea : Ea)
  | bclrDn (dn : RegNum) (ea : Ea)
  | bsetDn (dn : RegNum) (ea : Ea)
  -- Lines 1 to 3.
  | move (sz : Size) (src dst : Ea)
  | movea (sz : Size) (src : Ea) (an : RegNum)
  -- Line 4: miscellaneous.
  | negx (sz : Size) (ea : Ea)
  | clr (sz : Size) (ea : Ea)
  | neg (sz : Size) (ea : Ea)
  | moveToCcr (ea : Ea)
  | not (sz : Size) (ea : Ea)
  | swap (dn : RegNum)
  | pea (ea : Ea)
  | ext (sz : Size) (dn : RegNum)
  | movemToMem (sz : Size) (mask : Word) (ea : Ea)
  | tst (sz : Size) (ea : Ea)
  | movemToRegs (sz : Size) (mask : Word) (ea : Ea)
  | trap (v : Fin 16)
  | link (an : RegNum) (d : Word)
  | unlk (an : RegNum)
  | nop
  | rts
  | rtr
  | jsr (ea : Ea)
  | jmp (ea : Ea)
  | lea (ea : Ea) (an : RegNum)
  -- Line 5.
  | addq (sz : Size) (q : Nat) (ea : Ea)
  | subq (sz : Size) (q : Nat) (ea : Ea)
  | dbcc (cond : Cond) (dn : RegNum) (d : Word)
  | scc (cond : Cond) (ea : Ea)
  -- Lines 6 and 7.
  | bra (d : Disp)
  | bsr (d : Disp)
  | bcc (cond : Cond) (d : Disp)
  | moveq (imm : Byte) (dn : RegNum)
  -- Line 8.
  | divu (ea : Ea) (dn : RegNum)
  | divs (ea : Ea) (dn : RegNum)
  | orEaDn (sz : Size) (ea : Ea) (dn : RegNum)
  | orDnEa (sz : Size) (dn : RegNum) (ea : Ea)
  -- Line 9.
  | suba (sz : Size) (ea : Ea) (an : RegNum)
  | subx (sz : Size) (mem : Bool) (y x : RegNum)
  | subEaDn (sz : Size) (ea : Ea) (dn : RegNum)
  | subDnEa (sz : Size) (dn : RegNum) (ea : Ea)
  -- Line B.
  | cmpa (sz : Size) (ea : Ea) (an : RegNum)
  | cmpm (sz : Size) (y x : RegNum)
  | cmp (sz : Size) (ea : Ea) (dn : RegNum)
  | eor (sz : Size) (dn : RegNum) (ea : Ea)
  -- Line C.
  | mulu (ea : Ea) (dn : RegNum)
  | muls (ea : Ea) (dn : RegNum)
  | exgDD (x y : RegNum)
  | exgAA (x y : RegNum)
  | exgDA (x y : RegNum)
  | andEaDn (sz : Size) (ea : Ea) (dn : RegNum)
  | andDnEa (sz : Size) (dn : RegNum) (ea : Ea)
  -- Line D.
  | adda (sz : Size) (ea : Ea) (an : RegNum)
  | addx (sz : Size) (mem : Bool) (y x : RegNum)
  | addEaDn (sz : Size) (ea : Ea) (dn : RegNum)
  | addDnEa (sz : Size) (dn : RegNum) (ea : Ea)
  -- Line E: shifts and rotates of a data register, then of a memory word.
  | asrReg (sz : Size) (cnt : Count) (dn : RegNum)
  | aslReg (sz : Size) (cnt : Count) (dn : RegNum)
  | lsrReg (sz : Size) (cnt : Count) (dn : RegNum)
  | lslReg (sz : Size) (cnt : Count) (dn : RegNum)
  | roxrReg (sz : Size) (cnt : Count) (dn : RegNum)
  | roxlReg (sz : Size) (cnt : Count) (dn : RegNum)
  | rorReg (sz : Size) (cnt : Count) (dn : RegNum)
  | rolReg (sz : Size) (cnt : Count) (dn : RegNum)
  | asrMem (ea : Ea)
  | aslMem (ea : Ea)
  | lsrMem (ea : Ea)
  | lslMem (ea : Ea)
  | roxrMem (ea : Ea)
  | roxlMem (ea : Ea)
  | rorMem (ea : Ea)
  | rolMem (ea : Ea)
deriving DecidableEq, Repr

end Sys2Proof
end

