-- ==== Sys2Proof/Machine/Flags.lean ====
section
/-! DEFINITION. Every flag computation: R8, R27 to R29, the condition table R290, and the results they go with. -/

namespace Sys2Proof.Machine

/-! ### Views of the flags (R28) -/

/-- The packed bitfield: bit 0 C, 1 V, 2 Z, 3 N, 4 X, bits 7:5 zero. -/
def Ccr.pack (f : Ccr) : Byte :=
  BitVec.ofNat 8 (f.x.toNat * 16 + f.n.toNat * 8 + f.z.toNat * 4 + f.v.toNat * 2 + f.c.toNat)

/-- Bits 4:0 of the packed form. -/
def Ccr.low5 (f : Ccr) : BitVec 5 := f.pack.setWidth 5

/-- Writing the packed form: bits 4:0 count. -/
def Ccr.unpack (w : BitVec 5) : Ccr where
  x := w.getLsbD 4
  n := w.getLsbD 3
  z := w.getLsbD 2
  v := w.getLsbD 1
  c := w.getLsbD 0

/-- The ordered sequence [C, V, Z, N, X]. -/
def Ccr.toList (f : Ccr) : List Bool := [f.c, f.v, f.z, f.n, f.x]

/-- The condition table (R290); X is never read. -/
def condHolds (k : Cond) (f : Ccr) : Bool :=
  match k with
  | .t => true
  | .f => false
  | .hi => !f.c && !f.z
  | .ls => f.c || f.z
  | .cc => !f.c
  | .cs => f.c
  | .ne => !f.z
  | .eq => f.z
  | .vc => !f.v
  | .vs => f.v
  | .pl => !f.n
  | .mi => f.n
  | .ge => f.n == f.v
  | .lt => f.n != f.v
  | .gt => !f.z && f.n == f.v
  | .le => f.z || f.n != f.v

section
variable {n : Nat}

/-- `NZ00` of R8: X unchanged. -/
def nz00 (r : BitVec n) (f : Ccr) : Ccr := { f with n := r.msb, z := r == 0, v := false, c := false }

/-! ### Carry, borrow and overflow (R8) -/

def carryAdd (d s : BitVec n) (cin : Bool) : Bool := decide (2 ^ n ≤ d.toNat + s.toNat + cin.toNat)

def ovfAdd (d s r : BitVec n) : Bool := s.msb == d.msb && r.msb != d.msb

def borrowSub (d s : BitVec n) (bin : Bool) : Bool := decide (d.toNat < s.toNat + bin.toNat)

def ovfSub (d s r : BitVec n) : Bool := s.msb != d.msb && r.msb != d.msb

/-- `(d + s + cin) mod 2^n` -/
def addWith (d s : BitVec n) (cin : Bool) : BitVec n := d + s + BitVec.ofNat n cin.toNat

/-- `(d - s - bin) mod 2^n` -/
def subWith (d s : BitVec n) (bin : Bool) : BitVec n := d - s - BitVec.ofNat n bin.toNat

/-! ### Arithmetic: source `s`, destination `d`, old flags `f`; the result and the new flags -/

/-- ADD, ADDI, ADDQ (R190). -/
def aluAdd (s d : BitVec n) (f : Ccr) : BitVec n × Ccr :=
  let r := addWith d s false
  (r, { f with x := carryAdd d s false, n := r.msb, z := r == 0, v := ovfAdd d s r, c := carryAdd d s false })

/-- ADDX: Z is only ever cleared (R194, R221). -/
def aluAddx (s d : BitVec n) (f : Ccr) : BitVec n × Ccr :=
  let r := addWith d s f.x
  (r, { f with x := carryAdd d s f.x, n := r.msb, z := f.z && r == 0, v := ovfAdd d s r, c := carryAdd d s f.x })

/-- SUB, SUBI, SUBQ (R196). -/
def aluSub (s d : BitVec n) (f : Ccr) : BitVec n × Ccr :=
  let r := subWith d s false
  (r, { f with x := borrowSub d s false, n := r.msb, z := r == 0, v := ovfSub d s r, c := borrowSub d s false })

/-- SUBX (R200). -/
def aluSubx (s d : BitVec n) (f : Ccr) : BitVec n × Ccr :=
  let r := subWith d s f.x
  (r, { f with x := borrowSub d s f.x, n := r.msb, z := f.z && r == 0, v := ovfSub d s r, c := borrowSub d s f.x })

/-- The flags of CMP, CMPA, CMPI, CMPM: SUB's, with X unchanged (R207). -/
def cmpFlags (s d : BitVec n) (f : Ccr) : Ccr := { (aluSub s d f).2 with x := f.x }

/-- NEG: SUB with destination 0 and the operand as source (R203).  The first argument is not used. -/
def aluNeg (_ d : BitVec n) (f : Ccr) : BitVec n × Ccr := aluSub d 0 f

/-- NEGX (R204). -/
def aluNegx (_ d : BitVec n) (f : Ccr) : BitVec n × Ccr := aluSubx d 0 f

/-! ### Logic (R240) -/

def aluAnd (s d : BitVec n) (f : Ccr) : BitVec n × Ccr := (d &&& s, nz00 (d &&& s) f)

def aluOr (s d : BitVec n) (f : Ccr) : BitVec n × Ccr := (d ||| s, nz00 (d ||| s) f)

def aluEor (s d : BitVec n) (f : Ccr) : BitVec n × Ccr := (d ^^^ s, nz00 (d ^^^ s) f)

def aluNot (_ d : BitVec n) (f : Ccr) : BitVec n × Ccr := (~~~d, nz00 (~~~d) f)

/-! ### Shifts and rotates of `d` by `c` (R262 to R270) -/

/-- The flags of a shift: N and Z from the result, C as given, X a copy of C unless the count is 0. -/
def shiftFlags (r : BitVec n) (c : Nat) (carry ovf : Bool) (f : Ccr) : Ccr where
  x := if c = 0 then f.x else carry
  n := r.msb
  z := r == 0
  v := ovf
  c := carry

/-- ASR (R263). -/
def aluAsr (c : Nat) (d : BitVec n) (f : Ccr) : BitVec n × Ccr :=
  let r := d.sshiftRight c
  (r, shiftFlags r c (decide (0 < c) && d.getLsbD (min c n - 1)) false f)

/-- The last bit shifted out of the top by a left shift (R264). -/
def leftCarry (c : Nat) (d : BitVec n) : Bool := decide (0 < c ∧ c ≤ n) && d.getLsbD (n - c)

/-- Whether the most significant bit changes at any time during a left shift (R264): for `0 < c < n` the bits
`d[n-1 : n-1-c]` are not all equal, for `c >= n` the operand is not 0. -/
def aslOverflow (c : Nat) (d : BitVec n) : Bool :=
  if c < n then decide (d.toNat / 2 ^ (n - 1 - c) ≠ 0 ∧ d.toNat / 2 ^ (n - 1 - c) ≠ 2 ^ (c + 1) - 1) && decide (0 < c)
  else d != 0

/-- ASL (R264). -/
def aluAsl (c : Nat) (d : BitVec n) (f : Ccr) : BitVec n × Ccr :=
  let r := d <<< c
  (r, shiftFlags r c (leftCarry c d) (aslOverflow c d) f)

/-- LSR (R265). -/
def aluLsr (c : Nat) (d : BitVec n) (f : Ccr) : BitVec n × Ccr :=
  let r := d >>> c
  (r, shiftFlags r c (decide (0 < c ∧ c ≤ n) && d.getLsbD (c - 1)) false f)

/-- LSL (R266). -/
def aluLsl (c : Nat) (d : BitVec n) (f : Ccr) : BitVec n × Ccr :=
  let r := d <<< c
  (r, shiftFlags r c (leftCarry c d) false f)

/-- The flags of ROR and ROL: X unchanged (R267, R268). -/
def rotateFlags (r : BitVec n) (carry : Bool) (f : Ccr) : Ccr :=
  { f with n := r.msb, z := r == 0, v := false, c := carry }

/-- ROR (R267). -/
def aluRor (c : Nat) (d : BitVec n) (f : Ccr) : BitVec n × Ccr :=
  let r := d >>> (c % n) ||| d <<< (n - c % n)
  (r, rotateFlags r (decide (0 < c) && r.msb) f)

/-- ROL (R268). -/
def aluRol (c : Nat) (d : BitVec n) (f : Ccr) : BitVec n × Ccr :=
  let r := d <<< (c % n) ||| d >>> (n - c % n)
  (r, rotateFlags r (decide (0 < c) && r.getLsbD 0) f)

/-- `X ++ d`, n + 1 bits with X on top (R269). -/
def withX (x : Bool) (d : BitVec n) : BitVec (n + 1) := BitVec.cons x d

/-- The flags of ROXR and ROXL: X and C both are the new X (R269, R270). -/
def roxFlags (e : BitVec (n + 1)) : Ccr where
  x := e.msb
  n := (e.setWidth n).msb
  z := e.setWidth n == 0
  v := false
  c := e.msb

/-- ROXR: `X ++ d` rotated right by `c mod (n + 1)`; a count of 0 leaves X and sets C to it (R269). -/
def aluRoxr (c : Nat) (d : BitVec n) (f : Ccr) : BitVec n × Ccr :=
  let e := withX f.x d
  let r := e >>> (c % (n + 1)) ||| e <<< (n + 1 - c % (n + 1))
  (r.setWidth n, roxFlags r)

/-- ROXL (R270). -/
def aluRoxl (c : Nat) (d : BitVec n) (f : Ccr) : BitVec n × Ccr :=
  let e := withX f.x d
  let r := e <<< (c % (n + 1)) ||| e >>> (n + 1 - c % (n + 1))
  (r.setWidth n, roxFlags r)

end

/-! ### Multiplication and division (R214 to R217) -/

/-- MULU: the product of the low words as unsigned numbers. -/
def mulUnsigned (s d : Word) : Long := BitVec.ofNat 32 (d.toNat * s.toNat)

/-- MULS: the product of the low words as signed numbers. -/
def mulSigned (s d : Word) : Long := BitVec.ofInt 32 (d.toInt * s.toInt)

/-- `(N, Z) <- DIV_OVF_NZ(...)` (D21). -/
def divOvfNZ (p : DivOvf) (dividend : Long) (divisor : Word) (signed : Bool) (f : Ccr) : Bool × Bool :=
  match p with
  | .unchanged => (f.n, f.z)
  | .param k => Config.divOvfNZ k dividend divisor signed f.n f.z

/-- The flags of a division whose quotient does not fit: V = 1, C = 0, X unchanged. -/
def divOvfFlags (p : DivOvf) (dividend : Long) (divisor : Word) (signed : Bool) (f : Ccr) : Ccr :=
  { f with n := (divOvfNZ p dividend divisor signed f).1, z := (divOvfNZ p dividend divisor signed f).2,
           v := true, c := false }

/-- DIVU of `d` by a non-zero `s`: the new register and the new flags. -/
def divUnsigned (p : DivOvf) (s : Word) (d : Long) (f : Ccr) : Long × Ccr :=
  let q := d.toNat / s.toNat
  let m := d.toNat % s.toNat
  if 0xFFFF < q then (d, divOvfFlags p d s false f)
  else (BitVec.ofNat 16 m ++ BitVec.ofNat 16 q, nz00 (BitVec.ofNat 16 q) f)

/-- DIVS of `d` by a non-zero `s`: the quotient is truncated toward zero. -/
def divSigned (p : DivOvf) (s : Word) (d : Long) (f : Ccr) : Long × Ccr :=
  let q := d.toInt.tdiv s.toInt
  let m := d.toInt - q * s.toInt
  if q < -32768 ∨ 32767 < q then (d, divOvfFlags p d s true f)
  else (BitVec.ofInt 16 m ++ BitVec.ofInt 16 q, { f with n := decide (q < 0), z := decide (q = 0), v := false, c := false })

end Sys2Proof.Machine
end

