-- ==== Sys2Proof/Decode.lean ====
section
/-! DEFINITION. The decoder from program words to instructions, total and rejecting by name (R90 to R104), and after it
the encoder, written from the patterns of R101.  Every bit pattern is the spec's own (its mark: general knowledge). -/

namespace Sys2Proof

/-! ### Effective-address classes and sizes -/

namespace EaMode

/-- `d16(pc)` and `d8(pc,xn)`. -/
def isPcRel : EaMode → Bool
  | pcDisp | pcIndex => true
  | dreg _ | areg _ | ind _ | postInc _ | preDec _ | disp _ | index _ | absW | absL | imm => false

/-- The control column of R100. -/
def isControl : EaMode → Bool
  | ind _ | disp _ | index _ | absW | absL | pcDisp | pcIndex => true
  | dreg _ | areg _ | postInc _ | preDec _ | imm => false

def isDreg : EaMode → Bool
  | dreg _ => true
  | areg _ | ind _ | postInc _ | preDec _ | disp _ | index _ | absW | absL | pcDisp | pcIndex | imm => false

def isAreg : EaMode → Bool
  | areg _ => true
  | dreg _ | ind _ | postInc _ | preDec _ | disp _ | index _ | absW | absL | pcDisp | pcIndex | imm => false

def isPostInc : EaMode → Bool
  | postInc _ => true
  | dreg _ | areg _ | ind _ | preDec _ | disp _ | index _ | absW | absL | pcDisp | pcIndex | imm => false

def isPreDec : EaMode → Bool
  | preDec _ => true
  | dreg _ | areg _ | ind _ | postInc _ | disp _ | index _ | absW | absL | pcDisp | pcIndex | imm => false

def isImm : EaMode → Bool
  | imm => true
  | dreg _ | areg _ | ind _ | postInc _ | preDec _ | disp _ | index _ | absW | absL | pcDisp | pcIndex => false

end EaMode

/-- The table of R100, column by column. -/
def EaClass.has (c : EaClass) (m : EaMode) : Bool :=
  match c with
  | .all => true
  | .data => !m.isAreg
  | .memory => !m.isAreg && !m.isDreg
  | .control => m.isControl
  | .alterable => !m.isPcRel && !m.isImm
  | .dataAlterable => !m.isPcRel && !m.isImm && !m.isAreg
  | .memAlterable => !m.isPcRel && !m.isImm && !m.isAreg && !m.isDreg
  | .controlAlterable => m.isControl && !m.isPcRel
  | .dataNoImm => !m.isAreg && !m.isImm
  | .movemDst => (m.isControl && !m.isPcRel) || m.isPreDec
  | .movemSrc => m.isControl || m.isPostInc

/-- "`an` as a source is legal only at size W or L" (R100); the same holds of ADDQ and SUBQ to `an` (R101). -/
def EaMode.sizeOk (m : EaMode) (sz : Size) : Bool := !(m.isAreg && sz == .b)

/-- W or L: the sizes of MOVEA, MOVEM, EXT, ADDA, SUBA and CMPA. -/
def Size.isWL : Size → Bool
  | .b => false
  | .w | .l => true

/-! ### Fields of an opcode word -/

/-- Bits `lo + n - 1 .. lo` of a word as an unsigned number (R5). -/
def field (w : Word) (lo n : Nat) : Nat := w.toNat / 2 ^ lo % 2 ^ n

/-- Bit `i` of a word. -/
def bit (w : Word) (i : Nat) : Bool := field w i 1 == 1

/-- A register-number field whose low bit is bit `lo`. -/
def regField (w : Word) (lo : Nat) : RegNum := Fin.ofNat 8 (w.toNat / 2 ^ lo)

/-- The standard size code `ss` (R93); 11 is no size. -/
def sizeOfSs : Nat → Option Size
  | 0 => some .b
  | 1 => some .w
  | 2 => some .l
  | _ => none

/-- The size code `zz` of MOVE (R93); 00 is not MOVE. -/
def sizeOfZz : Nat → Option Size
  | 1 => some .b
  | 3 => some .w
  | 2 => some .l
  | _ => none

/-- The single-bit size code `s` (R93): 0 is W, 1 is L. -/
def sizeOfBit (b : Bool) : Size := if b then .l else .w

/-- The effective-address mode of the fields `M` and `Rg` (R92); mode 111 with register 101, 110, 111 is reserved. -/
def eaModeOf (m : Nat) (r : RegNum) : Option EaMode :=
  match m with
  | 0 => some (.dreg r)
  | 1 => some (.areg r)
  | 2 => some (.ind r)
  | 3 => some (.postInc r)
  | 4 => some (.preDec r)
  | 5 => some (.disp r)
  | 6 => some (.index r)
  | _ =>
    match r.val with
    | 0 => some .absW
    | 1 => some .absL
    | 2 => some .pcDisp
    | 3 => some .pcIndex
    | 4 => some .imm
    | _ => none

/-- The condition with a 4-bit code (R290). -/
def condOf : Nat → Cond
  | 0 => .t
  | 1 => .f
  | 2 => .hi
  | 3 => .ls
  | 4 => .cc
  | 5 => .cs
  | 6 => .ne
  | 7 => .eq
  | 8 => .vc
  | 9 => .vs
  | 10 => .pl
  | 11 => .mi
  | 12 => .ge
  | 13 => .lt
  | 14 => .gt
  | _ => .le

/-- A brief extension word (R98). -/
def briefOf (x : Word) : Brief where
  isA := bit x 15
  xn := regField x 12
  long := bit x 11
  rsv := Fin.ofNat 8 (x.toNat / 2 ^ 8)
  d8 := BitVec.ofNat 8 x.toNat

/-- `qqq == 0 ? 8 : qqq` (R97). -/
def quickOf (q : Nat) : Nat := if q = 0 then 8 else q

/-! ### Reading extension words -/

/-- Why a word sequence is not an instruction. -/
inductive DecodeError where
  /-- No word at all. -/
  | noWord
  /-- The opcode word is an illegal instruction (R103). -/
  | illegal (w : Word)
  /-- The opcode word is admitted but the words end before its last extension word. -/
  | truncated
deriving DecidableEq, Repr

/-- An instruction and the words that follow it, or the reason for a rejection. -/
abbrev DecodeResult := Except DecodeError (Instr × List Word)

/-- The next extension word. -/
def takeWord (ws : List Word) (k : Word → List Word → DecodeResult) : DecodeResult :=
  match ws with
  | [] => .error .truncated
  | x :: rest => k x rest

/-- The next two extension words, high-order word first (R71). -/
def takeLong (ws : List Word) (k : Long → List Word → DecodeResult) : DecodeResult :=
  takeWord ws fun hi ws => takeWord ws fun lo ws => k (hi ++ lo) ws

/-- An immediate of size `sz` (R96): at size B the high byte of its word is ignored. -/
def takeImm (sz : Size) (ws : List Word) (k : Long → List Word → DecodeResult) : DecodeResult :=
  match sz with
  | .b => takeWord ws fun x ws => k ((x.setWidth 8).setWidth 32) ws
  | .w => takeWord ws fun x ws => k (x.setWidth 32) ws
  | .l => takeLong ws k

/-- The extension words of an effective-address field (R92). -/
def takeEa (md : EaMode) (sz : Size) (ws : List Word) (k : Ea → List Word → DecodeResult) : DecodeResult :=
  match md with
  | .dreg n => k (.dreg n) ws
  | .areg n => k (.areg n) ws
  | .ind n => k (.ind n) ws
  | .postInc n => k (.postInc n) ws
  | .preDec n => k (.preDec n) ws
  | .disp n => takeWord ws fun x ws => k (.disp n x) ws
  | .index n => takeWord ws fun x ws => k (.index n (briefOf x)) ws
  | .absW => takeWord ws fun x ws => k (.absW x) ws
  | .absL => takeLong ws fun a ws => k (.absL a) ws
  | .pcDisp => takeWord ws fun x ws => k (.pcDisp x) ws
  | .pcIndex => takeWord ws fun x ws => k (.pcIndex (briefOf x)) ws
  | .imm => takeImm sz ws fun v ws => k (.imm v) ws

/-! ### Checks of the opcode word, made before any extension word is taken (R102, R344) -/

/-- The mode of the fields `m`, `r` if it is in class `c` and legal at size `sz`; otherwise `w` is illegal. -/
def checkEa (w : Word) (m : Nat) (r : RegNum) (c : EaClass) (sz : Size) (k : EaMode → DecodeResult) : DecodeResult :=
  match eaModeOf m r with
  | some md => if c.has md && md.sizeOk sz then k md else .error (.illegal w)
  | none => .error (.illegal w)

/-- The operand in bits 5:0, when the instruction has no extension word of its own. -/
def withEa (w : Word) (c : EaClass) (sz : Size) (ws : List Word) (k : Ea → Instr) : DecodeResult :=
  checkEa w (field w 3 3) (regField w 0) c sz fun md => takeEa md sz ws fun ea ws => .ok (k ea, ws)

/-- The size in bits 7:6. -/
def withSize (w : Word) (k : Size → DecodeResult) : DecodeResult :=
  match sizeOfSs (field w 6 2) with
  | some sz => k sz
  | none => .error (.illegal w)

/-- Size in bits 7:6, operand in bits 5:0. -/
def withSizedEa (w : Word) (c : EaClass) (ws : List Word) (k : Size → Ea → Instr) : DecodeResult :=
  withSize w fun sz => withEa w c sz ws (k sz)

/-- Format IMM_EA: the immediate stands before the operand's extension words (R99). -/
def withImmEa (w : Word) (ws : List Word) (k : Size → Long → Ea → Instr) : DecodeResult :=
  withSize w fun sz =>
    checkEa w (field w 3 3) (regField w 0) .dataAlterable sz fun md =>
      takeImm sz ws fun v ws => takeEa md sz ws fun ea ws => .ok (k sz v ea, ws)

/-- One extension word of the instruction's own, then the operand in bits 5:0 (R99). -/
def withOwnEa (w : Word) (c : EaClass) (sz : Size) (ws : List Word) (k : Word → Ea → Instr) : DecodeResult :=
  checkEa w (field w 3 3) (regField w 0) c sz fun md =>
    takeWord ws fun x ws => takeEa md sz ws fun ea ws => .ok (k x ea, ws)

/-- Format BRANCH: an 8-bit displacement, or 0x00 and one extension word (R98). -/
def withDisp (w : Word) (ws : List Word) (k : Disp → Instr) : DecodeResult :=
  if field w 0 8 = 0 then takeWord ws fun x ws => .ok (k (.long x), ws)
  else .ok (k (.short (BitVec.ofNat 8 (field w 0 8))), ws)

/-! ### The sixteen lines (R102, R104) -/

/-- Format BIT_DYN: bit 8 of line 0 is set. -/
def decodeBitDyn (w : Word) (ws : List Word) : DecodeResult :=
  match field w 6 2 with
  | 0 => withEa w .data .b ws (.btstDn (regField w 9))
  | 1 => withEa w .dataAlterable .b ws (.bchgDn (regField w 9))
  | 2 => withEa w .dataAlterable .b ws (.bclrDn (regField w 9))
  | _ => withEa w .dataAlterable .b ws (.bsetDn (regField w 9))

/-- Format BIT_STATIC: only bits 7:0 of the bit-number word count (R97). -/
def decodeBitStatic (w : Word) (ws : List Word) : DecodeResult :=
  match field w 6 2 with
  | 0 => withOwnEa w .dataNoImm .b ws fun x => .btstImm (x.setWidth 8)
  | 1 => withOwnEa w .dataAlterable .b ws fun x => .bchgImm (x.setWidth 8)
  | 2 => withOwnEa w .dataAlterable .b ws fun x => .bclrImm (x.setWidth 8)
  | _ => withOwnEa w .dataAlterable .b ws fun x => .bsetImm (x.setWidth 8)

/-- Format IMM_CCR: bits 4:0 of its extension word count (R96). -/
def withCcrImm (ws : List Word) (k : BitVec 5 → Instr) : DecodeResult :=
  takeWord ws fun x ws => .ok (k (x.setWidth 5), ws)

def decodeLine0 (w : Word) (ws : List Word) : DecodeResult :=
  if bit w 8 then decodeBitDyn w ws
  else
    match field w 9 3 with
    | 0 => if w = 0x003C#16 then withCcrImm ws .oriCcr else withImmEa w ws .ori
    | 1 => if w = 0x023C#16 then withCcrImm ws .andiCcr else withImmEa w ws .andi
    | 2 => withImmEa w ws .subi
    | 3 => withImmEa w ws .addi
    | 4 => decodeBitStatic w ws
    | 5 => if w = 0x0A3C#16 then withCcrImm ws .eoriCcr else withImmEa w ws .eori
    | 6 => withImmEa w ws .cmpi
    | _ => .error (.illegal w)

/-- Lines 1 to 3: MOVE, or MOVEA when the destination mode is 001.  The whole opcode word is checked first; then come
the source's extension words and the destination's (R99). -/
def decodeMove (w : Word) (ws : List Word) : DecodeResult :=
  match sizeOfZz (field w 12 2) with
  | none => .error (.illegal w)
  | some sz =>
    checkEa w (field w 3 3) (regField w 0) .all sz fun srcMd =>
      if field w 6 3 = 1 then
        if sz.isWL then takeEa srcMd sz ws fun src ws => .ok (.movea sz src (regField w 9), ws)
        else .error (.illegal w)
      else
        checkEa w (field w 6 3) (regField w 9) .dataAlterable sz fun dstMd =>
          takeEa srcMd sz ws fun src ws => takeEa dstMd sz ws fun dst ws => .ok (.move sz src dst, ws)

/-- Line 4, bits 11:8 = 1000: PEA, SWAP, EXT and MOVEM registers to memory. -/
def decodeLine48 (w : Word) (ws : List Word) : DecodeResult :=
  match field w 6 2 with
  | 0 => .error (.illegal w)
  | 1 => if field w 3 3 = 0 then .ok (.swap (regField w 0), ws) else withEa w .control .l ws .pea
  | _ =>
    if field w 3 3 = 0 then .ok (.ext (sizeOfBit (bit w 6)) (regField w 0), ws)
    else withOwnEa w .movemDst (sizeOfBit (bit w 6)) ws (.movemToMem (sizeOfBit (bit w 6)))

/-- Line 4, bits 11:6 = 111001: TRAP, LINK, UNLK and the fixed words. -/
def decodeLine4E4 (w : Word) (ws : List Word) : DecodeResult :=
  match field w 3 3 with
  | 0 | 1 => .ok (.trap (Fin.ofNat 16 w.toNat), ws)
  | 2 => takeWord ws fun x ws => .ok (.link (regField w 0) x, ws)
  | 3 => .ok (.unlk (regField w 0), ws)
  | 6 =>
    match field w 0 3 with
    | 1 => .ok (.nop, ws)
    | 5 => .ok (.rts, ws)
    | 7 => .ok (.rtr, ws)
    | _ => .error (.illegal w)
  | _ => .error (.illegal w)

def decodeLine4 (w : Word) (ws : List Word) : DecodeResult :=
  if bit w 8 then
    if field w 6 2 = 3 then withEa w .control .l ws fun ea => .lea ea (regField w 9) else .error (.illegal w)
  else
    match field w 9 3 with
    | 0 => withSizedEa w .dataAlterable ws .negx
    | 1 => withSizedEa w .dataAlterable ws .clr
    | 2 => if field w 6 2 = 3 then withEa w .data .w ws .moveToCcr else withSizedEa w .dataAlterable ws .neg
    | 3 => withSizedEa w .dataAlterable ws .not
    | 4 => decodeLine48 w ws
    | 5 => withSizedEa w .dataAlterable ws .tst
    | 6 =>
      if field w 6 2 < 2 then .error (.illegal w)
      else withOwnEa w .movemSrc (sizeOfBit (bit w 6)) ws (.movemToRegs (sizeOfBit (bit w 6)))
    | _ =>
      match field w 6 2 with
      | 0 => .error (.illegal w)
      | 1 => decodeLine4E4 w ws
      | 2 => withEa w .control .l ws .jsr
      | _ => withEa w .control .l ws .jmp

def decodeLine5 (w : Word) (ws : List Word) : DecodeResult :=
  if field w 6 2 = 3 then
    if field w 3 3 = 1 then takeWord ws fun x ws => .ok (.dbcc (condOf (field w 8 4)) (regField w 0) x, ws)
    else withEa w .dataAlterable .b ws (.scc (condOf (field w 8 4)))
  else if bit w 8 then withSizedEa w .alterable ws fun sz => .subq sz (quickOf (field w 9 3))
  else withSizedEa w .alterable ws fun sz => .addq sz (quickOf (field w 9 3))

def decodeLine6 (w : Word) (ws : List Word) : DecodeResult :=
  match field w 8 4 with
  | 0 => withDisp w ws .bra
  | 1 => withDisp w ws .bsr
  | cc => withDisp w ws (.bcc (condOf cc))

def decodeLine7 (w : Word) (ws : List Word) : DecodeResult :=
  if bit w 8 then .error (.illegal w) else .ok (.moveq (BitVec.ofNat 8 w.toNat) (regField w 9), ws)

def decodeLine8 (w : Word) (ws : List Word) : DecodeResult :=
  match field w 6 3 with
  | 3 => withEa w .data .w ws fun ea => .divu ea (regField w 9)
  | 7 => withEa w .data .w ws fun ea => .divs ea (regField w 9)
  | _ =>
    if bit w 8 then withSizedEa w .memAlterable ws fun sz => .orDnEa sz (regField w 9)
    else withSizedEa w .data ws fun sz ea => .orEaDn sz ea (regField w 9)

/-- Format X_PAIR: ADDX and SUBX. -/
def withXPair (w : Word) (ws : List Word) (k : Size → Bool → RegNum → RegNum → Instr) : DecodeResult :=
  withSize w fun sz => .ok (k sz (bit w 3) (regField w 0) (regField w 9), ws)

def decodeLine9 (w : Word) (ws : List Word) : DecodeResult :=
  if field w 6 2 = 3 then
    withEa w .all (sizeOfBit (bit w 8)) ws fun ea => .suba (sizeOfBit (bit w 8)) ea (regField w 9)
  else if bit w 8 then
    if field w 3 3 < 2 then withXPair w ws .subx
    else withSizedEa w .memAlterable ws fun sz => .subDnEa sz (regField w 9)
  else withSizedEa w .all ws fun sz ea => .subEaDn sz ea (regField w 9)

def decodeLineB (w : Word) (ws : List Word) : DecodeResult :=
  if field w 6 2 = 3 then
    withEa w .all (sizeOfBit (bit w 8)) ws fun ea => .cmpa (sizeOfBit (bit w 8)) ea (regField w 9)
  else if bit w 8 then
    if field w 3 3 = 1 then withSize w fun sz => .ok (.cmpm sz (regField w 0) (regField w 9), ws)
    else withSizedEa w .dataAlterable ws fun sz => .eor sz (regField w 9)
  else withSizedEa w .all ws fun sz ea => .cmp sz ea (regField w 9)

/-- Line C with bit 8 set and EA mode 000 or 001: EXG by bits 7:3, otherwise illegal (R102). -/
def decodeExg (w : Word) (ws : List Word) : DecodeResult :=
  match field w 3 5 with
  | 8 => .ok (.exgDD (regField w 9) (regField w 0), ws)
  | 9 => .ok (.exgAA (regField w 9) (regField w 0), ws)
  | 17 => .ok (.exgDA (regField w 9) (regField w 0), ws)
  | _ => .error (.illegal w)

def decodeLineC (w : Word) (ws : List Word) : DecodeResult :=
  match field w 6 3 with
  | 3 => withEa w .data .w ws fun ea => .mulu ea (regField w 9)
  | 7 => withEa w .data .w ws fun ea => .muls ea (regField w 9)
  | _ =>
    if bit w 8 then
      if field w 3 3 < 2 then decodeExg w ws
      else withSizedEa w .memAlterable ws fun sz => .andDnEa sz (regField w 9)
    else withSizedEa w .data ws fun sz ea => .andEaDn sz ea (regField w 9)

def decodeLineD (w : Word) (ws : List Word) : DecodeResult :=
  if field w 6 2 = 3 then
    withEa w .all (sizeOfBit (bit w 8)) ws fun ea => .adda (sizeOfBit (bit w 8)) ea (regField w 9)
  else if bit w 8 then
    if field w 3 3 < 2 then withXPair w ws .addx
    else withSizedEa w .memAlterable ws fun sz => .addDnEa sz (regField w 9)
  else withSizedEa w .all ws fun sz ea => .addEaDn sz ea (regField w 9)

/-- The count of format SHIFT_REG: bit 5 selects a register count (R261). -/
def countOf (w : Word) : Count := if bit w 5 then .reg (regField w 9) else .imm (quickOf (field w 9 3))

/-- Format SHIFT_REG: the type in bits 4:3, the direction in bit 8 (R261). -/
def decodeShiftReg (w : Word) (ws : List Word) : DecodeResult :=
  withSize w fun sz =>
    let mk (k : Size → Count → RegNum → Instr) : DecodeResult := .ok (k sz (countOf w) (regField w 0), ws)
    match field w 3 2 with
    | 0 => if bit w 8 then mk .aslReg else mk .asrReg
    | 1 => if bit w 8 then mk .lslReg else mk .lsrReg
    | 2 => if bit w 8 then mk .roxlReg else mk .roxrReg
    | _ => if bit w 8 then mk .rolReg else mk .rorReg

/-- Format SHIFT_MEM: bit 11 must be 0, the type is in bits 10:9 (R271). -/
def decodeShiftMem (w : Word) (ws : List Word) : DecodeResult :=
  match field w 9 3 with
  | 0 => withEa w .memAlterable .w ws (if bit w 8 then .aslMem else .asrMem)
  | 1 => withEa w .memAlterable .w ws (if bit w 8 then .lslMem else .lsrMem)
  | 2 => withEa w .memAlterable .w ws (if bit w 8 then .roxlMem else .roxrMem)
  | 3 => withEa w .memAlterable .w ws (if bit w 8 then .rolMem else .rorMem)
  | _ => .error (.illegal w)

def decodeLineE (w : Word) (ws : List Word) : DecodeResult :=
  if field w 6 2 = 3 then decodeShiftMem w ws else decodeShiftReg w ws

/-- The instruction whose opcode word is `w` and whose extension words begin `ws` (R102). -/
def decodeOpcode (w : Word) (ws : List Word) : DecodeResult :=
  match field w 12 4 with
  | 0 => decodeLine0 w ws
  | 1 | 2 | 3 => decodeMove w ws
  | 4 => decodeLine4 w ws
  | 5 => decodeLine5 w ws
  | 6 => decodeLine6 w ws
  | 7 => decodeLine7 w ws
  | 8 => decodeLine8 w ws
  | 9 => decodeLine9 w ws
  | 11 => decodeLineB w ws
  | 12 => decodeLineC w ws
  | 13 => decodeLineD w ws
  | 14 => decodeLineE w ws
  | _ => .error (.illegal w)

/-- The decoder: the first instruction of a word sequence and what follows it. -/
def decode : List Word → DecodeResult
  | [] => .error .noWord
  | w :: ws => decodeOpcode w ws

/-- `len(word)` of R107 in words: no instruction has more than four extension words (R90), so four zero words let the
decoder say how many an opcode word takes; an illegal opcode word has length 1. -/
def lenOf (w : Word) : Nat :=
  match decode [w, 0, 0, 0, 0] with
  | .ok (_, rest) => 5 - rest.length
  | .error _ => 1

/-- The instruction of an opcode-table word: bit 0 is bit 0 of the first word, a later word's bits count on from it, and
every bit above `nbits` is 0. -/
def decodeTableWord (nbits w : Nat) : Option Instr :=
  let v := w % 2 ^ nbits
  let word (k : Nat) : Word := BitVec.ofNat 16 (v / 2 ^ (16 * k))
  match decode [word 0, word 1, word 2, word 3, word 4] with
  | .ok (i, _) => some i
  | .error _ => none

/-! ### The encoder -/

def Size.ss : Size → Nat
  | .b => 0
  | .w => 1
  | .l => 2

def Size.zz : Size → Nat
  | .b => 1
  | .w => 3
  | .l => 2

/-- The single-bit size code: 1 for L. -/
def Size.bitCode : Size → Nat
  | .b | .w => 0
  | .l => 1

def EaMode.m : EaMode → Nat
  | .dreg _ => 0
  | .areg _ => 1
  | .ind _ => 2
  | .postInc _ => 3
  | .preDec _ => 4
  | .disp _ => 5
  | .index _ => 6
  | .absW | .absL | .pcDisp | .pcIndex | .imm => 7

def EaMode.r : EaMode → Nat
  | .dreg n | .areg n | .ind n | .postInc n | .preDec n | .disp n | .index n => n.val
  | .absW => 0
  | .absL => 1
  | .pcDisp => 2
  | .pcIndex => 3
  | .imm => 4

/-- Bits 5:0 of the opcode word. -/
def Ea.field (e : Ea) : Nat := e.mode.m * 8 + e.mode.r

/-- Bits 11:6 of MOVE: the destination's register, then its mode. -/
def Ea.dstField (e : Ea) : Nat := e.mode.r * 512 + e.mode.m * 64

def Cond.code : Cond → Nat
  | .t => 0
  | .f => 1
  | .hi => 2
  | .ls => 3
  | .cc => 4
  | .cs => 5
  | .ne => 6
  | .eq => 7
  | .vc => 8
  | .vs => 9
  | .pl => 10
  | .mi => 11
  | .ge => 12
  | .lt => 13
  | .gt => 14
  | .le => 15

/-- The 3-bit code of a quick immediate: 8 is coded 000 (R97). -/
def quickCode (q : Nat) : Nat := q % 8

/-- Bits 11:9 and bit 5 of format SHIFT_REG. -/
def Count.code : Count → Nat
  | .imm q => quickCode q * 512
  | .reg m => m.val * 512 + 32

def Disp.code : Disp → Nat
  | .short d => d.toNat
  | .long _ => 0

/-- The word of a brief extension (R98). -/
def Brief.word (x : Brief) : Word :=
  BitVec.ofNat 16 (x.isA.toNat * 32768 + x.xn.val * 4096 + x.long.toNat * 2048 + x.rsv.val * 256 + x.d8.toNat)

/-- Two words, high-order word first (R71). -/
def longWords (v : Long) : List Word := [v.extractLsb' 16 16, v.extractLsb' 0 16]

/-- The words of an immediate (R96). -/
def immWords (sz : Size) (v : Long) : List Word :=
  match sz with
  | .b => [(v.setWidth 8).setWidth 16]
  | .w => [v.setWidth 16]
  | .l => longWords v

/-- The extension words of an operand at size `sz` (R92). -/
def Ea.ext (e : Ea) (sz : Size) : List Word :=
  match e with
  | .dreg _ | .areg _ | .ind _ | .postInc _ | .preDec _ => []
  | .disp _ d => [d]
  | .index _ x => [x.word]
  | .absW a => [a]
  | .absL a => longWords a
  | .pcDisp d => [d]
  | .pcIndex x => [x.word]
  | .imm v => immWords sz v

def Disp.ext : Disp → List Word
  | .short _ => []
  | .long d => [d]

/-- The opcode word as a number: the pattern of the instruction's row of R101. -/
def opcodeNat : Instr → Nat
  | .oriCcr _ => 0x003C
  | .ori sz _ ea => 0x0000 + sz.ss * 64 + ea.field
  | .andiCcr _ => 0x023C
  | .andi sz _ ea => 0x0200 + sz.ss * 64 + ea.field
  | .subi sz _ ea => 0x0400 + sz.ss * 64 + ea.field
  | .addi sz _ ea => 0x0600 + sz.ss * 64 + ea.field
  | .btstImm _ ea => 0x0800 + ea.field
  | .bchgImm _ ea => 0x0840 + ea.field
  | .bclrImm _ ea => 0x0880 + ea.field
  | .bsetImm _ ea => 0x08C0 + ea.field
  | .eoriCcr _ => 0x0A3C
  | .eori sz _ ea => 0x0A00 + sz.ss * 64 + ea.field
  | .cmpi sz _ ea => 0x0C00 + sz.ss * 64 + ea.field
  | .btstDn dn ea => 0x0100 + dn.val * 512 + ea.field
  | .bchgDn dn ea => 0x0140 + dn.val * 512 + ea.field
  | .bclrDn dn ea => 0x0180 + dn.val * 512 + ea.field
  | .bsetDn dn ea => 0x01C0 + dn.val * 512 + ea.field
  | .move sz src dst => sz.zz * 4096 + dst.dstField + src.field
  | .movea sz src an => sz.zz * 4096 + an.val * 512 + 0x0040 + src.field
  | .negx sz ea => 0x4000 + sz.ss * 64 + ea.field
  | .clr sz ea => 0x4200 + sz.ss * 64 + ea.field
  | .neg sz ea => 0x4400 + sz.ss * 64 + ea.field
  | .moveToCcr ea => 0x44C0 + ea.field
  | .not sz ea => 0x4600 + sz.ss * 64 + ea.field
  | .swap dn => 0x4840 + dn.val
  | .pea ea => 0x4840 + ea.field
  | .ext sz dn => 0x4880 + sz.bitCode * 64 + dn.val
  | .movemToMem sz _ ea => 0x4880 + sz.bitCode * 64 + ea.field
  | .tst sz ea => 0x4A00 + sz.ss * 64 + ea.field
  | .movemToRegs sz _ ea => 0x4C80 + sz.bitCode * 64 + ea.field
  | .trap v => 0x4E40 + v.val
  | .link an _ => 0x4E50 + an.val
  | .unlk an => 0x4E58 + an.val
  | .nop => 0x4E71
  | .rts => 0x4E75
  | .rtr => 0x4E77
  | .jsr ea => 0x4E80 + ea.field
  | .jmp ea => 0x4EC0 + ea.field
  | .lea ea an => 0x41C0 + an.val * 512 + ea.field
  | .addq sz q ea => 0x5000 + quickCode q * 512 + sz.ss * 64 + ea.field
  | .subq sz q ea => 0x5100 + quickCode q * 512 + sz.ss * 64 + ea.field
  | .dbcc cond dn _ => 0x50C8 + cond.code * 256 + dn.val
  | .scc cond ea => 0x50C0 + cond.code * 256 + ea.field
  | .bra d => 0x6000 + d.code
  | .bsr d => 0x6100 + d.code
  | .bcc cond d => 0x6000 + cond.code * 256 + d.code
  | .moveq imm dn => 0x7000 + dn.val * 512 + imm.toNat
  | .divu ea dn => 0x80C0 + dn.val * 512 + ea.field
  | .divs ea dn => 0x81C0 + dn.val * 512 + ea.field
  | .orEaDn sz ea dn => 0x8000 + dn.val * 512 + sz.ss * 64 + ea.field
  | .orDnEa sz dn ea => 0x8100 + dn.val * 512 + sz.ss * 64 + ea.field
  | .suba sz ea an => 0x90C0 + an.val * 512 + sz.bitCode * 256 + ea.field
  | .subx sz mem y x => 0x9100 + x.val * 512 + sz.ss * 64 + mem.toNat * 8 + y.val
  | .subEaDn sz ea dn => 0x9000 + dn.val * 512 + sz.ss * 64 + ea.field
  | .subDnEa sz dn ea => 0x9100 + dn.val * 512 + sz.ss * 64 + ea.field
  | .cmpa sz ea an => 0xB0C0 + an.val * 512 + sz.bitCode * 256 + ea.field
  | .cmpm sz y x => 0xB108 + x.val * 512 + sz.ss * 64 + y.val
  | .cmp sz ea dn => 0xB000 + dn.val * 512 + sz.ss * 64 + ea.field
  | .eor sz dn ea => 0xB100 + dn.val * 512 + sz.ss * 64 + ea.field
  | .mulu ea dn => 0xC0C0 + dn.val * 512 + ea.field
  | .muls ea dn => 0xC1C0 + dn.val * 512 + ea.field
  | .exgDD x y => 0xC140 + x.val * 512 + y.val
  | .exgAA x y => 0xC148 + x.val * 512 + y.val
  | .exgDA x y => 0xC188 + x.val * 512 + y.val
  | .andEaDn sz ea dn => 0xC000 + dn.val * 512 + sz.ss * 64 + ea.field
  | .andDnEa sz dn ea => 0xC100 + dn.val * 512 + sz.ss * 64 + ea.field
  | .adda sz ea an => 0xD0C0 + an.val * 512 + sz.bitCode * 256 + ea.field
  | .addx sz mem y x => 0xD100 + x.val * 512 + sz.ss * 64 + mem.toNat * 8 + y.val
  | .addEaDn sz ea dn => 0xD000 + dn.val * 512 + sz.ss * 64 + ea.field
  | .addDnEa sz dn ea => 0xD100 + dn.val * 512 + sz.ss * 64 + ea.field
  | .asrReg sz cnt dn => 0xE000 + cnt.code + sz.ss * 64 + dn.val
  | .aslReg sz cnt dn => 0xE100 + cnt.code + sz.ss * 64 + dn.val
  | .lsrReg sz cnt dn => 0xE008 + cnt.code + sz.ss * 64 + dn.val
  | .lslReg sz cnt dn => 0xE108 + cnt.code + sz.ss * 64 + dn.val
  | .roxrReg sz cnt dn => 0xE010 + cnt.code + sz.ss * 64 + dn.val
  | .roxlReg sz cnt dn => 0xE110 + cnt.code + sz.ss * 64 + dn.val
  | .rorReg sz cnt dn => 0xE018 + cnt.code + sz.ss * 64 + dn.val
  | .rolReg sz cnt dn => 0xE118 + cnt.code + sz.ss * 64 + dn.val
  | .asrMem ea => 0xE0C0 + ea.field
  | .aslMem ea => 0xE1C0 + ea.field
  | .lsrMem ea => 0xE2C0 + ea.field
  | .lslMem ea => 0xE3C0 + ea.field
  | .roxrMem ea => 0xE4C0 + ea.field
  | .roxlMem ea => 0xE5C0 + ea.field
  | .rorMem ea => 0xE6C0 + ea.field
  | .rolMem ea => 0xE7C0 + ea.field

/-- The opcode word. -/
def opcodeWord (i : Instr) : Word := BitVec.ofNat 16 (opcodeNat i)

/-- The instruction's own extension words (R99, item 1). -/
def ownExt : Instr → List Word
  | .oriCcr imm | .andiCcr imm | .eoriCcr imm => [imm.setWidth 16]
  | .ori sz imm _ | .andi sz imm _ | .subi sz imm _ | .addi sz imm _ | .eori sz imm _ | .cmpi sz imm _ =>
    immWords sz imm
  | .btstImm n _ | .bchgImm n _ | .bclrImm n _ | .bsetImm n _ => [n.setWidth 16]
  | .movemToMem _ mask _ | .movemToRegs _ mask _ => [mask]
  | .link _ d | .dbcc _ _ d => [d]
  | .bra d | .bsr d | .bcc _ d => d.ext
  | .btstDn _ _ | .bchgDn _ _ | .bclrDn _ _ | .bsetDn _ _ | .move _ _ _ | .movea _ _ _ | .negx _ _ | .clr _ _
  | .neg _ _ | .moveToCcr _ | .not _ _ | .swap _ | .pea _ | .ext _ _ | .tst _ _ | .trap _ | .unlk _ | .nop | .rts
  | .rtr | .jsr _ | .jmp _ | .lea _ _ | .addq _ _ _ | .subq _ _ _ | .scc _ _ | .moveq _ _ | .divu _ _ | .divs _ _
  | .orEaDn _ _ _ | .orDnEa _ _ _ | .suba _ _ _ | .subx _ _ _ _ | .subEaDn _ _ _ | .subDnEa _ _ _ | .cmpa _ _ _
  | .cmpm _ _ _ | .cmp _ _ _ | .eor _ _ _ | .mulu _ _ | .muls _ _ | .exgDD _ _ | .exgAA _ _ | .exgDA _ _
  | .andEaDn _ _ _ | .andDnEa _ _ _ | .adda _ _ _ | .addx _ _ _ _ | .addEaDn _ _ _ | .addDnEa _ _ _
  | .asrReg _ _ _ | .aslReg _ _ _ | .lsrReg _ _ _ | .lslReg _ _ _ | .roxrReg _ _ _ | .roxlReg _ _ _
  | .rorReg _ _ _ | .rolReg _ _ _ | .asrMem _ | .aslMem _ | .lsrMem _ | .lslMem _ | .roxrMem _ | .roxlMem _
  | .rorMem _ | .rolMem _ => []

/-- The extension words of the instruction's effective-address operands (R99, items 2 and 3). -/
def eaExt : Instr → List Word
  | .ori sz _ ea | .andi sz _ ea | .subi sz _ ea | .addi sz _ ea | .eori sz _ ea | .cmpi sz _ ea => ea.ext sz
  | .btstImm _ ea | .bchgImm _ ea | .bclrImm _ ea | .bsetImm _ ea => ea.ext .b
  | .btstDn _ ea | .bchgDn _ ea | .bclrDn _ ea | .bsetDn _ ea | .scc _ ea => ea.ext .b
  | .move sz src dst => src.ext sz ++ dst.ext sz
  | .movea sz ea _ | .adda sz ea _ | .suba sz ea _ | .cmpa sz ea _ => ea.ext sz
  | .negx sz ea | .clr sz ea | .neg sz ea | .not sz ea | .tst sz ea => ea.ext sz
  | .moveToCcr ea | .divu ea _ | .divs ea _ | .mulu ea _ | .muls ea _ => ea.ext .w
  | .pea ea | .jsr ea | .jmp ea | .lea ea _ => ea.ext .l
  | .movemToMem sz _ ea | .movemToRegs sz _ ea => ea.ext sz
  | .addq sz _ ea | .subq sz _ ea => ea.ext sz
  | .orEaDn sz ea _ | .andEaDn sz ea _ | .addEaDn sz ea _ | .subEaDn sz ea _ | .cmp sz ea _ => ea.ext sz
  | .orDnEa sz _ ea | .andDnEa sz _ ea | .addDnEa sz _ ea | .subDnEa sz _ ea | .eor sz _ ea => ea.ext sz
  | .asrMem ea | .aslMem ea | .lsrMem ea | .lslMem ea | .roxrMem ea | .roxlMem ea | .rorMem ea | .rolMem ea =>
    ea.ext .w
  | .oriCcr _ | .andiCcr _ | .eoriCcr _ | .swap _ | .ext _ _ | .trap _ | .link _ _ | .unlk _ | .nop | .rts | .rtr
  | .dbcc _ _ _ | .bra _ | .bsr _ | .bcc _ _ | .moveq _ _ | .subx _ _ _ _ | .addx _ _ _ _ | .cmpm _ _ _
  | .exgDD _ _ | .exgAA _ _ | .exgDA _ _ | .asrReg _ _ _ | .aslReg _ _ _ | .lsrReg _ _ _ | .lslReg _ _ _
  | .roxrReg _ _ _ | .roxlReg _ _ _ | .rorReg _ _ _ | .rolReg _ _ _ => []

/-- The words of an instruction: its opcode word, its own extension words, its operands' (R99). -/
def encode (i : Instr) : List Word := opcodeWord i :: (ownExt i ++ eaExt i)

/-- The length in words (R107). -/
def Instr.len (i : Instr) : Nat := 1 + (ownExt i).length + (eaExt i).length

end Sys2Proof
end

