-- ==== Sys2Proof/Machine/Ops.lean ====
section
/-! DEFINITION. The named operations over registers and memory, the raising of a fault, the end of the program, and the
result half of a trap. -/

namespace Sys2Proof.Machine

/-- What a part of an instruction yields, or the first fault it raises (R349). -/
abbrev Res (α : Type) := Except Cause α

/-- The outcome of an instruction or a step. -/
abbrev Outcome := Host.Outcome State Fault Refusal

/-- Sign extension to 32 bits (R6). -/
def sext32 {n : Nat} (v : BitVec n) : Long := v.signExtend 32

/-! ### Registers (R21 to R25) -/

namespace State

/-- `D[n]` -/
def dreg (s : State) (n : RegNum) : Long := s.d[n]

/-- `A[n]` -/
def areg (s : State) (n : RegNum) : Long := s.a[n]

/-- `D[n] <- v` -/
def setD (s : State) (n : RegNum) (v : Long) : State := { s with d := s.d.set n v }

/-- `A[n] <- v` -/
def setA (s : State) (n : RegNum) (v : Long) : State := { s with a := s.a.set n v }

/-- `pc <- v` -/
def setPc (s : State) (v : Long) : State := { s with pc := v }

/-- Write the five flags. -/
def setCcr (s : State) (f : Ccr) : State := { s with ccr := f }

end State

/-- The stack pointer is A7 (R22). -/
def spNum : RegNum := 7

/-- The low bits of a register: the width-qualified read of R23. -/
def lowPart (sz : Size) (v : Long) : BitVec sz.bits := v.setWidth sz.bits

/-- A register with its low bits replaced: the width-qualified write of R23. -/
def mergeLow : (sz : Size) → Long → BitVec sz.bits → Long
  | .b, old, v => old.extractLsb' 8 24 ++ (v : BitVec 8)
  | .w, old, v => old.extractLsb' 16 16 ++ (v : BitVec 16)
  | .l, _, v => v

namespace State

/-- `D[n].sz` -/
def dPart (s : State) (n : RegNum) (sz : Size) : BitVec sz.bits := lowPart sz (s.dreg n)

/-- `D[n].sz <- v` -/
def setDPart (s : State) (n : RegNum) (sz : Size) (v : BitVec sz.bits) : State :=
  s.setD n (mergeLow sz (s.dreg n) v)

end State

/-! ### Data memory (R60 to R65) -/

/-- The alignment check, then the range check, of an access of `n` bytes at `a` (R61, R62, R349). -/
def checkAccess (c : Config) (a : Long) (n : Nat) (k : AccessKind) : Res Unit :=
  if c.alignFault && decide (1 < n) && decide (a.toNat % 2 = 1) then .error (.addressError a.toNat n k)
  else if a.toNat + n ≤ c.memSize then .ok ()
  else .error (.accessFault a.toNat n k)

/-- `MemRead(a, n)` (R62). -/
def memRead (s : State) (a : Long) (n : Nat) : Res (BitVec (8 * n)) :=
  match checkAccess s.cfg a n .read with
  | .ok () => .ok (BitVec.ofNat (8 * n) (s.mem.readNat a.toNat n))
  | .error c => .error c

/-- `MemWrite(a, n, v)` (R63). -/
def memWrite (s : State) (a : Long) (n : Nat) (v : BitVec (8 * n)) : Res State :=
  match checkAccess s.cfg a n .write with
  | .ok () => .ok { s with mem := s.mem.writeNat a.toNat n v.toNat }
  | .error c => .error c

/-- Push four bytes (R69). -/
def push (s : State) (v : Long) : Res State :=
  memWrite (s.setA spNum (s.areg spNum - 4)) (s.areg spNum - 4) 4 v

/-- Pop four bytes (R69). -/
def pop (s : State) : Res (Long × State) :=
  match memRead s (s.areg spNum) 4 with
  | .ok v => .ok (v, s.setA spNum (s.areg spNum + 4))
  | .error c => .error c

/-! ### Faults (R340 to R342).  There is no vector, no handler and so no return from a fault. -/

/-- The numeric code of a cause (R340). -/
def Cause.code : Cause → Nat
  | .fetchFault _ => 1
  | .accessFault _ _ _ => 2
  | .addressError _ _ _ => 3
  | .illegalInstruction _ _ => 4
  | .zeroDivide => 5
  | .unimplementedTrap v _ => 32 + v.val

/-- `raise`, from the state before the instruction: nothing else changes (R341). -/
def raise (c : Cause) (s : State) : State :=
  { s with status := .terminatedByFault, fault := some ⟨c, s.pc⟩ }

/-- The end of an instruction that began in state `s`: commit its effects, or raise and keep none of them (R147, R341). -/
def commit (s : State) (r : Res State) : Outcome :=
  match r with
  | .ok t => .next t
  | .error c => .next (raise c s)

/-! ### The program counter (R26) -/

/-- `next = pc0 + 2 * len` (R6). -/
def nextPc (i : Instr) (s : State) : Long := s.pc + BitVec.ofNat 32 (2 * i.len)

/-- `pc <- next`, the end of an instruction that transfers no control; `s.pc` is still `pc0`. -/
def advance (i : Instr) (s : State) : State := s.setPc (nextPc i s)

/-- The end-of-program test made after an instruction or a result half (R356). -/
def endOfProgram (s : State) : State :=
  if s.status = .running ∧ s.pc.toNat = s.cfg.progEnd then { s with status := .terminated } else s

/-- The end-of-program test on the outcome of an instruction (R360). -/
def endStep : Outcome → Outcome
  | .next t => .next (endOfProgram t)
  | .fault r => .fault r
  | .refused r => .refused r

/-! ### The result half of a trap (R362): the way back from a suspension -/

/-- What the host answers (R357): nothing, a 32-bit value, a byte sequence. -/
inductive Answer where
  | empty
  | value (v : Long)
  | bytes (s : List Byte)
deriving DecidableEq, Repr

/-- `shape(result)` matches the pending kind; a string longer than RS_MAX does not (R357, D24). -/
def Answer.fits (c : Config) : Answer → Interrupt → Bool
  | .value _, .readInteger => true
  | .bytes s, .readString _ _ => decide (s.length ≤ c.rsMax)
  | .empty, .writeInteger _ => true
  | .empty, .writeString _ => true
  | .empty, .readInteger | .empty, .readString _ _ | .value _, .readString _ _ | .value _, .writeInteger _
  | .value _, .writeString _ | .bytes _, .readInteger | .bytes _, .writeInteger _ | .bytes _, .writeString _ => false

/-- One-byte writes at `a`, `a + 1`, ... (modulo 2^32, R5). -/
def writeBytes (s : State) (a : Long) : List Byte → Res State
  | [] => .ok s
  | b :: bs =>
    match memWrite s a 1 b with
    | .ok t => writeBytes t (a + 1) bs
    | .error c => .error c

/-- The writes of the result half, by kind; `A[1]` and `D[1]` are those of the suspended state. -/
def resultWrites (s : State) : Interrupt → Answer → Res State
  | .readInteger, .value v => .ok (s.setD 1 v)
  | .readString _ _, .bytes bs =>
    match writeBytes s (s.areg 1) (bs ++ [0]) with
    | .ok t => .ok (t.setDPart 1 .w (BitVec.ofNat 16 bs.length))
    | .error c => .error c
  | .writeInteger _, _ | .writeString _, _ | .readInteger, .empty | .readInteger, .bytes _ | .readString _ _, .empty
  | .readString _ _, .value _ => .ok s

/-- The result half for an answer of the right shape.  A fault keeps none of its writes, names the TRAP's address and
leaves `pc` where the request half put it (R341, R362). -/
def resultHalf (s : State) (p : Interrupt) (ans : Answer) : State :=
  match resultWrites s p ans with
  | .ok t => endOfProgram { t with pending := none, status := .running }
  | .error c => { s with pending := none, status := .terminatedByFault, fault := some ⟨c, s.pc - 2⟩ }

end Sys2Proof.Machine
end

