-- ==== Sys2Proof/Machine/Operands.lean ====
section
/-! DEFINITION. Effective-address evaluation and operand access (spec/40_addressing_modes.md). -/

namespace Sys2Proof.Machine

/-- A location (R131). -/
inductive Loc where
  | dreg (n : RegNum)
  | areg (n : RegNum)
  | mem (a : Long)
  | imm (v : Long)
deriving DecidableEq, Repr

/-- The step of `(an)+` and `-(an)`: `bytes(sz)`, but 2 for a byte through A7 (R135, R144). -/
def eaStep (sz : Size) (n : RegNum) : Long :=
  if sz = .b ∧ n = spNum then 2 else BitVec.ofNat 32 sz.bytes

/-- The address of the first extension word of the instruction's effective-address operand: it follows the opcode word
and the instruction's own extension words (R99, R141).  `s.pc` is `pc0`. -/
def eaExtAddr (i : Instr) (s : State) : Long := s.pc + BitVec.ofNat 32 (2 + 2 * (ownExt i).length)

/-- The index of a brief extension word (R138). -/
def indexValue (x : Brief) (s : State) : Long :=
  let r := if x.isA then s.areg x.xn else s.dreg x.xn
  if x.long then r else sext32 (r.setWidth 16)

/-- Base plus index plus displacement, or IllegalInstruction when bits 10:8 of the extension word are not 000 (R138). -/
def indexedAddr (i : Instr) (base : Long) (x : Brief) (s : State) : Res Long :=
  if x.rsv = 0 then .ok (base + indexValue x s + sext32 x.d8)
  else .error (.illegalInstruction (opcodeWord i) (some x.word))

/-- The address of a control-class operand (R134, R137 to R142, R150): no memory access and no side effect.  Any other
mode makes the opcode word illegal (R103); no well-formed instruction comes here with one. -/
def eaAddr (i : Instr) (ea : Ea) (s : State) : Res Long :=
  match ea with
  | .ind n => .ok (s.areg n)
  | .disp n d => .ok (s.areg n + sext32 d)
  | .index n x => indexedAddr i (s.areg n) x s
  | .absW a => .ok (sext32 a)
  | .absL a => .ok a
  | .pcDisp d => .ok (eaExtAddr i s + sext32 d)
  | .pcIndex x => indexedAddr i (eaExtAddr i s) x s
  | .dreg _ | .areg _ | .postInc _ | .preDec _ | .imm _ => .error (.illegalInstruction (opcodeWord i) none)

/-- `EA(M, Rg, sz)` (R131): the location, and the state after the mode's register side effect. -/
def evalEa (i : Instr) (sz : Size) (ea : Ea) (s : State) : Res (Loc × State) :=
  match ea with
  | .dreg n => .ok (.dreg n, s)
  | .areg n => .ok (.areg n, s)
  | .postInc n => .ok (.mem (s.areg n), s.setA n (s.areg n + eaStep sz n))
  | .preDec n => .ok (.mem (s.areg n - eaStep sz n), s.setA n (s.areg n - eaStep sz n))
  | .imm v => .ok (.imm v, s)
  | .ind _ | .disp _ _ | .index _ _ | .absW _ | .absL _ | .pcDisp _ | .pcIndex _ =>
    match eaAddr i ea s with
    | .ok a => .ok (.mem a, s)
    | .error c => .error c

/-- `ReadEA(loc, sz)` (R148). -/
def readLoc (loc : Loc) (sz : Size) (s : State) : Res (BitVec sz.bits) :=
  match loc with
  | .dreg n => .ok (s.dPart n sz)
  | .areg n => .ok (lowPart sz (s.areg n))
  | .imm v => .ok (lowPart sz v)
  | .mem a =>
    match memRead s a sz.bytes with
    | .ok v => .ok (v.setWidth sz.bits)
    | .error c => .error c

/-- `WriteEA(loc, sz, v)` (R148).  A location outside the alterable classes makes the opcode word illegal (R103); no
well-formed instruction comes here with one. -/
def writeLoc (i : Instr) (loc : Loc) (sz : Size) (v : BitVec sz.bits) (s : State) : Res State :=
  match loc with
  | .dreg n => .ok (s.setDPart n sz v)
  | .mem a => memWrite s a sz.bytes (v.setWidth (8 * sz.bytes))
  | .areg _ | .imm _ => .error (.illegalInstruction (opcodeWord i) none)

/-- Evaluate an operand and read it: step (2) of R145. -/
def readEa (i : Instr) (sz : Size) (ea : Ea) (s : State) : Res (BitVec sz.bits × State) :=
  match evalEa i sz ea s with
  | .ok (loc, t) =>
    match readLoc loc sz t with
    | .ok v => .ok (v, t)
    | .error c => .error c
  | .error c => .error c

/-- What an operation computes from the source, the destination and the old flags: the result and the new flags. -/
abbrev Alu (sz : Size) := BitVec sz.bits → BitVec sz.bits → Ccr → BitVec sz.bits × Ccr

/-- Steps (3) to (7) of R145 for an operation that reads and writes one location: source value `v` at hand, destination
operand `ea` (R146). -/
def modifyEa (i : Instr) (sz : Size) (f : Alu sz) (v : BitVec sz.bits) (ea : Ea) (s : State) : Res State :=
  match evalEa i sz ea s with
  | .error c => .error c
  | .ok (loc, t) =>
    match readLoc loc sz t with
    | .error c => .error c
    | .ok d =>
      match writeLoc i loc sz (f v d t.ccr).1 t with
      | .error c => .error c
      | .ok u => .ok (advance i (u.setCcr (f v d t.ccr).2))

/-- An operation that writes a location without reading it: MOVE's destination, CLR, Scc. -/
def storeEa (i : Instr) (sz : Size) (v : BitVec sz.bits) (ccr : Ccr) (ea : Ea) (s : State) : Res State :=
  match evalEa i sz ea s with
  | .error c => .error c
  | .ok (loc, t) =>
    match writeLoc i loc sz v t with
    | .error c => .error c
    | .ok u => .ok (advance i (u.setCcr ccr))

/-- An operation with source `ea` and destination `dn` (form 1 of ADD, SUB, AND, OR). -/
def eaToDn (i : Instr) (sz : Size) (f : Alu sz) (ea : Ea) (dn : RegNum) (s : State) : Res State :=
  match readEa i sz ea s with
  | .error c => .error c
  | .ok (v, t) =>
    .ok (advance i ((t.setDPart dn sz (f v (t.dPart dn sz) t.ccr).1).setCcr (f v (t.dPart dn sz) t.ccr).2))

/-- A word or long source as a 32-bit value: a word is sign-extended (R24). -/
def longSource (sz : Size) (v : BitVec sz.bits) : Long := sext32 v

/-- An operation whose destination is an address register and that sets no flag (R24): the source is evaluated first,
then the register is read (R145). -/
def eaToAn (i : Instr) (sz : Size) (f : Long → Long → Long) (ea : Ea) (an : RegNum) (s : State) : Res State :=
  match readEa i sz ea s with
  | .error c => .error c
  | .ok (v, t) => .ok (advance i (t.setA an (f (longSource sz v) (t.areg an))))

end Sys2Proof.Machine
end

