-- ==== Sys2Proof/Machine/Arithmetic.lean ====
section
/-! DEFINITION. Integer arithmetic: spec/42_integer_arithmetic.md (R188: the conventions of R160). -/

namespace Sys2Proof.Machine

/-! ### Addition and subtraction -/

/-- ADD `<ea>,dn` (R190). -/
def execAddEaDn (sz : Size) (ea : Ea) (dn : RegNum) (s : State) : Outcome :=
  commit s (eaToDn (.addEaDn sz ea dn) sz aluAdd ea dn s)

/-- ADD `dn,<ea>` (R190). -/
def execAddDnEa (sz : Size) (dn : RegNum) (ea : Ea) (s : State) : Outcome :=
  commit s (modifyEa (.addDnEa sz dn ea) sz aluAdd (s.dPart dn sz) ea s)

/-- ADDA (R191). -/
def execAdda (sz : Size) (ea : Ea) (an : RegNum) (s : State) : Outcome :=
  commit s (eaToAn (.adda sz ea an) sz (fun v a => a + v) ea an s)

/-- ADDI (R192). -/
def execAddi (sz : Size) (imm : Long) (ea : Ea) (s : State) : Outcome :=
  commit s (modifyEa (.addi sz imm ea) sz aluAdd (lowPart sz imm) ea s)

/-- ADDQ and SUBQ to `an`: all 32 bits whatever the size, and no flag (R193, R199). -/
def quickToAn (i : Instr) (n : RegNum) (v : Long) (s : State) : Res State := .ok (advance i (s.setA n v))

/-- ADDQ (R193). -/
def execAddq (sz : Size) (q : Nat) (ea : Ea) (s : State) : Outcome :=
  let i := Instr.addq sz q ea
  commit s <|
    match ea with
    | .areg n => quickToAn i n (s.areg n + BitVec.ofNat 32 q) s
    | .dreg _ | .ind _ | .postInc _ | .preDec _ | .disp _ _ | .index _ _ | .absW _ | .absL _ | .pcDisp _ | .pcIndex _
    | .imm _ => modifyEa i sz aluAdd (BitVec.ofNat sz.bits q) ea s

/-- The memory form of ADDX and SUBX, source register first, each through `-(an)` (R194, R200). -/
def xPairMem (i : Instr) (sz : Size) (f : Alu sz) (y x : RegNum) (s : State) : Res State :=
  match readEa i sz (.preDec y) s with
  | .error c => .error c
  | .ok (v, t) => modifyEa i sz f v (.preDec x) t

/-- ADDX (R194): `mem` is the memory form. -/
def execAddx (sz : Size) (mem : Bool) (y x : RegNum) (s : State) : Outcome :=
  let i := Instr.addx sz mem y x
  commit s (if mem then xPairMem i sz aluAddx y x s else modifyEa i sz aluAddx (s.dPart y sz) (.dreg x) s)

/-- SUB `<ea>,dn` (R196). -/
def execSubEaDn (sz : Size) (ea : Ea) (dn : RegNum) (s : State) : Outcome :=
  commit s (eaToDn (.subEaDn sz ea dn) sz aluSub ea dn s)

/-- SUB `dn,<ea>` (R196). -/
def execSubDnEa (sz : Size) (dn : RegNum) (ea : Ea) (s : State) : Outcome :=
  commit s (modifyEa (.subDnEa sz dn ea) sz aluSub (s.dPart dn sz) ea s)

/-- SUBA (R197). -/
def execSuba (sz : Size) (ea : Ea) (an : RegNum) (s : State) : Outcome :=
  commit s (eaToAn (.suba sz ea an) sz (fun v a => a - v) ea an s)

/-- SUBI (R198). -/
def execSubi (sz : Size) (imm : Long) (ea : Ea) (s : State) : Outcome :=
  commit s (modifyEa (.subi sz imm ea) sz aluSub (lowPart sz imm) ea s)

/-- SUBQ (R199). -/
def execSubq (sz : Size) (q : Nat) (ea : Ea) (s : State) : Outcome :=
  let i := Instr.subq sz q ea
  commit s <|
    match ea with
    | .areg n => quickToAn i n (s.areg n - BitVec.ofNat 32 q) s
    | .dreg _ | .ind _ | .postInc _ | .preDec _ | .disp _ _ | .index _ _ | .absW _ | .absL _ | .pcDisp _ | .pcIndex _
    | .imm _ => modifyEa i sz aluSub (BitVec.ofNat sz.bits q) ea s

/-- SUBX (R200). -/
def execSubx (sz : Size) (mem : Bool) (y x : RegNum) (s : State) : Outcome :=
  let i := Instr.subx sz mem y x
  commit s (if mem then xPairMem i sz aluSubx y x s else modifyEa i sz aluSubx (s.dPart y sz) (.dreg x) s)

/-- NEG (R203). -/
def execNeg (sz : Size) (ea : Ea) (s : State) : Outcome :=
  commit s (modifyEa (.neg sz ea) sz aluNeg 0 ea s)

/-- NEGX (R204). -/
def execNegx (sz : Size) (ea : Ea) (s : State) : Outcome :=
  commit s (modifyEa (.negx sz ea) sz aluNegx 0 ea s)

/-- CLR (R205): the destination is not read. -/
def execClr (sz : Size) (ea : Ea) (s : State) : Outcome :=
  commit s (storeEa (.clr sz ea) sz 0 { s.ccr with n := false, z := true, v := false, c := false } ea s)

/-! ### Comparison and test -/

/-- The end of an instruction that only sets flags. -/
def setFlags (i : Instr) (f : Ccr) (s : State) : Res State := .ok (advance i (s.setCcr f))

/-- CMP (R207). -/
def execCmp (sz : Size) (ea : Ea) (dn : RegNum) (s : State) : Outcome :=
  let i := Instr.cmp sz ea dn
  commit s <|
    match readEa i sz ea s with
    | .error c => .error c
    | .ok (v, t) => setFlags i (cmpFlags v (t.dPart dn sz) t.ccr) t

/-- CMPA: a 32-bit compare (R208). -/
def execCmpa (sz : Size) (ea : Ea) (an : RegNum) (s : State) : Outcome :=
  let i := Instr.cmpa sz ea an
  commit s <|
    match readEa i sz ea s with
    | .error c => .error c
    | .ok (v, t) => setFlags i (cmpFlags (longSource sz v) (t.areg an) t.ccr) t

/-- CMPI (R209). -/
def execCmpi (sz : Size) (imm : Long) (ea : Ea) (s : State) : Outcome :=
  let i := Instr.cmpi sz imm ea
  commit s <|
    match readEa i sz ea s with
    | .error c => .error c
    | .ok (d, t) => setFlags i (cmpFlags (lowPart sz imm) d t.ccr) t

/-- CMPM (R210): source register first. -/
def execCmpm (sz : Size) (y x : RegNum) (s : State) : Outcome :=
  let i := Instr.cmpm sz y x
  commit s <|
    match readEa i sz (.postInc y) s with
    | .error c => .error c
    | .ok (v, t) =>
      match readEa i sz (.postInc x) t with
      | .error c => .error c
      | .ok (d, u) => setFlags i (cmpFlags v d u.ccr) u

/-- TST (R211). -/
def execTst (sz : Size) (ea : Ea) (s : State) : Outcome :=
  let i := Instr.tst sz ea
  commit s <|
    match readEa i sz ea s with
    | .error c => .error c
    | .ok (d, t) => setFlags i (nz00 d t.ccr) t

/-- EXT (R212): `.w` extends the low byte into the low word, `.l` the low word into the register. -/
def execExt (sz : Size) (dn : RegNum) (s : State) : Outcome :=
  let i := Instr.ext sz dn
  let low (n : Nat) : BitVec sz.bits := ((s.dreg dn).setWidth n).signExtend sz.bits
  let r := low (sz.bits / 2)
  commit s (.ok (advance i ((s.setDPart dn sz r).setCcr (nz00 r s.ccr))))

/-! ### Multiplication and division: a word source, a long destination -/

/-- A word source combined with `dn` into a new `dn` and new flags. -/
def wordToDn (i : Instr) (f : Word → Long → Ccr → Long × Ccr) (ea : Ea) (dn : RegNum) (s : State) : Res State :=
  match readEa i .w ea s with
  | .error c => .error c
  | .ok (v, t) => .ok (advance i ((t.setD dn (f v (t.dreg dn) t.ccr).1).setCcr (f v (t.dreg dn) t.ccr).2))

/-- MULU (R214). -/
def execMulu (ea : Ea) (dn : RegNum) (s : State) : Outcome :=
  commit s (wordToDn (.mulu ea dn) (fun v d f =>
    (mulUnsigned v (d.setWidth 16), nz00 (mulUnsigned v (d.setWidth 16)) f)) ea dn s)

/-- MULS (R215). -/
def execMuls (ea : Ea) (dn : RegNum) (s : State) : Outcome :=
  commit s (wordToDn (.muls ea dn) (fun v d f =>
    (mulSigned v (d.setWidth 16), nz00 (mulSigned v (d.setWidth 16)) f)) ea dn s)

/-- The zero-divisor check between the source access and the division (R216, R349). -/
def divide (i : Instr) (f : Word → Long → Ccr → Long × Ccr) (ea : Ea) (dn : RegNum) (s : State) : Res State :=
  match readEa i .w ea s with
  | .error c => .error c
  | .ok (v, t) =>
    if v = 0 then .error .zeroDivide
    else .ok (advance i ((t.setD dn (f v (t.dreg dn) t.ccr).1).setCcr (f v (t.dreg dn) t.ccr).2))

/-- DIVU (R216). -/
def execDivu (ea : Ea) (dn : RegNum) (s : State) : Outcome :=
  commit s (divide (.divu ea dn) (divUnsigned s.cfg.divOvf) ea dn s)

/-- DIVS (R217). -/
def execDivs (ea : Ea) (dn : RegNum) (s : State) : Outcome :=
  commit s (divide (.divs ea dn) (divSigned s.cfg.divOvf) ea dn s)

end Sys2Proof.Machine
end

