-- ==== Sys2Proof/Machine/BitManip.lean ====
section
/-! DEFINITION. Bit manipulation: spec/45_bit_manipulation.md (R279: the conventions of R160). -/

namespace Sys2Proof.Machine

/-- The operand size: L for a data register, B otherwise (R280). -/
def bitSize (ea : Ea) : Size := if ea.mode.isDreg then .l else .b

/-- Bit `k` inverted, cleared or set; `k` is in range. -/
def bitFlip {n : Nat} (v : BitVec n) (k : Nat) : BitVec n := v ^^^ BitVec.ofNat n (2 ^ k)

def bitClear {n : Nat} (v : BitVec n) (k : Nat) : BitVec n := v &&& ~~~BitVec.ofNat n (2 ^ k)

def bitSet {n : Nat} (v : BitVec n) (k : Nat) : BitVec n := v ||| BitVec.ofNat n (2 ^ k)

/-- BTST with bit number `b`, taken modulo 32 or 8: only Z changes (R280, R281). -/
def bitTest (i : Instr) (b : Nat) (ea : Ea) (s : State) : Res State :=
  match readEa i (bitSize ea) ea s with
  | .error c => .error c
  | .ok (v, t) => .ok (advance i (t.setCcr { t.ccr with z := !v.getLsbD (b % (bitSize ea).bits) }))

/-- BCHG, BCLR, BSET: Z is the complement of the bit before the change (R280). -/
def bitModify (i : Instr) (b : Nat) (ea : Ea) (f : BitVec (bitSize ea).bits → Nat → BitVec (bitSize ea).bits)
    (s : State) : Res State :=
  modifyEa i (bitSize ea)
    (fun _ v ccr => (f v (b % (bitSize ea).bits), { ccr with z := !v.getLsbD (b % (bitSize ea).bits) })) 0 ea s

/-- BTST `#n,<ea>` (R281). -/
def execBtstImm (n : Byte) (ea : Ea) (s : State) : Outcome := commit s (bitTest (.btstImm n ea) n.toNat ea s)

/-- BTST `dn,<ea>`: the number is read before the write (R281, R280). -/
def execBtstDn (dn : RegNum) (ea : Ea) (s : State) : Outcome := commit s (bitTest (.btstDn dn ea) (s.dreg dn).toNat ea s)

/-- BCHG `#n,<ea>` (R282). -/
def execBchgImm (n : Byte) (ea : Ea) (s : State) : Outcome := commit s (bitModify (.bchgImm n ea) n.toNat ea bitFlip s)

/-- BCHG `dn,<ea>`: the number is read before the write (R282, R280). -/
def execBchgDn (dn : RegNum) (ea : Ea) (s : State) : Outcome := commit s (bitModify (.bchgDn dn ea) (s.dreg dn).toNat ea bitFlip s)

/-- BCLR `#n,<ea>` (R283). -/
def execBclrImm (n : Byte) (ea : Ea) (s : State) : Outcome := commit s (bitModify (.bclrImm n ea) n.toNat ea bitClear s)

/-- BCLR `dn,<ea>`: the number is read before the write (R283, R280). -/
def execBclrDn (dn : RegNum) (ea : Ea) (s : State) : Outcome := commit s (bitModify (.bclrDn dn ea) (s.dreg dn).toNat ea bitClear s)

/-- BSET `#n,<ea>` (R284). -/
def execBsetImm (n : Byte) (ea : Ea) (s : State) : Outcome := commit s (bitModify (.bsetImm n ea) n.toNat ea bitSet s)

/-- BSET `dn,<ea>`: the number is read before the write (R284, R280). -/
def execBsetDn (dn : RegNum) (ea : Ea) (s : State) : Outcome := commit s (bitModify (.bsetDn dn ea) (s.dreg dn).toNat ea bitSet s)

end Sys2Proof.Machine
end

