-- ==== Sys2Proof/Machine/DataMovement.lean ====
section
/-! DEFINITION. Data movement: spec/41_data_movement.md (its conventions: R160). -/

namespace Sys2Proof.Machine

/-- MOVE (R161): the source is read before the destination is evaluated. -/
def execMove (sz : Size) (src dst : Ea) (s : State) : Outcome :=
  let i := Instr.move sz src dst
  commit s <|
    match readEa i sz src s with
    | .error c => .error c
    | .ok (v, t) => storeEa i sz v (nz00 v s.ccr) dst t

/-- MOVEA (R162): the whole address register is written, a word source sign-extended. -/
def execMovea (sz : Size) (src : Ea) (an : RegNum) (s : State) : Outcome :=
  commit s (eaToAn (.movea sz src an) sz (fun v _ => v) src an s)

/-- MOVEQ (R163). -/
def execMoveq (imm : Byte) (dn : RegNum) (s : State) : Outcome :=
  let r := sext32 imm
  commit s (.ok (advance (.moveq imm dn) ((s.setD dn r).setCcr (nz00 r s.ccr))))

/-- LEA (R164): no memory access. -/
def execLea (ea : Ea) (an : RegNum) (s : State) : Outcome :=
  let i := Instr.lea ea an
  commit s <|
    match eaAddr i ea s with
    | .error c => .error c
    | .ok a => .ok (advance i (s.setA an a))

/-- The registers that a mask selects in the control and postincrement forms: bit i selects register i, in ascending
order (R165, R166). -/
def maskRegs (mask : Word) : List (Fin 16) := (List.finRange 16).filter fun k => mask.getLsbD k.val

/-- The registers that a predecrement mask selects, in the order of their transfer: bit i selects register 15 - i
(R165). -/
def maskRegsRev (mask : Word) : List (Fin 16) :=
  ((List.finRange 16).filter fun k => mask.getLsbD k.val).map fun k => ⟨15 - k.val, by omega⟩

/-- `R(k)`: D[k] for k < 8, A[k - 8] otherwise (R165). -/
def multiReg (s : State) (k : Fin 16) : Long :=
  if k.val < 8 then s.dreg (Fin.ofNat 8 k.val) else s.areg (Fin.ofNat 8 k.val)

/-- `R(k) <- v` -/
def setMultiReg (s : State) (k : Fin 16) (v : Long) : State :=
  if k.val < 8 then s.setD (Fin.ofNat 8 k.val) v else s.setA (Fin.ofNat 8 k.val) v

/-- Ascending stores from address `a`; register values are those of `s0` (R165). -/
def storeUp (s0 : State) (sz : Size) : List (Fin 16) → Long → State → Res State
  | [], _, s => .ok s
  | k :: ks, a, s =>
    match memWrite s a sz.bytes ((multiReg s0 k).setWidth (8 * sz.bytes)) with
    | .ok t => storeUp s0 sz ks (a + BitVec.ofNat 32 sz.bytes) t
    | .error c => .error c

/-- Descending stores below address `a`, and the final address (R165). -/
def storeDown (s0 : State) (sz : Size) : List (Fin 16) → Long → State → Res (Long × State)
  | [], a, s => .ok (a, s)
  | k :: ks, a, s =>
    let b := a - BitVec.ofNat 32 sz.bytes
    match memWrite s b sz.bytes ((multiReg s0 k).setWidth (8 * sz.bytes)) with
    | .ok t => storeDown s0 sz ks b t
    | .error c => .error c

/-- Ascending loads from address `a`, each sign-extended to 32 bits, and the final address (R166). -/
def loadUp (sz : Size) : List (Fin 16) → Long → State → Res (Long × State)
  | [], a, s => .ok (a, s)
  | k :: ks, a, s =>
    match memRead s a sz.bytes with
    | .ok v => loadUp sz ks (a + BitVec.ofNat 32 sz.bytes) (setMultiReg s k (sext32 v))
    | .error c => .error c

/-- MOVEM registers to memory (R165). -/
def execMovemToMem (sz : Size) (mask : Word) (ea : Ea) (s : State) : Outcome :=
  let i := Instr.movemToMem sz mask ea
  commit s <|
    match ea with
    | .preDec n =>
      match storeDown s sz (maskRegsRev mask) (s.areg n) s with
      | .error c => .error c
      | .ok (a, t) => .ok (advance i (t.setA n a))
    | .dreg _ | .areg _ | .ind _ | .postInc _ | .disp _ _ | .index _ _ | .absW _ | .absL _ | .pcDisp _ | .pcIndex _
    | .imm _ =>
      match eaAddr i ea s with
      | .error c => .error c
      | .ok a =>
        match storeUp s sz (maskRegs mask) a s with
        | .error c => .error c
        | .ok t => .ok (advance i t)

/-- MOVEM memory to registers (R166): the address is computed once, before any load. -/
def execMovemToRegs (sz : Size) (mask : Word) (ea : Ea) (s : State) : Outcome :=
  let i := Instr.movemToRegs sz mask ea
  commit s <|
    match ea with
    | .postInc n =>
      match loadUp sz (maskRegs mask) (s.areg n) s with
      | .error c => .error c
      | .ok (a, t) => .ok (advance i (t.setA n a))
    | .dreg _ | .areg _ | .ind _ | .preDec _ | .disp _ _ | .index _ _ | .absW _ | .absL _ | .pcDisp _ | .pcIndex _
    | .imm _ =>
      match eaAddr i ea s with
      | .error c => .error c
      | .ok a =>
        match loadUp sz (maskRegs mask) a s with
        | .error c => .error c
        | .ok (_, t) => .ok (advance i t)

/-- PEA (R167): the address is computed before SP changes. -/
def execPea (ea : Ea) (s : State) : Outcome :=
  let i := Instr.pea ea
  commit s <|
    match eaAddr i ea s with
    | .error c => .error c
    | .ok a =>
      match push s a with
      | .error c => .error c
      | .ok t => .ok (advance i t)

/-- SWAP (R168). -/
def execSwap (dn : RegNum) (s : State) : Outcome :=
  let v := s.dreg dn
  let r : Long := v.extractLsb' 0 16 ++ v.extractLsb' 16 16
  commit s (.ok (advance (.swap dn) ((s.setD dn r).setCcr (nz00 r s.ccr))))

/-- EXG `dx,dy` (R169). -/
def execExgDD (x y : RegNum) (s : State) : Outcome :=
  commit s (.ok (advance (.exgDD x y) ((s.setD x (s.dreg y)).setD y (s.dreg x))))

/-- EXG `ax,ay` (R169). -/
def execExgAA (x y : RegNum) (s : State) : Outcome :=
  commit s (.ok (advance (.exgAA x y) ((s.setA x (s.areg y)).setA y (s.areg x))))

/-- EXG `dx,ay` (R169). -/
def execExgDA (x y : RegNum) (s : State) : Outcome :=
  commit s (.ok (advance (.exgDA x y) ((s.setD x (s.areg y)).setA y (s.dreg x))))

/-- LINK (R170): for A7 the value written is the decremented SP. -/
def execLink (an : RegNum) (d : Word) (s : State) : Outcome :=
  let sp := s.areg spNum - 4
  let t := s.setA spNum sp
  commit s <|
    match memWrite t sp 4 (t.areg an) with
    | .error c => .error c
    | .ok u => .ok (advance (.link an d) ((u.setA an sp).setA spNum (sp + sext32 d)))

/-- UNLK (R171): for A7 the popped value is the final SP. -/
def execUnlk (an : RegNum) (s : State) : Outcome :=
  commit s <|
    match pop (s.setA spNum (s.areg an)) with
    | .error c => .error c
    | .ok (v, t) => .ok (advance (.unlk an) (t.setA an v))

end Sys2Proof.Machine
end

