-- ==== Sys2Proof/Machine/Logical.lean ====
section
/-! DEFINITION. Logical instructions: spec/43_logical.md (R240: the conventions of R160). -/

namespace Sys2Proof.Machine

/-- AND `<ea>,dn` (R241). -/
def execAndEaDn (sz : Size) (ea : Ea) (dn : RegNum) (s : State) : Outcome :=
  commit s (eaToDn (.andEaDn sz ea dn) sz aluAnd ea dn s)

/-- AND `dn,<ea>` (R241). -/
def execAndDnEa (sz : Size) (dn : RegNum) (ea : Ea) (s : State) : Outcome :=
  commit s (modifyEa (.andDnEa sz dn ea) sz aluAnd (s.dPart dn sz) ea s)

/-- ANDI (R242). -/
def execAndi (sz : Size) (imm : Long) (ea : Ea) (s : State) : Outcome :=
  commit s (modifyEa (.andi sz imm ea) sz aluAnd (lowPart sz imm) ea s)

/-- OR `<ea>,dn` (R243). -/
def execOrEaDn (sz : Size) (ea : Ea) (dn : RegNum) (s : State) : Outcome :=
  commit s (eaToDn (.orEaDn sz ea dn) sz aluOr ea dn s)

/-- OR `dn,<ea>` (R243). -/
def execOrDnEa (sz : Size) (dn : RegNum) (ea : Ea) (s : State) : Outcome :=
  commit s (modifyEa (.orDnEa sz dn ea) sz aluOr (s.dPart dn sz) ea s)

/-- ORI (R244). -/
def execOri (sz : Size) (imm : Long) (ea : Ea) (s : State) : Outcome :=
  commit s (modifyEa (.ori sz imm ea) sz aluOr (lowPart sz imm) ea s)

/-- EOR `dn,<ea>` (R245). -/
def execEor (sz : Size) (dn : RegNum) (ea : Ea) (s : State) : Outcome :=
  commit s (modifyEa (.eor sz dn ea) sz aluEor (s.dPart dn sz) ea s)

/-- EORI (R246). -/
def execEori (sz : Size) (imm : Long) (ea : Ea) (s : State) : Outcome :=
  commit s (modifyEa (.eori sz imm ea) sz aluEor (lowPart sz imm) ea s)

/-- NOT (R247). -/
def execNot (sz : Size) (ea : Ea) (s : State) : Outcome :=
  commit s (modifyEa (.not sz ea) sz aluNot 0 ea s)

end Sys2Proof.Machine
end

