-- ==== Sys2Proof/Machine/ProgramControl.lean ====
section
/-! DEFINITION. Program control: spec/46_program_control.md (R289: the conventions of R160).  A target is written to `pc` unchecked (R291). -/

namespace Sys2Proof.Machine

/-- The displacement, sign-extended (R98). -/
def dispValue : Disp → Long
  | .short d => sext32 d
  | .long d => sext32 d

/-- `pc0 + 2 + disp` (R295). -/
def branchTarget (disp : Long) (s : State) : Long := s.pc + 2 + disp

/-- BRA (R295). -/
def execBra (d : Disp) (s : State) : Outcome := commit s (.ok (s.setPc (branchTarget (dispValue d) s)))

/-- Push `next` and transfer to `target` (R296, R301). -/
def call (i : Instr) (target : Long) (s : State) : Res State :=
  match push s (nextPc i s) with
  | .error c => .error c
  | .ok t => .ok (t.setPc target)

/-- BSR (R296). -/
def execBsr (d : Disp) (s : State) : Outcome := commit s (call (.bsr d) (branchTarget (dispValue d) s) s)

/-- Bcc (R297). -/
def execBcc (k : Cond) (d : Disp) (s : State) : Outcome :=
  commit s (.ok (s.setPc (if condHolds k s.ccr then branchTarget (dispValue d) s else nextPc (.bcc k d) s)))

/-- DBcc (R298): the counter is the low word of `dn`; no flag changes. -/
def execDbcc (k : Cond) (dn : RegNum) (d : Word) (s : State) : Outcome :=
  let i := Instr.dbcc k dn d
  let count : Word := s.dPart dn .w - 1
  let t := s.setDPart dn .w count
  commit s <| .ok <|
    if condHolds k s.ccr then advance i s
    else if count = 0xFFFF#16 then advance i t
    else t.setPc (branchTarget (sext32 d) s)

/-- Scc (R299): the destination is not read. -/
def execScc (k : Cond) (ea : Ea) (s : State) : Outcome :=
  commit s (storeEa (.scc k ea) .b (if condHolds k s.ccr then 0xFF#8 else 0#8) s.ccr ea s)

/-- JMP (R300): no memory access. -/
def execJmp (ea : Ea) (s : State) : Outcome :=
  commit s <|
    match eaAddr (.jmp ea) ea s with
    | .error c => .error c
    | .ok a => .ok (s.setPc a)

/-- JSR (R301): the target is computed before SP changes. -/
def execJsr (ea : Ea) (s : State) : Outcome :=
  let i := Instr.jsr ea
  commit s <|
    match eaAddr i ea s with
    | .error c => .error c
    | .ok a => call i a s

/-- RTS (R302). -/
def execRts (s : State) : Outcome :=
  commit s <|
    match pop s with
    | .error c => .error c
    | .ok (v, t) => .ok (t.setPc v)

/-- RTR (R303): a word for the flags, then the address. -/
def execRtr (s : State) : Outcome :=
  commit s <|
    match memRead s (s.areg spNum) 2 with
    | .error c => .error c
    | .ok w =>
      match memRead s (s.areg spNum + 2) 4 with
      | .error c => .error c
      | .ok v => .ok (((s.setA spNum (s.areg spNum + 6)).setCcr (Ccr.unpack (w.setWidth 5))).setPc v)

/-- NOP (R304). -/
def execNop (s : State) : Outcome := commit s (.ok (advance .nop s))

end Sys2Proof.Machine
end

