-- ==== Sys2Proof/Machine/ShiftRotate.lean ====
section
/-! DEFINITION. Shifts and rotates: spec/44_shift_rotate.md.  R260 binds the conventions of R160 on them: the operand is
evaluated by `evalEa` and the instruction ends with `pc <- next` (`modifyEa`, `advance`), a fault leaves no effect
(`commit`), and a flag that no rule names keeps its value (`rotateFlags`, `shiftFlags`). -/

namespace Sys2Proof.Machine

/-- The shift count: an immediate, or the low six bits of a data register (R261). -/
def countValue (cnt : Count) (s : State) : Nat :=
  match cnt with
  | .imm q => q
  | .reg m => (s.dreg m).toNat % 64

/-- The register form: operand and destination `dn`, the count read first (R261). -/
def shiftReg (i : Instr) (sz : Size) (f : Nat → BitVec sz.bits → Ccr → BitVec sz.bits × Ccr) (cnt : Count)
    (dn : RegNum) (s : State) : Res State :=
  modifyEa i sz (fun _ d ccr => f (countValue cnt s) d ccr) 0 (.dreg dn) s

/-- The memory form: size W, count 1 (R271). -/
def shiftMem (i : Instr) (f : Nat → Word → Ccr → Word × Ccr) (ea : Ea) (s : State) : Res State :=
  modifyEa i .w (fun _ d ccr => f 1 d ccr) 0 ea s

/-- ASR of a register (R263). -/
def execAsrReg (sz : Size) (cnt : Count) (dn : RegNum) (s : State) : Outcome :=
  commit s (shiftReg (.asrReg sz cnt dn) sz aluAsr cnt dn s)

/-- ASL of a register (R264). -/
def execAslReg (sz : Size) (cnt : Count) (dn : RegNum) (s : State) : Outcome :=
  commit s (shiftReg (.aslReg sz cnt dn) sz aluAsl cnt dn s)

/-- LSR of a register (R265). -/
def execLsrReg (sz : Size) (cnt : Count) (dn : RegNum) (s : State) : Outcome :=
  commit s (shiftReg (.lsrReg sz cnt dn) sz aluLsr cnt dn s)

/-- LSL of a register (R266). -/
def execLslReg (sz : Size) (cnt : Count) (dn : RegNum) (s : State) : Outcome :=
  commit s (shiftReg (.lslReg sz cnt dn) sz aluLsl cnt dn s)

/-- ROXR of a register (R269). -/
def execRoxrReg (sz : Size) (cnt : Count) (dn : RegNum) (s : State) : Outcome :=
  commit s (shiftReg (.roxrReg sz cnt dn) sz aluRoxr cnt dn s)

/-- ROXL of a register (R270). -/
def execRoxlReg (sz : Size) (cnt : Count) (dn : RegNum) (s : State) : Outcome :=
  commit s (shiftReg (.roxlReg sz cnt dn) sz aluRoxl cnt dn s)

/-- ROR of a register (R267). -/
def execRorReg (sz : Size) (cnt : Count) (dn : RegNum) (s : State) : Outcome :=
  commit s (shiftReg (.rorReg sz cnt dn) sz aluRor cnt dn s)

/-- ROL of a register (R268). -/
def execRolReg (sz : Size) (cnt : Count) (dn : RegNum) (s : State) : Outcome :=
  commit s (shiftReg (.rolReg sz cnt dn) sz aluRol cnt dn s)

/-- ASR of a memory word (R263, R271). -/
def execAsrMem (ea : Ea) (s : State) : Outcome := commit s (shiftMem (.asrMem ea) aluAsr ea s)

/-- ASL of a memory word (R264, R271). -/
def execAslMem (ea : Ea) (s : State) : Outcome := commit s (shiftMem (.aslMem ea) aluAsl ea s)

/-- LSR of a memory word (R265, R271). -/
def execLsrMem (ea : Ea) (s : State) : Outcome := commit s (shiftMem (.lsrMem ea) aluLsr ea s)

/-- LSL of a memory word (R266, R271). -/
def execLslMem (ea : Ea) (s : State) : Outcome := commit s (shiftMem (.lslMem ea) aluLsl ea s)

/-- ROXR of a memory word (R269, R271). -/
def execRoxrMem (ea : Ea) (s : State) : Outcome := commit s (shiftMem (.roxrMem ea) aluRoxr ea s)

/-- ROXL of a memory word (R270, R271). -/
def execRoxlMem (ea : Ea) (s : State) : Outcome := commit s (shiftMem (.roxlMem ea) aluRoxl ea s)

/-- ROR of a memory word (R267, R271). -/
def execRorMem (ea : Ea) (s : State) : Outcome := commit s (shiftMem (.rorMem ea) aluRor ea s)

/-- ROL of a memory word (R268, R271). -/
def execRolMem (ea : Ea) (s : State) : Outcome := commit s (shiftMem (.rolMem ea) aluRol ea s)

end Sys2Proof.Machine
end

