-- ==== Sys2Proof/Machine/System.lean ====
section
/-! DEFINITION. System instructions: spec/47_system.md.  There is no privilege (R319, R370). -/

namespace Sys2Proof.Machine

/-- `ScanString(a)` (R320, R358): the bytes up to the first zero byte, or AccessFault for the first address that is out
of range. -/
def scanString (s : State) (a : Long) : Res (List Byte) :=
  match scanBytes s.mem (s.cfg.memSize - a.toNat) a.toNat with
  | some bs => .ok bs
  | none => .error (.accessFault (max a.toNat s.cfg.memSize) 1 .read)

/-- The request half: publish the descriptor, advance `pc`, suspend (R320, R358). -/
def publish (i : Instr) (p : Interrupt) (s : State) : Res State :=
  .ok { advance i s with pending := some p, status := .awaitingInterrupt }

/-- TRAP (R320): only vector 15, by the task number in D0[7:0] (R357). -/
def execTrap (v : Fin 16) (s : State) : Outcome :=
  let i := Instr.trap v
  let task : Byte := s.dPart 0 .b
  commit s <|
    if v ≠ 15 then .error (.unimplementedTrap v none)
    else
      match task.toNat with
      | 2 => publish i (.readString (s.areg 1) s.cfg.rsMax) s
      | 3 => publish i (.writeInteger (s.dreg 1)) s
      | 4 => publish i .readInteger s
      | 9 => .ok { advance i s with status := .terminated }
      | 14 =>
        match scanString s (s.areg 1) with
        | .ok text => publish i (.writeString text) s
        | .error c => .error c
      | _ => .error (.unimplementedTrap v (some task))

/-- MOVE to CCR (R321): bits 4:0 of the source. -/
def execMoveToCcr (ea : Ea) (s : State) : Outcome :=
  let i := Instr.moveToCcr ea
  commit s <|
    match readEa i .w ea s with
    | .error c => .error c
    | .ok (v, t) => .ok (advance i (t.setCcr (Ccr.unpack (v.setWidth 5))))

/-- ANDI to CCR (R322). -/
def execAndiCcr (imm : BitVec 5) (s : State) : Outcome :=
  commit s (.ok (advance (.andiCcr imm) (s.setCcr (Ccr.unpack (s.ccr.low5 &&& imm)))))

/-- ORI to CCR (R323). -/
def execOriCcr (imm : BitVec 5) (s : State) : Outcome :=
  commit s (.ok (advance (.oriCcr imm) (s.setCcr (Ccr.unpack (s.ccr.low5 ||| imm)))))

/-- EORI to CCR (R324). -/
def execEoriCcr (imm : BitVec 5) (s : State) : Outcome :=
  commit s (.ok (advance (.eoriCcr imm) (s.setCcr (Ccr.unpack (s.ccr.low5 ^^^ imm)))))

end Sys2Proof.Machine
end

