-- ==== Sys2Proof/Machine/Dispatch.lean ====
section
/-! DEFINITION. One arm for each constructor of `Instr`: what an instruction at `s.pc` does to the state (R101). -/

namespace Sys2Proof.Machine

/-- Carry out one instruction (files 41 to 47 of the spec). -/
def exec (i : Instr) (s : State) : Host.Outcome State Fault Refusal :=
  match i with
  | .oriCcr imm => Sys2Proof.Machine.execOriCcr imm s
  | .ori sz imm ea => Sys2Proof.Machine.execOri sz imm ea s
  | .andiCcr imm => Sys2Proof.Machine.execAndiCcr imm s
  | .andi sz imm ea => Sys2Proof.Machine.execAndi sz imm ea s
  | .subi sz imm ea => Sys2Proof.Machine.execSubi sz imm ea s
  | .addi sz imm ea => Sys2Proof.Machine.execAddi sz imm ea s
  | .btstImm n ea => Sys2Proof.Machine.execBtstImm n ea s
  | .bchgImm n ea => Sys2Proof.Machine.execBchgImm n ea s
  | .bclrImm n ea => Sys2Proof.Machine.execBclrImm n ea s
  | .bsetImm n ea => Sys2Proof.Machine.execBsetImm n ea s
  | .eoriCcr imm => Sys2Proof.Machine.execEoriCcr imm s
  | .eori sz imm ea => Sys2Proof.Machine.execEori sz imm ea s
  | .cmpi sz imm ea => Sys2Proof.Machine.execCmpi sz imm ea s
  | .btstDn dn ea => Sys2Proof.Machine.execBtstDn dn ea s
  | .bchgDn dn ea => Sys2Proof.Machine.execBchgDn dn ea s
  | .bclrDn dn ea => Sys2Proof.Machine.execBclrDn dn ea s
  | .bsetDn dn ea => Sys2Proof.Machine.execBsetDn dn ea s
  | .move sz src dst => Sys2Proof.Machine.execMove sz src dst s
  | .movea sz src an => Sys2Proof.Machine.execMovea sz src an s
  | .negx sz ea => Sys2Proof.Machine.execNegx sz ea s
  | .clr sz ea => Sys2Proof.Machine.execClr sz ea s
  | .neg sz ea => Sys2Proof.Machine.execNeg sz ea s
  | .moveToCcr ea => Sys2Proof.Machine.execMoveToCcr ea s
  | .not sz ea => Sys2Proof.Machine.execNot sz ea s
  | .swap dn => Sys2Proof.Machine.execSwap dn s
  | .pea ea => Sys2Proof.Machine.execPea ea s
  | .ext sz dn => Sys2Proof.Machine.execExt sz dn s
  | .movemToMem sz mask ea => Sys2Proof.Machine.execMovemToMem sz mask ea s
  | .tst sz ea => Sys2Proof.Machine.execTst sz ea s
  | .movemToRegs sz mask ea => Sys2Proof.Machine.execMovemToRegs sz mask ea s
  | .trap v => Sys2Proof.Machine.execTrap v s
  | .link an d => Sys2Proof.Machine.execLink an d s
  | .unlk an => Sys2Proof.Machine.execUnlk an s
  | .nop => Sys2Proof.Machine.execNop s
  | .rts => Sys2Proof.Machine.execRts s
  | .rtr => Sys2Proof.Machine.execRtr s
  | .jsr ea => Sys2Proof.Machine.execJsr ea s
  | .jmp ea => Sys2Proof.Machine.execJmp ea s
  | .lea ea an => Sys2Proof.Machine.execLea ea an s
  | .addq sz q ea => Sys2Proof.Machine.execAddq sz q ea s
  | .subq sz q ea => Sys2Proof.Machine.execSubq sz q ea s
  | .dbcc cond dn d => Sys2Proof.Machine.execDbcc cond dn d s
  | .scc cond ea => Sys2Proof.Machine.execScc cond ea s
  | .bra d => Sys2Proof.Machine.execBra d s
  | .bsr d => Sys2Proof.Machine.execBsr d s
  | .bcc cond d => Sys2Proof.Machine.execBcc cond d s
  | .moveq imm dn => Sys2Proof.Machine.execMoveq imm dn s
  | .divu ea dn => Sys2Proof.Machine.execDivu ea dn s
  | .divs ea dn => Sys2Proof.Machine.execDivs ea dn s
  | .orEaDn sz ea dn => Sys2Proof.Machine.execOrEaDn sz ea dn s
  | .orDnEa sz dn ea => Sys2Proof.Machine.execOrDnEa sz dn ea s
  | .suba sz ea an => Sys2Proof.Machine.execSuba sz ea an s
  | .subx sz mem y x => Sys2Proof.Machine.execSubx sz mem y x s
  | .subEaDn sz ea dn => Sys2Proof.Machine.execSubEaDn sz ea dn s
  | .subDnEa sz dn ea => Sys2Proof.Machine.execSubDnEa sz dn ea s
  | .cmpa sz ea an => Sys2Proof.Machine.execCmpa sz ea an s
  | .cmpm sz y x => Sys2Proof.Machine.execCmpm sz y x s
  | .cmp sz ea dn => Sys2Proof.Machine.execCmp sz ea dn s
  | .eor sz dn ea => Sys2Proof.Machine.execEor sz dn ea s
  | .mulu ea dn => Sys2Proof.Machine.execMulu ea dn s
  | .muls ea dn => Sys2Proof.Machine.execMuls ea dn s
  | .exgDD x y => Sys2Proof.Machine.execExgDD x y s
  | .exgAA x y => Sys2Proof.Machine.execExgAA x y s
  | .exgDA x y => Sys2Proof.Machine.execExgDA x y s
  | .andEaDn sz ea dn => Sys2Proof.Machine.execAndEaDn sz ea dn s
  | .andDnEa sz dn ea => Sys2Proof.Machine.execAndDnEa sz dn ea s
  | .adda sz ea an => Sys2Proof.Machine.execAdda sz ea an s
  | .addx sz mem y x => Sys2Proof.Machine.execAddx sz mem y x s
  | .addEaDn sz ea dn => Sys2Proof.Machine.execAddEaDn sz ea dn s
  | .addDnEa sz dn ea => Sys2Proof.Machine.execAddDnEa sz dn ea s
  | .asrReg sz cnt dn => Sys2Proof.Machine.execAsrReg sz cnt dn s
  | .aslReg sz cnt dn => Sys2Proof.Machine.execAslReg sz cnt dn s
  | .lsrReg sz cnt dn => Sys2Proof.Machine.execLsrReg sz cnt dn s
  | .lslReg sz cnt dn => Sys2Proof.Machine.execLslReg sz cnt dn s
  | .roxrReg sz cnt dn => Sys2Proof.Machine.execRoxrReg sz cnt dn s
  | .roxlReg sz cnt dn => Sys2Proof.Machine.execRoxlReg sz cnt dn s
  | .rorReg sz cnt dn => Sys2Proof.Machine.execRorReg sz cnt dn s
  | .rolReg sz cnt dn => Sys2Proof.Machine.execRolReg sz cnt dn s
  | .asrMem ea => Sys2Proof.Machine.execAsrMem ea s
  | .aslMem ea => Sys2Proof.Machine.execAslMem ea s
  | .lsrMem ea => Sys2Proof.Machine.execLsrMem ea s
  | .lslMem ea => Sys2Proof.Machine.execLslMem ea s
  | .roxrMem ea => Sys2Proof.Machine.execRoxrMem ea s
  | .roxlMem ea => Sys2Proof.Machine.execRoxlMem ea s
  | .rorMem ea => Sys2Proof.Machine.execRorMem ea s
  | .rolMem ea => Sys2Proof.Machine.execRolMem ea s

end Sys2Proof.Machine
end

