-- ==== Sys2Proof/WellFormed.lean ====
section
/-! DEFINITION. Which terms of `Instr` are admitted: sizes, effective-address classes and operand ranges (R92, R93,
R96 to R101).  A brief extension word with bits 10:8 set is not checked here: it is a run-time fault (R344). -/

namespace Sys2Proof

/-- An immediate has the operation's size (R96): it is a value of that size, zero-extended. -/
def immOk (sz : Size) (v : Long) : Bool := decide (v.toNat < 2 ^ sz.bits)

/-- An operand of class `c` at size `sz`. -/
def Ea.ok (e : Ea) (c : EaClass) (sz : Size) : Bool :=
  c.has e.mode && e.mode.sizeOk sz &&
    match e with
    | .imm v => immOk sz v
    | .dreg _ | .areg _ | .ind _ | .postInc _ | .preDec _ | .disp _ _ | .index _ _ | .absW _ | .absL _ | .pcDisp _
    | .pcIndex _ => true

/-- A short displacement is not 0: that value selects the long form (R98). -/
def Disp.ok : Disp → Bool
  | .short d => d != 0
  | .long _ => true

/-- A quick immediate or immediate count encodes 1 to 8 (R97). -/
def quickOk (q : Nat) : Bool := decide (1 ≤ q ∧ q ≤ 8)

def Count.ok : Count → Bool
  | .imm q => quickOk q
  | .reg _ => true

/-- Bcc has the 14 conditions HI to LE (R297). -/
def Cond.branchOk : Cond → Bool
  | .t | .f => false
  | .hi | .ls | .cc | .cs | .ne | .eq | .vc | .vs | .pl | .mi | .ge | .lt | .gt | .le => true

/-- The instruction is admitted by its row of R101. -/
def Instr.wf : Instr → Bool
  | .oriCcr _ | .andiCcr _ | .eoriCcr _ => true
  | .ori sz imm ea | .andi sz imm ea | .subi sz imm ea | .addi sz imm ea | .eori sz imm ea | .cmpi sz imm ea =>
    immOk sz imm && ea.ok .dataAlterable sz
  | .btstImm _ ea => ea.ok .dataNoImm .b
  | .bchgImm _ ea | .bclrImm _ ea | .bsetImm _ ea => ea.ok .dataAlterable .b
  | .btstDn _ ea => ea.ok .data .b
  | .bchgDn _ ea | .bclrDn _ ea | .bsetDn _ ea => ea.ok .dataAlterable .b
  | .move sz src dst => src.ok .all sz && dst.ok .dataAlterable sz
  | .movea sz src _ => sz.isWL && src.ok .all sz
  | .negx sz ea | .clr sz ea | .neg sz ea | .not sz ea | .tst sz ea => ea.ok .dataAlterable sz
  | .moveToCcr ea => ea.ok .data .w
  | .swap _ | .trap _ | .link _ _ | .unlk _ | .nop | .rts | .rtr | .moveq _ _ | .dbcc _ _ _ => true
  | .pea ea | .jsr ea | .jmp ea | .lea ea _ => ea.ok .control .l
  | .ext sz _ => sz.isWL
  | .movemToMem sz _ ea => sz.isWL && ea.ok .movemDst sz
  | .movemToRegs sz _ ea => sz.isWL && ea.ok .movemSrc sz
  | .addq sz q ea | .subq sz q ea => quickOk q && ea.ok .alterable sz
  | .scc _ ea => ea.ok .dataAlterable .b
  | .bra d | .bsr d => d.ok
  | .bcc cond d => cond.branchOk && d.ok
  | .divu ea _ | .divs ea _ | .mulu ea _ | .muls ea _ => ea.ok .data .w
  | .orEaDn sz ea _ | .andEaDn sz ea _ => ea.ok .data sz
  | .addEaDn sz ea _ | .subEaDn sz ea _ | .cmp sz ea _ => ea.ok .all sz
  | .orDnEa sz _ ea | .andDnEa sz _ ea | .addDnEa sz _ ea | .subDnEa sz _ ea => ea.ok .memAlterable sz
  | .eor sz _ ea => ea.ok .dataAlterable sz
  | .adda sz ea _ | .suba sz ea _ | .cmpa sz ea _ => sz.isWL && ea.ok .all sz
  | .addx _ _ _ _ | .subx _ _ _ _ | .cmpm _ _ _ | .exgDD _ _ | .exgAA _ _ | .exgDA _ _ => true
  | .asrReg _ cnt _ | .aslReg _ cnt _ | .lsrReg _ cnt _ | .lslReg _ cnt _ | .roxrReg _ cnt _ | .roxlReg _ cnt _
  | .rorReg _ cnt _ | .rolReg _ cnt _ => cnt.ok
  | .asrMem ea | .aslMem ea | .lsrMem ea | .lslMem ea | .roxrMem ea | .roxlMem ea | .rorMem ea | .rolMem ea =>
    ea.ok .memAlterable .w

end Sys2Proof
end

