-- ==== Sys2Proof/Machine/Fetch.lean ====
section
/-! DEFINITION. The program store, the instruction-start set, and the fetch and decode of one instruction (R35, R70,
R119, R343, R344, R360). -/

namespace Sys2Proof.Machine

/-- `Fetch16(a)` (R70): `none` is FetchFault(a). -/
def fetch16 (c : Config) (a : Long) : Option Word :=
  if a.toNat % 2 = 0 ∧ c.progBase.toNat ≤ a.toNat then c.prog[(a.toNat - c.progBase.toNat) / 2]? else none

/-- Whether word number `k` of a program begins an instruction, when `skip` words of the one before remain (R119). -/
def startsAt : List Word → Nat → Nat → Bool
  | [], _, _ => false
  | _ :: _, skip, 0 => skip == 0
  | w :: ws, 0, k + 1 => startsAt ws (lenOf w - 1) k
  | _ :: ws, skip + 1, k + 1 => startsAt ws skip k

/-- `a in ISTART` (R119). -/
def inIStart (c : Config) (a : Long) : Bool :=
  decide (c.progBase.toNat ≤ a.toNat ∧ (a.toNat - c.progBase.toNat) % 2 = 0) &&
    startsAt c.prog 0 ((a.toNat - c.progBase.toNat) / 2)

/-- Sequential decode of a program ends exactly at its end (R119). -/
def chainEnds : List Word → Nat → Bool
  | [], skip => skip == 0
  | w :: ws, 0 => chainEnds ws (lenOf w - 1)
  | _ :: ws, skip + 1 => chainEnds ws skip

/-- The well-formed instantiations of R4, with the canonical form of the memory image and a line for every program word,
so that LINE_OF is defined on all of ISTART. -/
def wellFormedConfig (c : Config) : Bool :=
  decide (c.memSize ≤ 2 ^ 32) && (Memory.mk c.memInit).wf && (Memory.mk c.memInit).below c.memSize &&
    decide (c.progBase.toNat % 2 = 0) && decide (c.progEnd < 2 ^ 32) && chainEnds c.prog 0 &&
      (inIStart c c.entry || decide (c.entry.toNat = c.progEnd)) && decide (c.lines.length = c.prog.length)

/-- Up to `n` words from `a` on, ending at the first that cannot be fetched. -/
def fetchWords (c : Config) (a : Long) : Nat → List Word
  | 0 => []
  | n + 1 =>
    match fetch16 c a with
    | some w => w :: fetchWords c (a + 2) n
    | none => []

/-- The fault of an instruction whose words `ws` end before its last extension word, possible only in an instantiation
that is not well formed: FetchFault at the first missing word, unless it is MOVE, its source's words are there and the
source faults first (R145, R349). -/
def truncatedFault (s : State) (ws : List Word) : Cause :=
  let missing := Cause.fetchFault (s.pc + BitVec.ofNat 32 (2 * ws.length))
  match decode (ws ++ [0, 0, 0, 0]) with
  | .ok (.move sz src dst, _) =>
    if 1 + (src.ext sz).length ≤ ws.length then
      match readEa (.move sz src dst) sz src s with
      | .ok _ => missing
      | .error c => c
    else missing
  | .ok _ => missing
  | .error _ => missing

/-- The instruction at `pc`, or the fault of its fetch or of its opcode word (R343, R344, R360). -/
def fetchDecode (s : State) : Res Instr :=
  if inIStart s.cfg s.pc then
    let ws := fetchWords s.cfg s.pc 5
    match decode ws with
    | .ok (i, _) => .ok i
    | .error .noWord => .error (.fetchFault s.pc)
    | .error (.illegal w) => .error (.illegalInstruction w none)
    | .error .truncated => .error (truncatedFault s ws)
  else .error (.fetchFault s.pc)

end Sys2Proof.Machine
end

