-- ==== Sys2Proof/Machine/Step.lean ====
section
/-! DEFINITION. One step of the core (R360), and the placing of one instruction where the next step fetches. -/

namespace Sys2Proof.Machine

/-- `step()` on the state (R360): in status Running exactly one instruction, or the fault of its fetch; in every other
status no state changes (R355, decision D25).  The response of the operation is `stepResponse`. -/
def step (s : State) : Host.Outcome State Fault Refusal :=
  match s.status with
  | .running =>
    match fetchDecode s with
    | .ok i => endStep (exec i s)
    | .error c => .next (raise c s)
  | .awaitingInterrupt | .terminated | .terminatedByFault => .next s

/-- A core that is Running and whose program, loaded at `pc`, is the instruction of the opcode-table word `w` (five
words, every bit above `nbits` zero) and one NOP, so that the next step runs that instruction and no straight-line
instruction ends the program with it (log entry 2). -/
def State.withFetchWord (s : State) (nbits w : Nat) : State :=
  let v := w % 2 ^ nbits
  let word (k : Nat) : Word := BitVec.ofNat 16 (v / 2 ^ (16 * k))
  { s with
    cfg := { s.cfg with progBase := s.pc, prog := [word 0, word 1, word 2, word 3, word 4, 0x4E71#16] }
    status := .running
    pending := none
    fault := none }

end Sys2Proof.Machine
end

