-- ==== Sys2Proof/Machine/HostPort.lean ====
section
/-! DEFINITION. The host control port (R360 to R367): the responses of `step` and `run`, `answerInterrupt`, and the read
accessors.  A host error changes no state and is not recorded in FAULT (R366). -/

namespace Sys2Proof.Machine

/-- The host errors (R366). -/
inductive HostError where
  | halted
  | interruptPending
  | noInterruptPending
  | shapeMismatch
  | badRegisterIndex
  | badAddress
deriving DecidableEq, Repr

/-- The codes of R366. -/
def HostError.code : HostError → Nat
  | .halted => 1
  | .interruptPending => 2
  | .noInterruptPending => 3
  | .shapeMismatch => 4
  | .badRegisterIndex => 5
  | .badAddress => 6

/-- The encoding of STATUS (R30, D23). -/
def Status.code : Status → Nat
  | .running => 0
  | .awaitingInterrupt => 1
  | .terminated => 2
  | .terminatedByFault => 3

/-- `LINE_OF(a)`, `none` when `a` is not in ISTART (R360, R365). -/
def lineAt (c : Config) (a : Long) : Option Nat := if inIStart c a then c.lineOf a else none

/-- The Step record (R38). -/
structure StepRecord where
  pc0 : Long
  line : Option Nat
  status : Status
deriving DecidableEq, Repr

/-- The response of `step()`: a Step record, or a host error; the status in both cases (R360, D25). -/
structure StepResponse where
  record : Option StepRecord
  status : Status
  error : Option HostError
deriving DecidableEq, Repr

/-- Why `step` and `run` are rejected in a status (R360, R361). -/
def stepError : Status → Option HostError
  | .running => none
  | .awaitingInterrupt => some .interruptPending
  | .terminated | .terminatedByFault => some .halted

/-- The state after `step()`: `step` always answers a next state. -/
def stepState (s : State) : State :=
  match step s with
  | .next t => t
  | .fault _ | .refused _ => s

/-- The response of `step()` (R360). -/
def stepResponse (s : State) : StepResponse :=
  match stepError s.status with
  | some e => ⟨none, s.status, some e⟩
  | none =>
    let st := (stepState s).status
    ⟨some ⟨s.pc, lineAt s.cfg s.pc, st⟩, st, none⟩

/-- `run()` with fuel (R361, D33): steps until STATUS is no longer Running; `none` when the fuel runs out, which is no
final state (U11). -/
def runFuel : Nat → State → Option State
  | n, s =>
    if s.status = .running then
      match n with
      | 0 => none
      | n + 1 => runFuel n (stepState s)
    else some s

/-- The response of `run()` (R361): the final STATUS, or the unchanged one with the host error of `step`; `none` when the
fuel runs out. -/
def runResponse (n : Nat) (s : State) : Option (Status × Option HostError) :=
  match stepError s.status with
  | some e => some (s.status, some e)
  | none => (runFuel n s).map fun t => (t.status, none)

/-- `answerInterrupt(result)` (R362): the new state, and the host error of a rejected answer. -/
def answerInterrupt (ans : Answer) (s : State) : State × Option HostError :=
  match s.status with
  | .awaitingInterrupt =>
    match s.pending with
    | some p => if ans.fits s.cfg p then (resultHalf s p ans, none) else (s, some .shapeMismatch)
    | none => (s, some .noInterruptPending)
  | .running | .terminated | .terminatedByFault => (s, some .noInterruptPending)

/-- `getCurrentInterrupt()` (R363). -/
def getCurrentInterrupt (s : State) : Option Interrupt := s.pending

/-- Data register `n` at size `sz` (R364). -/
def readDataReg (s : State) (n : Nat) (sz : Size) : Except HostError (BitVec sz.bits) :=
  if h : n < 8 then .ok (lowPart sz (s.dreg ⟨n, h⟩)) else .error .badRegisterIndex

/-- Address register `n` at size `sz` (R364). -/
def readAddrReg (s : State) (n : Nat) (sz : Size) : Except HostError (BitVec sz.bits) :=
  if h : n < 8 then .ok (lowPart sz (s.areg ⟨n, h⟩)) else .error .badRegisterIndex

/-- The full register snapshot, by kind and index (R364). -/
def registerSnapshot (s : State) : List Long × List Long := (s.d.toList, s.a.toList)

/-- `Mem[a .. a + len - 1]` (R364). -/
def readBytes (s : State) (a len : Nat) : Except HostError (List Byte) :=
  if a + len ≤ s.cfg.memSize then .ok ((List.range len).map fun k => s.mem.read (a + k)) else .error .badAddress

/-- The flags as an ordered sequence and as a packed bitfield (R28, R364). -/
def flagSequence (s : State) : List Bool := s.ccr.toList

def packedFlags (s : State) : Byte := s.ccr.pack

/-- The condition evaluator (R364). -/
def evalCondition (s : State) (k : Cond) : Bool := condHolds k s.ccr

/-- The current line index (R25, R364). -/
def currentLine (s : State) : Option Nat := lineAt s.cfg s.pc

/-- What is found at an instruction start: the decoded instruction, or the opcode word if it is illegal. -/
inductive Found where
  | instr (i : Instr)
  | illegal (w : Word)
deriving DecidableEq, Repr

/-- `getInstructionAt(address)` (R365): the instruction and its line, `none` when the address begins none. -/
def getInstructionAt (c : Config) (a : Long) : Option (Found × Option Nat) :=
  if inIStart c a then
    match decode (fetchWords c a 5) with
    | .ok (i, _) => some (.instr i, lineAt c a)
    | .error (.illegal w) => some (.illegal w, lineAt c a)
    | .error .noWord | .error .truncated => none
  else none

end Sys2Proof.Machine
end

