-- ==== Sys2Proof/Safety.lean ====
section
/-! DEFINITION. What counts as a sound state and a safe run, in the terms that claims use. -/

namespace Sys2Proof.Machine

/-- What a pending descriptor owes to the registers: a ReadString buffer is A1 and its limit RS_MAX (R36, R357). -/
def pendingMatches (s : State) : Prop :=
  match s.pending with
  | some (.readString b m) => b = s.areg 1 ∧ m = s.cfg.rsMax
  | some (.writeInteger v) => v = s.dreg 1
  | some .readInteger | some (.writeString _) | none => True

/-- The invariant of the core: canonical memory inside MEM_SIZE (R34), PENDING exactly while AwaitingInterrupt (R31),
FAULT exactly in TerminatedByFault (R32), no Running state at PROG_END (R356), and what PENDING owes (R36). -/
structure State.Inv (s : State) : Prop where
  memWf : s.mem.wf = true
  memBelow : s.mem.below s.cfg.memSize = true
  pendingIff : s.pending.isSome = true ↔ s.status = .awaitingInterrupt
  faultIff : s.fault.isSome = true ↔ s.status = .terminatedByFault
  notAtEnd : s.status = .running → s.pc.toNat ≠ s.cfg.progEnd
  pendingOk : pendingMatches s

/-- A state that has not faulted: a faulted state is never the end of a correct run (R342). -/
def State.Safe (s : State) : Prop := s.status ≠ .terminatedByFault

/-- What the host can do to the core between its accessors: call `step` or answer a trap (R367). -/
inductive HostCall where
  | step
  | answer (a : Answer)
deriving DecidableEq, Repr

/-- The state after one host call. -/
def hostCall (s : State) : HostCall → State
  | .step => stepState s
  | .answer a => (answerInterrupt a s).1

/-- The state after a sequence of host calls. -/
def hostRun (s : State) (cs : List HostCall) : State := cs.foldl hostCall s

/-- A run is safe when no state of it has faulted. -/
def SafeRun (s : State) (cs : List HostCall) : Prop := ∀ k, (hostRun s (cs.take k)).Safe

end Sys2Proof.Machine
end

