-- ==== Sys2Proof/Claims.lean ====
section
/-! DEFINITION. The vocabulary of the statements: numbers, flag rules, what a result changes and keeps, the opcode
patterns of R101, and the shapes of instruction that share one statement.  Nothing here is part of the machine: results
and flags are written over natural numbers and bits, apart from the model's own definitions. -/

namespace Sys2Proof.Claims

open Machine

/-! ### Numbers (R5, R23) -/

/-- The unsigned value of the low `bits(sz)` bits of a register. -/
def low (sz : Size) (v : Long) : Nat := v.toNat % 2 ^ sz.bits

/-- The most significant bit of an `n`-bit value is 1. -/
def Msb (n r : Nat) : Prop := 2 ^ (n - 1) ≤ r

/-- `signed_n(r)`: an `n`-bit value as a two's-complement integer. -/
def signed (n r : Nat) : Int := if 2 ^ (n - 1) ≤ r then (r : Int) - 2 ^ n else r

/-! ### Flag rules.  `n` is the width, `s` the source, `d` the destination, `r` the result -/

/-- `NZ(r, sz)` (R8). -/
def NZ (n r : Nat) (new : Ccr) : Prop := (new.n = true ↔ Msb n r) ∧ (new.z = true ↔ r = 0)

/-- `NZ00(r, sz)`, with X unchanged (R8, R7). -/
def NZ00 (n r : Nat) (old new : Ccr) : Prop := NZ n r new ∧ new.v = false ∧ new.c = false ∧ new.x = old.x

/-- `ovf_add` (R8). -/
def OvfAdd (n s d r : Nat) : Prop := (Msb n s ↔ Msb n d) ∧ ¬(Msb n r ↔ Msb n d)

/-- `ovf_sub` (R8). -/
def OvfSub (n s d r : Nat) : Prop := ¬(Msb n s ↔ Msb n d) ∧ ¬(Msb n r ↔ Msb n d)

/-- What an operation does: width, source, destination, result, old flags, new flags. -/
abbrev AluRule := (n s d r : Nat) → (old new : Ccr) → Prop

/-- ADD (R190): the sum modulo `2^n`, C and X the carry, V the overflow. -/
def addRule : AluRule := fun n s d r _ new =>
  r = (d + s) % 2 ^ n ∧ (new.c = true ↔ 2 ^ n ≤ d + s) ∧ new.x = new.c ∧ (new.v = true ↔ OvfAdd n s d r) ∧ NZ n r new

/-- ADDX (R194): the old X is added too, and Z is only ever cleared. -/
def addxRule : AluRule := fun n s d r old new =>
  r = (d + s + old.x.toNat) % 2 ^ n ∧ (new.c = true ↔ 2 ^ n ≤ d + s + old.x.toNat) ∧ new.x = new.c ∧
    (new.v = true ↔ OvfAdd n s d r) ∧ (new.n = true ↔ Msb n r) ∧ (new.z = true ↔ old.z = true ∧ r = 0)

/-- SUB (R196): destination minus source, C and X the borrow. -/
def subRule : AluRule := fun n s d r _ new =>
  (r : Int) = ((d : Int) - s) % 2 ^ n ∧ (new.c = true ↔ d < s) ∧ new.x = new.c ∧ (new.v = true ↔ OvfSub n s d r) ∧
    NZ n r new

/-- SUBX (R200). -/
def subxRule : AluRule := fun n s d r old new =>
  (r : Int) = ((d : Int) - s - old.x.toNat) % 2 ^ n ∧ (new.c = true ↔ d < s + old.x.toNat) ∧ new.x = new.c ∧
    (new.v = true ↔ OvfSub n s d r) ∧ (new.n = true ↔ Msb n r) ∧ (new.z = true ↔ old.z = true ∧ r = 0)

/-- CMP (R207): SUB's flags with X unchanged. -/
def cmpRule (n s d : Nat) (old new : Ccr) : Prop :=
  ∃ r : Nat, (r : Int) = ((d : Int) - s) % 2 ^ n ∧ (new.c = true ↔ d < s) ∧ (new.v = true ↔ OvfSub n s d r) ∧
    NZ n r new ∧ new.x = old.x

/-- NEG (R203), in the rule's own words. -/
def negRule : AluRule := fun n _ d r _ new =>
  (r : Int) = (0 - (d : Int)) % 2 ^ n ∧ (new.c = true ↔ d ≠ 0) ∧ new.x = new.c ∧ (new.v = true ↔ d = 2 ^ (n - 1)) ∧
    NZ n r new

/-- NEGX (R204), in the rule's own words. -/
def negxRule : AluRule := fun n _ d r old new =>
  (r : Int) = (0 - (d : Int) - old.x.toNat) % 2 ^ n ∧ (new.c = true ↔ 0 < d + old.x.toNat) ∧ new.x = new.c ∧
    (new.v = true ↔ Msb n d ∧ Msb n r) ∧ (new.n = true ↔ Msb n r) ∧ (new.z = true ↔ old.z = true ∧ r = 0)

/-- AND, OR, EOR, NOT (R240 to R247), bit by bit: `f` combines a destination bit and a source bit. -/
def bitwiseRule (f : Bool → Bool → Bool) : AluRule := fun n s d r old new =>
  (∀ k, k < n → r.testBit k = f (d.testBit k) (s.testBit k)) ∧ NZ00 n r old new

/-! ### Shifts and rotates by `c` (R262 to R270), bit by bit -/

/-- What a shift does: the count, then as `AluRule` without a source. -/
abbrev ShiftRule := (c n d r : Nat) → (old new : Ccr) → Prop

/-- C and X of a shift: a count of 0 clears C and keeps X; otherwise both are the last bit shifted out. -/
def ShiftCX (c : Nat) (last : Bool) (old new : Ccr) : Prop :=
  if c = 0 then new.c = false ∧ new.x = old.x else new.c = last ∧ new.x = last

/-- ASR (R263). -/
def asrRule : ShiftRule := fun c n d r old new =>
  (∀ k, k < n → r.testBit k = d.testBit (min (k + c) (n - 1))) ∧ NZ n r new ∧ new.v = false ∧
    ShiftCX c (d.testBit (min c n - 1)) old new

/-- The most significant bit of an `n`-bit operand changes at some time while it is shifted left `c` times (R264). -/
def MsbChanges (c n d : Nat) : Prop := ∃ j, j ≤ c ∧ (d * 2 ^ j % 2 ^ n).testBit (n - 1) ≠ d.testBit (n - 1)

/-- The last bit that a left shift moves out. -/
def leftOut (c n d : Nat) : Bool := decide (c ≤ n) && d.testBit (n - c)

/-- ASL (R264). -/
def aslRule : ShiftRule := fun c n d r old new =>
  r = d * 2 ^ c % 2 ^ n ∧ NZ n r new ∧ (new.v = true ↔ MsbChanges c n d) ∧ ShiftCX c (leftOut c n d) old new

/-- LSR (R265). -/
def lsrRule : ShiftRule := fun c n d r old new =>
  r = d / 2 ^ c ∧ NZ n r new ∧ new.v = false ∧ ShiftCX c (decide (c ≤ n) && d.testBit (c - 1)) old new

/-- LSL (R266). -/
def lslRule : ShiftRule := fun c n d r old new =>
  r = d * 2 ^ c % 2 ^ n ∧ NZ n r new ∧ new.v = false ∧ ShiftCX c (leftOut c n d) old new

/-- ROR (R267): bit `j` of the result is bit `(j + c) mod n` of the operand. -/
def rorRule : ShiftRule := fun c n d r old new =>
  (∀ j, j < n → r.testBit j = d.testBit ((j + c) % n)) ∧ NZ n r new ∧ new.v = false ∧ new.x = old.x ∧
    new.c = (decide (0 < c) && r.testBit (n - 1))

/-- ROL (R268): bit `j` of the operand becomes bit `(j + c) mod n` of the result. -/
def rolRule : ShiftRule := fun c n d r old new =>
  (∀ j, j < n → r.testBit ((j + c) % n) = d.testBit j) ∧ NZ n r new ∧ new.v = false ∧ new.x = old.x ∧
    new.c = (decide (0 < c) && r.testBit 0)

/-- Bit `j` of the `n + 1` bits `X ++ d` (R269). -/
def bitX (n d : Nat) (x : Bool) (j : Nat) : Bool := if j = n then x else d.testBit j

/-- ROXR (R269): the `n + 1` bits rotate right, X and C both take the top one. -/
def roxrRule : ShiftRule := fun c n d r old new =>
  (∀ j, j ≤ n → bitX n r new.x j = bitX n d old.x ((j + c) % (n + 1))) ∧ NZ n r new ∧ new.v = false ∧ new.c = new.x

/-- ROXL (R270): the `n + 1` bits rotate left. -/
def roxlRule : ShiftRule := fun c n d r old new =>
  (∀ j, j ≤ n → bitX n r new.x ((j + c) % (n + 1)) = bitX n d old.x j) ∧ NZ n r new ∧ new.v = false ∧ new.c = new.x

/-! ### What is kept and what is changed from `s` to `u` -/

/-- Every byte of memory is unchanged. -/
def MemKept (s u : State) : Prop := ∀ a, u.mem.read a = s.mem.read a

/-- The `k` bytes at `a` hold `r`, most significant first, and every other byte is unchanged (R60, R63). -/
def MemStored (a k r : Nat) (s u : State) : Prop :=
  (∀ j, j < k → u.mem.read (a + j) = BitVec.ofNat 8 (r / 256 ^ (k - 1 - j))) ∧
    ∀ b, (b < a ∨ a + k ≤ b) → u.mem.read b = s.mem.read b

/-- Every data register is unchanged. -/
def DKept (s u : State) : Prop := ∀ n, u.dreg n = s.dreg n

/-- Every data register but `n` is unchanged. -/
def DKeptBut (n : RegNum) (s u : State) : Prop := ∀ m, m ≠ n → u.dreg m = s.dreg m

/-- The low part of `dn` is `r`, its high bits are kept (R23), and every other data register is unchanged. -/
def DStored (n : RegNum) (sz : Size) (r : Nat) (s u : State) : Prop :=
  (u.dreg n).toNat = (s.dreg n).toNat / 2 ^ sz.bits * 2 ^ sz.bits + r ∧ DKeptBut n s u

/-- Every address register is unchanged. -/
def AKept (s u : State) : Prop := ∀ n, u.areg n = s.areg n

/-- Every address register but `n` is unchanged. -/
def AKeptBut (n : RegNum) (s u : State) : Prop := ∀ m, m ≠ n → u.areg m = s.areg m

/-- STATUS, PENDING, FAULT and the parameters are unchanged. -/
def ControlKept (s u : State) : Prop :=
  u.cfg = s.cfg ∧ u.status = s.status ∧ u.pending = s.pending ∧ u.fault = s.fault

/-- The program counter has moved past the words of `i` (R26). -/
def PcNext (i : Instr) (s u : State) : Prop := u.pc = s.pc + BitVec.ofNat 32 (2 * (encode i).length)

/-- Nothing of the state changes but what the earlier clauses of a statement name: flags and memory are kept. -/
def CcrMemKept (s u : State) : Prop := u.ccr = s.ccr ∧ MemKept s u

/-! ### Operands -/

/-- The step of `(an)+` and `-(an)` (R135, R144). -/
def incr (sz : Size) (n : RegNum) : Long :=
  match sz with
  | .b => if n = 7 then 2 else 1
  | .w => 2
  | .l => 4

/-- The value of `A[n]` after operand `ea` is evaluated at size `sz`, when it was `v` before (R132 to R144). -/
def afterEa (sz : Size) (ea : Ea) (n : RegNum) (v : Long) : Long :=
  match ea with
  | .postInc m => if n = m then v + incr sz m else v
  | .preDec m => if n = m then v - incr sz m else v
  | .dreg _ | .areg _ | .ind _ | .disp _ _ | .index _ _ | .absW _ | .absL _ | .pcDisp _ | .pcIndex _ | .imm _ => v

/-- The address registers after one operand: unchanged but for that operand's own side effect. -/
def AAfter (sz : Size) (ea : Ea) (s u : State) : Prop := ∀ n, u.areg n = afterEa sz ea n (s.areg n)

/-- The fault of an access of `n` bytes at `a`, alignment before range (R61, R62, R63, R349). -/
def accessFault (c : Config) (a : Long) (n : Nat) (k : AccessKind) : Option Cause :=
  if c.alignFault = true ∧ 1 < n ∧ a.toNat % 2 = 1 then some (.addressError a.toNat n k)
  else if a.toNat + n ≤ c.memSize then none
  else some (.accessFault a.toNat n k)

/-- The fault of writing a location: only a memory location has one. -/
def writeFault (c : Config) (loc : Loc) (sz : Size) : Option Cause :=
  match loc with
  | .mem a => accessFault c a sz.bytes .write
  | .dreg _ | .areg _ | .imm _ => none

/-- `r` is written to the location, and nothing else of the data registers and of memory changes.  No location outside
the alterable classes is ever written. -/
def Stored (loc : Loc) (sz : Size) (r : Nat) (s u : State) : Prop :=
  match loc with
  | .dreg n => DStored n sz r s u ∧ MemKept s u
  | .mem a => DKept s u ∧ MemStored a.toNat sz.bytes r s u
  | .areg _ | .imm _ => False

/-! ### Outcomes -/

/-- The instruction completes in a next state of which `p` holds. -/
def Completes (i : Instr) (s : State) (p : State → Prop) : Prop := ∃ u, Machine.exec i s = .next u ∧ p u

/-- The instruction raises `c`: STATUS and FAULT are written, everything else stays (R341). -/
def Faults (i : Instr) (s : State) (c : Cause) : Prop :=
  Machine.exec i s = .next { s with status := .terminatedByFault, fault := some ⟨c, s.pc⟩ }

/-- A source operand that faults makes the instruction fault with its cause (R147, R349). -/
def SourceFaults (i : Instr) (sz : Size) (ea : Ea) (s : State) : Prop :=
  ∀ c, Machine.readEa i sz ea s = .error c → Faults i s c

/-! ### The opcode patterns of R101, as the spec writes them -/

/-- A register field. -/
def r3 (n : RegNum) : BitVec 3 := BitVec.ofNat 3 n.val

/-- The `ss` code (R93). -/
def ss : Size → BitVec 2
  | .b => 0b00#2
  | .w => 0b01#2
  | .l => 0b10#2

/-- The `zz` code of MOVE (R93). -/
def zz : Size → BitVec 2
  | .b => 0b01#2
  | .w => 0b11#2
  | .l => 0b10#2

/-- The single-bit size code (R93). -/
def s1 : Size → BitVec 1
  | .b | .w => 0#1
  | .l => 1#1

/-- The mode field `M` (R92). -/
def modeBits : Ea → BitVec 3
  | .dreg _ => 0b000#3
  | .areg _ => 0b001#3
  | .ind _ => 0b010#3
  | .postInc _ => 0b011#3
  | .preDec _ => 0b100#3
  | .disp _ _ => 0b101#3
  | .index _ _ => 0b110#3
  | .absW _ | .absL _ | .pcDisp _ | .pcIndex _ | .imm _ => 0b111#3

/-- The register field `Rg` (R92). -/
def regBits : Ea → BitVec 3
  | .dreg n | .areg n | .ind n | .postInc n | .preDec n | .disp n _ | .index n _ => r3 n
  | .absW _ => 0b000#3
  | .absL _ => 0b001#3
  | .pcDisp _ => 0b010#3
  | .pcIndex _ => 0b011#3
  | .imm _ => 0b100#3

/-- `mmm rrr` -/
def ea6 (e : Ea) : BitVec 6 := modeBits e ++ regBits e

/-- The four bits `cccc` of a condition (R290). -/
def cccc : Cond → BitVec 4
  | .t => 0b0000#4
  | .f => 0b0001#4
  | .hi => 0b0010#4
  | .ls => 0b0011#4
  | .cc => 0b0100#4
  | .cs => 0b0101#4
  | .ne => 0b0110#4
  | .eq => 0b0111#4
  | .vc => 0b1000#4
  | .vs => 0b1001#4
  | .pl => 0b1010#4
  | .mi => 0b1011#4
  | .ge => 0b1100#4
  | .lt => 0b1101#4
  | .gt => 0b1110#4
  | .le => 0b1111#4

/-- `qqq`: 8 is written 000 (R97). -/
def qqq (q : Nat) : BitVec 3 := if q = 8 then 0b000#3 else BitVec.ofNat 3 q

/-- Bits 11:9 of a register shift: the immediate count or the count register (R261). -/
def countBits : Count → BitVec 3
  | .imm q => qqq q
  | .reg m => r3 m

/-- Bit 5 of a register shift (R261). -/
def countKind : Count → BitVec 1
  | .imm _ => 0#1
  | .reg _ => 1#1

/-- Bits 7:0 of a branch (R98). -/
def dispBits : Disp → BitVec 8
  | .short d => d
  | .long _ => 0x00#8

/-- A register shift: `1110 qqq D ss i tt rrr` (R261). -/
def shiftReg (dir : BitVec 1) (tt : BitVec 2) (sz : Size) (cnt : Count) (dn : RegNum) : Word :=
  0b1110#4 ++ countBits cnt ++ dir ++ ss sz ++ countKind cnt ++ tt ++ r3 dn

/-- A memory shift: `1110 0tt D 11 mmm rrr` (R271). -/
def shiftMem (dir : BitVec 1) (tt : BitVec 2) (ea : Ea) : Word := 0b11100#5 ++ tt ++ dir ++ 0b11#2 ++ ea6 ea

/-- The opcode word of an instruction, field by field as its row of R101 writes it. -/
def pattern : Instr → Word
  | .oriCcr _ => 0b0000000000111100#16
  | .ori sz _ ea => 0b00000000#8 ++ ss sz ++ ea6 ea
  | .andiCcr _ => 0b0000001000111100#16
  | .andi sz _ ea => 0b00000010#8 ++ ss sz ++ ea6 ea
  | .subi sz _ ea => 0b00000100#8 ++ ss sz ++ ea6 ea
  | .addi sz _ ea => 0b00000110#8 ++ ss sz ++ ea6 ea
  | .btstImm _ ea => 0b0000100000#10 ++ ea6 ea
  | .bchgImm _ ea => 0b0000100001#10 ++ ea6 ea
  | .bclrImm _ ea => 0b0000100010#10 ++ ea6 ea
  | .bsetImm _ ea => 0b0000100011#10 ++ ea6 ea
  | .eoriCcr _ => 0b0000101000111100#16
  | .eori sz _ ea => 0b00001010#8 ++ ss sz ++ ea6 ea
  | .cmpi sz _ ea => 0b00001100#8 ++ ss sz ++ ea6 ea
  | .btstDn dn ea => 0b0000#4 ++ r3 dn ++ 0b100#3 ++ ea6 ea
  | .bchgDn dn ea => 0b0000#4 ++ r3 dn ++ 0b101#3 ++ ea6 ea
  | .bclrDn dn ea => 0b0000#4 ++ r3 dn ++ 0b110#3 ++ ea6 ea
  | .bsetDn dn ea => 0b0000#4 ++ r3 dn ++ 0b111#3 ++ ea6 ea
  | .move sz src dst => 0b00#2 ++ zz sz ++ regBits dst ++ modeBits dst ++ ea6 src
  | .movea sz src an => 0b00#2 ++ zz sz ++ r3 an ++ 0b001#3 ++ ea6 src
  | .negx sz ea => 0b01000000#8 ++ ss sz ++ ea6 ea
  | .clr sz ea => 0b01000010#8 ++ ss sz ++ ea6 ea
  | .neg sz ea => 0b01000100#8 ++ ss sz ++ ea6 ea
  | .moveToCcr ea => 0b0100010011#10 ++ ea6 ea
  | .not sz ea => 0b01000110#8 ++ ss sz ++ ea6 ea
  | .swap dn => 0b0100100001000#13 ++ r3 dn
  | .pea ea => 0b0100100001#10 ++ ea6 ea
  | .ext sz dn => 0b010010001#9 ++ s1 sz ++ 0b000#3 ++ r3 dn
  | .movemToMem sz _ ea => 0b010010001#9 ++ s1 sz ++ ea6 ea
  | .tst sz ea => 0b01001010#8 ++ ss sz ++ ea6 ea
  | .movemToRegs sz _ ea => 0b010011001#9 ++ s1 sz ++ ea6 ea
  | .trap v => 0b010011100100#12 ++ BitVec.ofNat 4 v.val
  | .link an _ => 0b0100111001010#13 ++ r3 an
  | .unlk an => 0b0100111001011#13 ++ r3 an
  | .nop => 0b0100111001110001#16
  | .rts => 0b0100111001110101#16
  | .rtr => 0b0100111001110111#16
  | .jsr ea => 0b0100111010#10 ++ ea6 ea
  | .jmp ea => 0b0100111011#10 ++ ea6 ea
  | .lea ea an => 0b0100#4 ++ r3 an ++ 0b111#3 ++ ea6 ea
  | .addq sz q ea => 0b0101#4 ++ qqq q ++ 0#1 ++ ss sz ++ ea6 ea
  | .subq sz q ea => 0b0101#4 ++ qqq q ++ 1#1 ++ ss sz ++ ea6 ea
  | .dbcc k dn _ => 0b0101#4 ++ cccc k ++ 0b11001#5 ++ r3 dn
  | .scc k ea => 0b0101#4 ++ cccc k ++ 0b11#2 ++ ea6 ea
  | .bra d => 0b01100000#8 ++ dispBits d
  | .bsr d => 0b01100001#8 ++ dispBits d
  | .bcc k d => 0b0110#4 ++ cccc k ++ dispBits d
  | .moveq imm dn => 0b0111#4 ++ r3 dn ++ 0#1 ++ imm
  | .divu ea dn => 0b1000#4 ++ r3 dn ++ 0b011#3 ++ ea6 ea
  | .divs ea dn => 0b1000#4 ++ r3 dn ++ 0b111#3 ++ ea6 ea
  | .orEaDn sz ea dn => 0b1000#4 ++ r3 dn ++ 0#1 ++ ss sz ++ ea6 ea
  | .orDnEa sz dn ea => 0b1000#4 ++ r3 dn ++ 1#1 ++ ss sz ++ ea6 ea
  | .suba sz ea an => 0b1001#4 ++ r3 an ++ s1 sz ++ 0b11#2 ++ ea6 ea
  | .subx sz m y x => 0b1001#4 ++ r3 x ++ 1#1 ++ ss sz ++ 0b00#2 ++ BitVec.ofBool m ++ r3 y
  | .subEaDn sz ea dn => 0b1001#4 ++ r3 dn ++ 0#1 ++ ss sz ++ ea6 ea
  | .subDnEa sz dn ea => 0b1001#4 ++ r3 dn ++ 1#1 ++ ss sz ++ ea6 ea
  | .cmpa sz ea an => 0b1011#4 ++ r3 an ++ s1 sz ++ 0b11#2 ++ ea6 ea
  | .cmpm sz y x => 0b1011#4 ++ r3 x ++ 1#1 ++ ss sz ++ 0b001#3 ++ r3 y
  | .cmp sz ea dn => 0b1011#4 ++ r3 dn ++ 0#1 ++ ss sz ++ ea6 ea
  | .eor sz dn ea => 0b1011#4 ++ r3 dn ++ 1#1 ++ ss sz ++ ea6 ea
  | .mulu ea dn => 0b1100#4 ++ r3 dn ++ 0b011#3 ++ ea6 ea
  | .muls ea dn => 0b1100#4 ++ r3 dn ++ 0b111#3 ++ ea6 ea
  | .exgDD x y => 0b1100#4 ++ r3 x ++ 0b101000#6 ++ r3 y
  | .exgAA x y => 0b1100#4 ++ r3 x ++ 0b101001#6 ++ r3 y
  | .exgDA x y => 0b1100#4 ++ r3 x ++ 0b110001#6 ++ r3 y
  | .andEaDn sz ea dn => 0b1100#4 ++ r3 dn ++ 0#1 ++ ss sz ++ ea6 ea
  | .andDnEa sz dn ea => 0b1100#4 ++ r3 dn ++ 1#1 ++ ss sz ++ ea6 ea
  | .adda sz ea an => 0b1101#4 ++ r3 an ++ s1 sz ++ 0b11#2 ++ ea6 ea
  | .addx sz m y x => 0b1101#4 ++ r3 x ++ 1#1 ++ ss sz ++ 0b00#2 ++ BitVec.ofBool m ++ r3 y
  | .addEaDn sz ea dn => 0b1101#4 ++ r3 dn ++ 0#1 ++ ss sz ++ ea6 ea
  | .addDnEa sz dn ea => 0b1101#4 ++ r3 dn ++ 1#1 ++ ss sz ++ ea6 ea
  | .asrReg sz cnt dn => shiftReg 0#1 0b00#2 sz cnt dn
  | .aslReg sz cnt dn => shiftReg 1#1 0b00#2 sz cnt dn
  | .lsrReg sz cnt dn => shiftReg 0#1 0b01#2 sz cnt dn
  | .lslReg sz cnt dn => shiftReg 1#1 0b01#2 sz cnt dn
  | .roxrReg sz cnt dn => shiftReg 0#1 0b10#2 sz cnt dn
  | .roxlReg sz cnt dn => shiftReg 1#1 0b10#2 sz cnt dn
  | .rorReg sz cnt dn => shiftReg 0#1 0b11#2 sz cnt dn
  | .rolReg sz cnt dn => shiftReg 1#1 0b11#2 sz cnt dn
  | .asrMem ea => shiftMem 0#1 0b00#2 ea
  | .aslMem ea => shiftMem 1#1 0b00#2 ea
  | .lsrMem ea => shiftMem 0#1 0b01#2 ea
  | .lslMem ea => shiftMem 1#1 0b01#2 ea
  | .roxrMem ea => shiftMem 0#1 0b10#2 ea
  | .roxlMem ea => shiftMem 1#1 0b10#2 ea
  | .rorMem ea => shiftMem 0#1 0b11#2 ea
  | .rolMem ea => shiftMem 1#1 0b11#2 ea

/-- The encoding line of an instruction's rule: the opcode word of an admitted instruction is its pattern. -/
def Encoded (i : Instr) : Prop := i.wf = true → opcodeWord i = pattern i

/-- The row of a mode in the table of R100, with the three combinations of R101. -/
def classesOf : EaMode → List EaClass
  | .dreg _ => [.all, .data, .alterable, .dataAlterable, .dataNoImm]
  | .areg _ => [.all, .alterable]
  | .ind _ | .disp _ | .index _ | .absW | .absL =>
    [.all, .data, .memory, .control, .alterable, .dataAlterable, .memAlterable, .controlAlterable, .dataNoImm, .movemDst,
      .movemSrc]
  | .postInc _ => [.all, .data, .memory, .alterable, .dataAlterable, .memAlterable, .dataNoImm, .movemSrc]
  | .preDec _ => [.all, .data, .memory, .alterable, .dataAlterable, .memAlterable, .dataNoImm, .movemDst]
  | .pcDisp | .pcIndex => [.all, .data, .memory, .control, .dataNoImm, .movemSrc]
  | .imm => [.all, .data, .memory]

/-! ### Instructions of one shape -/

/-- Source operand `ea`, destination `dn` (form 1 of ADD, SUB, AND, OR). -/
def EaToDn (i : Instr) (sz : Size) (ea : Ea) (dn : RegNum) (rule : AluRule) : Prop :=
  Encoded i ∧ ∀ s : State, SourceFaults i sz ea s ∧
    ∀ v t, readEa i sz ea s = .ok (v, t) → Completes i s fun u =>
      (∃ r, r < 2 ^ sz.bits ∧ rule sz.bits v.toNat (low sz (s.dreg dn)) r s.ccr u.ccr ∧ DStored dn sz r s u) ∧
        AAfter sz ea s u ∧ MemKept s u ∧ ControlKept s u ∧ PcNext i s u

/-- Destination operand `ea` read, modified and written with source value `v`: one location for the read and the write
(R146). -/
def ModifiesEa (i : Instr) (sz : Size) (v : State → Nat) (ea : Ea) (rule : AluRule) : Prop :=
  Encoded i ∧ ∀ s : State, i.wf = true → SourceFaults i sz ea s ∧
    ∀ loc t d, evalEa i sz ea s = .ok (loc, t) → readLoc loc sz t = .ok d → Completes i s fun u =>
      (∃ r, r < 2 ^ sz.bits ∧ rule sz.bits (v s) d.toNat r s.ccr u.ccr ∧ Stored loc sz r s u) ∧
        AAfter sz ea s u ∧ ControlKept s u ∧ PcNext i s u

/-- Destination operand `ea` written with value `v` and not read. -/
def StoresEa (i : Instr) (sz : Size) (v : State → Nat) (ea : Ea) (flags : Ccr → Ccr → Prop) : Prop :=
  Encoded i ∧ ∀ s : State, i.wf = true →
    (∀ c, evalEa i sz ea s = .error c → Faults i s c) ∧
    ∀ loc t, evalEa i sz ea s = .ok (loc, t) →
      (∀ c, writeFault s.cfg loc sz = some c → Faults i s c) ∧
      (writeFault s.cfg loc sz = none → Completes i s fun u =>
        flags s.ccr u.ccr ∧ Stored loc sz (v s) s u ∧ AAfter sz ea s u ∧ ControlKept s u ∧ PcNext i s u)

/-- Operand `ea` read, nothing written but the flags: `flags` relates the old state, the value read and the new flags. -/
def ReadsEa (i : Instr) (sz : Size) (ea : Ea) (flags : State → Nat → Ccr → Prop) : Prop :=
  Encoded i ∧ ∀ s : State, SourceFaults i sz ea s ∧
    ∀ v t, readEa i sz ea s = .ok (v, t) → Completes i s fun u =>
      flags s v.toNat u.ccr ∧ DKept s u ∧ AAfter sz ea s u ∧ MemKept s u ∧ ControlKept s u ∧ PcNext i s u

/-- Source operand `ea`, destination address register `an`: the sign-extended source is combined with `an` as it is
after the source's side effect, modulo 2^32, and no flag changes (R24, R145). -/
def EaToAn (i : Instr) (sz : Size) (ea : Ea) (an : RegNum) (f : (source old : Int) → Int) : Prop :=
  Encoded i ∧ ∀ s : State, SourceFaults i sz ea s ∧
    ∀ v t, readEa i sz ea s = .ok (v, t) → Completes i s fun u =>
      ((u.areg an).toNat : Int) = f (signed sz.bits v.toNat) (afterEa sz ea an (s.areg an)).toNat % 2 ^ 32 ∧
        (∀ n, n ≠ an → u.areg n = afterEa sz ea n (s.areg n)) ∧
        DKept s u ∧ CcrMemKept s u ∧ ControlKept s u ∧ PcNext i s u

/-- A shift or rotate of data register `dn` by the count `c`, which is read first (R261). -/
def ShiftsDn (i : Instr) (sz : Size) (cnt : Count) (dn : RegNum) (rule : ShiftRule) : Prop :=
  Encoded i ∧ ∀ s : State, Completes i s fun u =>
    (∃ r, r < 2 ^ sz.bits ∧
      rule (match cnt with | .imm q => q | .reg m => (s.dreg m).toNat % 64) sz.bits (low sz (s.dreg dn)) r s.ccr u.ccr ∧
        DStored dn sz r s u) ∧
      AKept s u ∧ MemKept s u ∧ ControlKept s u ∧ PcNext i s u

/-- The value of the `k` bytes at `a`, most significant first (R60, R62). -/
def valueAt (s : State) (a : Long) (k : Nat) : Nat := s.mem.readNat a.toNat k

/-- The register forms of ADDX and SUBX: source `dy`, destination `dx`. -/
def PairsDn (i : Instr) (sz : Size) (y x : RegNum) (rule : AluRule) : Prop :=
  Encoded i ∧ ∀ s : State, Completes i s fun u =>
    (∃ r, r < 2 ^ sz.bits ∧ rule sz.bits (low sz (s.dreg y)) (low sz (s.dreg x)) r s.ccr u.ccr ∧ DStored x sz r s u) ∧
      AKept s u ∧ MemKept s u ∧ ControlKept s u ∧ PcNext i s u

/-- The memory forms of ADDX and SUBX: source `-(ay)` first, then destination `-(ax)`. -/
def PairsMem (i : Instr) (sz : Size) (y x : RegNum) (rule : AluRule) : Prop :=
  Encoded i ∧ ∀ s : State,
    let src := s.areg y - incr sz y
    let dst := afterEa sz (.preDec y) x (s.areg x) - incr sz x
    (∀ c, accessFault s.cfg src sz.bytes .read = some c → Faults i s c) ∧
    (accessFault s.cfg src sz.bytes .read = none →
      ∀ c, accessFault s.cfg dst sz.bytes .read = some c → Faults i s c) ∧
    (accessFault s.cfg src sz.bytes .read = none → accessFault s.cfg dst sz.bytes .read = none →
      Completes i s fun u =>
        (∃ r, r < 2 ^ sz.bits ∧ rule sz.bits (valueAt s src sz.bytes) (valueAt s dst sz.bytes) r s.ccr u.ccr ∧
          MemStored dst.toNat sz.bytes r s u) ∧
        (∀ n, u.areg n = afterEa sz (.preDec x) n (afterEa sz (.preDec y) n (s.areg n))) ∧
        DKept s u ∧ ControlKept s u ∧ PcNext i s u)

/-- A word source combined with the whole of `dn` (MULU, MULS): `f` is the new register as an integer, and the flags are
NZ00 of it. -/
def Multiplies (i : Instr) (ea : Ea) (dn : RegNum) (f : (source old : Nat) → Int) : Prop :=
  Encoded i ∧ ∀ s : State, SourceFaults i .w ea s ∧
    ∀ v t, readEa i .w ea s = .ok (v, t) → Completes i s fun u =>
      ((u.dreg dn).toNat : Int) = f v.toNat ((s.dreg dn).toNat % 2 ^ 16) ∧ DKeptBut dn s u ∧
        NZ00 32 (u.dreg dn).toNat s.ccr u.ccr ∧ AAfter .w ea s u ∧ MemKept s u ∧ ControlKept s u ∧ PcNext i s u

/-- N and Z after a division whose quotient does not fit (R216, R217): DIV_OVF_NZ, by default unchanged. -/
def OverflowNZ (isSigned : Bool) (divisor : Word) (dividend : Long) (s : State) (new : Ccr) : Prop :=
  (new.n, new.z) = divOvfNZ s.cfg.divOvf dividend divisor isSigned s.ccr ∧
    (s.cfg.divOvf = .unchanged → new.n = s.ccr.n ∧ new.z = s.ccr.z)

/-- DIVU and DIVS: `fits` says that the true quotient fits 16 bits, `quot` and `rem` are it and its remainder as
integers. -/
def Divides (i : Instr) (isSigned : Bool) (ea : Ea) (dn : RegNum) (quot rem : (dividend divisor : Nat) → Int)
    (fits : Int → Prop) : Prop :=
  Encoded i ∧ ∀ s : State, SourceFaults i .w ea s ∧
    ∀ v t, readEa i .w ea s = .ok (v, t) →
      (v = 0 → Faults i s .zeroDivide) ∧
      (v ≠ 0 → Completes i s fun u =>
        let q := quot (s.dreg dn).toNat v.toNat
        let m := rem (s.dreg dn).toNat v.toNat
        (fits q → ((u.dreg dn).toNat : Int) = m % 2 ^ 16 * 2 ^ 16 + q % 2 ^ 16 ∧
          (u.ccr.n = true ↔ (if isSigned then q < 0 else 2 ^ 15 ≤ q)) ∧ (u.ccr.z = true ↔ q = 0) ∧
          u.ccr.v = false ∧ u.ccr.c = false) ∧
        (¬fits q → u.dreg dn = s.dreg dn ∧ u.ccr.v = true ∧ u.ccr.c = false ∧
          OverflowNZ isSigned v (s.dreg dn) s u.ccr) ∧
        u.ccr.x = s.ccr.x ∧ DKeptBut dn s u ∧ AAfter .w ea s u ∧ MemKept s u ∧ ControlKept s u ∧ PcNext i s u)

/-- The four bytes of `v` are pushed (R69) and control goes to `target`; nothing else changes. -/
def Pushes (i : Instr) (s : State) (v target : Long) : Prop :=
  (∀ c, accessFault s.cfg (s.areg 7 - 4) 4 .write = some c → Faults i s c) ∧
  (accessFault s.cfg (s.areg 7 - 4) 4 .write = none → Completes i s fun u =>
    u.areg 7 = s.areg 7 - 4 ∧ AKeptBut 7 s u ∧ DKept s u ∧ MemStored (s.areg 7 - 4).toNat 4 v.toNat s u ∧
      u.ccr = s.ccr ∧ ControlKept s u ∧ u.pc = target)

/-- `next` (R6). -/
def next (i : Instr) (s : State) : Long := s.pc + BitVec.ofNat 32 (2 * (encode i).length)

/-- A displacement, sign-extended (R98). -/
def dispOf : Disp → Long
  | .short d => d.signExtend 32
  | .long d => d.signExtend 32

/-- No register, flag, byte of memory or control state changes. -/
def OnlyPc (s u : State) : Prop := DKept s u ∧ AKept s u ∧ CcrMemKept s u ∧ ControlKept s u

/-- The rule of BCHG, BCLR, BSET (R280): bit `s mod n` of the operand becomes `f` of itself, Z is the complement of what
it was, no other flag changes. -/
def bitRule (f : Bool → Bool) : AluRule := fun n s d r old new =>
  (∀ k, k < n → r.testBit k = if k = s % n then f (d.testBit k) else d.testBit k) ∧
    new = { old with z := !d.testBit (s % n) }

/-- The rule of BTST (R280, R281): only Z changes. -/
def testRule (n b v : Nat) (old new : Ccr) : Prop := new = { old with z := !v.testBit (b % n) }

/-- The flags of the low five bits of a word: C, V, Z, N, X from bit 0 up (R28). -/
def FlagsAre (w : Nat) (f : Ccr) : Prop :=
  f.c = w.testBit 0 ∧ f.v = w.testBit 1 ∧ f.z = w.testBit 2 ∧ f.n = w.testBit 3 ∧ f.x = w.testBit 4

/-- `R(k)` of MOVEM: D0 to D7, then A0 to A7 (R165). -/
def multi (s : State) (k : Nat) : Long := if k < 8 then s.dreg (Fin.ofNat 8 k) else s.areg (Fin.ofNat 8 k)

/-- The registers of a MOVEM list in ascending order, `m k` telling whether register `k` is in it. -/
def listed (m : Nat → Bool) : List Nat := (List.range 16).filter m

/-! ### The flag summary of R29 -/

/-- The rows of the table of R29. -/
inductive FlagRow where
  /-- All five flags are copied or computed anew. -/
  | all
  /-- ADD, SUB, NEG: all five set, X a copy of C. -/
  | arith
  /-- ADDX, SUBX, NEGX: as `arith`, but Z is only ever cleared. -/
  | extended
  /-- CMP: X kept. -/
  | compare
  /-- MOVE, logic, TST, CLR, EXT, SWAP, MUL: X kept, V and C cleared. -/
  | logic
  /-- DIV: X kept, C cleared. -/
  | divide
  /-- ASR, LSR, LSL, ROXR, ROXL: V cleared, X kept or a copy of C. -/
  | shift
  /-- ASL: X kept or a copy of C. -/
  | shiftV
  /-- ROR, ROL: X kept, V cleared. -/
  | rotate
  /-- The bit instructions: Z only. -/
  | zOnly
  /-- No flag changes. -/
  | kept
deriving DecidableEq, Repr

/-- The row of an instruction (R29). -/
def flagRow : Instr → FlagRow
  | .addi _ _ _ | .subi _ _ _ | .addEaDn _ _ _ | .addDnEa _ _ _ | .subEaDn _ _ _ | .subDnEa _ _ _ | .neg _ _ => .arith
  | .addq _ _ ea | .subq _ _ ea => if ea.mode.isAreg then .kept else .arith
  | .addx _ _ _ _ | .subx _ _ _ _ | .negx _ _ => .extended
  | .cmp _ _ _ | .cmpa _ _ _ | .cmpi _ _ _ | .cmpm _ _ _ => .compare
  | .move _ _ _ | .moveq _ _ | .andEaDn _ _ _ | .andDnEa _ _ _ | .andi _ _ _ | .orEaDn _ _ _ | .orDnEa _ _ _
  | .ori _ _ _ | .eor _ _ _ | .eori _ _ _ | .not _ _ | .tst _ _ | .clr _ _ | .ext _ _ | .swap _ | .mulu _ _
  | .muls _ _ => .logic
  | .divu _ _ | .divs _ _ => .divide
  | .asrReg _ _ _ | .lsrReg _ _ _ | .lslReg _ _ _ | .roxrReg _ _ _ | .roxlReg _ _ _ | .asrMem _ | .lsrMem _
  | .lslMem _ | .roxrMem _ | .roxlMem _ => .shift
  | .aslReg _ _ _ | .aslMem _ => .shiftV
  | .rorReg _ _ _ | .rolReg _ _ _ | .rorMem _ | .rolMem _ => .rotate
  | .btstImm _ _ | .bchgImm _ _ | .bclrImm _ _ | .bsetImm _ _ | .btstDn _ _ | .bchgDn _ _ | .bclrDn _ _
  | .bsetDn _ _ => .zOnly
  | .moveToCcr _ | .andiCcr _ | .oriCcr _ | .eoriCcr _ | .rtr => .all
  | .movea _ _ _ | .adda _ _ _ | .suba _ _ _ | .lea _ _ | .pea _ | .exgDD _ _ | .exgAA _ _ | .exgDA _ _ | .link _ _
  | .unlk _ | .movemToMem _ _ _ | .movemToRegs _ _ _ | .bcc _ _ | .bra _ | .bsr _ | .dbcc _ _ _ | .scc _ _ | .jmp _
  | .jsr _ | .rts | .nop | .trap _ => .kept

end Sys2Proof.Claims
end

