-- ==== Sys2Proof/Certificates/Slice0/Obligations.lean ====
section
/-! DEFINITION. The statements for the provers, in the order of the spec's files. -/

open Sys2Proof Sys2Proof.Machine Sys2Proof.Claims

/-! ### State, reset and registers -/

/-- R39: what construction with parameters `c` leaves in every piece of state. -/
def Obligations.ResetLeavesTheTableOfValues : Prop :=
  ∀ c : Config,
    let s := State.resetOf c
    (∀ n, s.dreg n = 0) ∧ (∀ n, n ≠ 7 → s.areg n = 0) ∧ s.areg 7 = c.spReset ∧ s.pc = c.entry ∧
      s.ccr.pack = 0 ∧ s.pending = none ∧ s.fault = none ∧
      s.status = (if c.entry.toNat = c.progEnd then .terminated else .running) ∧
      s.cfg = c ∧ ∀ a, s.mem.read a = (Memory.mk c.memInit).read a

/-- R23: reading a register at a width gives its low bits, unsigned; writing a width keeps the bits above it, and a long
write replaces the whole register; no other register changes.  First of the register file's port, then of `D[n]`. -/
def Obligations.WidthQualifiedRegisterAccess : Prop :=
  (∀ (r : Long) (sz : Size) (v : BitVec sz.bits), (lowPart sz r).toNat = r.toNat % 2 ^ sz.bits ∧
    (mergeLow sz r v).toNat = r.toNat / 2 ^ sz.bits * 2 ^ sz.bits + v.toNat) ∧
  ∀ (s : State) (n : RegNum) (sz : Size) (v : BitVec sz.bits),
    (s.dPart n sz).toNat = (s.dreg n).toNat % 2 ^ sz.bits ∧
    DStored n sz v.toNat s (s.setDPart n sz v) ∧
    (s.setDPart n sz v).dPart n sz = v ∧
    (sz = .l → ((s.setDPart n sz v).dreg n).toNat = v.toNat) ∧
    (∀ m, (s.setDPart n sz v).areg m = s.areg m)

/-- R28: the ordered sequence [C, V, Z, N, X], the packed bitfield with bits 7:5 zero, and that writing the packed form
takes bits 4:0. -/
def Obligations.FlagViewsArePackedAndOrdered : Prop :=
  (∀ f : Ccr, f.toList = [f.c, f.v, f.z, f.n, f.x] ∧
    f.pack = 0b000#3 ++ BitVec.ofBool f.x ++ BitVec.ofBool f.n ++ BitVec.ofBool f.z ++ BitVec.ofBool f.v ++
      BitVec.ofBool f.c) ∧
  (∀ w : BitVec 5, FlagsAre w.toNat (Ccr.unpack w)) ∧ ∀ f : Ccr, Ccr.unpack (f.pack.setWidth 5) = f

/-! ### Memory -/

/-- R62, R61, R60: a read of 1, 2 or 4 bytes raises AddressError or AccessFault as the checks say, alignment first, and
otherwise is the bytes from `a` on, most significant first; the range check does not wrap. -/
def Obligations.MemReadChecksThenReadsBigEndian : Prop :=
  ∀ (s : State) (a : Long) (n : Nat),
    (s.cfg.alignFault = true ∧ 1 < n ∧ a.toNat % 2 = 1 → memRead s a n = .error (.addressError a.toNat n .read)) ∧
    (¬(s.cfg.alignFault = true ∧ 1 < n ∧ a.toNat % 2 = 1) → ¬a.toNat + n ≤ s.cfg.memSize →
      memRead s a n = .error (.accessFault a.toNat n .read)) ∧
    (¬(s.cfg.alignFault = true ∧ 1 < n ∧ a.toNat % 2 = 1) → a.toNat + n ≤ s.cfg.memSize →
      ∃ v, memRead s a n = .ok v ∧ ∀ j, j < n → v.toNat / 256 ^ (n - 1 - j) % 256 = (s.mem.read (a.toNat + j)).toNat)

/-- R63: a write has the same checks with direction write; it stores the bytes most significant first, changes no other
byte and nothing else of the state, and a faulting write changes nothing at all. -/
def Obligations.MemWriteChecksThenStoresBigEndian : Prop :=
  ∀ (s : State) (a : Long) (n : Nat) (v : BitVec (8 * n)),
    (s.cfg.alignFault = true ∧ 1 < n ∧ a.toNat % 2 = 1 → memWrite s a n v = .error (.addressError a.toNat n .write)) ∧
    (¬(s.cfg.alignFault = true ∧ 1 < n ∧ a.toNat % 2 = 1) → ¬a.toNat + n ≤ s.cfg.memSize →
      memWrite s a n v = .error (.accessFault a.toNat n .write)) ∧
    (¬(s.cfg.alignFault = true ∧ 1 < n ∧ a.toNat % 2 = 1) → a.toNat + n ≤ s.cfg.memSize →
      ∃ t, memWrite s a n v = .ok t ∧ MemStored a.toNat n v.toNat s t ∧ t = { s with mem := t.mem } ∧
        memRead t a n = .ok v)

/-- R69: a push decrements SP by 4 and stores the value there, unless that access faults; a pop reads at SP and increments
it by 4, unless that access faults; neither changes anything else, pc and control state included; a push below address 0
faults, the wrapped SP being out of range (for SP = 0 that needs MEM_SIZE < 2^32: log entry 13). -/
def Obligations.PushAndPopFollowTheStackRule : Prop :=
  ∀ (s : State) (v : Long),
    (∀ c, accessFault s.cfg (s.areg 7 - 4) 4 .write = some c → push s v = .error c) ∧
    (accessFault s.cfg (s.areg 7 - 4) 4 .write = none → ∃ t, push s v = .ok t ∧
      t.areg 7 = s.areg 7 - 4 ∧ AKeptBut 7 s t ∧ DKept s t ∧ t.ccr = s.ccr ∧ ControlKept s t ∧ t.pc = s.pc ∧
      MemStored (s.areg 7 - 4).toNat 4 v.toNat s t ∧
      ∃ u, pop t = .ok (v, u) ∧ u.areg 7 = s.areg 7) ∧
    (∀ c, accessFault s.cfg (s.areg 7) 4 .read = some c → pop s = .error c) ∧
    (accessFault s.cfg (s.areg 7) 4 .read = none → ∃ w t, pop s = .ok (w, t) ∧
      w.toNat = valueAt s (s.areg 7) 4 ∧ t.areg 7 = s.areg 7 + 4 ∧ AKeptBut 7 s t ∧ DKept s t ∧ t.ccr = s.ccr ∧
      MemKept s t ∧ ControlKept s t ∧ t.pc = s.pc) ∧
    (s.cfg.memSize < 2 ^ 32 → (s.areg 7).toNat < 4 → ∃ c, push s v = .error c)

/-! ### Addressing modes -/

/-- R132 to R143: the location and the register side effect of the modes without an index register.  The step of
`(an)+` and `-(an)` is `incr` (R144). -/
def Obligations.EaModesGiveTheirLocations : Prop :=
  ∀ (i : Instr) (sz : Size) (s : State) (n : RegNum),
    evalEa i sz (.dreg n) s = .ok (.dreg n, s) ∧
    evalEa i sz (.areg n) s = .ok (.areg n, s) ∧ (Ea.areg n).ok .all .b = false ∧
    evalEa i sz (.ind n) s = .ok (.mem (s.areg n), s) ∧
    (∃ t, evalEa i sz (.postInc n) s = .ok (.mem (s.areg n), t) ∧ t = { s with a := t.a } ∧
      t.areg n = s.areg n + incr sz n ∧ AKeptBut n s t) ∧
    (∃ t, evalEa i sz (.preDec n) s = .ok (.mem (s.areg n - incr sz n), t) ∧ t = { s with a := t.a } ∧
      t.areg n = s.areg n - incr sz n ∧ AKeptBut n s t) ∧
    (∀ d, evalEa i sz (.disp n d) s = .ok (.mem (s.areg n + d.signExtend 32), s)) ∧
    (∀ w, evalEa i sz (.absW w) s = .ok (.mem (w.signExtend 32), s)) ∧
    (∀ a, evalEa i sz (.absL a) s = .ok (.mem a, s)) ∧
    (∀ v, evalEa i sz (.imm v) s = .ok (.imm v, s)) ∧
    incr .b 7 = 2 ∧ (n ≠ 7 → incr .b n = 1) ∧ incr .w n = 2 ∧ incr .l n = 4

/-- R138, R141, R142: the indexed and PC-relative modes.  `e` is the address of the operand's own extension word, which
stands in the instruction's words right after the opcode word and the instruction's own extension words; bits 10:8 of a
brief extension word that are not 000 raise IllegalInstruction; the index is the whole register or its sign-extended low
word. -/
def Obligations.IndexedAndPcRelativeModes : Prop :=
  ∀ (i : Instr) (sz : Size) (s : State) (x : Brief),
    let reg := if x.isA then s.areg x.xn else s.dreg x.xn
    let idx := if x.long then reg else (reg.setWidth 16).signExtend 32
    let e := s.pc + BitVec.ofNat 32 (2 * (1 + (ownExt i).length))
    (∀ w ws, eaExt i = w :: ws → (encode i)[1 + (ownExt i).length]? = some w) ∧
    (∀ d, evalEa i sz (.pcDisp d) s = .ok (.mem (e + d.signExtend 32), s)) ∧
    (x.rsv = 0 →
      (∀ n, evalEa i sz (.index n x) s = .ok (.mem (s.areg n + idx + x.d8.signExtend 32), s)) ∧
      evalEa i sz (.pcIndex x) s = .ok (.mem (e + idx + x.d8.signExtend 32), s)) ∧
    (x.rsv ≠ 0 →
      (∀ n, evalEa i sz (.index n x) s = .error (.illegalInstruction (opcodeWord i) (some x.word))) ∧
      evalEa i sz (.pcIndex x) s = .error (.illegalInstruction (opcodeWord i) (some x.word)))

/-- R148: reading and writing a location.  A register gives its low bits, memory its bytes, an immediate its value; a
write stores the value at the location and changes nothing else. -/
def Obligations.LocationsReadAndWriteAtTheirSize : Prop :=
  ∀ (i : Instr) (sz : Size) (s : State),
    (∀ n, ∃ v, readLoc (.dreg n) sz s = .ok v ∧ v.toNat = low sz (s.dreg n)) ∧
    (∀ n, ∃ v, readLoc (.areg n) sz s = .ok v ∧ v.toNat = low sz (s.areg n)) ∧
    (∀ k, immOk sz k = true → ∃ v, readLoc (.imm k) sz s = .ok v ∧ v.toNat = k.toNat) ∧
    (∀ a c, accessFault s.cfg a sz.bytes .read = some c → readLoc (.mem a) sz s = .error c) ∧
    (∀ a, accessFault s.cfg a sz.bytes .read = none →
      ∃ v, readLoc (.mem a) sz s = .ok v ∧ v.toNat = valueAt s a sz.bytes) ∧
    (∀ n v, ∃ u, writeLoc i (.dreg n) sz v s = .ok u ∧ Stored (.dreg n) sz v.toNat s u ∧ AKept s u ∧ u.ccr = s.ccr ∧
      ControlKept s u ∧ u.pc = s.pc) ∧
    (∀ a v c, accessFault s.cfg a sz.bytes .write = some c → writeLoc i (.mem a) sz v s = .error c) ∧
    (∀ a v, accessFault s.cfg a sz.bytes .write = none →
      ∃ u, writeLoc i (.mem a) sz v s = .ok u ∧ Stored (.mem a) sz v.toNat s u ∧ AKept s u ∧ u.ccr = s.ccr ∧
        ControlKept s u ∧ u.pc = s.pc)

/-! ### Data movement -/

/-- R161: MOVE. -/
def Obligations.MoveCopiesSourceToDestination : Prop :=
  ∀ (sz : Size) (src dst : Ea),
    let i := Instr.move sz src dst
    Encoded i ∧ ∀ s : State, i.wf = true → SourceFaults i sz src s ∧
      ∀ v t, readEa i sz src s = .ok (v, t) →
        (∀ c, evalEa i sz dst t = .error c → Faults i s c) ∧
        ∀ loc w, evalEa i sz dst t = .ok (loc, w) →
          (∀ c, writeFault s.cfg loc sz = some c → Faults i s c) ∧
          (writeFault s.cfg loc sz = none → Completes i s fun u =>
            Stored loc sz v.toNat s u ∧ NZ00 sz.bits v.toNat s.ccr u.ccr ∧
              (∀ n, u.areg n = afterEa sz dst n (afterEa sz src n (s.areg n))) ∧ ControlKept s u ∧ PcNext i s u)

/-- R162, R191, R197: MOVEA, ADDA and SUBA write all 32 bits of the address register, a word source sign-extended, and no
flag. -/
def Obligations.AddressRegisterDestinations : Prop :=
  ∀ (sz : Size) (ea : Ea) (an : RegNum),
    EaToAn (.movea sz ea an) sz ea an (fun source _ => source) ∧
    EaToAn (.adda sz ea an) sz ea an (fun source old => old + source) ∧
    EaToAn (.suba sz ea an) sz ea an (fun source old => old - source)

/-- R163, R168, R169, R212: MOVEQ, SWAP, EXG and EXT, the moves inside the register file. -/
def Obligations.RegisterMoves : Prop :=
  (∀ imm dn, Encoded (.moveq imm dn) ∧ ∀ s, Completes (.moveq imm dn) s fun u =>
    ((u.dreg dn).toNat : Int) = signed 8 imm.toNat % 2 ^ 32 ∧ NZ00 32 (u.dreg dn).toNat s.ccr u.ccr ∧
      DKeptBut dn s u ∧ AKept s u ∧ MemKept s u ∧ ControlKept s u ∧ PcNext (.moveq imm dn) s u) ∧
  (∀ dn, Encoded (.swap dn) ∧ ∀ s, Completes (.swap dn) s fun u =>
    (u.dreg dn).toNat = (s.dreg dn).toNat % 2 ^ 16 * 2 ^ 16 + (s.dreg dn).toNat / 2 ^ 16 ∧
      NZ00 32 (u.dreg dn).toNat s.ccr u.ccr ∧ DKeptBut dn s u ∧ AKept s u ∧ MemKept s u ∧ ControlKept s u ∧
      PcNext (.swap dn) s u) ∧
  (∀ sz dn, sz ≠ .b → Encoded (.ext sz dn) ∧ ∀ s, Completes (.ext sz dn) s fun u =>
    (∃ r : Nat, r < 2 ^ sz.bits ∧
      (r : Int) = signed (sz.bits / 2) ((s.dreg dn).toNat % 2 ^ (sz.bits / 2)) % 2 ^ sz.bits ∧
      DStored dn sz r s u ∧ NZ00 sz.bits r s.ccr u.ccr) ∧
      AKept s u ∧ MemKept s u ∧ ControlKept s u ∧ PcNext (.ext sz dn) s u) ∧
  (∀ x y, Encoded (.exgDD x y) ∧ ∀ s, Completes (.exgDD x y) s fun u =>
    u.dreg x = s.dreg y ∧ u.dreg y = s.dreg x ∧ (∀ m, m ≠ x → m ≠ y → u.dreg m = s.dreg m) ∧ AKept s u ∧
      CcrMemKept s u ∧ ControlKept s u ∧ PcNext (.exgDD x y) s u) ∧
  (∀ x y, Encoded (.exgAA x y) ∧ ∀ s, Completes (.exgAA x y) s fun u =>
    u.areg x = s.areg y ∧ u.areg y = s.areg x ∧ (∀ m, m ≠ x → m ≠ y → u.areg m = s.areg m) ∧ DKept s u ∧
      CcrMemKept s u ∧ ControlKept s u ∧ PcNext (.exgAA x y) s u) ∧
  (∀ x y, Encoded (.exgDA x y) ∧ ∀ s, Completes (.exgDA x y) s fun u =>
    u.dreg x = s.areg y ∧ u.areg y = s.dreg x ∧ DKeptBut x s u ∧ AKeptBut y s u ∧ CcrMemKept s u ∧
      ControlKept s u ∧ PcNext (.exgDA x y) s u)

/-- R164, R167, R150: LEA writes the address of its operand and reads no memory, so it faults only on a bad brief
extension word; PEA pushes that address, computed before SP changes. -/
def Obligations.LeaAndPeaUseTheAddressOnly : Prop :=
  (∀ ea an, Encoded (.lea ea an) ∧ ∀ s, (Instr.lea ea an).wf = true →
    (∀ c, eaAddr (.lea ea an) ea s = .error c →
      Faults (.lea ea an) s c ∧ ∃ x, c = .illegalInstruction (opcodeWord (.lea ea an)) (some x)) ∧
    ∀ a, eaAddr (.lea ea an) ea s = .ok a → Completes (.lea ea an) s fun u =>
      u.areg an = a ∧ AKeptBut an s u ∧ DKept s u ∧ CcrMemKept s u ∧ ControlKept s u ∧ PcNext (.lea ea an) s u) ∧
  (∀ ea, Encoded (.pea ea) ∧ ∀ s, (Instr.pea ea).wf = true →
    (∀ c, eaAddr (.pea ea) ea s = .error c → Faults (.pea ea) s c) ∧
    ∀ a, eaAddr (.pea ea) ea s = .ok a → Pushes (.pea ea) s a (next (.pea ea) s))

/-- R165: MOVEM registers to memory.  The listed registers, in ascending order, end up from the lowest address on, in
both forms; the first transfer that faults, in transfer order, faults the instruction. -/
def Obligations.MovemStoresTheListedRegisters : Prop :=
  ∀ (sz : Size) (mask : Word) (ea : Ea),
    let i := Instr.movemToMem sz mask ea
    let stores := fun (s u : State) (regs : List Nat) (base : Long) =>
      (∀ j k, regs[j]? = some k → ∀ b, b < sz.bytes →
        u.mem.read ((base + BitVec.ofNat 32 (j * sz.bytes)).toNat + b) =
          BitVec.ofNat 8 (low sz (multi s k) / 256 ^ (sz.bytes - 1 - b))) ∧
      (∀ x, (∀ j, j < regs.length → x < (base + BitVec.ofNat 32 (j * sz.bytes)).toNat ∨
        (base + BitVec.ofNat 32 (j * sz.bytes)).toNat + sz.bytes ≤ x) → u.mem.read x = s.mem.read x) ∧
      DKept s u ∧ u.ccr = s.ccr ∧ ControlKept s u ∧ PcNext i s u
    Encoded i ∧ ∀ s : State, i.wf = true →
      (ea.mode.isPreDec = false →
        let regs := listed mask.getLsbD
        (∀ c, eaAddr i ea s = .error c → Faults i s c) ∧
        ∀ a, eaAddr i ea s = .ok a →
          let at_ := fun j => accessFault s.cfg (a + BitVec.ofNat 32 (j * sz.bytes)) sz.bytes .write
          (∀ j c, j < regs.length → (∀ k, k < j → at_ k = none) → at_ j = some c → Faults i s c) ∧
          ((∀ j, j < regs.length → at_ j = none) → Completes i s fun u => stores s u regs a ∧ AKept s u)) ∧
      (∀ n, ea = .preDec n →
        let regs := listed fun k => mask.getLsbD (15 - k)
        let bottom := s.areg n - BitVec.ofNat 32 (regs.length * sz.bytes)
        let at_ := fun j => accessFault s.cfg (bottom + BitVec.ofNat 32 (j * sz.bytes)) sz.bytes .write
        (∀ j c, j < regs.length → (∀ k, j < k → k < regs.length → at_ k = none) → at_ j = some c → Faults i s c) ∧
        ((∀ j, j < regs.length → at_ j = none) → Completes i s fun u =>
          stores s u regs bottom ∧ u.areg n = bottom ∧ AKeptBut n s u))

/-- R166: MOVEM memory to registers.  The address is computed once; each listed register takes its sign-extended item;
with `(an)+` the final address goes to `an` even if `an` is listed. -/
def Obligations.MovemLoadsTheListedRegisters : Prop :=
  ∀ (sz : Size) (mask : Word) (ea : Ea),
    let i := Instr.movemToRegs sz mask ea
    let regs := listed mask.getLsbD
    let loads := fun (s u : State) (base : Long) (but : Nat → Prop) =>
      (∀ j k, regs[j]? = some k → ¬but k →
        ((multi u k).toNat : Int) =
          signed sz.bits (valueAt s (base + BitVec.ofNat 32 (j * sz.bytes)) sz.bytes) % 2 ^ 32) ∧
      (∀ k, k < 16 → k ∉ regs → ¬but k → multi u k = multi s k) ∧ CcrMemKept s u ∧ ControlKept s u ∧ PcNext i s u
    Encoded i ∧ ∀ s : State, i.wf = true →
      (ea.mode.isPostInc = false →
        (∀ c, eaAddr i ea s = .error c → Faults i s c) ∧
        ∀ a, eaAddr i ea s = .ok a →
          let at_ := fun j => accessFault s.cfg (a + BitVec.ofNat 32 (j * sz.bytes)) sz.bytes .read
          (∀ j c, j < regs.length → (∀ k, k < j → at_ k = none) → at_ j = some c → Faults i s c) ∧
          ((∀ j, j < regs.length → at_ j = none) → Completes i s fun u => loads s u a fun _ => False)) ∧
      (∀ n, ea = .postInc n →
        let at_ := fun j => accessFault s.cfg (s.areg n + BitVec.ofNat 32 (j * sz.bytes)) sz.bytes .read
        (∀ j c, j < regs.length → (∀ k, k < j → at_ k = none) → at_ j = some c → Faults i s c) ∧
        ((∀ j, j < regs.length → at_ j = none) → Completes i s fun u =>
          loads s u (s.areg n) (fun k => k = 8 + n.val) ∧
            u.areg n = s.areg n + BitVec.ofNat 32 (regs.length * sz.bytes)))

/-- R170, R171: LINK and UNLK, A7 as the frame register included. -/
def Obligations.LinkAndUnlkMakeAndRemoveAFrame : Prop :=
  (∀ an d, Encoded (.link an d) ∧ ∀ s : State,
    let sp := s.areg 7 - 4
    (∀ c, accessFault s.cfg sp 4 .write = some c → Faults (.link an d) s c) ∧
    (accessFault s.cfg sp 4 .write = none → Completes (.link an d) s fun u =>
      MemStored sp.toNat 4 (if an = 7 then sp else s.areg an).toNat s u ∧ (an ≠ 7 → u.areg an = sp) ∧
        u.areg 7 = sp + d.signExtend 32 ∧ (∀ m, m ≠ an → m ≠ 7 → u.areg m = s.areg m) ∧ DKept s u ∧
        u.ccr = s.ccr ∧ ControlKept s u ∧ PcNext (.link an d) s u)) ∧
  (∀ an, Encoded (.unlk an) ∧ ∀ s : State,
    (∀ c, accessFault s.cfg (s.areg an) 4 .read = some c → Faults (.unlk an) s c) ∧
    (accessFault s.cfg (s.areg an) 4 .read = none → Completes (.unlk an) s fun u =>
      (u.areg an).toNat = valueAt s (s.areg an) 4 ∧ (an ≠ 7 → u.areg 7 = s.areg an + 4) ∧
        (∀ m, m ≠ an → m ≠ 7 → u.areg m = s.areg m) ∧ DKept s u ∧ CcrMemKept s u ∧ ControlKept s u ∧
        PcNext (.unlk an) s u))

/-! ### Integer arithmetic -/

/-- R190, R192: ADD in both forms and ADDI. -/
def Obligations.AddWritesTheSumAndItsFlags : Prop :=
  (∀ sz ea dn, EaToDn (.addEaDn sz ea dn) sz ea dn addRule) ∧
  (∀ sz dn ea, ModifiesEa (.addDnEa sz dn ea) sz (fun s => low sz (s.dreg dn)) ea addRule) ∧
  (∀ sz imm ea, ModifiesEa (.addi sz imm ea) sz (fun _ => low sz imm) ea addRule)

/-- R196, R198: SUB in both forms and SUBI. -/
def Obligations.SubWritesTheDifferenceAndItsFlags : Prop :=
  (∀ sz ea dn, EaToDn (.subEaDn sz ea dn) sz ea dn subRule) ∧
  (∀ sz dn ea, ModifiesEa (.subDnEa sz dn ea) sz (fun s => low sz (s.dreg dn)) ea subRule) ∧
  (∀ sz imm ea, ModifiesEa (.subi sz imm ea) sz (fun _ => low sz imm) ea subRule)

/-- R193, R199: ADDQ and SUBQ, and their form with destination `an`: all 32 bits whatever the size, no flag. -/
def Obligations.QuickAddAndSubtract : Prop :=
  (∀ sz q ea, ea.mode.isAreg = false → ModifiesEa (.addq sz q ea) sz (fun _ => q) ea addRule) ∧
  (∀ sz q ea, ea.mode.isAreg = false → ModifiesEa (.subq sz q ea) sz (fun _ => q) ea subRule) ∧
  (∀ sz q n, Encoded (.addq sz q (.areg n)) ∧ ∀ s, Completes (.addq sz q (.areg n)) s fun u =>
    (u.areg n).toNat = ((s.areg n).toNat + q) % 2 ^ 32 ∧ AKeptBut n s u ∧ DKept s u ∧ CcrMemKept s u ∧
      ControlKept s u ∧ PcNext (.addq sz q (.areg n)) s u) ∧
  (∀ sz q n, Encoded (.subq sz q (.areg n)) ∧ ∀ s, Completes (.subq sz q (.areg n)) s fun u =>
    ((u.areg n).toNat : Int) = (((s.areg n).toNat : Int) - q) % 2 ^ 32 ∧ AKeptBut n s u ∧ DKept s u ∧
      CcrMemKept s u ∧ ControlKept s u ∧ PcNext (.subq sz q (.areg n)) s u)

/-- R194, R200: ADDX and SUBX in both forms, with the sticky Z. -/
def Obligations.ExtendedAddAndSubtract : Prop :=
  ∀ (sz : Size) (y x : RegNum),
    PairsDn (.addx sz false y x) sz y x addxRule ∧ PairsMem (.addx sz true y x) sz y x addxRule ∧
    PairsDn (.subx sz false y x) sz y x subxRule ∧ PairsMem (.subx sz true y x) sz y x subxRule

/-- R203, R204, R205: NEG, NEGX and CLR; CLR does not read its destination. -/
def Obligations.NegateAndClear : Prop :=
  ∀ (sz : Size) (ea : Ea),
    ModifiesEa (.neg sz ea) sz (fun _ => 0) ea negRule ∧
    ModifiesEa (.negx sz ea) sz (fun _ => 0) ea negxRule ∧
    StoresEa (.clr sz ea) sz (fun _ => 0) ea fun old new =>
      new.n = false ∧ new.z = true ∧ new.v = false ∧ new.c = false ∧ new.x = old.x

/-- R207, R208, R209, R211: CMP, CMPA (32 bits, a word source sign-extended), CMPI and TST write flags only and keep X. -/
def Obligations.CompareAndTestWriteFlagsOnly : Prop :=
  (∀ sz ea dn, ReadsEa (.cmp sz ea dn) sz ea fun s v new => cmpRule sz.bits v (low sz (s.dreg dn)) s.ccr new) ∧
  (∀ sz ea an, ReadsEa (.cmpa sz ea an) sz ea fun s v new =>
    ∃ w : Nat, (w : Int) = signed sz.bits v % 2 ^ 32 ∧ cmpRule 32 w (afterEa sz ea an (s.areg an)).toNat s.ccr new) ∧
  (∀ sz imm ea, ReadsEa (.cmpi sz imm ea) sz ea fun s v new => cmpRule sz.bits (low sz imm) v s.ccr new) ∧
  (∀ sz ea, ReadsEa (.tst sz ea) sz ea fun s v new => NZ00 sz.bits v s.ccr new)

/-- R210: CMPM reads `(ay)+`, then `(ax)+`, and compares. -/
def Obligations.CmpmComparesTwoMemoryItems : Prop :=
  ∀ (sz : Size) (y x : RegNum),
    let i := Instr.cmpm sz y x
    Encoded i ∧ ∀ s : State,
      let dst := afterEa sz (.postInc y) x (s.areg x)
      (∀ c, accessFault s.cfg (s.areg y) sz.bytes .read = some c → Faults i s c) ∧
      (accessFault s.cfg (s.areg y) sz.bytes .read = none →
        ∀ c, accessFault s.cfg dst sz.bytes .read = some c → Faults i s c) ∧
      (accessFault s.cfg (s.areg y) sz.bytes .read = none → accessFault s.cfg dst sz.bytes .read = none →
        Completes i s fun u =>
          cmpRule sz.bits (valueAt s (s.areg y) sz.bytes) (valueAt s dst sz.bytes) s.ccr u.ccr ∧
          (∀ n, u.areg n = afterEa sz (.postInc x) n (afterEa sz (.postInc y) n (s.areg n))) ∧
          DKept s u ∧ MemKept s u ∧ ControlKept s u ∧ PcNext i s u)

/-- R214, R215: MULU and MULS. -/
def Obligations.MultiplyWritesTheWholeProduct : Prop :=
  ∀ (ea : Ea) (dn : RegNum),
    Multiplies (.mulu ea dn) ea dn (fun v d => ((d * v : Nat) : Int)) ∧
    Multiplies (.muls ea dn) ea dn (fun v d => signed 16 d * signed 16 v % 2 ^ 32)

/-- R216, R217: DIVU and DIVS, the zero divisor and the quotient that does not fit included. -/
def Obligations.DivideWritesQuotientAndRemainder : Prop :=
  ∀ (ea : Ea) (dn : RegNum),
    Divides (.divu ea dn) false ea dn (fun d v => ((d / v : Nat) : Int)) (fun d v => ((d % v : Nat) : Int))
      (fun q => q ≤ 0xFFFF) ∧
    Divides (.divs ea dn) true ea dn (fun d v => (signed 32 d).tdiv (signed 16 v))
      (fun d v => signed 32 d - (signed 32 d).tdiv (signed 16 v) * signed 16 v)
      (fun q => -32768 ≤ q ∧ q ≤ 32767)

/-- R220: a signed division that does not overflow leaves a quotient and a remainder with
`dividend = quotient * divisor + remainder`, the remainder smaller than the divisor and of the dividend's sign or 0. -/
def Obligations.SignedDivisionLaw : Prop :=
  ∀ (ea : Ea) (dn : RegNum) (s t u : State) (v : Word),
    readEa (.divs ea dn) .w ea s = .ok (v, t) → v ≠ 0 → Machine.exec (.divs ea dn) s = .next u → u.ccr.v = false →
      let n := signed 32 (s.dreg dn).toNat
      let d := signed 16 v.toNat
      let q := signed 16 ((u.dreg dn).toNat % 2 ^ 16)
      let r := signed 16 ((u.dreg dn).toNat / 2 ^ 16)
      n = q * d + r ∧ |r| < |d| ∧ (r = 0 ∨ (r < 0 ↔ n < 0))

/-- R27, R8: of the ALU's additions and subtractions, with and without X as carry or borrow in, and of the comparison:
V says that the exact signed result does not fit, C that the exact unsigned result does not, at every width.  The signed
value of an operand is Lean's own `BitVec.toInt`. -/
def Obligations.OverflowIsSignedOverflow : Prop :=
  ∀ (n : Nat) (s d : BitVec n) (f : Ccr), 0 < n →
    let fits := fun x : Int => -2 ^ (n - 1) ≤ x ∧ x < 2 ^ (n - 1)
    (((aluAdd s d f).2.v = true ↔ ¬fits (d.toInt + s.toInt)) ∧
      ((aluAdd s d f).2.c = true ↔ 2 ^ n ≤ d.toNat + s.toNat)) ∧
    (((aluAddx s d f).2.v = true ↔ ¬fits (d.toInt + s.toInt + f.x.toNat)) ∧
      ((aluAddx s d f).2.c = true ↔ 2 ^ n ≤ d.toNat + s.toNat + f.x.toNat)) ∧
    (((aluSub s d f).2.v = true ↔ ¬fits (d.toInt - s.toInt)) ∧
      ((aluSub s d f).2.c = true ↔ d.toNat < s.toNat)) ∧
    (((aluSubx s d f).2.v = true ↔ ¬fits (d.toInt - s.toInt - f.x.toNat)) ∧
      ((aluSubx s d f).2.c = true ↔ d.toNat < s.toNat + f.x.toNat)) ∧
    (((cmpFlags s d f).v = true ↔ ¬fits (d.toInt - s.toInt)) ∧ ((cmpFlags s d f).c = true ↔ d.toNat < s.toNat))

/-! ### Logic, shifts, bits -/

/-- R241 to R247: AND, OR, EOR, NOT and their immediate forms, bit by bit, with NZ00 and X unchanged. -/
def Obligations.LogicIsBitwise : Prop :=
  (∀ sz ea dn, EaToDn (.andEaDn sz ea dn) sz ea dn (bitwiseRule fun d s => d && s)) ∧
  (∀ sz dn ea, ModifiesEa (.andDnEa sz dn ea) sz (fun s => low sz (s.dreg dn)) ea (bitwiseRule fun d s => d && s)) ∧
  (∀ sz imm ea, ModifiesEa (.andi sz imm ea) sz (fun _ => low sz imm) ea (bitwiseRule fun d s => d && s)) ∧
  (∀ sz ea dn, EaToDn (.orEaDn sz ea dn) sz ea dn (bitwiseRule fun d s => d || s)) ∧
  (∀ sz dn ea, ModifiesEa (.orDnEa sz dn ea) sz (fun s => low sz (s.dreg dn)) ea (bitwiseRule fun d s => d || s)) ∧
  (∀ sz imm ea, ModifiesEa (.ori sz imm ea) sz (fun _ => low sz imm) ea (bitwiseRule fun d s => d || s)) ∧
  (∀ sz dn ea, ModifiesEa (.eor sz dn ea) sz (fun s => low sz (s.dreg dn)) ea (bitwiseRule fun d s => d != s)) ∧
  (∀ sz imm ea, ModifiesEa (.eori sz imm ea) sz (fun _ => low sz imm) ea (bitwiseRule fun d s => d != s)) ∧
  (∀ sz ea, ModifiesEa (.not sz ea) sz (fun _ => 0) ea (bitwiseRule fun d _ => !d))

/-- R261 to R266: ASR, ASL, LSR and LSL of a data register, for every count from 0 to 63; and the overflow of ASL by
cases: for `0 < c < n` it says that the top `c + 1` bits are not all equal, for a count of `n` or more that the operand is
not 0, and for a count of 0 it is clear. -/
def Obligations.RegisterShifts : Prop :=
  (∀ (sz : Size) (cnt : Count) (dn : RegNum),
    ShiftsDn (.asrReg sz cnt dn) sz cnt dn asrRule ∧ ShiftsDn (.aslReg sz cnt dn) sz cnt dn aslRule ∧
    ShiftsDn (.lsrReg sz cnt dn) sz cnt dn lsrRule ∧ ShiftsDn (.lslReg sz cnt dn) sz cnt dn lslRule) ∧
  ∀ c n d : Nat, 0 < n → d < 2 ^ n →
    (c = 0 → ¬MsbChanges c n d) ∧
    (0 < c → c < n → (MsbChanges c n d ↔ ¬∀ k, n - 1 - c ≤ k → k < n → d.testBit k = d.testBit (n - 1))) ∧
    (n ≤ c → (MsbChanges c n d ↔ d ≠ 0))

/-- R261, R262, R267 to R270: ROR, ROL, ROXR and ROXL of a data register, for every count from 0 to 63. -/
def Obligations.RegisterRotates : Prop :=
  ∀ (sz : Size) (cnt : Count) (dn : RegNum),
    ShiftsDn (.rorReg sz cnt dn) sz cnt dn rorRule ∧ ShiftsDn (.rolReg sz cnt dn) sz cnt dn rolRule ∧
    ShiftsDn (.roxrReg sz cnt dn) sz cnt dn roxrRule ∧ ShiftsDn (.roxlReg sz cnt dn) sz cnt dn roxlRule

/-- R271: the memory forms, size W and count 1. -/
def Obligations.MemoryShiftsAndRotates : Prop :=
  ∀ ea : Ea,
    let once := fun (i : Instr) (rule : ShiftRule) =>
      ModifiesEa i .w (fun _ => 0) ea fun n _ d r old new => rule 1 n d r old new
    once (.asrMem ea) asrRule ∧ once (.aslMem ea) aslRule ∧ once (.lsrMem ea) lsrRule ∧ once (.lslMem ea) lslRule ∧
    once (.rorMem ea) rorRule ∧ once (.rolMem ea) rolRule ∧ once (.roxrMem ea) roxrRule ∧ once (.roxlMem ea) roxlRule

/-- R280 to R284: the bit instructions, static and dynamic: a data register is tested modulo 32 at size L, memory modulo
8 at size B; only Z changes, and it is the complement of the bit before the change. -/
def Obligations.BitInstructions : Prop :=
  (∀ ea : Ea, (∀ n, ea = .dreg n → bitSize ea = .l) ∧ ((∀ n, ea ≠ .dreg n) → bitSize ea = .b)) ∧
  (∀ n ea, ReadsEa (.btstImm n ea) (bitSize ea) ea fun s v new => testRule (bitSize ea).bits n.toNat v s.ccr new) ∧
  (∀ dn ea, ReadsEa (.btstDn dn ea) (bitSize ea) ea fun s v new =>
    testRule (bitSize ea).bits (s.dreg dn).toNat v s.ccr new) ∧
  (∀ n ea, ModifiesEa (.bchgImm n ea) (bitSize ea) (fun _ => n.toNat) ea (bitRule fun b => !b)) ∧
  (∀ dn ea, ModifiesEa (.bchgDn dn ea) (bitSize ea) (fun s => (s.dreg dn).toNat) ea (bitRule fun b => !b)) ∧
  (∀ n ea, ModifiesEa (.bclrImm n ea) (bitSize ea) (fun _ => n.toNat) ea (bitRule fun _ => false)) ∧
  (∀ dn ea, ModifiesEa (.bclrDn dn ea) (bitSize ea) (fun s => (s.dreg dn).toNat) ea (bitRule fun _ => false)) ∧
  (∀ n ea, ModifiesEa (.bsetImm n ea) (bitSize ea) (fun _ => n.toNat) ea (bitRule fun _ => true)) ∧
  (∀ dn ea, ModifiesEa (.bsetDn dn ea) (bitSize ea) (fun s => (s.dreg dn).toNat) ea (bitRule fun _ => true))

/-! ### Program control -/

/-- R290: the condition table by code, that each odd condition is the negation of the even one before it, that T and F
are for Scc and DBcc only, that the host's evaluator is the same function, and that after a comparison the conditions say
how the destination compares with the source, unsigned and signed. -/
def Obligations.ConditionTable : Prop :=
  (∀ f : Ccr,
    condHolds (condOf 0) f = true ∧
    (condHolds (condOf 2) f = true ↔ f.c = false ∧ f.z = false) ∧
    (condHolds (condOf 4) f = true ↔ f.c = false) ∧
    (condHolds (condOf 6) f = true ↔ f.z = false) ∧
    (condHolds (condOf 8) f = true ↔ f.v = false) ∧
    (condHolds (condOf 10) f = true ↔ f.n = false) ∧
    (condHolds (condOf 12) f = true ↔ f.n = f.v) ∧
    (condHolds (condOf 14) f = true ↔ f.z = false ∧ f.n = f.v) ∧
    (∀ k, k < 8 → condHolds (condOf (2 * k + 1)) f = !condHolds (condOf (2 * k)) f) ∧
    ∀ k x, condHolds k { f with x := x } = condHolds k f) ∧
  (∀ k : Cond, condOf (cccc k).toNat = k) ∧ (∀ s k, evalCondition s k = condHolds k s.ccr) ∧
  (∀ k, (∀ d, (Instr.bcc k d).wf = true → k ≠ .t ∧ k ≠ .f) ∧ (∀ dn d, (Instr.dbcc k dn d).wf = true) ∧
    ∀ n, (Instr.scc k (.dreg n)).wf = true) ∧
  ∀ (n s d : Nat) (old f : Ccr), 0 < n → s < 2 ^ n → d < 2 ^ n → cmpRule n s d old f →
    (condHolds .hi f = true ↔ s < d) ∧ (condHolds .ls f = true ↔ d ≤ s) ∧
    (condHolds .cc f = true ↔ s ≤ d) ∧ (condHolds .cs f = true ↔ d < s) ∧
    (condHolds .ne f = true ↔ d ≠ s) ∧ (condHolds .eq f = true ↔ d = s) ∧
    (condHolds .ge f = true ↔ signed n s ≤ signed n d) ∧ (condHolds .lt f = true ↔ signed n d < signed n s) ∧
    (condHolds .gt f = true ↔ signed n s < signed n d) ∧ (condHolds .le f = true ↔ signed n d ≤ signed n s)

/-- R295, R296, R297, R291: BRA, BSR and Bcc in both displacement forms. -/
def Obligations.BranchesGoToTheirTarget : Prop :=
  (∀ d, Encoded (.bra d) ∧ ∀ s : State, Completes (.bra d) s fun u => u.pc = s.pc + 2 + dispOf d ∧ OnlyPc s u) ∧
  (∀ d, Encoded (.bsr d) ∧ ∀ s : State, Pushes (.bsr d) s (next (.bsr d) s) (s.pc + 2 + dispOf d)) ∧
  (∀ k d, Encoded (.bcc k d) ∧ ∀ s : State, Completes (.bcc k d) s fun u =>
    u.pc = (if condHolds k s.ccr then s.pc + 2 + dispOf d else next (.bcc k d) s) ∧ OnlyPc s u)

/-- R298, R299: DBcc counts down its register's low word; Scc stores 0xFF or 0x00 and does not read its destination. -/
def Obligations.DbccCountsDownAndSccStores : Prop :=
  (∀ (k : Cond) (dn : RegNum) (d : Word),
    Encoded (.dbcc k dn d) ∧ ∀ s : State,
      (condHolds k s.ccr = true → Completes (.dbcc k dn d) s fun u => u.pc = s.pc + 4 ∧ OnlyPc s u) ∧
      (condHolds k s.ccr = false → Completes (.dbcc k dn d) s fun u =>
        let r := (low .w (s.dreg dn) + 0xFFFF) % 2 ^ 16
        DStored dn .w r s u ∧ u.pc = (if r = 0xFFFF then s.pc + 4 else s.pc + 2 + d.signExtend 32) ∧
          AKept s u ∧ CcrMemKept s u ∧ ControlKept s u)) ∧
  (∀ (k : Cond) (ea : Ea),
    StoresEa (.scc k ea) .b (fun s => if condHolds k s.ccr then 0xFF else 0x00) ea fun old new => new = old)

/-- R300, R301: JMP and JSR; the target is the operand's address, computed before SP changes, and is not checked. -/
def Obligations.JumpsGoToTheOperandAddress : Prop :=
  (∀ ea, Encoded (.jmp ea) ∧ ∀ s : State, (Instr.jmp ea).wf = true →
    (∀ c, eaAddr (.jmp ea) ea s = .error c →
      Faults (.jmp ea) s c ∧ ∃ x, c = .illegalInstruction (opcodeWord (.jmp ea)) (some x)) ∧
    ∀ a, eaAddr (.jmp ea) ea s = .ok a → Completes (.jmp ea) s fun u => u.pc = a ∧ OnlyPc s u) ∧
  (∀ ea, Encoded (.jsr ea) ∧ ∀ s : State, (Instr.jsr ea).wf = true →
    (∀ c, eaAddr (.jsr ea) ea s = .error c → Faults (.jsr ea) s c) ∧
    ∀ a, eaAddr (.jsr ea) ea s = .ok a → Pushes (.jsr ea) s (next (.jsr ea) s) a)

/-- R302, R303, R304: RTS, RTR and NOP. -/
def Obligations.ReturnsPopThePc : Prop :=
  (Encoded .rts ∧ ∀ s : State,
    (∀ c, accessFault s.cfg (s.areg 7) 4 .read = some c → Faults .rts s c) ∧
    (accessFault s.cfg (s.areg 7) 4 .read = none → Completes .rts s fun u =>
      u.pc.toNat = valueAt s (s.areg 7) 4 ∧ u.areg 7 = s.areg 7 + 4 ∧ AKeptBut 7 s u ∧ DKept s u ∧
        CcrMemKept s u ∧ ControlKept s u)) ∧
  (Encoded .rtr ∧ ∀ s : State,
    (∀ c, accessFault s.cfg (s.areg 7) 2 .read = some c → Faults .rtr s c) ∧
    (accessFault s.cfg (s.areg 7) 2 .read = none →
      ∀ c, accessFault s.cfg (s.areg 7 + 2) 4 .read = some c → Faults .rtr s c) ∧
    (accessFault s.cfg (s.areg 7) 2 .read = none → accessFault s.cfg (s.areg 7 + 2) 4 .read = none →
      Completes .rtr s fun u =>
        FlagsAre (valueAt s (s.areg 7) 2) u.ccr ∧ u.pc.toNat = valueAt s (s.areg 7 + 2) 4 ∧
          u.areg 7 = s.areg 7 + 6 ∧ AKeptBut 7 s u ∧ DKept s u ∧ MemKept s u ∧ ControlKept s u)) ∧
  (Encoded .nop ∧ ∀ s : State, Completes .nop s fun u => u.pc = s.pc + 2 ∧ OnlyPc s u)

/-! ### System -/

/-- R321 to R324: MOVE to CCR and the immediate operations on the CCR. -/
def Obligations.CcrInstructions : Prop :=
  (∀ ea, ReadsEa (.moveToCcr ea) .w ea fun _ v new => FlagsAre v new) ∧
  ∀ (imm : BitVec 5) (i : Instr) (f : Bool → Bool → Bool),
    (i = .andiCcr imm ∧ f = (fun old b => old && b)) ∨ (i = .oriCcr imm ∧ f = (fun old b => old || b)) ∨
      (i = .eoriCcr imm ∧ f = (fun old b => old != b)) →
    Encoded i ∧ ∀ s : State, Completes i s fun u =>
      u.ccr.c = f s.ccr.c (imm.getLsbD 0) ∧ u.ccr.v = f s.ccr.v (imm.getLsbD 1) ∧
        u.ccr.z = f s.ccr.z (imm.getLsbD 2) ∧ u.ccr.n = f s.ccr.n (imm.getLsbD 3) ∧
        u.ccr.x = f s.ccr.x (imm.getLsbD 4) ∧
        DKept s u ∧ AKept s u ∧ MemKept s u ∧ ControlKept s u ∧ PcNext i s u

/-- R320, R357, R358, R359: the request half of TRAP by task number, the terminate task, the unimplemented vectors and
tasks, and the string that WriteString captures or fails to find. -/
def Obligations.TrapPublishesItsRequest : Prop :=
  ∀ (v : Fin 16) (s : State),
    let i := Instr.trap v
    let task := low .b (s.dreg 0)
    let publishes := fun p : Interrupt =>
      Machine.exec i s = .next { s with pc := s.pc + 2, pending := some p, status := .awaitingInterrupt }
    let base := (s.areg 1).toNat
    Encoded i ∧
    (v ≠ 15 → Faults i s (.unimplementedTrap v none)) ∧
    (v = 15 →
      (task = 2 → publishes (.readString (s.areg 1) s.cfg.rsMax)) ∧
      (task = 3 → publishes (.writeInteger (s.dreg 1))) ∧
      (task = 4 → publishes .readInteger) ∧
      (task = 9 → Machine.exec i s = .next { s with pc := s.pc + 2, status := .terminated }) ∧
      (task = 14 →
        (∀ text : List Byte, (∀ j, j < text.length → text[j]? = some (s.mem.read (base + j))) →
          (∀ b, b ∈ text → b ≠ 0) → s.mem.read (base + text.length) = 0 → base + text.length < s.cfg.memSize →
          publishes (.writeString text)) ∧
        ((∀ a, base ≤ a → a < s.cfg.memSize → s.mem.read a ≠ 0) →
          Faults i s (.accessFault (max base s.cfg.memSize) 1 .read))) ∧
      (task ∉ [2, 3, 4, 9, 14] → Faults i s (.unimplementedTrap 15 (some (BitVec.ofNat 8 task)))))

/-- R362, R5: what the host's answer does: rejected without change, or the result half by kind and the end-of-program test;
a result half that faults keeps none of its writes, records the TRAP's address and leaves `pc`.  The bytes are written in
order, so that one written to an address that a later one is written to (only a string of 2^32 bytes or more, modulo 2^32)
does not stay.  That the byte addresses are taken modulo 2^32 is the model's own inference (log entry 8, DEDUCED). -/
def Obligations.AnswerCompletesTheTrap : Prop :=
  ∀ (ans : Answer) (s : State),
    let resumed := fun t : State =>
      { t with pending := none, status := if s.pc.toNat = s.cfg.progEnd then Status.terminated else .running }
    (s.status ≠ .awaitingInterrupt → answerInterrupt ans s = (s, some .noInterruptPending)) ∧
    (s.status = .awaitingInterrupt →
      (s.pending = some .readInteger →
        (∀ v, ans = .value v → answerInterrupt ans s = (resumed (s.setD 1 v), none)) ∧
        ((∀ v, ans ≠ .value v) → answerInterrupt ans s = (s, some .shapeMismatch))) ∧
      (∀ p, ((∃ v, p = .writeInteger v) ∨ ∃ text, p = .writeString text) → s.pending = some p →
        (ans = .empty → answerInterrupt ans s = (resumed s, none)) ∧
        (ans ≠ .empty → answerInterrupt ans s = (s, some .shapeMismatch))) ∧
      (∀ b m, s.pending = some (.readString b m) →
        ((∀ bs, ans = .bytes bs → s.cfg.rsMax < bs.length) → answerInterrupt ans s = (s, some .shapeMismatch)) ∧
        ∀ bs, ans = .bytes bs → bs.length ≤ s.cfg.rsMax →
          let at_ := fun j => (s.areg 1 + BitVec.ofNat 32 j)
          (∀ j c, j ≤ bs.length → (∀ k, k < j → accessFault s.cfg (at_ k) 1 .write = none) →
            accessFault s.cfg (at_ j) 1 .write = some c →
            answerInterrupt ans s =
              ({ s with pending := none, status := .terminatedByFault, fault := some ⟨c, s.pc - 2⟩ }, none)) ∧
          ((∀ j, j ≤ bs.length → accessFault s.cfg (at_ j) 1 .write = none) →
            ∃ t, answerInterrupt ans s = (resumed t, none) ∧ t = { s with d := t.d, mem := t.mem } ∧
              DStored 1 .w (bs.length % 2 ^ 16) s t ∧
              (∀ j b, bs[j]? = some b → (∀ k, j < k → k ≤ bs.length → at_ k ≠ at_ j) →
                t.mem.read (at_ j).toNat = b) ∧ t.mem.read (at_ bs.length).toNat = 0 ∧
              ∀ x, (∀ j, j ≤ bs.length → x ≠ (at_ j).toNat) → t.mem.read x = s.mem.read x)))

/-! ### Faults, steps and runs -/

/-- R147, R341: every instruction answers a next state, and if it ends in TerminatedByFault it has kept none of its
effects: only STATUS and FAULT differ, and FAULT names the instruction's own address.  The same of a whole step, the fetch
and the decoding included. -/
def Obligations.FaultsArePrecise : Prop :=
  (∀ (i : Instr) (s : State), ∃ u, Machine.exec i s = .next u ∧
    (u.status = .terminatedByFault → s.status ≠ .terminatedByFault →
      ∃ c, u = { s with status := .terminatedByFault, fault := some ⟨c, s.pc⟩ })) ∧
  ∀ s : State, s.status = .running → ∃ u, step s = .next u ∧
    (u.status = .terminatedByFault → ∃ c, u = { s with status := .terminatedByFault, fault := some ⟨c, s.pc⟩ })

/-- R343, R344: the fault of the fetch and of the opcode word, at the start of a step.  An odd `pc`, a `pc` outside the
program and a `pc` that begins no instruction are not in ISTART.  R119: what is in ISTART: PROG_BASE, the address after an
instruction that starts there when it is below PROG_END, and nothing else; `lenOf` is the length of R107. -/
def Obligations.FetchAndOpcodeFaults : Prop :=
  (∀ c : Config,
    (c.prog ≠ [] → inIStart c c.progBase = true) ∧
    (∀ (a b : Long) (w : Word), inIStart c a = true → c.prog[(a.toNat - c.progBase.toNat) / 2]? = some w →
      b.toNat = a.toNat + 2 * lenOf w → b.toNat < c.progEnd → inIStart c b = true) ∧
    (∀ b : Long, inIStart c b = true → c.prog ≠ [] ∧ (b = c.progBase ∨
      ∃ (a : Long) (w : Word), inIStart c a = true ∧ c.prog[(a.toNat - c.progBase.toNat) / 2]? = some w ∧
        b.toNat = a.toNat + 2 * lenOf w ∧ b.toNat < c.progEnd))) ∧
  ∀ s : State, s.status = .running →
    let faulted := fun c : Cause => { s with status := .terminatedByFault, fault := some ⟨c, s.pc⟩ }
    (inIStart s.cfg s.pc = false → step s = .next (faulted (.fetchFault s.pc))) ∧
    (∀ w ws, inIStart s.cfg s.pc = true → fetchWords s.cfg s.pc 5 = w :: ws →
      decode (w :: ws) = .error (.illegal w) → step s = .next (faulted (.illegalInstruction w none))) ∧
    (s.cfg.progBase.toNat % 2 = 0 → s.pc.toNat % 2 = 1 → inIStart s.cfg s.pc = false) ∧
    (s.pc.toNat < s.cfg.progBase.toNat ∨ s.cfg.progEnd ≤ s.pc.toNat → inIStart s.cfg s.pc = false)

/-- R360, R356: when the words at `pc` decode to `i`, the step is `exec i` followed by the end-of-program test. -/
def Obligations.StepRunsTheDecodedInstruction : Prop :=
  ∀ (s : State) (i : Instr) (rest : List Word), s.status = .running → inIStart s.cfg s.pc = true →
    decode (fetchWords s.cfg s.pc 5) = .ok (i, rest) →
    ∃ t, Machine.exec i s = .next t ∧
      step s = .next (if t.status = .running ∧ t.pc.toNat = t.cfg.progEnd then { t with status := .terminated } else t)

/-- R360, R70: an admitted instruction whose words stand in the program at `pc` is the one that the step runs. -/
def Obligations.PlacedInstructionRuns : Prop :=
  ∀ (s : State) (i : Instr), i.wf = true → s.status = .running → inIStart s.cfg s.pc = true →
    (∀ k w, (encode i)[k]? = some w → fetch16 s.cfg (s.pc + BitVec.ofNat 32 (2 * k)) = some w) →
    step s = endStep (Machine.exec i s)

/-- R70, R119, R64: in a well-formed instantiation every instruction start is even, and the words of the instruction that
starts there are all in the program store: a step there never raises FetchFault. -/
def Obligations.FetchStaysInsideAWellFormedProgram : Prop :=
  ∀ s : State, wellFormedConfig s.cfg = true → s.status = .running → inIStart s.cfg s.pc = true →
    s.pc.toNat % 2 = 0 ∧ s.cfg.progBase.toNat ≤ s.pc.toNat ∧ s.pc.toNat < s.cfg.progEnd ∧
    ((∃ i, fetchDecode s = .ok i ∧ i.wf = true ∧ s.pc.toNat + 2 * i.len ≤ s.cfg.progEnd) ∨
      ∃ w, fetch16 s.cfg s.pc = some w ∧ fetchDecode s = .error (.illegalInstruction w none))

/-- R355, R342, R30: the transitions of STATUS under every call of the host; the two terminated statuses absorb every
call, and a rejected call changes nothing. -/
def Obligations.StatusTransitions : Prop :=
  ∀ (s : State) (call : HostCall),
    let u := hostCall s call
    (s.status = .terminated ∨ s.status = .terminatedByFault → u = s) ∧
    (s.status = .awaitingInterrupt → call = .step → u = s) ∧
    (s.status = .awaitingInterrupt → ∀ a, call = .answer a →
      ((answerInterrupt a s).2 ≠ none → u = s) ∧
      ((answerInterrupt a s).2 = none →
        (u.status = .running ∧ u.pc.toNat ≠ u.cfg.progEnd) ∨ (u.status = .terminated ∧ u.pc.toNat = u.cfg.progEnd) ∨
          (u.status = .terminatedByFault ∧ u.fault ≠ none))) ∧
    (s.status = .running → ∀ a, call = .answer a → u = s) ∧
    (s.status = .running → call = .step →
      (u.status = .running ∧ u.pc.toNat ≠ u.cfg.progEnd) ∨
      (u.status = .terminated ∧ (u.pc.toNat = u.cfg.progEnd ∨
        (fetchDecode s = .ok (.trap 15) ∧ low .b (s.dreg 0) = 9))) ∨
      (u.status = .awaitingInterrupt ∧ u.pending ≠ none ∧ fetchDecode s = .ok (.trap 15) ∧
        low .b (s.dreg 0) ∈ [2, 3, 4, 14]) ∨
      (u.status = .terminatedByFault ∧ ∃ c, u.fault = some ⟨c, s.pc⟩))

/-- R361: a run that ends is `step` iterated while the status is Running, and iterating `step` more often than the run
needs changes nothing; the response of `run` in every status; a run that has not ended in `n` steps is still Running. -/
def Obligations.RunIsIteratedStep : Prop :=
  ∀ (n : Nat) (s t : State),
    (runFuel n s = none ↔ (stepState^[n] s).status = .running) ∧
    (s.status ≠ .running → runFuel n s = some s ∧ runResponse n s = some (s.status, (stepResponse s).error)) ∧
    (s.status = .running → runFuel n s = some t → runResponse n s = some (t.status, none)) ∧
    (runFuel n s = some t ↔ t.status ≠ .running ∧ stepState^[n] s = t) ∧
    (runFuel n s = some t → ∃ k, k ≤ n ∧ stepState^[k] s = t ∧ ∀ j, j < k → (stepState^[j] s).status = .running)

/-- R366, R38: the Step record, the host errors of `step`, `run`, the answer and the accessors, and their codes; no
rejected call changes the state.  The codes of STATUS (R30) and of the fault causes (R340). -/
def Obligations.HostErrorsAreReportedAndChangeNothing : Prop :=
  (∀ s : State,
    (s.status = .running → (stepResponse s).error = none ∧
      (stepResponse s).record = some ⟨s.pc, lineAt s.cfg s.pc, (stepState s).status⟩) ∧
    (s.status = .awaitingInterrupt → stepState s = s ∧
      stepResponse s = ⟨none, .awaitingInterrupt, some .interruptPending⟩ ∧
      ∀ n, runFuel n s = some s ∧ runResponse n s = some (.awaitingInterrupt, some .interruptPending)) ∧
    (s.status = .terminated ∨ s.status = .terminatedByFault → stepState s = s ∧
      stepResponse s = ⟨none, s.status, some .halted⟩ ∧
      ∀ n, runFuel n s = some s ∧ runResponse n s = some (s.status, some .halted)) ∧
    (s.status ≠ .awaitingInterrupt → ∀ a, (answerInterrupt a s).2 = some .noInterruptPending) ∧
    (s.status = .awaitingInterrupt → ∀ a p, s.pending = some p →
      ((answerInterrupt a s).2 = some .shapeMismatch ↔ a.fits s.cfg p = false)) ∧
    (∀ a e, (answerInterrupt a s).2 = some e → (answerInterrupt a s).1 = s) ∧
    (∀ n sz, 8 ≤ n →
      readDataReg s n sz = .error .badRegisterIndex ∧ readAddrReg s n sz = .error .badRegisterIndex) ∧
    (∀ a len, s.cfg.memSize < a + len → readBytes s a len = .error .badAddress)) ∧
  Status.running.code = 0 ∧ Status.awaitingInterrupt.code = 1 ∧ Status.terminated.code = 2 ∧
  Status.terminatedByFault.code = 3 ∧
  (∀ a, (Cause.fetchFault a).code = 1) ∧ (∀ a n k, (Cause.accessFault a n k).code = 2) ∧
  (∀ a n k, (Cause.addressError a n k).code = 3) ∧ (∀ w x, (Cause.illegalInstruction w x).code = 4) ∧
  Cause.zeroDivide.code = 5 ∧ (∀ v t, (Cause.unimplementedTrap v t).code = 32 + v.val) ∧
  HostError.halted.code = 1 ∧ HostError.interruptPending.code = 2 ∧ HostError.noInterruptPending.code = 3 ∧
  HostError.shapeMismatch.code = 4 ∧ HostError.badRegisterIndex.code = 5 ∧ HostError.badAddress.code = 6

/-- R364, R363, R365: the accessors of the host: registers at a width, the register snapshot, a range of memory, the
flags as a sequence and as a bitfield, the condition evaluator, the pending descriptor, the line of an address and the
instruction at it.  That LINE_OF (R4) is a table by program word, the line of a start being entry (a - PROG_BASE) / 2, and
that a well-formed instantiation has an entry for every word, is the model's own choice (log entry 4, DESIGN CHOICE). -/
def Obligations.HostAccessorsReadTheState : Prop :=
  ∀ s : State,
    (∀ (n : RegNum) (sz : Size), (∃ v, readDataReg s n.val sz = .ok v ∧ v.toNat = low sz (s.dreg n)) ∧
      ∃ v, readAddrReg s n.val sz = .ok v ∧ v.toNat = low sz (s.areg n)) ∧
    (∀ n : RegNum, (registerSnapshot s).1[n.val]? = some (s.dreg n) ∧
      (registerSnapshot s).2[n.val]? = some (s.areg n)) ∧
    (∀ a len, a + len ≤ s.cfg.memSize → ∃ bs, readBytes s a len = .ok bs ∧ bs.length = len ∧
      ∀ j, j < len → bs[j]? = some (s.mem.read (a + j))) ∧
    flagSequence s = [s.ccr.c, s.ccr.v, s.ccr.z, s.ccr.n, s.ccr.x] ∧ packedFlags s = s.ccr.pack ∧
    (∀ k, evalCondition s k = condHolds k s.ccr) ∧ getCurrentInterrupt s = s.pending ∧
    currentLine s = lineAt s.cfg s.pc ∧
    (∀ a, inIStart s.cfg a = false → getInstructionAt s.cfg a = none ∧ lineAt s.cfg a = none) ∧
    (∀ a, inIStart s.cfg a = true →
      lineAt s.cfg a = s.cfg.lines[(a.toNat - s.cfg.progBase.toNat) / 2]? ∧
      (wellFormedConfig s.cfg = true → ∃ line, lineAt s.cfg a = some line) ∧
      ∀ i rest, decode (fetchWords s.cfg a 5) = .ok (i, rest) →
        getInstructionAt s.cfg a = some (.instr i, lineAt s.cfg a))

/-! ### Encoding -/

/-- R100: the table of effective-address classes, that `an` is never an operand of size B, and R101, R92, R93: the opcode
word of every admitted instruction is the pattern of its row. -/
def Obligations.OpcodeWordsFollowTheTable : Prop :=
  (∀ (m : EaMode) (c : EaClass), c.has m = decide (c ∈ classesOf m)) ∧
  (∀ n c, (Ea.areg n).ok c .b = false) ∧ ∀ i : Instr, Encoded i

/-- Decoding the words of an admitted instruction gives it back, with every operand, and leaves the words after it. -/
def Obligations.DecodeOfEncodeIsTheInstruction : Prop :=
  ∀ (i : Instr) (rest : List Word), i.wf = true → decode (encode i ++ rest) = .ok (i, rest)

/-- R102, R103, R107, R90: the decoder is total; what it accepts is admitted and has the opcode word it was read from,
and it takes as many words as the opcode word alone says, from 1 to 5; it rejects an opcode word whatever follows. -/
def Obligations.DecodedInstructionsAreAdmitted : Prop :=
  ∀ (w : Word) (ws : List Word),
    (∀ i rest, decode (w :: ws) = .ok (i, rest) →
      i.wf = true ∧ opcodeWord i = w ∧ i.len = lenOf w ∧ 1 ≤ i.len ∧ i.len ≤ 5 ∧
        ∃ taken, ws = taken ++ rest ∧ taken.length + 1 = i.len) ∧
    (∀ e, decode (w :: ws) = .error e →
      (e = .illegal w ∧ lenOf w = 1 ∧ ∀ vs, decode (w :: vs) = .error (.illegal w)) ∨
      (e = .truncated ∧ ws.length + 1 < lenOf w))

/-- Words written out from the patterns of R101 and the extension words of R96 to R99, at least one for each of the
sixteen lines: eighteen instructions, and three opcode words that are illegal, those of lines A and F among them. -/
def Obligations.SampleWordsDecode : Prop :=
  decode [0x0680#16, 0x0000#16, 0x0003#16] = .ok (.addi .l 3 (.dreg 0), []) ∧
  decode [0x0890#16, 0x0007#16] = .ok (.bclrImm 7 (.ind 0), []) ∧
  decode [0x1001#16] = .ok (.move .b (.dreg 1) (.dreg 0), []) ∧
  decode [0x3418#16] = .ok (.move .w (.postInc 0) (.dreg 2), []) ∧
  decode [0x3640#16] = .ok (.movea .w (.dreg 0) 3, []) ∧
  decode [0x203C#16, 0x0000#16, 0x0005#16] = .ok (.move .l (.imm 5) (.dreg 0), []) ∧
  decode [0x48E7#16, 0xE080#16] = .ok (.movemToMem .l 0xE080 (.preDec 7), []) ∧
  decode [0x4E56#16, 0xFFF8#16] = .ok (.link 6 0xFFF8, []) ∧
  decode [0x4E4F#16] = .ok (.trap 15, []) ∧
  decode [0x51C8#16, 0xFFFC#16] = .ok (.dbcc .f 0 0xFFFC, []) ∧
  decode [0x66FA#16] = .ok (.bcc .ne (.short 0xFA), []) ∧
  decode [0x76FF#16] = .ok (.moveq 0xFF 3, []) ∧
  decode [0x9081#16] = .ok (.subEaDn .l (.dreg 1) 0, []) ∧
  decode [0x80C1#16] = .ok (.divu (.dreg 1) 0, []) ∧
  decode [0xB388#16] = .ok (.cmpm .l 0 1, []) ∧
  decode [0xC189#16] = .ok (.exgDA 0 1, []) ∧
  decode [0xD181#16] = .ok (.addx .l false 1 0, []) ∧
  decode [0xE2A8#16] = .ok (.lsrReg .l (.reg 1) 0, []) ∧
  decode [0x4AFC#16] = .error (.illegal 0x4AFC#16) ∧
  decode [0xA000#16] = .error (.illegal 0xA000#16) ∧
  decode [0xFFFF#16] = .error (.illegal 0xFFFF#16)

/-! ### The whole machine -/

/-- R31, R32, R34, R36, R356: the invariant of the core is kept by every step, from every state that has it. -/
def Obligations.StepKeepsTheInvariant : Prop :=
  ∀ s t : State, s.Inv → step s = .next t → t.Inv

/-- The invariant holds after construction with well-formed parameters, and in the model's own reset state: that is the
construction with the defaults of R4, no program and an empty memory image (the model's choice, log entry 1).  The
defaults of R4 for every memory size and program; SP_RESET is the largest even number that is at most MEM_SIZE. -/
def Obligations.ResetHasTheInvariant : Prop :=
  (∀ c : Config, wellFormedConfig c = true → (State.resetOf c).Inv) ∧ State.reset.Inv ∧
  State.reset = State.resetOf Config.default ∧ wellFormedConfig Config.default = true ∧
  Config.default = Config.ofProgram 16777215 [] Config.default.progBase [] [] ∧
  Config.default.spReset = 0xFFFFFE#32 ∧ (∀ a, State.reset.mem.read a = 0) ∧
  ∀ memSize memInit base prog lines,
    let c := Config.ofProgram memSize memInit base prog lines
    c.memSize = memSize ∧ c.memInit = memInit ∧ c.progBase = base ∧ c.prog = prog ∧ c.lines = lines ∧
      c.entry = base ∧ c.alignFault = false ∧ c.divOvf = .unchanged ∧ c.rsMax = 80 ∧
      ∃ e, e % 2 = 0 ∧ e ≤ memSize ∧ memSize < e + 2 ∧ c.spReset.toNat = e % 2 ^ 32

/-- The invariant is kept by every sequence of host calls. -/
def Obligations.HostRunKeepsTheInvariant : Prop :=
  ∀ (s : State) (calls : List HostCall), s.Inv → (hostRun s calls).Inv

/-- R37, R35, R74: no host call changes a parameter, so the program store is never written and a store to a data address
inside the program changes no later fetch. -/
def Obligations.ProgramAndParametersNeverChange : Prop :=
  ∀ (s : State) (calls : List HostCall), (hostRun s calls).cfg = s.cfg ∧
    ∀ a, fetch16 (hostRun s calls).cfg a = fetch16 s.cfg a

/-- R29: the flags an instruction keeps and the flags it clears, row by row, whatever its operands; R221: X. -/
def Obligations.FlagSummaryTable : Prop :=
  ∀ (i : Instr) (s u : State), Machine.exec i s = .next u → u.status ≠ .terminatedByFault →
    (flagRow i = .kept → u.ccr = s.ccr) ∧
    (flagRow i = .logic → u.ccr.x = s.ccr.x ∧ u.ccr.v = false ∧ u.ccr.c = false) ∧
    (flagRow i = .divide → u.ccr.x = s.ccr.x ∧ u.ccr.c = false) ∧
    (flagRow i = .compare → u.ccr.x = s.ccr.x) ∧
    (flagRow i = .rotate → u.ccr.x = s.ccr.x ∧ u.ccr.v = false) ∧
    (flagRow i = .shift → u.ccr.v = false ∧ (u.ccr.x = u.ccr.c ∨ u.ccr.x = s.ccr.x)) ∧
    (flagRow i = .shiftV → u.ccr.x = u.ccr.c ∨ u.ccr.x = s.ccr.x) ∧
    (flagRow i = .zOnly → u.ccr = { s.ccr with z := u.ccr.z }) ∧
    (flagRow i = .arith → u.ccr.x = u.ccr.c) ∧
    (flagRow i = .extended → u.ccr.x = u.ccr.c ∧ (u.ccr.z = true → s.ccr.z = true))

/-- R301, R302: a subroutine call and the return that follows it come back to the instruction after the call with the
stack pointer and every other register as before. -/
def Obligations.ReturnAfterCallComesBack : Prop :=
  ∀ (s : State) (i : Instr) (target : Long),
    ((∃ ea, i = .jsr ea ∧ eaAddr i ea s = .ok target) ∨ ∃ d, i = .bsr d ∧ target = s.pc + 2 + dispOf d) →
    accessFault s.cfg (s.areg 7 - 4) 4 .write = none →
    ∃ u w, Machine.exec i s = .next u ∧ u.pc = target ∧ Machine.exec .rts u = .next w ∧ w.pc = next i s ∧
      AKept s w ∧ DKept s w ∧ w.ccr = s.ccr ∧ ControlKept s w

/-- R194: ADD on the low longs followed by ADDX on the high longs adds 64-bit numbers, with the carry out in C and X. -/
def Obligations.AddThenAddxAddsSixtyFourBits : Prop :=
  ∀ (s : State) (y0 x0 y1 x1 : RegNum), x1 ≠ x0 → y1 ≠ x0 →
    ∃ t u, Machine.exec (.addEaDn .l (.dreg y0) x0) s = .next t ∧ Machine.exec (.addx .l false y1 x1) t = .next u ∧
      let total := (s.dreg x1).toNat * 2 ^ 32 + (s.dreg x0).toNat + ((s.dreg y1).toNat * 2 ^ 32 + (s.dreg y0).toNat)
      (u.dreg x1).toNat * 2 ^ 32 + (u.dreg x0).toNat = total % 2 ^ 64 ∧
        (u.ccr.c = true ↔ 2 ^ 64 ≤ total) ∧ u.ccr.x = u.ccr.c
end

