-- ==== Sys2Proof/Laws/Decode.lean ====
section
/-! SUPPORT. Lemmas about the decoder and the encoder: fields of an opcode word, operands and their extension words. -/

namespace Sys2Proof

/-! ### Codes -/

@[simp] theorem sizeOfSs_ss (sz : Size) : sizeOfSs sz.ss = some sz := by cases sz <;> rfl

@[simp] theorem sizeOfZz_zz (sz : Size) : sizeOfZz sz.zz = some sz := by cases sz <;> rfl

theorem sizeOfBit_code (sz : Size) (h : sz.isWL = true) : sizeOfBit (sz.bitCode == 1) = sz := by
  cases sz <;> first | rfl | cases h

@[simp] theorem condOf_code (k : Cond) : condOf k.code = k := by cases k <;> rfl

theorem quickOf_quickCode {q : Nat} (h : quickOk q = true) : quickOf (quickCode q) = q := by
  simp only [quickOk, decide_eq_true_eq] at h
  unfold quickOf quickCode
  split <;> omega

@[simp] theorem eaModeOf_mode (e : EaMode) (r : RegNum) (h : r.val = e.r) : eaModeOf e.m r = some e := by
  cases e <;> simp only [EaMode.m, EaMode.r] at h ⊢ <;> simp only [eaModeOf, h] <;> first
    | rfl
    | (congr 2; exact Fin.ext h)

theorem Size.ss_lt (sz : Size) : sz.ss < 3 := by cases sz <;> decide

theorem Size.zz_lt (sz : Size) : 0 < sz.zz ∧ sz.zz < 4 := by cases sz <;> decide

theorem Size.bitCode_lt (sz : Size) : sz.bitCode < 2 := by cases sz <;> decide

theorem Cond.code_lt (k : Cond) : k.code < 16 := by cases k <;> decide

theorem EaMode.m_lt (e : EaMode) : e.m < 8 := by cases e <;> simp [EaMode.m]

theorem EaMode.r_lt (e : EaMode) : e.r < 8 := by cases e <;> first | decide | exact Fin.isLt _

theorem quickCode_lt (q : Nat) : quickCode q < 8 := Nat.mod_lt _ (by decide)

theorem Disp.code_lt (d : Disp) : d.code < 256 := by
  cases d with
  | short d => exact d.isLt
  | long d => exact Nat.zero_lt_succ 255

/-! ### Extension words -/

theorem briefOf_word (x : Brief) : briefOf x.word = x := by
  obtain ⟨isA, xn, long, rsv, d8⟩ := x
  have h1 := xn.isLt
  have h2 := rsv.isLt
  have h3 := d8.isLt
  have hw : (Brief.word ⟨isA, xn, long, rsv, d8⟩).toNat =
      isA.toNat * 32768 + xn.val * 4096 + long.toNat * 2048 + rsv.val * 256 + d8.toNat := by
    rw [Brief.word, BitVec.toNat_ofNat]
    cases isA <;> cases long <;> simp only [Bool.toNat_true, Bool.toNat_false] <;> omega
  simp only [briefOf, bit, field, regField, hw]
  clear hw
  congr 1
  · cases isA <;> cases long <;> simp only [Bool.toNat_true, Bool.toNat_false, beq_iff_eq, beq_eq_false_iff_ne] <;> omega
  · apply Fin.ext
    simp only [Fin.ofNat]
    cases isA <;> cases long <;> simp only [Bool.toNat_true, Bool.toNat_false] <;> omega
  · cases isA <;> cases long <;> simp only [Bool.toNat_true, Bool.toNat_false, beq_iff_eq, beq_eq_false_iff_ne] <;> omega
  · apply Fin.ext
    simp only [Fin.ofNat]
    cases isA <;> cases long <;> simp only [Bool.toNat_true, Bool.toNat_false] <;> omega
  · apply BitVec.eq_of_toNat_eq
    rw [BitVec.toNat_ofNat]
    cases isA <;> cases long <;> simp only [Bool.toNat_true, Bool.toNat_false] <;> omega

theorem Brief.word_briefOf (w : Word) : (briefOf w).word = w := by
  apply BitVec.eq_of_toNat_eq
  have := w.isLt
  simp only [Brief.word, briefOf, bit, field, regField, BitVec.toNat_ofNat, Fin.ofNat]
  have bool_bit : ∀ n : Nat, (n % 2 ^ 1 == 1).toNat = n % 2 := fun n => by
    rcases Nat.mod_two_eq_zero_or_one n with h | h <;> rw [show (2 : Nat) ^ 1 = 2 from rfl, h] <;> rfl
  rw [bool_bit, bool_bit]
  omega

@[simp] theorem longWords_append (v : Long) : v.extractLsb' 16 16 ++ v.extractLsb' 0 16 = v := by
  apply BitVec.eq_of_toNat_eq
  have := v.isLt
  simp only [BitVec.toNat_append, BitVec.extractLsb'_toNat, Nat.shiftRight_eq_div_pow]
  rw [Nat.shiftLeft_eq, Nat.mul_comm, ← Nat.two_pow_add_eq_or_of_lt (Nat.mod_lt _ (by decide))]
  omega

theorem takeImm_words (sz : Size) (v : Long) (h : immOk sz v = true) (rest : List Word)
    (k : Long → List Word → DecodeResult) : takeImm sz (immWords sz v ++ rest) k = k v rest := by
  simp only [immOk, decide_eq_true_eq] at h
  cases sz with
  | b =>
    show k _ rest = _
    congr 1
    apply BitVec.eq_of_toNat_eq
    simp only [BitVec.toNat_setWidth]
    simp only [Size.bits] at h
    omega
  | w =>
    show k _ rest = _
    congr 1
    apply BitVec.eq_of_toNat_eq
    simp only [BitVec.toNat_setWidth]
    simp only [Size.bits] at h
    omega
  | l =>
    show k _ rest = _
    congr 1
    exact longWords_append v

/-- Reading back the extension words of an operand. -/
theorem takeEa_ext (e : Ea) (c : EaClass) (sz : Size) (h : e.ok c sz = true) (rest : List Word)
    (k : Ea → List Word → DecodeResult) : takeEa e.mode sz (e.ext sz ++ rest) k = k e rest := by
  cases e <;> try rfl
  case index n x => show k _ rest = _; rw [briefOf_word]
  case pcIndex x => show k _ rest = _; rw [briefOf_word]
  case absL a => show k _ rest = _; rw [longWords_append]
  case imm v =>
    simp only [Ea.ok, Bool.and_eq_true] at h
    exact takeImm_words sz v h.2 rest fun v ws => k (.imm v) ws

/-- An operand of the class passes the check of the opcode word. -/
theorem checkEa_ok {w : Word} {e : Ea} {c : EaClass} {sz : Size} {r : RegNum} {k : EaMode → DecodeResult}
    (h : e.ok c sz = true) (hr : r.val = e.mode.r) : checkEa w e.mode.m r c sz k = k e.mode := by
  rw [checkEa, eaModeOf_mode _ _ hr]
  simp only [Ea.ok, Bool.and_eq_true] at h
  simp only [h.1.1, h.1.2, Bool.and_self, if_true]

/-- No register-direct operand is in these classes. -/
theorem two_le_m {e : Ea} {sz : Size}
    (h : e.ok .memAlterable sz = true ∨ e.ok .control sz = true ∨ e.ok .movemDst sz = true) : 2 ≤ e.mode.m := by
  cases e <;> first | (simp only [Ea.mode, EaMode.m]; decide) | (rcases h with h | h | h <;> cases h)

/-- The data alterable class holds no `an` and no immediate. -/
theorem m_of_dataAlterable {e : Ea} {sz : Size} (h : e.ok .dataAlterable sz = true) :
    e.mode.m ≠ 1 ∧ ¬(e.mode.m = 7 ∧ e.mode.r = 4) := by
  cases e <;> first | (simp [Ea.mode, EaMode.m, EaMode.r]; done) | cases h

/-- The opcode word as a number. -/
theorem opcodeWord_toNat (i : Instr) : (opcodeWord i).toNat = opcodeNat i % 2 ^ 16 := BitVec.toNat_ofNat _ _

theorem length_immWords (sz : Size) (v : Long) : (immWords sz v).length = if sz = .l then 2 else 1 := by
  cases sz <;> rfl

theorem length_ext_le (e : Ea) (sz : Size) : (e.ext sz).length ≤ 2 := by
  cases e <;> first
    | (simp only [Ea.ext, length_immWords]; split <;> omega)
    | simp [Ea.ext, longWords]

/-- The length in words is the number of words of the encoding. -/
theorem length_encode (i : Instr) : (encode i).length = i.len := by
  simp only [encode, Instr.len, List.length_cons, List.length_append]
  omega

/-! ### How many words a decoding leaves -/

/-- A decoding that succeeds leaves at most `n` words. -/
def LeavesAtMost (n : Nat) (r : DecodeResult) : Prop := ∀ i rest, r = .ok (i, rest) → rest.length ≤ n

namespace LeavesAtMost
variable {n : Nat} {w : Word} {ws : List Word}

theorem error {e : DecodeError} : LeavesAtMost n (.error e) := by rintro _ _ ⟨⟩

theorem ok {i : Instr} (h : ws.length ≤ n) : LeavesAtMost n (.ok (i, ws)) := by rintro _ _ ⟨⟩; exact h

theorem takeWord {k : Word → List Word → DecodeResult} (h : ws.length ≤ n)
    (hk : ∀ x rest, rest.length ≤ n → LeavesAtMost n (k x rest)) : LeavesAtMost n (takeWord ws k) := by
  cases ws with
  | nil => exact error
  | cons x rest => exact hk x rest (by simp at h; omega)

theorem takeLong {k : Long → List Word → DecodeResult} (h : ws.length ≤ n)
    (hk : ∀ x rest, rest.length ≤ n → LeavesAtMost n (k x rest)) : LeavesAtMost n (takeLong ws k) :=
  takeWord h fun _ _ h => takeWord h fun _ _ h => hk _ _ h

theorem takeImm {sz : Size} {k : Long → List Word → DecodeResult} (h : ws.length ≤ n)
    (hk : ∀ x rest, rest.length ≤ n → LeavesAtMost n (k x rest)) : LeavesAtMost n (takeImm sz ws k) := by
  cases sz
  · exact takeWord h fun _ _ h => hk _ _ h
  · exact takeWord h fun _ _ h => hk _ _ h
  · exact takeLong h hk

theorem takeEa {md : EaMode} {sz : Size} {k : Ea → List Word → DecodeResult} (h : ws.length ≤ n)
    (hk : ∀ x rest, rest.length ≤ n → LeavesAtMost n (k x rest)) : LeavesAtMost n (takeEa md sz ws k) := by
  cases md
  case absL => exact takeLong (k := fun a ws => k (.absL a) ws) h fun _ _ h => hk _ _ h
  case imm => exact takeImm (k := fun v ws => k (.imm v) ws) h fun _ _ h => hk _ _ h
  all_goals first
    | exact hk _ _ h
    | exact takeWord h fun _ _ h => hk _ _ h

theorem checkEa {m : Nat} {r : RegNum} {c : EaClass} {sz : Size} {k : EaMode → DecodeResult}
    (hk : ∀ md, LeavesAtMost n (k md)) : LeavesAtMost n (checkEa w m r c sz k) := by
  unfold Sys2Proof.checkEa
  split
  · split <;> [exact hk _; exact error]
  · exact error

theorem withSize {k : Size → DecodeResult} (hk : ∀ sz, LeavesAtMost n (k sz)) : LeavesAtMost n (withSize w k) := by
  unfold Sys2Proof.withSize
  split <;> [exact hk _; exact error]

theorem withEa {c : EaClass} {sz : Size} {k : Ea → Instr} (h : ws.length ≤ n) : LeavesAtMost n (withEa w c sz ws k) :=
  checkEa fun _ => takeEa h fun _ _ h => ok h

theorem withSizedEa {c : EaClass} {k : Size → Ea → Instr} (h : ws.length ≤ n) :
    LeavesAtMost n (withSizedEa w c ws k) :=
  withSize fun _ => withEa h

theorem withImmEa {k : Size → Long → Ea → Instr} (h : ws.length ≤ n) : LeavesAtMost n (withImmEa w ws k) :=
  withSize fun _ => checkEa fun _ => takeImm h fun _ _ h => takeEa h fun _ _ h => ok h

theorem withOwnEa {c : EaClass} {sz : Size} {k : Word → Ea → Instr} (h : ws.length ≤ n) :
    LeavesAtMost n (withOwnEa w c sz ws k) :=
  checkEa fun _ => takeWord h fun _ _ h => takeEa h fun _ _ h => ok h

theorem withDisp {k : Disp → Instr} (h : ws.length ≤ n) : LeavesAtMost n (withDisp w ws k) := by
  unfold Sys2Proof.withDisp
  split <;> [exact takeWord h fun _ _ h => ok h; exact ok h]

theorem decodeMove (h : ws.length ≤ n) : LeavesAtMost n (decodeMove w ws) := by
  unfold Sys2Proof.decodeMove
  split
  · exact error
  · refine checkEa fun _ => ?_
    split
    · split <;> [exact takeEa h fun _ _ h => ok h; exact error]
    · exact checkEa fun _ => takeEa h fun _ _ h => takeEa h fun _ _ h => ok h

/-- The words left are at most those after the opcode word. -/
theorem decodeOpcode (h : ws.length ≤ n) : LeavesAtMost n (decodeOpcode w ws) := by
  unfold Sys2Proof.decodeOpcode decodeLine0 decodeBitDyn decodeBitStatic withCcrImm decodeLine4 decodeLine48 decodeLine4E4
    decodeLine5 decodeLine6 decodeLine7 decodeLine8 decodeLine9 decodeLineB decodeLineC decodeExg decodeLineD decodeLineE
    decodeShiftReg decodeShiftMem withXPair
  repeat' first
    | exact error
    | exact ok h
    | exact decodeMove h
    | exact withEa h
    | exact withSizedEa h
    | exact withImmEa h
    | exact withOwnEa h
    | exact withDisp h
    | exact takeWord h fun _ _ h => ok h
    | refine withSize fun _ => ?_
    | split

end LeavesAtMost

/-- Every instruction has a word (R90, R107). -/
theorem lenOf_pos (w : Word) : 1 ≤ lenOf w := by
  unfold lenOf
  split
  · have := LeavesAtMost.decodeOpcode (w := w) (ws := [0, 0, 0, 0]) (Nat.le_refl 4) _ _ ‹_›
    omega
  · exact Nat.le_refl 1
end Sys2Proof
end

