-- ==== Sys2Proof/Laws/Memory.lean ====
section
/-! SUPPORT. Read-after-write, and that every memory operation keeps the canonical form. -/

namespace Sys2Proof.Machine

/-! ### Cells -/

theorem readCell_of_headAbove (cs : List Host.Cell) (a b : Nat) (h : headAbove cs a = true) (hb : b ≤ a) :
    readCell cs b = Memory.unlisted := by
  match cs, h with
  | [], _ => rfl
  | (k, w) :: cs, h =>
    have hk : a < k := by simpa [headAbove] using h
    simp [readCell, show ¬ k < b by omega, show ¬ k = b by omega]

/-- A read after a write gives the value written at its address and the old value elsewhere, in every list. -/
theorem readCell_writeCell (cs : List Host.Cell) (a b : Nat) (v : Byte) :
    readCell (writeCell cs a v) b = if b = a then v else readCell cs b := by
  induction cs with
  | nil =>
    by_cases hv : v = Memory.unlisted
    · simp [writeCell, readCell, hv]
    · rcases Nat.lt_trichotomy a b with h | h | h
      · simp [writeCell, readCell, hv, h, h.ne']
      · simp [writeCell, readCell, hv, h]
      · simp [writeCell, readCell, hv, h.ne, h.ne', Nat.not_lt.mpr h.le]
  | cons c cs ih =>
    obtain ⟨k, w⟩ := c
    rcases Nat.lt_trichotomy k a with h | h | h
    · by_cases hk : k < b
      · simp [writeCell, readCell, h, hk, ih]
      · have hb : b ≠ a := by omega
        simp [writeCell, readCell, h, hk, hb]
    · subst h
      by_cases hv : v = Memory.unlisted ∧ headAbove cs k = true
      · rcases Nat.lt_trichotomy k b with g | g | g
        · simp [writeCell, readCell, hv, g, g.ne']
        · subst g
          simp [writeCell, hv, readCell_of_headAbove cs k k hv.2 (Nat.le_refl k)]
        · simp [writeCell, readCell, hv, readCell_of_headAbove cs k b hv.2 g.le, g.ne, g.ne', Nat.not_lt.mpr g.le]
      · rcases Nat.lt_trichotomy k b with g | g | g
        · simp [writeCell, readCell, hv, g, g.ne']
        · subst g; simp [writeCell, readCell, hv]
        · simp [writeCell, readCell, hv, Nat.not_lt.mpr g.le, g.ne', g.ne]
    · have h1 : ¬ k < a := by omega
      have h2 : ¬ k = a := by omega
      by_cases hv : v = Memory.unlisted
      · by_cases hb : b = a
        · subst hb; simp [writeCell, readCell, h1, h2, hv]
        · simp [writeCell, h1, h2, hv, hb]
      · rcases Nat.lt_trichotomy a b with g | g | g
        · simp [writeCell, readCell, h1, h2, hv, g, g.ne']
        · subst g; simp [writeCell, readCell, h1, h2, hv]
        · simp [writeCell, readCell, h1, h2, hv, Nat.not_lt.mpr g.le, g.ne, g.ne', show ¬ k < b by omega,
            show ¬ k = b by omega]

theorem cellsWf_mono {lo lo' : Nat} (cs : List Host.Cell) (h : lo' ≤ lo) (hw : cellsWf lo cs = true) :
    cellsWf lo' cs = true := by
  match cs, hw with
  | [], _ => rfl
  | (k, b) :: cs, hw =>
    simp only [cellsWf, Bool.and_eq_true, decide_eq_true_eq] at hw ⊢
    exact ⟨⟨h.trans hw.1.1, hw.1.2⟩, hw.2⟩

theorem headAbove_of_cellsWf (cs : List Host.Cell) (a : Nat) (hw : cellsWf (a + 1) cs = true) : headAbove cs a = true := by
  match cs, hw with
  | [], _ => rfl
  | (k, b) :: cs, hw =>
    simp only [cellsWf, Bool.and_eq_true, decide_eq_true_eq] at hw
    exact decide_eq_true hw.1.1

theorem cellsWf_writeCell (cs : List Host.Cell) (lo a : Nat) (v : Byte) (hw : cellsWf lo cs = true) (ha : lo ≤ a) :
    cellsWf lo (writeCell cs a v) = true := by
  induction cs generalizing lo with
  | nil => by_cases hv : v = Memory.unlisted <;> simp [writeCell, cellsWf, hv, ha]
  | cons c cs ih =>
    obtain ⟨k, w⟩ := c
    simp only [cellsWf, Bool.and_eq_true, decide_eq_true_eq] at hw
    obtain ⟨⟨h1, h2⟩, h3⟩ := hw
    rcases Nat.lt_trichotomy k a with h | h | h
    · simp [writeCell, h, cellsWf, h1, h2, ih (k + 1) h3 h]
    · subst h
      by_cases hv : v = Memory.unlisted
      · simp [writeCell, hv, headAbove_of_cellsWf cs k h3, cellsWf_mono cs (by omega : lo ≤ k + 1) h3]
      · simp [writeCell, hv, cellsWf, h1, h3]
    · have e1 : ¬ k < a := by omega
      have e2 : ¬ k = a := by omega
      by_cases hv : v = Memory.unlisted
      · simp [writeCell, e1, e2, hv, cellsWf, h1, h2, h3]
      · simp [writeCell, e1, e2, hv, cellsWf, ha, h, h2, h3]

theorem all_writeCell (cs : List Host.Cell) (p : Host.Cell → Bool) (a : Nat) (v : Byte) (h : cs.all p = true)
    (ha : p (a, v) = true) : (writeCell cs a v).all p = true := by
  induction cs with
  | nil => by_cases hv : v = Memory.unlisted <;> simp [writeCell, hv, ha]
  | cons c cs ih =>
    obtain ⟨k, w⟩ := c
    simp only [List.all_cons, Bool.and_eq_true] at h
    rw [writeCell]
    split
    · rw [List.all_cons, ih h.2, h.1]; rfl
    · split
      · split
        · exact h.2
        · rw [List.all_cons, ha, h.2]; rfl
      · split
        · rw [List.all_cons, h.1, h.2]; rfl
        · rw [List.all_cons, List.all_cons, ha, h.1, h.2]; rfl

/-! ### Bytes -/

namespace Memory

/-- Two canonical lists from `lo` on that read alike are equal. -/
theorem cells_ext (cs ds : List Host.Cell) (lo : Nat) (hc : cellsWf lo cs = true) (hd : cellsWf lo ds = true)
    (h : ∀ a, readCell cs a = readCell ds a) : cs = ds := by
  induction cs generalizing ds lo with
  | nil =>
    match ds, hd with
    | [], _ => rfl
    | (k, b) :: ds, hd =>
      simp only [cellsWf, Bool.and_eq_true, decide_eq_true_eq, bne_iff_ne] at hd
      exact absurd (by simpa [readCell] using (h k).symm) hd.1.2
  | cons c cs ih =>
    obtain ⟨k, b⟩ := c
    simp only [cellsWf, Bool.and_eq_true, decide_eq_true_eq, bne_iff_ne] at hc
    match ds, hd with
    | [], _ => exact absurd (by simpa [readCell] using h k) hc.1.2
    | (l, e) :: ds, hd =>
      simp only [cellsWf, Bool.and_eq_true, decide_eq_true_eq, bne_iff_ne] at hd
      have hkl : k = l := by
        rcases Nat.lt_trichotomy k l with g | g | g
        · exact absurd (by simpa [readCell, g.ne', Nat.not_lt.mpr g.le] using h k) hc.1.2
        · exact g
        · exact absurd (by simpa [readCell, g.ne', Nat.not_lt.mpr g.le] using (h l).symm) hd.1.2
      subst hkl
      have hbe : b = e := by simpa [readCell] using h k
      subst hbe
      refine congrArg _ (ih ds (k + 1) hc.2 hd.2 fun a => ?_)
      by_cases ha : k < a
      · simpa [readCell, ha] using h a
      · rw [readCell_of_headAbove cs k a (headAbove_of_cellsWf cs k hc.2) (by omega),
          readCell_of_headAbove ds k a (headAbove_of_cellsWf ds k hd.2) (by omega)]

/-- Canonical memories that read alike are equal. -/
theorem ext_read (m n : Memory) (hm : m.wf = true) (hn : n.wf = true) (h : ∀ a, m.read a = n.read a) : m = n := by
  obtain ⟨cs⟩ := m
  obtain ⟨ds⟩ := n
  exact congrArg Memory.mk (cells_ext cs ds 0 hm hn h)

theorem read_write (m : Memory) (a b : Nat) (v : Byte) :
    (m.write a v).read b = if b = a then v else m.read b := readCell_writeCell m.cells a b v

@[simp] theorem read_write_self (m : Memory) (a : Nat) (v : Byte) : (m.write a v).read a = v := by simp [read_write]

theorem read_write_ne (m : Memory) (a b : Nat) (v : Byte) (h : b ≠ a) : (m.write a v).read b = m.read b := by
  simp [read_write, h]

theorem wf_write (m : Memory) (a : Nat) (v : Byte) (h : m.wf = true) : (m.write a v).wf = true :=
  cellsWf_writeCell m.cells 0 a v h (Nat.zero_le a)

theorem below_write (m : Memory) (a n : Nat) (v : Byte) (h : m.below n = true) (ha : a < n) :
    (m.write a v).below n = true := all_writeCell m.cells _ a v h (by simpa using ha)

/-! ### Big-endian values -/

/-- A store leaves every byte outside its own alone. -/
theorem read_writeNat_outside (m : Memory) (a k v b : Nat) (h : b < a ∨ a + k ≤ b) :
    (m.writeNat a k v).read b = m.read b := by
  induction k generalizing v with
  | zero => rfl
  | succ k ih => rw [writeNat, read_write_ne _ _ _ _ (by omega), ih _ (by omega)]

/-- Byte number `j` of a store of `k` bytes, most significant first. -/
theorem read_writeNat_inside (m : Memory) (a k v j : Nat) (h : j < k) :
    (m.writeNat a k v).read (a + j) = BitVec.ofNat 8 (v / 256 ^ (k - 1 - j)) := by
  induction k generalizing v with
  | zero => omega
  | succ k ih =>
    rw [writeNat]
    rcases Nat.lt_or_ge j k with g | g
    · rw [read_write_ne _ _ _ _ (by omega), ih _ g, Nat.div_div_eq_div_mul, ← Nat.pow_succ',
        show (k - 1 - j).succ = k + 1 - 1 - j by omega]
    · obtain rfl : j = k := by omega
      simp

/-- A value read spans only its own bytes. -/
theorem readNat_congr (m n : Memory) (a k : Nat) (h : ∀ b, a ≤ b → b < a + k → m.read b = n.read b) :
    m.readNat a k = n.readNat a k := by
  induction k with
  | zero => rfl
  | succ k ih => rw [readNat, readNat, ih fun b h1 h2 => h b h1 (by omega), h (a + k) (by omega) (by omega)]

theorem readNat_lt (m : Memory) (a k : Nat) : m.readNat a k < 256 ^ k := by
  induction k with
  | zero => exact Nat.one_pos
  | succ k ih =>
    have := (m.read (a + k)).isLt
    rw [readNat, Nat.pow_succ]
    omega

/-- A value read back is the value stored, reduced to its bytes. -/
theorem readNat_writeNat (m : Memory) (a k v : Nat) : (m.writeNat a k v).readNat a k = v % 256 ^ k := by
  induction k generalizing v with
  | zero => simp [readNat, Nat.mod_one]
  | succ k ih =>
    rw [readNat, writeNat, read_write_self, readNat_congr _ (m.writeNat a k (v / 256)) a k
      (fun b _ h2 => read_write_ne _ _ _ _ (by omega)), ih, BitVec.toNat_ofNat, Nat.pow_succ' (m := 256), Nat.mod_mul]
    omega

theorem wf_writeNat (m : Memory) (a k v : Nat) (h : m.wf = true) : (m.writeNat a k v).wf = true := by
  induction k generalizing v with
  | zero => exact h
  | succ k ih => exact wf_write _ _ _ (ih _)

theorem below_writeNat (m : Memory) (a k v n : Nat) (h : m.below n = true) (ha : a + k ≤ n) :
    (m.writeNat a k v).below n = true := by
  induction k generalizing v with
  | zero => exact h
  | succ k ih => exact below_write _ _ _ _ (ih _ (by omega)) (by omega)

end Memory
end Sys2Proof.Machine
end

