-- ==== Sys2Proof/Laws/State.lean ====
section
/-! SUPPORT. One lemma for each field after each update of the state, so that no proof unfolds a record update. -/

namespace Sys2Proof.Machine.State

variable (s : State)

/-! ### setD -/

@[simp] theorem setD_cfg (n : RegNum) (v : Long) : (s.setD n v).cfg = s.cfg := rfl
@[simp] theorem setD_d (n : RegNum) (v : Long) : (s.setD n v).d = s.d.set n v := rfl
@[simp] theorem setD_a (n : RegNum) (v : Long) : (s.setD n v).a = s.a := rfl
@[simp] theorem setD_pc (n : RegNum) (v : Long) : (s.setD n v).pc = s.pc := rfl
@[simp] theorem setD_ccr (n : RegNum) (v : Long) : (s.setD n v).ccr = s.ccr := rfl
@[simp] theorem setD_status (n : RegNum) (v : Long) : (s.setD n v).status = s.status := rfl
@[simp] theorem setD_pending (n : RegNum) (v : Long) : (s.setD n v).pending = s.pending := rfl
@[simp] theorem setD_fault (n : RegNum) (v : Long) : (s.setD n v).fault = s.fault := rfl
@[simp] theorem setD_mem (n : RegNum) (v : Long) : (s.setD n v).mem = s.mem := rfl

/-! ### setA -/

@[simp] theorem setA_cfg (n : RegNum) (v : Long) : (s.setA n v).cfg = s.cfg := rfl
@[simp] theorem setA_d (n : RegNum) (v : Long) : (s.setA n v).d = s.d := rfl
@[simp] theorem setA_a (n : RegNum) (v : Long) : (s.setA n v).a = s.a.set n v := rfl
@[simp] theorem setA_pc (n : RegNum) (v : Long) : (s.setA n v).pc = s.pc := rfl
@[simp] theorem setA_ccr (n : RegNum) (v : Long) : (s.setA n v).ccr = s.ccr := rfl
@[simp] theorem setA_status (n : RegNum) (v : Long) : (s.setA n v).status = s.status := rfl
@[simp] theorem setA_pending (n : RegNum) (v : Long) : (s.setA n v).pending = s.pending := rfl
@[simp] theorem setA_fault (n : RegNum) (v : Long) : (s.setA n v).fault = s.fault := rfl
@[simp] theorem setA_mem (n : RegNum) (v : Long) : (s.setA n v).mem = s.mem := rfl

/-! ### setPc -/

@[simp] theorem setPc_cfg (v : Long) : (s.setPc v).cfg = s.cfg := rfl
@[simp] theorem setPc_d (v : Long) : (s.setPc v).d = s.d := rfl
@[simp] theorem setPc_a (v : Long) : (s.setPc v).a = s.a := rfl
@[simp] theorem setPc_pc (v : Long) : (s.setPc v).pc = v := rfl
@[simp] theorem setPc_ccr (v : Long) : (s.setPc v).ccr = s.ccr := rfl
@[simp] theorem setPc_status (v : Long) : (s.setPc v).status = s.status := rfl
@[simp] theorem setPc_pending (v : Long) : (s.setPc v).pending = s.pending := rfl
@[simp] theorem setPc_fault (v : Long) : (s.setPc v).fault = s.fault := rfl
@[simp] theorem setPc_mem (v : Long) : (s.setPc v).mem = s.mem := rfl

/-! ### setCcr -/

@[simp] theorem setCcr_cfg (f : Ccr) : (s.setCcr f).cfg = s.cfg := rfl
@[simp] theorem setCcr_d (f : Ccr) : (s.setCcr f).d = s.d := rfl
@[simp] theorem setCcr_a (f : Ccr) : (s.setCcr f).a = s.a := rfl
@[simp] theorem setCcr_pc (f : Ccr) : (s.setCcr f).pc = s.pc := rfl
@[simp] theorem setCcr_ccr (f : Ccr) : (s.setCcr f).ccr = f := rfl
@[simp] theorem setCcr_status (f : Ccr) : (s.setCcr f).status = s.status := rfl
@[simp] theorem setCcr_pending (f : Ccr) : (s.setCcr f).pending = s.pending := rfl
@[simp] theorem setCcr_fault (f : Ccr) : (s.setCcr f).fault = s.fault := rfl
@[simp] theorem setCcr_mem (f : Ccr) : (s.setCcr f).mem = s.mem := rfl

/-! ### setDPart -/

@[simp] theorem setDPart_cfg (n : RegNum) (sz : Size) (v : BitVec sz.bits) : (s.setDPart n sz v).cfg = s.cfg := rfl
@[simp] theorem setDPart_d (n : RegNum) (sz : Size) (v : BitVec sz.bits) : (s.setDPart n sz v).d = s.d.set n (mergeLow sz (s.dreg n) v) := rfl
@[simp] theorem setDPart_a (n : RegNum) (sz : Size) (v : BitVec sz.bits) : (s.setDPart n sz v).a = s.a := rfl
@[simp] theorem setDPart_pc (n : RegNum) (sz : Size) (v : BitVec sz.bits) : (s.setDPart n sz v).pc = s.pc := rfl
@[simp] theorem setDPart_ccr (n : RegNum) (sz : Size) (v : BitVec sz.bits) : (s.setDPart n sz v).ccr = s.ccr := rfl
@[simp] theorem setDPart_status (n : RegNum) (sz : Size) (v : BitVec sz.bits) : (s.setDPart n sz v).status = s.status := rfl
@[simp] theorem setDPart_pending (n : RegNum) (sz : Size) (v : BitVec sz.bits) : (s.setDPart n sz v).pending = s.pending := rfl
@[simp] theorem setDPart_fault (n : RegNum) (sz : Size) (v : BitVec sz.bits) : (s.setDPart n sz v).fault = s.fault := rfl
@[simp] theorem setDPart_mem (n : RegNum) (sz : Size) (v : BitVec sz.bits) : (s.setDPart n sz v).mem = s.mem := rfl

/-! ### advance and raise -/

@[simp] theorem advance_cfg (i : Instr) : (advance i s).cfg = s.cfg := rfl
@[simp] theorem advance_d (i : Instr) : (advance i s).d = s.d := rfl
@[simp] theorem advance_a (i : Instr) : (advance i s).a = s.a := rfl
@[simp] theorem advance_pc (i : Instr) : (advance i s).pc = nextPc i s := rfl
@[simp] theorem advance_ccr (i : Instr) : (advance i s).ccr = s.ccr := rfl
@[simp] theorem advance_status (i : Instr) : (advance i s).status = s.status := rfl
@[simp] theorem advance_pending (i : Instr) : (advance i s).pending = s.pending := rfl
@[simp] theorem advance_fault (i : Instr) : (advance i s).fault = s.fault := rfl
@[simp] theorem advance_mem (i : Instr) : (advance i s).mem = s.mem := rfl

@[simp] theorem raise_cfg (c : Cause) : (raise c s).cfg = s.cfg := rfl
@[simp] theorem raise_d (c : Cause) : (raise c s).d = s.d := rfl
@[simp] theorem raise_a (c : Cause) : (raise c s).a = s.a := rfl
@[simp] theorem raise_pc (c : Cause) : (raise c s).pc = s.pc := rfl
@[simp] theorem raise_ccr (c : Cause) : (raise c s).ccr = s.ccr := rfl
@[simp] theorem raise_status (c : Cause) : (raise c s).status = .terminatedByFault := rfl
@[simp] theorem raise_pending (c : Cause) : (raise c s).pending = s.pending := rfl
@[simp] theorem raise_fault (c : Cause) : (raise c s).fault = some ⟨c, s.pc⟩ := rfl
@[simp] theorem raise_mem (c : Cause) : (raise c s).mem = s.mem := rfl

/-! ### Register reads after writes -/

theorem dreg_setD (n m : RegNum) (v : Long) : (s.setD n v).dreg m = if m = n then v else s.dreg m := by
  simp only [dreg, setD_d, Fin.getElem_fin, Vector.getElem_set]
  by_cases h : m = n
  · simp [h]
  · have : n.val ≠ m.val := fun e => h (Fin.ext e.symm)
    simp [h, this]

theorem areg_setA (n m : RegNum) (v : Long) : (s.setA n v).areg m = if m = n then v else s.areg m := by
  simp only [areg, setA_a, Fin.getElem_fin, Vector.getElem_set]
  by_cases h : m = n
  · simp [h]
  · have : n.val ≠ m.val := fun e => h (Fin.ext e.symm)
    simp [h, this]

@[simp] theorem dreg_setD_self (n : RegNum) (v : Long) : (s.setD n v).dreg n = v := by simp [dreg_setD]

@[simp] theorem areg_setA_self (n : RegNum) (v : Long) : (s.setA n v).areg n = v := by simp [areg_setA]

theorem dreg_setDPart (n m : RegNum) (sz : Size) (v : BitVec sz.bits) :
    (s.setDPart n sz v).dreg m = if m = n then mergeLow sz (s.dreg n) v else s.dreg m := dreg_setD s n m _

@[simp] theorem areg_setDPart (n m : RegNum) (sz : Size) (v : BitVec sz.bits) :
    (s.setDPart n sz v).areg m = s.areg m := rfl

@[simp] theorem dreg_setA (n m : RegNum) (v : Long) : (s.setA n v).dreg m = s.dreg m := rfl
@[simp] theorem areg_setD (n m : RegNum) (v : Long) : (s.setD n v).areg m = s.areg m := rfl
@[simp] theorem dreg_setPc (m : RegNum) (v : Long) : (s.setPc v).dreg m = s.dreg m := rfl
@[simp] theorem areg_setPc (m : RegNum) (v : Long) : (s.setPc v).areg m = s.areg m := rfl
@[simp] theorem dreg_setCcr (m : RegNum) (f : Ccr) : (s.setCcr f).dreg m = s.dreg m := rfl
@[simp] theorem areg_setCcr (m : RegNum) (f : Ccr) : (s.setCcr f).areg m = s.areg m := rfl
@[simp] theorem dreg_advance (i : Instr) (m : RegNum) : (advance i s).dreg m = s.dreg m := rfl
@[simp] theorem areg_advance (i : Instr) (m : RegNum) : (advance i s).areg m = s.areg m := rfl
@[simp] theorem dreg_raise (c : Cause) (m : RegNum) : (raise c s).dreg m = s.dreg m := rfl
@[simp] theorem areg_raise (c : Cause) (m : RegNum) : (raise c s).areg m = s.areg m := rfl

@[simp] theorem dPart_setA (n m : RegNum) (v : Long) (sz : Size) : (s.setA n v).dPart m sz = s.dPart m sz := rfl

/-- The address of the next instruction depends on the program counter only. -/
@[simp] theorem nextPc_congr (i : Instr) (t : State) (h : t.pc = s.pc) : nextPc i t = nextPc i s := by simp [nextPc, h]

end Sys2Proof.Machine.State
end

