-- ==== Sys2Proof/Laws/Ops.lean ====
section
/-! SUPPORT. One lemma for each shared operation over registers and memory: everything it can do. -/

namespace Sys2Proof.Machine

open Claims

/-! ### Plain effects -/

/-- What every operation of an instruction keeps: the control state, and the two properties of memory. -/
structure Plain (s t : State) : Prop where
  cfg : t.cfg = s.cfg
  status : t.status = s.status
  pending : t.pending = s.pending
  fault : t.fault = s.fault
  wf : s.mem.wf = true → t.mem.wf = true
  below : s.mem.below s.cfg.memSize = true → t.mem.below t.cfg.memSize = true

theorem Plain.refl (s : State) : Plain s s := ⟨rfl, rfl, rfl, rfl, id, id⟩

theorem Plain.trans {s t u : State} (h : Plain s t) (g : Plain t u) : Plain s u :=
  ⟨g.cfg.trans h.cfg, g.status.trans h.status, g.pending.trans h.pending, g.fault.trans h.fault, g.wf ∘ h.wf,
    g.below ∘ h.below⟩

theorem Plain.setD {s t : State} (h : Plain s t) (n : RegNum) (v : Long) : Plain s (t.setD n v) :=
  ⟨h.cfg, h.status, h.pending, h.fault, h.wf, h.below⟩

theorem Plain.setA {s t : State} (h : Plain s t) (n : RegNum) (v : Long) : Plain s (t.setA n v) :=
  ⟨h.cfg, h.status, h.pending, h.fault, h.wf, h.below⟩

theorem Plain.setPc {s t : State} (h : Plain s t) (v : Long) : Plain s (t.setPc v) :=
  ⟨h.cfg, h.status, h.pending, h.fault, h.wf, h.below⟩

theorem Plain.setCcr {s t : State} (h : Plain s t) (f : Ccr) : Plain s (t.setCcr f) :=
  ⟨h.cfg, h.status, h.pending, h.fault, h.wf, h.below⟩

theorem Plain.setDPart {s t : State} (h : Plain s t) (n : RegNum) (sz : Size) (v : BitVec sz.bits) :
    Plain s (t.setDPart n sz v) := h.setD n _

theorem Plain.advance {s t : State} (h : Plain s t) (i : Instr) : Plain s (Machine.advance i t) := h.setPc _

/-! ### Accesses -/

theorem checkAccess_eq (c : Config) (a : Long) (n : Nat) (k : AccessKind) :
    checkAccess c a n k = match accessFault c a n k with | none => .ok () | some e => .error e := by
  by_cases h : c.alignFault = true ∧ 1 < n ∧ a.toNat % 2 = 1
  · simp [checkAccess, accessFault, h]
  · have h' : ¬((c.alignFault && decide (1 < n) && decide (a.toNat % 2 = 1)) = true) := by
      simpa [and_assoc] using h
    by_cases g : a.toNat + n ≤ c.memSize <;> simp [checkAccess, accessFault, h, h', g]

theorem memRead_eq (s : State) (a : Long) (n : Nat) :
    memRead s a n = match accessFault s.cfg a n .read with
      | none => .ok (BitVec.ofNat (8 * n) (s.mem.readNat a.toNat n))
      | some c => .error c := by
  rw [memRead, checkAccess_eq]
  cases accessFault s.cfg a n .read <;> rfl

theorem memWrite_eq (s : State) (a : Long) (n : Nat) (v : BitVec (8 * n)) :
    memWrite s a n v = match accessFault s.cfg a n .write with
      | none => .ok { s with mem := s.mem.writeNat a.toNat n v.toNat }
      | some c => .error c := by
  rw [memWrite, checkAccess_eq]
  cases accessFault s.cfg a n .write <;> rfl

/-- An access that may be read may be written, and the other way about. -/
theorem accessFault_none_iff (c : Config) (a : Long) (n : Nat) (k : AccessKind) :
    accessFault c a n k = none ↔ ¬(c.alignFault = true ∧ 1 < n ∧ a.toNat % 2 = 1) ∧ a.toNat + n ≤ c.memSize := by
  unfold accessFault
  split
  · simp_all
  · split <;> simp_all

theorem accessFault_none_kind {c : Config} {a : Long} {n : Nat} {k : AccessKind} (h : accessFault c a n k = none)
    (k' : AccessKind) : accessFault c a n k' = none := by
  rw [accessFault_none_iff] at h ⊢
  exact h

theorem memRead_ok {s : State} {a : Long} {n : Nat} {v : BitVec (8 * n)} (h : memRead s a n = .ok v) :
    accessFault s.cfg a n .read = none ∧ v = BitVec.ofNat (8 * n) (s.mem.readNat a.toNat n) := by
  rw [memRead_eq] at h
  cases hf : accessFault s.cfg a n .read with
  | none => rw [hf] at h; exact ⟨rfl, by injection h with h; exact h.symm⟩
  | some c => rw [hf] at h; injection h

theorem memRead_error {s : State} {a : Long} {n : Nat} {c : Cause} (h : memRead s a n = .error c) :
    accessFault s.cfg a n .read = some c := by
  rw [memRead_eq] at h
  cases hf : accessFault s.cfg a n .read with
  | none => rw [hf] at h; injection h
  | some c => rw [hf] at h; injection h with h; rw [h]

theorem memRead_of_none {s : State} {a : Long} {n : Nat} (h : accessFault s.cfg a n .read = none) :
    memRead s a n = .ok (BitVec.ofNat (8 * n) (s.mem.readNat a.toNat n)) := by rw [memRead_eq, h]

theorem memWrite_ok {s t : State} {a : Long} {n : Nat} {v : BitVec (8 * n)} (h : memWrite s a n v = .ok t) :
    accessFault s.cfg a n .write = none ∧ t = { s with mem := s.mem.writeNat a.toNat n v.toNat } := by
  rw [memWrite_eq] at h
  cases hf : accessFault s.cfg a n .write with
  | none => rw [hf] at h; exact ⟨rfl, by injection h with h; exact h.symm⟩
  | some c => rw [hf] at h; injection h

theorem memWrite_error {s : State} {a : Long} {n : Nat} {v : BitVec (8 * n)} {c : Cause}
    (h : memWrite s a n v = .error c) : accessFault s.cfg a n .write = some c := by
  rw [memWrite_eq] at h
  cases hf : accessFault s.cfg a n .write with
  | none => rw [hf] at h; injection h
  | some c => rw [hf] at h; injection h with h; rw [h]

theorem memWrite_of_none {s : State} {a : Long} {n : Nat} (v : BitVec (8 * n))
    (h : accessFault s.cfg a n .write = none) :
    memWrite s a n v = .ok { s with mem := s.mem.writeNat a.toNat n v.toNat } := by rw [memWrite_eq, h]

theorem memWrite_of_some {s : State} {a : Long} {n : Nat} (v : BitVec (8 * n)) {c : Cause}
    (h : accessFault s.cfg a n .write = some c) : memWrite s a n v = .error c := by rw [memWrite_eq, h]

theorem memRead_of_some {s : State} {a : Long} {n : Nat} {c : Cause}
    (h : accessFault s.cfg a n .read = some c) : memRead s a n = .error c := by rw [memRead_eq, h]

theorem memStored_writeNat (s : State) (a k v : Nat) : MemStored a k v s { s with mem := s.mem.writeNat a k v } :=
  ⟨fun j hj => Memory.read_writeNat_inside s.mem a k v j hj, fun b hb => Memory.read_writeNat_outside s.mem a k v b hb⟩

theorem plain_memWrite {s t : State} {a : Long} {n : Nat} {v : BitVec (8 * n)} (h : memWrite s a n v = .ok t) :
    Plain s t := by
  obtain ⟨hf, rfl⟩ := memWrite_ok h
  have hr := ((accessFault_none_iff _ _ _ _).mp hf).2
  exact ⟨rfl, rfl, rfl, rfl, Memory.wf_writeNat _ _ _ _, fun hb => Memory.below_writeNat _ _ _ _ _ hb hr⟩

/-! ### The stack -/

theorem push_ok {s t : State} {v : Long} (h : push s v = .ok t) :
    accessFault s.cfg (s.areg spNum - 4) 4 .write = none ∧
      t = { s.setA spNum (s.areg spNum - 4) with mem := s.mem.writeNat (s.areg spNum - 4).toNat 4 v.toNat } :=
  memWrite_ok h

theorem push_of_some {s : State} {v : Long} {c : Cause} (h : accessFault s.cfg (s.areg 7 - 4) 4 .write = some c) :
    push s v = .error c := by
  rw [push, memWrite_eq]
  show (match accessFault s.cfg (s.areg 7 - 4) 4 .write with | none => _ | some c => Except.error c) = _
  rw [h]

theorem push_of_none {s : State} {v : Long} (h : accessFault s.cfg (s.areg 7 - 4) 4 .write = none) :
    push s v = .ok { s.setA 7 (s.areg 7 - 4) with mem := s.mem.writeNat (s.areg 7 - 4).toNat 4 v.toNat } := by
  rw [push, memWrite_eq]
  show (match accessFault s.cfg (s.areg 7 - 4) 4 .write with | none => _ | some c => Except.error c) = _
  rw [h]
  rfl

theorem plain_push {s t : State} {v : Long} (h : push s v = .ok t) : Plain s t :=
  ((Plain.refl s).setA _ _).trans (plain_memWrite h)

theorem pop_ok {s t : State} {v : Long} (h : pop s = .ok (v, t)) :
    memRead s (s.areg spNum) 4 = .ok v ∧ t = s.setA spNum (s.areg spNum + 4) := by
  rw [pop] at h
  cases hr : memRead s (s.areg spNum) 4 with
  | error c => rw [hr] at h; injection h
  | ok w =>
    rw [hr] at h
    injection h with h
    injection h with h1 h2
    exact ⟨by rw [h1], h2.symm⟩

theorem pop_of_some {s : State} {c : Cause} (h : accessFault s.cfg (s.areg 7) 4 .read = some c) :
    pop s = .error c := by
  have hr : memRead s (s.areg spNum) 4 = .error c := memRead_of_some h
  rw [pop, hr]

theorem readNat_four (m : Memory) (a : Nat) : (BitVec.ofNat (8 * 4) (m.readNat a 4)).toNat = m.readNat a 4 := by
  rw [BitVec.toNat_ofNat]
  exact Nat.mod_eq_of_lt (Memory.readNat_lt m a 4)

theorem pop_of_none {s : State} (h : accessFault s.cfg (s.areg 7) 4 .read = none) :
    ∃ v : Long, pop s = .ok (v, s.setA 7 (s.areg 7 + 4)) ∧ v.toNat = valueAt s (s.areg 7) 4 := by
  have hr : memRead s (s.areg spNum) 4 = .ok _ := memRead_of_none h
  exact ⟨_, by rw [pop, hr]; rfl, readNat_four s.mem _⟩

theorem plain_pop {s t : State} {v : Long} (h : pop s = .ok (v, t)) : Plain s t := by
  obtain ⟨-, rfl⟩ := pop_ok h
  exact (Plain.refl s).setA _ _

/-! ### Commit and the end of the program -/

theorem commit_ok (s t : State) : commit s (.ok t) = .next t := rfl

theorem commit_error (s : State) (c : Cause) : commit s (.error c) = .next (raise c s) := rfl

theorem commit_next (s : State) (r : Res State) : ∃ u, commit s r = .next u := by cases r <;> exact ⟨_, rfl⟩

/-! ### Parts of a register -/

theorem lowPart_toNat (sz : Size) (v : Long) : (lowPart sz v).toNat = low sz v := BitVec.toNat_setWidth _ _

theorem dPart_toNat (s : State) (n : RegNum) (sz : Size) : (s.dPart n sz).toNat = low sz (s.dreg n) :=
  lowPart_toNat sz _

theorem low_lt (sz : Size) (v : Long) : low sz v < 2 ^ sz.bits := Nat.mod_lt _ (Nat.two_pow_pos _)

theorem mergeLow_toNat (sz : Size) (old : Long) (v : BitVec sz.bits) :
    (mergeLow sz old v).toNat = old.toNat / 2 ^ sz.bits * 2 ^ sz.bits + v.toNat := by
  have h := old.isLt
  cases sz with
  | b =>
    have hv : v.toNat < 2 ^ 8 := v.isLt
    have e : (mergeLow .b old v).toNat = (old.extractLsb' 8 24 ++ (v : BitVec 8)).toNat := rfl
    rw [e, BitVec.toNat_append, BitVec.extractLsb'_toNat, ← Nat.shiftLeft_add_eq_or_of_lt hv, Nat.shiftLeft_eq,
      Nat.shiftRight_eq_div_pow]
    show (old.toNat / 2 ^ 8 % 2 ^ 24) * 2 ^ 8 + v.toNat = old.toNat / 2 ^ 8 * 2 ^ 8 + v.toNat
    omega
  | w =>
    have hv : v.toNat < 2 ^ 16 := v.isLt
    have e : (mergeLow .w old v).toNat = (old.extractLsb' 16 16 ++ (v : BitVec 16)).toNat := rfl
    rw [e, BitVec.toNat_append, BitVec.extractLsb'_toNat, ← Nat.shiftLeft_add_eq_or_of_lt hv, Nat.shiftLeft_eq,
      Nat.shiftRight_eq_div_pow]
    show (old.toNat / 2 ^ 16 % 2 ^ 16) * 2 ^ 16 + v.toNat = old.toNat / 2 ^ 16 * 2 ^ 16 + v.toNat
    omega
  | l =>
    show v.toNat = old.toNat / 2 ^ 32 * 2 ^ 32 + v.toNat
    omega

theorem low_mergeLow (sz : Size) (old : Long) (v : BitVec sz.bits) : low sz (mergeLow sz old v) = v.toNat := by
  rw [low, mergeLow_toNat, Nat.mul_comm, Nat.mul_add_mod, Nat.mod_eq_of_lt v.isLt]

theorem dStored_setDPart (s : State) (n : RegNum) (sz : Size) (v : BitVec sz.bits) :
    DStored n sz v.toNat s (s.setDPart n sz v) := by
  refine ⟨?_, fun m hm => by rw [State.dreg_setDPart, if_neg hm]⟩
  rw [State.dreg_setDPart, if_pos rfl, mergeLow_toNat]

theorem dStored_setD (s : State) (n : RegNum) (v : Long) : DStored n .l v.toNat s (s.setD n v) := by
  refine ⟨?_, fun m hm => by rw [State.dreg_setD, if_neg hm]⟩
  rw [State.dreg_setD_self]
  have := (s.dreg n).isLt
  show v.toNat = (s.dreg n).toNat / 2 ^ 32 * 2 ^ 32 + v.toNat
  omega

end Sys2Proof.Machine
end

