-- ==== Sys2Proof/Laws/Operands.lean ====
section
/-! SUPPORT. One lemma for each operand operation: what evaluating, reading, writing and modifying an operand can do. -/

namespace Sys2Proof.Machine

open Claims

theorem eaStep_eq_incr (sz : Size) (n : RegNum) : eaStep sz n = incr sz n := by
  cases sz <;> simp [eaStep, incr, spNum]

/-- Evaluating an operand changes the address registers only. -/
theorem evalEa_ok {i : Instr} {sz : Size} {ea : Ea} {s t : State} {loc : Loc} (h : evalEa i sz ea s = .ok (loc, t)) :
    t = { s with a := t.a } ∧ AAfter sz ea s t := by
  cases ea
  case postInc m =>
    injection h with h
    injection h with h1 h2
    subst h2
    exact ⟨rfl, fun n => by
      rw [State.areg_setA, eaStep_eq_incr]
      by_cases hn : n = m <;> simp [afterEa, hn]⟩
  case preDec m =>
    injection h with h
    injection h with h1 h2
    subst h2
    exact ⟨rfl, fun n => by
      rw [State.areg_setA, eaStep_eq_incr]
      by_cases hn : n = m <;> simp [afterEa, hn]⟩
  case dreg => injection h with h; injection h with h1 h2; subst h2; exact ⟨rfl, fun n => rfl⟩
  case areg => injection h with h; injection h with h1 h2; subst h2; exact ⟨rfl, fun n => rfl⟩
  case imm => injection h with h; injection h with h1 h2; subst h2; exact ⟨rfl, fun n => rfl⟩
  all_goals
    simp only [evalEa] at h
    split at h
    · injection h with h; injection h with h1 h2; subst h2; exact ⟨rfl, fun n => rfl⟩
    · injection h

theorem plain_of_a {s t : State} (h : t = { s with a := t.a }) : Plain s t := by
  rw [h]; exact ⟨rfl, rfl, rfl, rfl, id, id⟩

theorem dreg_of_a {s t : State} (h : t = { s with a := t.a }) (n : RegNum) : t.dreg n = s.dreg n := by rw [h]; rfl

theorem ccr_of_a {s t : State} (h : t = { s with a := t.a }) : t.ccr = s.ccr := by rw [h]

theorem pc_of_a {s t : State} (h : t = { s with a := t.a }) : t.pc = s.pc := by rw [h]

theorem cfg_of_a {s t : State} (h : t = { s with a := t.a }) : t.cfg = s.cfg := by rw [h]

theorem mem_of_a {s t : State} (h : t = { s with a := t.a }) : t.mem = s.mem := by rw [h]

theorem readEa_ok {i : Instr} {sz : Size} {ea : Ea} {s t : State} {v : BitVec sz.bits}
    (h : readEa i sz ea s = .ok (v, t)) : ∃ loc, evalEa i sz ea s = .ok (loc, t) ∧ readLoc loc sz t = .ok v := by
  rw [readEa] at h
  split at h
  · rename_i loc t' he
    split at h
    · rename_i v' hr
      injection h with h
      injection h with h1 h2
      subst h1 h2
      exact ⟨loc, he, hr⟩
    · injection h
  · injection h

theorem readEa_of {i : Instr} {sz : Size} {ea : Ea} {s t : State} {loc : Loc} {v : BitVec sz.bits}
    (he : evalEa i sz ea s = .ok (loc, t)) (hr : readLoc loc sz t = .ok v) : readEa i sz ea s = .ok (v, t) := by
  simp only [readEa, he, hr]

/-- Reading an operand changes the address registers only, and them by its side effect. -/
theorem readEa_state {i : Instr} {sz : Size} {ea : Ea} {s t : State} {v : BitVec sz.bits}
    (h : readEa i sz ea s = .ok (v, t)) : t = { s with a := t.a } ∧ AAfter sz ea s t := by
  obtain ⟨loc, he, -⟩ := readEa_ok h
  exact evalEa_ok he

/-- A location that can be written: a data register or memory. -/
def Loc.writable : Loc → Bool
  | .dreg _ | .mem _ => true
  | .areg _ | .imm _ => false

/-- An operand of a data-alterable class designates a data register or memory. -/
theorem evalEa_writable {i : Instr} {sz : Size} {ea : Ea} {s t : State} {loc : Loc}
    (h : evalEa i sz ea s = .ok (loc, t)) (ha : ea.mode.isAreg = false) (hi : ea.mode.isImm = false) :
    loc.writable = true := by
  cases ea
  case areg => cases ha
  case imm => cases hi
  case postInc m => injection h with h; injection h with h1 h2; subst h1; rfl
  case preDec m => injection h with h; injection h with h1 h2; subst h1; rfl
  case dreg => injection h with h; injection h with h1 h2; subst h1; rfl
  all_goals
    simp only [evalEa] at h
    split at h
    · injection h with h; injection h with h1 h2; subst h1; rfl
    · injection h

/-- The effective-address classes whose operands are written. -/
theorem Ea.ok_alterable {ea : Ea} {sz : Size}
    (h : ea.ok .dataAlterable sz = true ∨ ea.ok .memAlterable sz = true ∨
      (ea.ok .alterable sz = true ∧ ea.mode.isAreg = false)) :
    ea.mode.isAreg = false ∧ ea.mode.isImm = false := by
  cases ea <;> simp_all [Ea.ok, EaClass.has, Ea.mode, EaMode.isPcRel, EaMode.isImm, EaMode.isAreg, EaMode.isDreg]

theorem eight_bytes (sz : Size) : 8 * sz.bytes = sz.bits := by cases sz <;> rfl

theorem setWidth_bytes_toNat (sz : Size) (v : BitVec sz.bits) : (v.setWidth (8 * sz.bytes)).toNat = v.toNat := by
  rw [BitVec.toNat_setWidth, eight_bytes, Nat.mod_eq_of_lt v.isLt]

theorem setWidth_bits_toNat (sz : Size) (v : BitVec (8 * sz.bytes)) : (v.setWidth sz.bits).toNat = v.toNat := by
  rw [BitVec.toNat_setWidth, ← eight_bytes, Nat.mod_eq_of_lt v.isLt]

/-- Everything that writing a location can do. -/
theorem writeLoc_ok {i : Instr} {loc : Loc} {sz : Size} {v : BitVec sz.bits} {s u : State}
    (h : writeLoc i loc sz v s = .ok u) :
    Stored loc sz v.toNat s u ∧ u.a = s.a ∧ u.pc = s.pc ∧ u.ccr = s.ccr ∧ Plain s u := by
  cases loc with
  | dreg n =>
    injection h with h
    subst h
    exact ⟨⟨dStored_setDPart s n sz v, fun _ => rfl⟩, rfl, rfl, rfl, (Plain.refl s).setDPart n sz v⟩
  | mem a =>
    obtain ⟨-, rfl⟩ := memWrite_ok h
    refine ⟨⟨fun _ => rfl, ?_⟩, rfl, rfl, rfl, plain_memWrite h⟩
    rw [setWidth_bytes_toNat]
    exact memStored_writeNat s a.toNat sz.bytes v.toNat
  | areg n => injection h
  | imm w => injection h

theorem writeLoc_of_none {i : Instr} {loc : Loc} {sz : Size} (v : BitVec sz.bits) {s : State}
    (hw : loc.writable = true) (h : writeFault s.cfg loc sz = none) : ∃ u, writeLoc i loc sz v s = .ok u := by
  cases loc with
  | dreg n => exact ⟨_, rfl⟩
  | mem a => exact ⟨_, memWrite_of_none _ h⟩
  | areg n => cases hw
  | imm w => cases hw

theorem writeLoc_of_some {i : Instr} {loc : Loc} {sz : Size} (v : BitVec sz.bits) {s : State} {c : Cause}
    (h : writeFault s.cfg loc sz = some c) : writeLoc i loc sz v s = .error c := by
  cases loc with
  | mem a => exact memWrite_of_some _ h
  | dreg n => cases h
  | areg n => cases h
  | imm w => cases h

/-- What has been read can be written. -/
theorem writeFault_of_read {loc : Loc} {sz : Size} {s : State} {d : BitVec sz.bits} (h : readLoc loc sz s = .ok d) :
    writeFault s.cfg loc sz = none := by
  cases loc with
  | mem a =>
    simp only [readLoc] at h
    split at h
    · rename_i v hv
      exact accessFault_none_kind (memRead_ok hv).1 .write
    · injection h
  | dreg n => rfl
  | areg n => rfl
  | imm w => rfl

theorem stored_congr {loc : Loc} {sz : Size} {r : Nat} {s t u : State} (hd : ∀ n, t.dreg n = s.dreg n)
    (hm : t.mem = s.mem) (h : Stored loc sz r t u) : Stored loc sz r s u := by
  cases loc with
  | dreg n => exact ⟨⟨by rw [← hd]; exact h.1.1, fun m g => (h.1.2 m g).trans (hd m)⟩, fun a => by rw [h.2 a, hm]⟩
  | mem a => exact ⟨fun n => (h.1 n).trans (hd n), ⟨h.2.1, fun b g => by rw [h.2.2 b g, hm]⟩⟩
  | areg n => exact h
  | imm w => exact h

/-- A later state with the same data registers and memory. -/
theorem stored_congr_right {loc : Loc} {sz : Size} {r : Nat} {s u w : State} (hd : ∀ n, w.dreg n = u.dreg n)
    (hm : w.mem = u.mem) (h : Stored loc sz r s u) : Stored loc sz r s w := by
  cases loc with
  | dreg n => exact ⟨⟨by rw [hd]; exact h.1.1, fun m g => (hd m).trans (h.1.2 m g)⟩, fun a => by rw [hm, h.2 a]⟩
  | mem a => exact ⟨fun n => (hd n).trans (h.1 n), ⟨fun j g => by rw [hm]; exact h.2.1 j g, fun b g => by rw [hm]; exact h.2.2 b g⟩⟩
  | areg n => exact h
  | imm w => exact h

theorem nextPc_eq (i : Instr) (s : State) : nextPc i s = s.pc + BitVec.ofNat 32 (2 * (encode i).length) := by
  have h : i.len = (encode i).length := by
    show 1 + (ownExt i).length + (eaExt i).length = (opcodeWord i :: (ownExt i ++ eaExt i)).length
    rw [List.length_cons, List.length_append]
    omega
  rw [nextPc, h]

theorem pcNext_advance (i : Instr) (s t : State) (h : t.pc = s.pc) : PcNext i s (advance i t) := by
  show nextPc i t = _
  rw [nextPc_eq, h]

theorem controlKept_of_plain {s u : State} (h : Plain s u) : ControlKept s u := ⟨h.cfg, h.status, h.pending, h.fault⟩

/-- Everything a read-modify-write of one operand can do when its operand can be read (R146). -/
theorem modifyEa_of_read {i : Instr} {sz : Size} {f : Alu sz} {v d : BitVec sz.bits} {ea : Ea} {s t : State} {loc : Loc}
    (he : evalEa i sz ea s = .ok (loc, t)) (hr : readLoc loc sz t = .ok d) (hw : loc.writable = true) :
    ∃ u, modifyEa i sz f v ea s = .ok u ∧ Stored loc sz (f v d s.ccr).1.toNat s u ∧ u.ccr = (f v d s.ccr).2 ∧
      AAfter sz ea s u ∧ ControlKept s u ∧ PcNext i s u := by
  obtain ⟨ht, hA⟩ := evalEa_ok he
  have hc := ccr_of_a ht
  obtain ⟨w, hw'⟩ := writeLoc_of_none (i := i) (f v d t.ccr).1 hw (writeFault_of_read hr)
  obtain ⟨hs, ha, hp, hf, hpl⟩ := writeLoc_ok hw'
  refine ⟨advance i (w.setCcr (f v d t.ccr).2), ?_, ?_, ?_, ?_, ?_, ?_⟩
  · simp only [modifyEa, he, hr, hw']
  · rw [← hc]
    exact stored_congr_right (fun _ => rfl) rfl (stored_congr (dreg_of_a ht) (mem_of_a ht) hs)
  · rw [State.advance_ccr, State.setCcr_ccr, hc]
  · intro n
    have : (advance i (w.setCcr (f v d t.ccr).2)).areg n = t.areg n := by
      show w.a[n] = t.a[n]
      rw [ha]
    rw [this, hA n]
  · exact controlKept_of_plain ((plain_of_a ht).trans ((hpl.setCcr _).advance i))
  · exact pcNext_advance i s _ (hp.trans (pc_of_a ht))

theorem modifyEa_of_error {i : Instr} {sz : Size} {f : Alu sz} {v : BitVec sz.bits} {ea : Ea} {s : State} {c : Cause}
    (h : readEa i sz ea s = .error c) : modifyEa i sz f v ea s = .error c := by
  rw [readEa] at h
  rw [modifyEa]
  split at h
  · rename_i loc t he
    simp only [he]
    split at h
    · injection h
    · rename_i c' hr
      injection h with h
      subst h
      simp only [hr]
  · rename_i c' he
    injection h with h
    subst h
    simp only [he]

theorem modifyEa_plain {i : Instr} {sz : Size} {f : Alu sz} {v : BitVec sz.bits} {ea : Ea} {s u : State}
    (h : modifyEa i sz f v ea s = .ok u) : Plain s u := by
  rw [modifyEa] at h
  split at h
  · injection h
  · rename_i loc t he
    split at h
    · injection h
    · split at h
      · injection h
      · rename_i w hw
        injection h with h
        subst h
        exact (plain_of_a (evalEa_ok he).1).trans (((writeLoc_ok hw).2.2.2.2.setCcr _).advance i)

/-- Everything a store to one operand can do when the location can be written. -/
theorem storeEa_of_none {i : Instr} {sz : Size} {v : BitVec sz.bits} {f : Ccr} {ea : Ea} {s t : State} {loc : Loc}
    (he : evalEa i sz ea s = .ok (loc, t)) (hf : writeFault s.cfg loc sz = none) (hw : loc.writable = true) :
    ∃ u, storeEa i sz v f ea s = .ok u ∧ Stored loc sz v.toNat s u ∧ u.ccr = f ∧ AAfter sz ea s u ∧
      ControlKept s u ∧ PcNext i s u := by
  obtain ⟨ht, hA⟩ := evalEa_ok he
  rw [← cfg_of_a ht] at hf
  obtain ⟨w, hw'⟩ := writeLoc_of_none (i := i) v hw hf
  obtain ⟨hs, ha, hp, -, hpl⟩ := writeLoc_ok hw'
  refine ⟨advance i (w.setCcr f), ?_, ?_, ?_, ?_, ?_, ?_⟩
  · simp only [storeEa, he, hw']
  · exact stored_congr_right (fun _ => rfl) rfl (stored_congr (dreg_of_a ht) (mem_of_a ht) hs)
  · rfl
  · intro n
    have : (advance i (w.setCcr f)).areg n = t.areg n := by
      show w.a[n] = t.a[n]
      rw [ha]
    rw [this, hA n]
  · exact controlKept_of_plain ((plain_of_a ht).trans ((hpl.setCcr _).advance i))
  · exact pcNext_advance i s _ (hp.trans (pc_of_a ht))

theorem storeEa_of_error {i : Instr} {sz : Size} {v : BitVec sz.bits} {f : Ccr} {ea : Ea} {s : State} {c : Cause}
    (h : evalEa i sz ea s = .error c) : storeEa i sz v f ea s = .error c := by simp only [storeEa, h]

theorem storeEa_of_some {i : Instr} {sz : Size} {v : BitVec sz.bits} {f : Ccr} {ea : Ea} {s t : State} {loc : Loc}
    {c : Cause} (he : evalEa i sz ea s = .ok (loc, t)) (hf : writeFault s.cfg loc sz = some c) :
    storeEa i sz v f ea s = .error c := by
  rw [← cfg_of_a (evalEa_ok he).1] at hf
  simp only [storeEa, he, writeLoc_of_some v hf]

theorem storeEa_plain {i : Instr} {sz : Size} {v : BitVec sz.bits} {f : Ccr} {ea : Ea} {s u : State}
    (h : storeEa i sz v f ea s = .ok u) : Plain s u := by
  rw [storeEa] at h
  split at h
  · injection h
  · rename_i loc t he
    split at h
    · injection h
    · rename_i w hw
      injection h with h
      subst h
      exact (plain_of_a (evalEa_ok he).1).trans (((writeLoc_ok hw).2.2.2.2.setCcr _).advance i)

theorem readEa_plain {i : Instr} {sz : Size} {ea : Ea} {s t : State} {v : BitVec sz.bits}
    (h : readEa i sz ea s = .ok (v, t)) : Plain s t := plain_of_a (readEa_state h).1

theorem eaToDn_of_read {i : Instr} {sz : Size} {f : Alu sz} {ea : Ea} {dn : RegNum} {s t : State} {v : BitVec sz.bits}
    (h : readEa i sz ea s = .ok (v, t)) :
    ∃ u, eaToDn i sz f ea dn s = .ok u ∧ DStored dn sz (f v (s.dPart dn sz) s.ccr).1.toNat s u ∧
      u.ccr = (f v (s.dPart dn sz) s.ccr).2 ∧ AAfter sz ea s u ∧ MemKept s u ∧ ControlKept s u ∧ PcNext i s u := by
  obtain ⟨ht, hA⟩ := readEa_state h
  have hd : t.dPart dn sz = s.dPart dn sz := by rw [State.dPart, State.dPart, dreg_of_a ht]
  refine ⟨advance i ((t.setDPart dn sz (f v (s.dPart dn sz) s.ccr).1).setCcr (f v (s.dPart dn sz) s.ccr).2),
    ?_, ?_, rfl, ?_, ?_, ?_, ?_⟩
  · simp only [eaToDn, h, hd, ccr_of_a ht]
  · obtain ⟨h1, h2⟩ := dStored_setDPart t dn sz (f v (s.dPart dn sz) s.ccr).1
    exact ⟨h1.trans (by rw [dreg_of_a ht]), fun m hm => (h2 m hm).trans (dreg_of_a ht m)⟩
  · exact fun n => hA n
  · intro a
    show t.mem.read a = _
    rw [mem_of_a ht]
  · exact controlKept_of_plain ((((plain_of_a ht).setDPart _ _ _).setCcr _).advance i)
  · exact pcNext_advance i s _ (show t.pc = s.pc from pc_of_a ht)

theorem eaToDn_of_error {i : Instr} {sz : Size} {f : Alu sz} {ea : Ea} {dn : RegNum} {s : State} {c : Cause}
    (h : readEa i sz ea s = .error c) : eaToDn i sz f ea dn s = .error c := by simp only [eaToDn, h]

theorem eaToDn_plain {i : Instr} {sz : Size} {f : Alu sz} {ea : Ea} {dn : RegNum} {s u : State}
    (h : eaToDn i sz f ea dn s = .ok u) : Plain s u := by
  rw [eaToDn] at h
  split at h
  · injection h
  · rename_i v t he
    injection h with h
    subst h
    exact (((readEa_plain he).setDPart _ _ _).setCcr _).advance i

theorem eaToAn_of_read {i : Instr} {sz : Size} {f : Long → Long → Long} {ea : Ea} {an : RegNum} {s t : State}
    {v : BitVec sz.bits} (h : readEa i sz ea s = .ok (v, t)) :
    ∃ u, eaToAn i sz f ea an s = .ok u ∧
      u.areg an = f (longSource sz v) (afterEa sz ea an (s.areg an)) ∧
      (∀ n, n ≠ an → u.areg n = afterEa sz ea n (s.areg n)) ∧ DKept s u ∧ CcrMemKept s u ∧ ControlKept s u ∧
      PcNext i s u := by
  obtain ⟨ht, hA⟩ := readEa_state h
  refine ⟨advance i (t.setA an (f (longSource sz v) (t.areg an))), ?_, ?_, ?_, ?_, ?_, ?_, ?_⟩
  · simp only [eaToAn, h]
  · rw [State.areg_advance, State.areg_setA_self, hA an]
  · intro n hn
    rw [State.areg_advance, State.areg_setA, if_neg hn, hA n]
  · intro n
    exact dreg_of_a ht n
  · refine ⟨show t.ccr = s.ccr from ccr_of_a ht, fun a => ?_⟩
    show t.mem.read a = _
    rw [mem_of_a ht]
  · exact controlKept_of_plain (((plain_of_a ht).setA _ _).advance i)
  · exact pcNext_advance i s _ (show t.pc = s.pc from pc_of_a ht)

theorem eaToAn_of_error {i : Instr} {sz : Size} {f : Long → Long → Long} {ea : Ea} {an : RegNum} {s : State} {c : Cause}
    (h : readEa i sz ea s = .error c) : eaToAn i sz f ea an s = .error c := by simp only [eaToAn, h]

theorem eaToAn_plain {i : Instr} {sz : Size} {f : Long → Long → Long} {ea : Ea} {an : RegNum} {s u : State}
    (h : eaToAn i sz f ea an s = .ok u) : Plain s u := by
  rw [eaToAn] at h
  split at h
  · injection h
  · rename_i v t he
    injection h with h
    subst h
    exact ((readEa_plain he).setA _ _).advance i

end Sys2Proof.Machine
end

