-- ==== Sys2Proof/Laws/Exec.lean ====
section
/-! SUPPORT. What an instruction as a whole can do: it answers a next state, which is the old one with a fault raised, or
one whose control state is kept, or the suspension or termination of a TRAP. -/

namespace Sys2Proof.Machine

open Claims

/-- Every success of `r` keeps the control state and the properties of memory. -/
def Tame (s : State) (r : Res State) : Prop := ∀ t, r = .ok t → Plain s t

theorem Tame.ok {s t : State} (h : Plain s t) : Tame s (.ok t) := fun _ e => by injection e with e; subst e; exact h

theorem Tame.error (s : State) (c : Cause) : Tame s (.error c) := fun _ e => by cases e

theorem tame_modifyEa (i : Instr) (sz : Size) (f : Alu sz) (v : BitVec sz.bits) (ea : Ea) (s : State) :
    Tame s (modifyEa i sz f v ea s) := fun _ h => modifyEa_plain h

theorem tame_storeEa (i : Instr) (sz : Size) (v : BitVec sz.bits) (f : Ccr) (ea : Ea) (s : State) :
    Tame s (storeEa i sz v f ea s) := fun _ h => storeEa_plain h

theorem tame_eaToDn (i : Instr) (sz : Size) (f : Alu sz) (ea : Ea) (dn : RegNum) (s : State) :
    Tame s (eaToDn i sz f ea dn s) := fun _ h => eaToDn_plain h

theorem tame_eaToAn (i : Instr) (sz : Size) (f : Long → Long → Long) (ea : Ea) (an : RegNum) (s : State) :
    Tame s (eaToAn i sz f ea an s) := fun _ h => eaToAn_plain h

theorem tame_xPairMem (i : Instr) (sz : Size) (f : Alu sz) (y x : RegNum) (s : State) :
    Tame s (xPairMem i sz f y x s) := by
  intro u h
  rw [xPairMem] at h
  cases he : readEa i sz (.preDec y) s with
  | error c => rw [he] at h; cases h
  | ok p => rw [he] at h; exact (readEa_plain (t := p.2) (v := p.1) he).trans (modifyEa_plain h)

theorem tame_bitTest (i : Instr) (b : Nat) (ea : Ea) (s : State) : Tame s (bitTest i b ea s) := by
  intro u h
  rw [bitTest] at h
  cases he : readEa i (bitSize ea) ea s with
  | error c => rw [he] at h; cases h
  | ok p =>
    rw [he] at h
    injection h with h
    subst h
    exact ((readEa_plain (t := p.2) (v := p.1) he).setCcr _).advance i

theorem tame_wordToDn (i : Instr) (f : Word → Long → Ccr → Long × Ccr) (ea : Ea) (dn : RegNum) (s : State) :
    Tame s (wordToDn i f ea dn s) := by
  intro u h
  rw [wordToDn] at h
  cases he : readEa i .w ea s with
  | error c => rw [he] at h; cases h
  | ok p =>
    rw [he] at h
    injection h with h
    subst h
    exact (((readEa_plain (t := p.2) (v := p.1) he).setD _ _).setCcr _).advance i

theorem tame_divide (i : Instr) (f : Word → Long → Ccr → Long × Ccr) (ea : Ea) (dn : RegNum) (s : State) :
    Tame s (divide i f ea dn s) := by
  intro u h
  rw [divide] at h
  cases he : readEa i .w ea s with
  | error c => rw [he] at h; cases h
  | ok p =>
    rw [he] at h
    simp only at h
    split at h
    · cases h
    · injection h with h
      subst h
      exact (((readEa_plain (t := p.2) (v := p.1) he).setD _ _).setCcr _).advance i

theorem tame_call (i : Instr) (target : Long) (s : State) : Tame s (call i target s) := by
  intro u h
  rw [call] at h
  cases hp : push s (nextPc i s) with
  | error c => rw [hp] at h; cases h
  | ok t => rw [hp] at h; injection h with h; subst h; exact (plain_push hp).setPc _

theorem setMultiReg_plain (s : State) (k : Fin 16) (v : Long) : Plain s (setMultiReg s k v) := by
  unfold setMultiReg
  split
  · exact (Plain.refl s).setD _ _
  · exact (Plain.refl s).setA _ _

theorem storeUp_plain (s0 : State) (sz : Size) (ks : List (Fin 16)) :
    ∀ (a : Long) (s t : State), storeUp s0 sz ks a s = .ok t → Plain s t := by
  induction ks with
  | nil => intro a s t h; injection h with h; subst h; exact Plain.refl s
  | cons k ks ih =>
    intro a s t h
    rw [storeUp] at h
    split at h
    · exact (plain_memWrite ‹_›).trans (ih _ _ _ h)
    · cases h

theorem storeDown_plain (s0 : State) (sz : Size) (ks : List (Fin 16)) :
    ∀ (a : Long) (s : State) (b : Long) (t : State), storeDown s0 sz ks a s = .ok (b, t) → Plain s t := by
  induction ks with
  | nil => intro a s b t h; injection h with h; injection h with _ h; subst h; exact Plain.refl s
  | cons k ks ih =>
    intro a s b t h
    rw [storeDown] at h
    split at h
    · exact (plain_memWrite ‹_›).trans (ih _ _ _ _ h)
    · cases h

theorem loadUp_plain (sz : Size) (ks : List (Fin 16)) :
    ∀ (a : Long) (s : State) (b : Long) (t : State), loadUp sz ks a s = .ok (b, t) → Plain s t := by
  induction ks with
  | nil => intro a s b t h; injection h with h; injection h with _ h; subst h; exact Plain.refl s
  | cons k ks ih =>
    intro a s b t h
    rw [loadUp] at h
    split at h
    · exact (setMultiReg_plain s _ _).trans (ih _ _ _ _ h)
    · cases h

/-- The outcome of `o` is a commit of something tame. -/
def Ends (s : State) (o : Outcome) : Prop := ∃ r, o = commit s r ∧ Tame s r

theorem Ends.of {s : State} {r : Res State} (h : Tame s r) : Ends s (commit s r) := ⟨r, rfl, h⟩

theorem Ends.ok {s t : State} (h : Plain s t) : Ends s (commit s (.ok t)) := .of (Tame.ok h)

/-- Closes an `Ends` goal about a `match` whose scrutinees are given by `split`: an error, or a plain state. -/
theorem Ends.error (s : State) (c : Cause) : Ends s (commit s (.error c)) := .of (Tame.error s c)

theorem ends_move (sz : Size) (src dst : Ea) (s : State) : Ends s (execMove sz src dst s) := by
  unfold execMove
  simp only
  split
  · exact .error _ _
  · exact .of fun u h => (readEa_plain ‹_›).trans (storeEa_plain h)

theorem ends_lea (ea : Ea) (an : RegNum) (s : State) : Ends s (execLea ea an s) := by
  unfold execLea
  simp only
  split
  · exact .error _ _
  · exact .ok (((Plain.refl s).setA _ _).advance _)

theorem ends_pea (ea : Ea) (s : State) : Ends s (execPea ea s) := by
  unfold execPea
  simp only
  split
  · exact .error _ _
  · split
    · exact .error _ _
    · exact .ok ((plain_push ‹_›).advance _)

theorem ends_link (an : RegNum) (d : Word) (s : State) : Ends s (execLink an d s) := by
  unfold execLink
  simp only
  split
  · exact .error _ _
  · exact .ok ((((((Plain.refl s).setA _ _).trans (plain_memWrite ‹_›)).setA _ _).setA _ _).advance _)

theorem ends_unlk (an : RegNum) (s : State) : Ends s (execUnlk an s) := by
  unfold execUnlk
  split
  · exact .error _ _
  · exact .ok (((((Plain.refl s).setA _ _).trans (plain_pop ‹_›)).setA _ _).advance _)

theorem ends_jsr (ea : Ea) (s : State) : Ends s (execJsr ea s) := by
  unfold execJsr
  simp only
  split
  · exact .error _ _
  · exact .of (tame_call _ _ _)

theorem ends_jmp (ea : Ea) (s : State) : Ends s (execJmp ea s) := by
  unfold execJmp
  split
  · exact .error _ _
  · exact .ok ((Plain.refl s).setPc _)

theorem ends_rts (s : State) : Ends s (execRts s) := by
  unfold execRts
  split
  · exact .error _ _
  · exact .ok ((plain_pop ‹_›).setPc _)

theorem ends_rtr (s : State) : Ends s (execRtr s) := by
  unfold execRtr
  split
  · exact .error _ _
  · split
    · exact .error _ _
    · exact .ok ((((Plain.refl s).setA _ _).setCcr _).setPc _)

theorem ends_dbcc (k : Cond) (dn : RegNum) (d : Word) (s : State) : Ends s (execDbcc k dn d s) := by
  unfold execDbcc
  simp only
  split
  · exact .ok ((Plain.refl s).advance _)
  · split
    · exact .ok (((Plain.refl s).setDPart _ _ _).advance _)
    · exact .ok (((Plain.refl s).setDPart _ _ _).setPc _)

theorem execAddq_of_ne (sz : Size) (q : Nat) (ea : Ea) (h : ea.mode.isAreg = false) (s : State) :
    execAddq sz q ea s = commit s (modifyEa (.addq sz q ea) sz aluAdd (BitVec.ofNat sz.bits q) ea s) := by
  cases ea <;> first | rfl | cases h

theorem ends_addq (sz : Size) (q : Nat) (ea : Ea) (s : State) : Ends s (execAddq sz q ea s) := by
  by_cases h : ea.mode.isAreg = false
  · rw [execAddq_of_ne sz q ea h]
    exact .of (tame_modifyEa _ _ _ _ _ _)
  · cases ea <;> first | exact absurd rfl h | exact .ok (((Plain.refl s).setA _ _).advance _)

theorem execSubq_of_ne (sz : Size) (q : Nat) (ea : Ea) (h : ea.mode.isAreg = false) (s : State) :
    execSubq sz q ea s = commit s (modifyEa (.subq sz q ea) sz aluSub (BitVec.ofNat sz.bits q) ea s) := by
  cases ea <;> first | rfl | cases h

theorem ends_subq (sz : Size) (q : Nat) (ea : Ea) (s : State) : Ends s (execSubq sz q ea s) := by
  by_cases h : ea.mode.isAreg = false
  · rw [execSubq_of_ne sz q ea h]
    exact .of (tame_modifyEa _ _ _ _ _ _)
  · cases ea <;> first | exact absurd rfl h | exact .ok (((Plain.refl s).setA _ _).advance _)

theorem ends_addx (sz : Size) (m : Bool) (y x : RegNum) (s : State) : Ends s (execAddx sz m y x s) := by
  cases m
  · exact .of (tame_modifyEa (.addx sz false y x) sz aluAddx (s.dPart y sz) (.dreg x) s)
  · exact .of (tame_xPairMem (.addx sz true y x) sz aluAddx y x s)

theorem ends_subx (sz : Size) (m : Bool) (y x : RegNum) (s : State) : Ends s (execSubx sz m y x s) := by
  cases m
  · exact .of (tame_modifyEa (.subx sz false y x) sz aluSubx (s.dPart y sz) (.dreg x) s)
  · exact .of (tame_xPairMem (.subx sz true y x) sz aluSubx y x s)

/-- An instruction that reads one operand and then sets flags only. -/
theorem ends_flags (i : Instr) (sz : Size) (ea : Ea) (f : BitVec sz.bits → State → Ccr) (s : State) :
    Ends s (commit s (match readEa i sz ea s with | .error c => .error c | .ok (v, t) => setFlags i (f v t) t)) := by
  split
  · exact .error _ _
  · exact .ok (((readEa_plain ‹_›).setCcr _).advance _)

theorem ends_cmpm (sz : Size) (y x : RegNum) (s : State) : Ends s (execCmpm sz y x s) := by
  unfold execCmpm
  simp only
  split
  · exact .error _ _
  · split
    · exact .error _ _
    · exact .ok ((((readEa_plain ‹_›).trans (readEa_plain ‹_›)).setCcr _).advance _)

theorem ends_moveToCcr (ea : Ea) (s : State) : Ends s (execMoveToCcr ea s) := by
  unfold execMoveToCcr
  simp only
  split
  · exact .error _ _
  · exact .ok (((readEa_plain ‹_›).setCcr _).advance _)

theorem ends_movemToMem (sz : Size) (mask : Word) (ea : Ea) (s : State) : Ends s (execMovemToMem sz mask ea s) := by
  unfold execMovemToMem
  cases ea
  case preDec n =>
    simp only
    split
    · exact .error _ _
    · exact .ok (((storeDown_plain _ _ _ _ _ _ _ ‹_›).setA _ _).advance _)
  all_goals
    simp only
    split
    · exact .error _ _
    · split
      · exact .error _ _
      · exact .ok ((storeUp_plain _ _ _ _ _ _ ‹_›).advance _)

theorem ends_movemToRegs (sz : Size) (mask : Word) (ea : Ea) (s : State) : Ends s (execMovemToRegs sz mask ea s) := by
  unfold execMovemToRegs
  cases ea
  case postInc n =>
    simp only
    split
    · exact .error _ _
    · exact .ok (((loadUp_plain _ _ _ _ _ _ ‹_›).setA _ _).advance _)
  all_goals
    simp only
    split
    · exact .error _ _
    · split
      · exact .error _ _
      · exact .ok ((loadUp_plain _ _ _ _ _ _ ‹_›).advance _)

/-- Every instruction but TRAP commits something tame. -/
theorem exec_ends (i : Instr) (s : State) (h : ∀ v, i ≠ .trap v) : Ends s (exec i s) := by
  have hp := Plain.refl s
  cases i
  case trap v => exact absurd rfl (h v)
  case move => exact ends_move _ _ _ _
  case lea => exact ends_lea _ _ _
  case pea => exact ends_pea _ _
  case link => exact ends_link _ _ _
  case unlk => exact ends_unlk _ _
  case jsr => exact ends_jsr _ _
  case jmp => exact ends_jmp _ _
  case rts => exact ends_rts _
  case rtr => exact ends_rtr _
  case dbcc => exact ends_dbcc _ _ _ _
  case addq => exact ends_addq _ _ _ _
  case subq => exact ends_subq _ _ _ _
  case addx => exact ends_addx _ _ _ _ _
  case subx => exact ends_subx _ _ _ _ _
  case cmp => exact ends_flags _ _ _ _ _
  case cmpa => exact ends_flags _ _ _ _ _
  case cmpi => exact ends_flags _ _ _ _ _
  case tst => exact ends_flags _ _ _ _ _
  case cmpm => exact ends_cmpm _ _ _ _
  case moveToCcr => exact ends_moveToCcr _ _
  case movemToMem => exact ends_movemToMem _ _ _ _
  case movemToRegs => exact ends_movemToRegs _ _ _ _
  all_goals first
    | exact .of (tame_modifyEa _ _ _ _ _ _)
    | exact .of (tame_eaToDn _ _ _ _ _ _)
    | exact .of (tame_eaToAn _ _ _ _ _ _)
    | exact .of (tame_bitTest _ _ _ _)
    | exact .of (tame_wordToDn _ _ _ _ _)
    | exact .of (tame_divide _ _ _ _ _)
    | exact .of (tame_storeEa _ _ _ _ _ _)
    | exact .of (tame_call _ _ _)
    | exact .ok (((hp.setD _ _).setCcr _).advance _)
    | exact .ok (((hp.setDPart _ _ _).setCcr _).advance _)
    | exact .ok ((hp.setCcr _).advance _)
    | exact .ok (((hp.setD _ _).setD _ _).advance _)
    | exact .ok (((hp.setA _ _).setA _ _).advance _)
    | exact .ok (((hp.setD _ _).setA _ _).advance _)
    | exact .ok (hp.advance _)
    | exact .ok (hp.setPc _)

/-- A descriptor that TRAP publishes owes its registers nothing (R36, R357). -/
theorem execTrap_cases (v : Fin 16) (s : State) :
    (∃ c, execTrap v s = .next (raise c s)) ∨
      (v = 15 ∧ (low .b (s.dreg 0) = 2 ∨ low .b (s.dreg 0) = 3 ∨ low .b (s.dreg 0) = 4 ∨ low .b (s.dreg 0) = 14) ∧
        ∃ p, execTrap v s = .next { advance (.trap v) s with pending := some p, status := .awaitingInterrupt } ∧
          (p = .readString (s.areg 1) s.cfg.rsMax ∨ p = .writeInteger (s.dreg 1) ∨ p = .readInteger ∨
            ∃ text, p = .writeString text)) ∨
      (v = 15 ∧ low .b (s.dreg 0) = 9 ∧ execTrap v s = .next { advance (.trap v) s with status := .terminated }) := by
  by_cases hv : v = 15
  · subst hv
    have ht : (s.dPart 0 .b).toNat = low .b (s.dreg 0) := by rw [State.dPart, lowPart, BitVec.toNat_setWidth, low]
    unfold execTrap
    simp only [ne_eq, not_true_eq_false, if_false]
    split
    · exact .inr (.inl ⟨trivial, .inl (by omega), _, rfl, .inl rfl⟩)
    · exact .inr (.inl ⟨trivial, .inr (.inl (by omega)), _, rfl, .inr (.inl rfl)⟩)
    · exact .inr (.inl ⟨trivial, .inr (.inr (.inl (by omega))), _, rfl, .inr (.inr (.inl rfl))⟩)
    · exact .inr (.inr ⟨trivial, by omega, rfl⟩)
    · split
      · exact .inr (.inl ⟨trivial, .inr (.inr (.inr (by omega))), _, rfl, .inr (.inr (.inr ⟨_, rfl⟩))⟩)
      · exact .inl ⟨_, rfl⟩
    · exact .inl ⟨_, rfl⟩
  · refine .inl ⟨.unimplementedTrap v none, ?_⟩
    unfold execTrap
    simp only [if_pos (show v ≠ 15 from hv)]
    rfl

/-- Everything an instruction can do. -/
theorem exec_cases (i : Instr) (s : State) :
    (∃ c, exec i s = .next (raise c s)) ∨ (∃ t, exec i s = .next t ∧ Plain s t) ∨
      (i = .trap 15 ∧
        (low .b (s.dreg 0) = 2 ∨ low .b (s.dreg 0) = 3 ∨ low .b (s.dreg 0) = 4 ∨ low .b (s.dreg 0) = 14) ∧
        ∃ p, exec i s = .next { advance i s with pending := some p, status := .awaitingInterrupt } ∧
          (p = .readString (s.areg 1) s.cfg.rsMax ∨ p = .writeInteger (s.dreg 1) ∨ p = .readInteger ∨
            ∃ text, p = .writeString text)) ∨
      (i = .trap 15 ∧ low .b (s.dreg 0) = 9 ∧ exec i s = .next { advance i s with status := .terminated }) := by
  by_cases h : ∃ v, i = .trap v
  · obtain ⟨v, rfl⟩ := h
    show (∃ c, execTrap v s = _) ∨ (∃ t, execTrap v s = .next t ∧ _) ∨ _
    obtain h | ⟨rfl, h⟩ | ⟨rfl, h⟩ := execTrap_cases v s
    · exact .inl h
    · exact .inr (.inr (.inl ⟨rfl, h⟩))
    · exact .inr (.inr (.inr ⟨rfl, h⟩))
  · obtain ⟨r, hr, ht⟩ := exec_ends i s fun v hv => h ⟨v, hv⟩
    cases r with
    | error c => exact .inl ⟨c, hr⟩
    | ok t => exact .inr (.inl ⟨t, hr, ht t rfl⟩)

/-- No instruction answers a fault or a refusal: each answers a next state. -/
theorem exec_next (i : Instr) (s : State) : ∃ t, exec i s = .next t := by
  obtain ⟨c, h⟩ | ⟨t, h, -⟩ | ⟨-, -, p, h, -⟩ | ⟨-, -, h⟩ := exec_cases i s <;> exact ⟨_, h⟩

end Sys2Proof.Machine
end

