-- ==== Sys2Proof/Laws/Flags.lean ====
section
/-! SUPPORT. Each computation of Machine/Flags.lean meets its rule: results and flags over natural numbers and bits. -/

namespace Sys2Proof.Machine

open Claims

section
variable {n : Nat}

theorem msb_iff (v : BitVec n) : v.msb = true ↔ Msb n v.toNat := by
  rw [BitVec.msb_eq_decide, decide_eq_true_iff]; rfl

theorem beq_zero_iff (v : BitVec n) : (v == 0) = true ↔ v.toNat = 0 := by
  rw [beq_iff_eq]
  exact ⟨fun h => by simp [h], fun h => BitVec.eq_of_toNat_eq (by simpa using h)⟩

theorem nz00_rule (r : BitVec n) (f : Ccr) : NZ00 n r.toNat f (nz00 r f) :=
  ⟨⟨msb_iff r, beq_zero_iff r⟩, rfl, rfl, rfl⟩

theorem beq_msb_iff (a b : BitVec n) : (a.msb == b.msb) = true ↔ (Msb n a.toNat ↔ Msb n b.toNat) := by
  rw [← msb_iff, ← msb_iff]
  cases a.msb <;> cases b.msb <;> simp

theorem ovfAdd_iff (d s r : BitVec n) : ovfAdd d s r = true ↔ OvfAdd n s.toNat d.toNat r.toNat := by
  rw [OvfAdd, ← beq_msb_iff, ← beq_msb_iff, ovfAdd]
  cases s.msb <;> cases d.msb <;> cases r.msb <;> simp

theorem ovfSub_iff (d s r : BitVec n) : ovfSub d s r = true ↔ OvfSub n s.toNat d.toNat r.toNat := by
  rw [OvfSub, ← beq_msb_iff, ← beq_msb_iff, ovfSub]
  cases s.msb <;> cases d.msb <;> cases r.msb <;> simp

theorem addWith_toNat (d s : BitVec n) (c : Bool) : (addWith d s c).toNat = (d.toNat + s.toNat + c.toNat) % 2 ^ n := by
  rw [addWith, BitVec.toNat_add, BitVec.toNat_add, BitVec.toNat_ofNat, ← Nat.add_mod]

theorem subWith_toNat (d s : BitVec n) (c : Bool) :
    ((subWith d s c).toNat : Int) = ((d.toNat : Int) - s.toNat - c.toNat) % 2 ^ n := by
  have e : ∀ a b : BitVec n, ((a - b).toNat : Int) = ((a.toNat : Int) - b.toNat) % 2 ^ n := by
    intro a b
    rw [BitVec.toNat_sub, Int.natCast_emod, Nat.cast_add, Nat.cast_sub b.isLt.le]
    push_cast
    rw [show (2 : Int) ^ n - (b.toNat : Int) + a.toNat = (a.toNat : Int) - b.toNat + 2 ^ n by ring]
    exact Int.add_emod_right _ _
  rw [subWith, e, e, BitVec.toNat_ofNat, Int.natCast_emod]
  push_cast
  rw [← Int.sub_emod]

theorem carryAdd_iff (d s : BitVec n) (c : Bool) : carryAdd d s c = true ↔ 2 ^ n ≤ d.toNat + s.toNat + c.toNat := by
  rw [carryAdd, decide_eq_true_iff]

theorem borrowSub_iff (d s : BitVec n) (c : Bool) : borrowSub d s c = true ↔ d.toNat < s.toNat + c.toNat := by
  rw [borrowSub, decide_eq_true_iff]

theorem aluAdd_rule (s d : BitVec n) (f : Ccr) :
    addRule n s.toNat d.toNat (aluAdd s d f).1.toNat f (aluAdd s d f).2 :=
  ⟨addWith_toNat d s false, carryAdd_iff d s false, rfl, ovfAdd_iff _ _ _, msb_iff _, beq_zero_iff _⟩

theorem aluAddx_rule (s d : BitVec n) (f : Ccr) :
    addxRule n s.toNat d.toNat (aluAddx s d f).1.toNat f (aluAddx s d f).2 :=
  ⟨addWith_toNat d s f.x, carryAdd_iff d s f.x, rfl, ovfAdd_iff _ _ _, msb_iff _, by
    rw [← beq_zero_iff]; exact Bool.and_eq_true_iff⟩

theorem aluSub_rule (s d : BitVec n) (f : Ccr) :
    subRule n s.toNat d.toNat (aluSub s d f).1.toNat f (aluSub s d f).2 :=
  ⟨(subWith_toNat d s false).trans (by simp), borrowSub_iff d s false, rfl, ovfSub_iff _ _ _, msb_iff _,
    beq_zero_iff _⟩

theorem aluSubx_rule (s d : BitVec n) (f : Ccr) :
    subxRule n s.toNat d.toNat (aluSubx s d f).1.toNat f (aluSubx s d f).2 :=
  ⟨subWith_toNat d s f.x, borrowSub_iff d s f.x, rfl, ovfSub_iff _ _ _, msb_iff _, by
    rw [← beq_zero_iff]; exact Bool.and_eq_true_iff⟩

theorem cmpFlags_rule (s d : BitVec n) (f : Ccr) : cmpRule n s.toNat d.toNat f (cmpFlags s d f) := by
  obtain ⟨h1, h2, -, h4, h5⟩ := aluSub_rule s d f
  exact ⟨_, h1, h2, h4, h5, rfl⟩

/-- `0 - d` modulo `2^n`, for `d` below `2^n`. -/
theorem neg_emod_cases (d r : Nat) (hd : d < 2 ^ n) (h : (r : Int) = (0 - (d : Int)) % 2 ^ n) :
    (d = 0 ∧ r = 0) ∨ (0 < d ∧ r + d = 2 ^ n) := by
  rcases Nat.eq_zero_or_pos d with h0 | h0
  · subst h0; left; exact ⟨rfl, by simpa using h⟩
  · right
    refine ⟨h0, ?_⟩
    have hd' : (d : Int) < 2 ^ n := by exact_mod_cast hd
    rw [← Int.add_emod_right, Int.emod_eq_of_lt (by omega) (by omega)] at h
    have : ((r + d : Nat) : Int) = ((2 ^ n : Nat) : Int) := by push_cast; omega
    exact_mod_cast this

theorem aluNeg_rule (hn : 0 < n) (s d : BitVec n) (f : Ccr) :
    negRule n s.toNat d.toNat (aluNeg s d f).1.toNat f (aluNeg s d f).2 := by
  obtain ⟨h1, h2, h3, h4, h5⟩ := aluSub_rule d (0 : BitVec n) f
  have hz : (0 : BitVec n).toNat = 0 := by simp
  rw [hz] at h1 h2 h4
  show negRule n s.toNat d.toNat (aluSub d 0 f).1.toNat f (aluSub d 0 f).2
  refine ⟨h1, by rw [h2]; omega, h3, ?_, h5⟩
  rw [h4]
  have hp : 2 ^ n = 2 * 2 ^ (n - 1) := by rw [← Nat.pow_succ']; congr 1; omega
  have hpos := Nat.two_pow_pos (n - 1)
  have hd := d.isLt
  have hc := neg_emod_cases d.toNat _ hd h1
  simp only [OvfSub, Msb]
  generalize (aluSub d (0 : BitVec n) f).1.toNat = r at hc
  rcases hc with ⟨ha, hb⟩ | ⟨ha, hb⟩ <;> constructor <;> intro h <;> omega

theorem aluNegx_rule (s d : BitVec n) (f : Ccr) :
    negxRule n s.toNat d.toNat (aluNegx s d f).1.toNat f (aluNegx s d f).2 := by
  obtain ⟨h1, h2, h3, h4, h5, h6⟩ := aluSubx_rule d (0 : BitVec n) f
  have hz : (0 : BitVec n).toNat = 0 := by simp
  rw [hz] at h1 h2 h4
  show negxRule n s.toNat d.toNat (aluSubx d 0 f).1.toNat f (aluSubx d 0 f).2
  refine ⟨h1, h2, h3, ?_, h5, h6⟩
  rw [h4]
  have hpos := Nat.two_pow_pos (n - 1)
  simp only [OvfSub, Msb]
  constructor <;> intro h <;> omega

/-! ### Logic -/

theorem aluAnd_rule (s d : BitVec n) (f : Ccr) :
    bitwiseRule (fun d s => d && s) n s.toNat d.toNat (aluAnd s d f).1.toNat f (aluAnd s d f).2 :=
  ⟨fun k _ => by simp [aluAnd], nz00_rule _ f⟩

theorem aluOr_rule (s d : BitVec n) (f : Ccr) :
    bitwiseRule (fun d s => d || s) n s.toNat d.toNat (aluOr s d f).1.toNat f (aluOr s d f).2 :=
  ⟨fun k _ => by simp [aluOr], nz00_rule _ f⟩

theorem aluEor_rule (s d : BitVec n) (f : Ccr) :
    bitwiseRule (fun d s => d != s) n s.toNat d.toNat (aluEor s d f).1.toNat f (aluEor s d f).2 :=
  ⟨fun k _ => by simp [aluEor], nz00_rule _ f⟩

theorem aluNot_rule (s d : BitVec n) (f : Ccr) :
    bitwiseRule (fun d _ => !d) n s.toNat d.toNat (aluNot s d f).1.toNat f (aluNot s d f).2 :=
  ⟨fun k hk => by
    show (~~~d).toNat.testBit k = _
    rw [BitVec.testBit_toNat, BitVec.getLsbD_not, BitVec.testBit_toNat, decide_eq_true hk, Bool.true_and], nz00_rule _ f⟩

/-! ### Shifts and rotates -/

theorem shiftFlags_nz (r : BitVec n) (c : Nat) (carry ovf : Bool) (f : Ccr) :
    NZ n r.toNat (shiftFlags r c carry ovf f) := ⟨msb_iff r, beq_zero_iff r⟩

theorem shiftFlags_cx (r : BitVec n) (c : Nat) (carry last ovf : Bool) (f : Ccr) (h0 : c = 0 → carry = false)
    (h1 : c ≠ 0 → carry = last) : ShiftCX c last f (shiftFlags r c carry ovf f) := by
  unfold ShiftCX
  by_cases h : c = 0
  · rw [if_pos h]; exact ⟨h0 h, if_pos h⟩
  · rw [if_neg h]; exact ⟨h1 h, (if_neg h).trans (h1 h)⟩

theorem aluAsr_rule (hn : 0 < n) (c : Nat) (d : BitVec n) (f : Ccr) :
    asrRule c n d.toNat (aluAsr c d f).1.toNat f (aluAsr c d f).2 := by
  refine ⟨fun k hk => ?_, shiftFlags_nz _ _ _ _ _, rfl, shiftFlags_cx _ _ _ _ _ _ (fun h => ?_) fun h => ?_⟩
  · show (d.sshiftRight c).toNat.testBit k = _
    rw [BitVec.testBit_toNat, BitVec.getLsbD_sshiftRight, BitVec.testBit_toNat]
    by_cases h : c + k < n
    · simp [h, show ¬ n ≤ k by omega, show min (k + c) (n - 1) = c + k by omega]
    · simp [h, show ¬ n ≤ k by omega, show min (k + c) (n - 1) = n - 1 by omega, BitVec.msb_eq_getLsbD_last]
  · simp [h]
  · simp [Nat.pos_of_ne_zero h, BitVec.testBit_toNat]

theorem leftCarry_eq (c : Nat) (d : BitVec n) (h : c ≠ 0) : leftCarry c d = leftOut c n d.toNat := by
  simp [leftCarry, leftOut, Nat.pos_of_ne_zero h, BitVec.testBit_toNat]

theorem leftCarry_zero (d : BitVec n) : leftCarry 0 d = false := by simp [leftCarry]

theorem shiftLeft_toNat (c : Nat) (d : BitVec n) : (d <<< c).toNat = d.toNat * 2 ^ c % 2 ^ n := by
  rw [BitVec.toNat_shiftLeft, Nat.shiftLeft_eq]

theorem aluLsl_rule (c : Nat) (d : BitVec n) (f : Ccr) :
    lslRule c n d.toNat (aluLsl c d f).1.toNat f (aluLsl c d f).2 :=
  ⟨shiftLeft_toNat c d, shiftFlags_nz _ _ _ _ _, rfl,
    shiftFlags_cx _ _ _ _ _ _ (fun h => by rw [h, leftCarry_zero]) (leftCarry_eq c d)⟩

theorem aluLsr_rule (c : Nat) (d : BitVec n) (f : Ccr) :
    lsrRule c n d.toNat (aluLsr c d f).1.toNat f (aluLsr c d f).2 := by
  refine ⟨?_, shiftFlags_nz _ _ _ _ _, rfl, shiftFlags_cx _ _ _ _ _ _ (fun h => ?_) fun h => ?_⟩
  · exact (BitVec.toNat_ushiftRight ..).trans (Nat.shiftRight_eq_div_pow _ _)
  · simp [h]
  · simp [Nat.pos_of_ne_zero h, BitVec.testBit_toNat]

/-- Bit `n - 1` of the operand shifted left `j` times is its bit `n - 1 - j`. -/
theorem testBit_shifted (j d : Nat) (hn : 0 < n) :
    (d * 2 ^ j % 2 ^ n).testBit (n - 1) = (decide (j < n) && d.testBit (n - 1 - j)) := by
  rw [Nat.testBit_mod_two_pow, ← Nat.shiftLeft_eq, Nat.testBit_shiftLeft, decide_eq_true (by omega : n - 1 < n),
    Bool.true_and]
  congr 1
  exact decide_eq_decide.mpr (by omega)

/-- R264: V by cases. -/
theorem msbChanges_cases (c d : Nat) (hn : 0 < n) (hd : d < 2 ^ n) :
    (c = 0 → ¬MsbChanges c n d) ∧
    (0 < c → c < n → (MsbChanges c n d ↔ ¬∀ k, n - 1 - c ≤ k → k < n → d.testBit k = d.testBit (n - 1))) ∧
    (n ≤ c → (MsbChanges c n d ↔ d ≠ 0)) := by
  refine ⟨?_, fun _ h => ?_, fun h => ?_⟩
  · rintro rfl ⟨j, hj, h⟩
    obtain rfl : j = 0 := by omega
    rw [testBit_shifted _ _ hn] at h
    simp [hn] at h
  · constructor
    · rintro ⟨j, hj, g⟩ hall
      rw [testBit_shifted _ _ hn, decide_eq_true (by omega : j < n), Bool.true_and] at g
      exact g (hall (n - 1 - j) (by omega) (by omega))
    · intro g
      push Not at g
      obtain ⟨k, h1, h2, h3⟩ := g
      refine ⟨n - 1 - k, by omega, ?_⟩
      rw [testBit_shifted _ _ hn, decide_eq_true (by omega : n - 1 - k < n), Bool.true_and,
        show n - 1 - (n - 1 - k) = k by omega]
      exact h3
  · constructor
    · rintro ⟨j, -, g⟩ rfl
      simp at g
    · intro g
      by_cases hm : d.testBit (n - 1) = true
      · exact ⟨n, h, by rw [testBit_shifted _ _ hn, hm]; simp⟩
      · obtain ⟨k, hk⟩ := Nat.exists_testBit_of_ne_zero g
        have hkn : k < n := by
          by_contra hc
          rw [Nat.testBit_lt_two_pow (lt_of_lt_of_le hd (Nat.pow_le_pow_right (by omega) (by omega)))] at hk
          cases hk
        refine ⟨n - 1 - k, by omega, ?_⟩
        rw [testBit_shifted _ _ hn, decide_eq_true (by omega : n - 1 - k < n), Bool.true_and,
          show n - 1 - (n - 1 - k) = k by omega, hk]
        exact fun e => hm e.symm

/-- The bits `d[n-1 : n-1-c]` are all equal exactly when the number they form is 0 or all ones. -/
theorem topBits_iff (c d : Nat) (h : c < n) (hd : d < 2 ^ n) :
    (∀ k, n - 1 - c ≤ k → k < n → d.testBit k = d.testBit (n - 1)) ↔
      d / 2 ^ (n - 1 - c) = 0 ∨ d / 2 ^ (n - 1 - c) = 2 ^ (c + 1) - 1 := by
  have ht : ∀ j, (d / 2 ^ (n - 1 - c)).testBit j = d.testBit (n - 1 - c + j) := fun j => by
    rw [Nat.testBit_div_two_pow]; congr 1; omega
  have hlt : ∀ j, n ≤ j → d.testBit j = false := fun j hj =>
    Nat.testBit_lt_two_pow (lt_of_lt_of_le hd (Nat.pow_le_pow_right (by omega) hj))
  constructor
  · intro hall
    by_cases hm : d.testBit (n - 1) = true
    · right
      refine Nat.eq_of_testBit_eq fun j => ?_
      rw [ht, Nat.testBit_two_pow_sub_one]
      by_cases hj : j < c + 1
      · rw [hall _ (by omega) (by omega), hm, decide_eq_true hj]
      · rw [hlt _ (by omega), decide_eq_false hj]
    · left
      refine Nat.eq_of_testBit_eq fun j => ?_
      rw [ht, Nat.zero_testBit]
      by_cases hj : j < c + 1
      · rw [hall _ (by omega) (by omega)]; simpa using hm
      · exact hlt _ (by omega)
  · rintro (hz | hz) k h1 h2
    · have e : ∀ j, n - 1 - c ≤ j → d.testBit j = false := fun j hj => by
        have := ht (j - (n - 1 - c))
        rw [hz, Nat.zero_testBit, show n - 1 - c + (j - (n - 1 - c)) = j by omega] at this
        exact this.symm
      rw [e k h1, e (n - 1) (by omega)]
    · have e : ∀ j, n - 1 - c ≤ j → j < n → d.testBit j = true := fun j hj hj' => by
        have := ht (j - (n - 1 - c))
        rw [hz, Nat.testBit_two_pow_sub_one, show n - 1 - c + (j - (n - 1 - c)) = j by omega,
          decide_eq_true (by omega : j - (n - 1 - c) < c + 1)] at this
        exact this.symm
      rw [e k h1 h2, e (n - 1) (by omega) (by omega)]

theorem aslOverflow_iff (hn : 0 < n) (c : Nat) (d : BitVec n) :
    aslOverflow c d = true ↔ MsbChanges c n d.toNat := by
  obtain ⟨h0, h1, h2⟩ := msbChanges_cases c d.toNat hn d.isLt
  by_cases hc : c < n
  · rw [aslOverflow, if_pos hc, Bool.and_eq_true, decide_eq_true_iff, decide_eq_true_iff]
    rcases Nat.eq_zero_or_pos c with g | g
    · subst g
      exact ⟨fun h => absurd h.2 (by omega), fun h => absurd h (h0 rfl)⟩
    · rw [h1 g hc, topBits_iff c d.toNat hc d.isLt, not_or]
      exact ⟨fun h => h.1, fun h => ⟨h, g⟩⟩
  · rw [aslOverflow, if_neg hc, h2 (by omega), bne_iff_ne, ne_eq, ne_eq, ← beq_iff_eq, beq_zero_iff]

theorem aluAsl_rule (hn : 0 < n) (c : Nat) (d : BitVec n) (f : Ccr) :
    aslRule c n d.toNat (aluAsl c d f).1.toNat f (aluAsl c d f).2 :=
  ⟨shiftLeft_toNat c d, shiftFlags_nz _ _ _ _ _, aslOverflow_iff hn c d,
    shiftFlags_cx _ _ _ _ _ _ (fun h => by rw [h, leftCarry_zero]) (leftCarry_eq c d)⟩

/-- A right rotation by `k < n`, bit by bit. -/
theorem rotr_bit (k j : Nat) (d : BitVec n) (hk : k < n) (hj : j < n) :
    (d >>> k ||| d <<< (n - k)).getLsbD j = d.getLsbD ((j + k) % n) := by
  rw [BitVec.getLsbD_or, BitVec.getLsbD_ushiftRight, BitVec.getLsbD_shiftLeft]
  by_cases h : k + j < n
  · have : j < n - k := by omega
    rw [Nat.mod_eq_of_lt (by omega), Nat.add_comm j k]
    simp [this]
  · have h1 : ¬ j < n - k := by omega
    have h2 : (j + k) % n = j - (n - k) := by
      rw [Nat.mod_eq_sub_mod (by omega), Nat.mod_eq_of_lt (by omega)]; omega
    rw [h2, BitVec.getLsbD_of_ge d (k + j) (by omega)]
    simp [h1, hj]

/-- A left rotation by `k < n`, bit by bit. -/
theorem rotl_bit (k j : Nat) (d : BitVec n) (hk : k < n) (hj : j < n) :
    (d <<< k ||| d >>> (n - k)).getLsbD ((j + k) % n) = d.getLsbD j := by
  rw [BitVec.getLsbD_or, BitVec.getLsbD_ushiftRight, BitVec.getLsbD_shiftLeft]
  by_cases h : j + k < n
  · rw [Nat.mod_eq_of_lt h, BitVec.getLsbD_of_ge d (n - k + (j + k)) (by omega)]
    simp [h]
  · have h2 : (j + k) % n = j + k - n := by rw [Nat.mod_eq_sub_mod (by omega), Nat.mod_eq_of_lt (by omega)]
    rw [h2, show n - k + (j + k - n) = j by omega]
    simp [show j + k - n < k by omega]

theorem rotateFlags_nz (r : BitVec n) (carry : Bool) (f : Ccr) : NZ n r.toNat (rotateFlags r carry f) :=
  ⟨msb_iff r, beq_zero_iff r⟩

theorem aluRor_rule (hn : 0 < n) (c : Nat) (d : BitVec n) (f : Ccr) :
    rorRule c n d.toNat (aluRor c d f).1.toNat f (aluRor c d f).2 := by
  have hk := Nat.mod_lt c hn
  refine ⟨fun j hj => ?_, rotateFlags_nz _ _ _, rfl, rfl, ?_⟩
  · rw [BitVec.testBit_toNat, BitVec.testBit_toNat]
    refine (rotr_bit (c % n) j d hk hj).trans ?_
    rw [Nat.add_mod_mod]
  · rw [BitVec.testBit_toNat]
    show (decide (0 < c) && _) = _
    rw [BitVec.msb_eq_getLsbD_last]
    rfl

theorem aluRol_rule (hn : 0 < n) (c : Nat) (d : BitVec n) (f : Ccr) :
    rolRule c n d.toNat (aluRol c d f).1.toNat f (aluRol c d f).2 := by
  have hk := Nat.mod_lt c hn
  refine ⟨fun j hj => ?_, rotateFlags_nz _ _ _, rfl, rfl, ?_⟩
  · rw [BitVec.testBit_toNat, BitVec.testBit_toNat, ← Nat.add_mod_mod]
    exact rotl_bit (c % n) j d hk hj
  · rw [BitVec.testBit_toNat]
    rfl

theorem withX_bit (x : Bool) (d : BitVec n) (j : Nat) : (withX x d).getLsbD j = bitX n d.toNat x j := by
  rw [withX, BitVec.getLsbD_cons, bitX, BitVec.testBit_toNat]

theorem bitX_of (e : BitVec (n + 1)) (j : Nat) (hj : j ≤ n) : bitX n (e.setWidth n).toNat e.msb j = e.getLsbD j := by
  rw [bitX, BitVec.testBit_toNat, BitVec.getLsbD_setWidth]
  by_cases h : j = n
  · rw [if_pos h, h, BitVec.msb_eq_getLsbD_last]; rfl
  · rw [if_neg h, decide_eq_true (by omega : j < n), Bool.true_and]

theorem roxFlags_nz (e : BitVec (n + 1)) : NZ n (e.setWidth n).toNat (roxFlags e) := ⟨msb_iff _, beq_zero_iff _⟩

theorem aluRoxr_rule (c : Nat) (d : BitVec n) (f : Ccr) :
    roxrRule c n d.toNat (aluRoxr c d f).1.toNat f (aluRoxr c d f).2 := by
  have hk := Nat.mod_lt c (Nat.succ_pos n)
  refine ⟨fun j hj => ?_, roxFlags_nz _, rfl, rfl⟩
  refine (bitX_of _ j hj).trans ?_
  refine (rotr_bit (c % (n + 1)) j (withX f.x d) hk (by omega)).trans ?_
  rw [Nat.add_mod_mod]
  exact withX_bit _ _ _

theorem aluRoxl_rule (c : Nat) (d : BitVec n) (f : Ccr) :
    roxlRule c n d.toNat (aluRoxl c d f).1.toNat f (aluRoxl c d f).2 := by
  have hk := Nat.mod_lt c (Nat.succ_pos n)
  refine ⟨fun j hj => ?_, roxFlags_nz _, rfl, rfl⟩
  refine (bitX_of _ _ (Nat.lt_succ_iff.mp (Nat.mod_lt _ (Nat.succ_pos n)))).trans ?_
  rw [← Nat.add_mod_mod]
  refine (rotl_bit (c % (n + 1)) j (withX f.x d) hk (by omega)).trans ?_
  exact withX_bit _ _ _

end

theorem signed_eq_toInt {n : Nat} (hn : 0 < n) (v : BitVec n) : signed n v.toNat = v.toInt := by
  have hp : 2 ^ n = 2 * 2 ^ (n - 1) := by rw [← Nat.pow_succ']; congr 1; omega
  rw [signed, BitVec.toInt_eq_toNat_cond]
  by_cases h : 2 ^ (n - 1) ≤ v.toNat
  · rw [if_pos h, if_neg (by omega)]; push_cast; rfl
  · rw [if_neg h, if_pos (by omega)]

/-- The unsigned value of an integer cut to `n` bits. -/
theorem ofInt_toNat (n : Nat) (k : Int) : ((BitVec.ofInt n k).toNat : Int) = k % 2 ^ n := by
  rw [BitVec.toNat_ofInt]
  rw [Int.toNat_of_nonneg (Int.emod_nonneg _ (by positivity))]
  push_cast
  rfl

/-- Sign extension to 32 bits is the signed value modulo 2^32. -/
theorem sext32_toNat {n : Nat} (hn : 0 < n) (v : BitVec n) :
    ((v.signExtend 32).toNat : Int) = signed n v.toNat % 2 ^ 32 := by
  rw [signed_eq_toInt hn, BitVec.signExtend, ofInt_toNat]

theorem size_pos (sz : Size) : 0 < sz.bits := by cases sz <;> decide

end Sys2Proof.Machine
end

