-- ==== Sys2Proof/Laws/PerInstr.lean ====
section
/-! SUPPORT. The per-instruction family `WordCount`: every instruction has one to five words (R90). -/

namespace Sys2Proof.Laws.WordCount

/-- An instruction is one opcode word and at most four extension words (R90), and `len` counts them (R107). -/
def Statement (i : Instr) : Prop := 1 ≤ (encode i).length ∧ (encode i).length ≤ 5 ∧ (encode i).length = i.len

/-- The count of an instruction whose own extension words and whose operands' fit. -/
theorem statement_of {i : Instr} (h : (ownExt i).length ≤ 2) (g : (eaExt i).length ≤ 2) : Statement i := by
  have e := length_encode i
  refine ⟨?_, ?_, e⟩ <;> rw [e, Instr.len] <;> omega

/-- The count of an instruction with no word of its own and two operands. -/
theorem statement_of_two {i : Instr} (h : (ownExt i).length = 0) (g : (eaExt i).length ≤ 4) : Statement i := by
  have e := length_encode i
  refine ⟨?_, ?_, e⟩ <;> rw [e, Instr.len] <;> omega

theorem length_immWords_le (sz : Size) (v : Long) : (immWords sz v).length ≤ 2 := by cases sz <;> simp [immWords, longWords]

theorem length_dispExt_le (d : Disp) : d.ext.length ≤ 2 := by cases d <;> simp [Disp.ext]

theorem length_two_ext_le (src dst : Ea) (sz : Size) : (src.ext sz ++ dst.ext sz).length ≤ 4 := by
  have h1 := length_ext_le src sz
  have h2 := length_ext_le dst sz
  rw [List.length_append]
  omega

theorem oriCcr (imm : BitVec 5) : Statement (.oriCcr imm) := statement_of (Nat.le_succ 1) (Nat.zero_le 2)

theorem ori (sz : Size) (imm : Long) (ea : Ea) : Statement (.ori sz imm ea) :=
  statement_of (length_immWords_le sz imm) (length_ext_le ea sz)

theorem andiCcr (imm : BitVec 5) : Statement (.andiCcr imm) := statement_of (Nat.le_succ 1) (Nat.zero_le 2)

theorem andi (sz : Size) (imm : Long) (ea : Ea) : Statement (.andi sz imm ea) :=
  statement_of (length_immWords_le sz imm) (length_ext_le ea sz)

theorem subi (sz : Size) (imm : Long) (ea : Ea) : Statement (.subi sz imm ea) :=
  statement_of (length_immWords_le sz imm) (length_ext_le ea sz)

theorem addi (sz : Size) (imm : Long) (ea : Ea) : Statement (.addi sz imm ea) :=
  statement_of (length_immWords_le sz imm) (length_ext_le ea sz)

theorem btstImm (n : Byte) (ea : Ea) : Statement (.btstImm n ea) := statement_of (Nat.le_succ 1) (length_ext_le ea .b)

theorem bchgImm (n : Byte) (ea : Ea) : Statement (.bchgImm n ea) := statement_of (Nat.le_succ 1) (length_ext_le ea .b)

theorem bclrImm (n : Byte) (ea : Ea) : Statement (.bclrImm n ea) := statement_of (Nat.le_succ 1) (length_ext_le ea .b)

theorem bsetImm (n : Byte) (ea : Ea) : Statement (.bsetImm n ea) := statement_of (Nat.le_succ 1) (length_ext_le ea .b)

theorem eoriCcr (imm : BitVec 5) : Statement (.eoriCcr imm) := statement_of (Nat.le_succ 1) (Nat.zero_le 2)

theorem eori (sz : Size) (imm : Long) (ea : Ea) : Statement (.eori sz imm ea) :=
  statement_of (length_immWords_le sz imm) (length_ext_le ea sz)

theorem cmpi (sz : Size) (imm : Long) (ea : Ea) : Statement (.cmpi sz imm ea) :=
  statement_of (length_immWords_le sz imm) (length_ext_le ea sz)

theorem btstDn (dn : RegNum) (ea : Ea) : Statement (.btstDn dn ea) :=
  statement_of (Nat.zero_le 2) (length_ext_le ea .b)

theorem bchgDn (dn : RegNum) (ea : Ea) : Statement (.bchgDn dn ea) :=
  statement_of (Nat.zero_le 2) (length_ext_le ea .b)

theorem bclrDn (dn : RegNum) (ea : Ea) : Statement (.bclrDn dn ea) :=
  statement_of (Nat.zero_le 2) (length_ext_le ea .b)

theorem bsetDn (dn : RegNum) (ea : Ea) : Statement (.bsetDn dn ea) :=
  statement_of (Nat.zero_le 2) (length_ext_le ea .b)

theorem move (sz : Size) (src : Ea) (dst : Ea) : Statement (.move sz src dst) :=
  statement_of_two rfl (length_two_ext_le src dst sz)

theorem movea (sz : Size) (src : Ea) (an : RegNum) : Statement (.movea sz src an) :=
  statement_of (Nat.zero_le 2) (length_ext_le src sz)

theorem negx (sz : Size) (ea : Ea) : Statement (.negx sz ea) := statement_of (Nat.zero_le 2) (length_ext_le ea sz)

theorem clr (sz : Size) (ea : Ea) : Statement (.clr sz ea) := statement_of (Nat.zero_le 2) (length_ext_le ea sz)

theorem neg (sz : Size) (ea : Ea) : Statement (.neg sz ea) := statement_of (Nat.zero_le 2) (length_ext_le ea sz)

theorem moveToCcr (ea : Ea) : Statement (.moveToCcr ea) := statement_of (Nat.zero_le 2) (length_ext_le ea .w)

theorem not (sz : Size) (ea : Ea) : Statement (.not sz ea) := statement_of (Nat.zero_le 2) (length_ext_le ea sz)

theorem swap (dn : RegNum) : Statement (.swap dn) := statement_of (Nat.zero_le 2) (Nat.zero_le 2)

theorem pea (ea : Ea) : Statement (.pea ea) := statement_of (Nat.zero_le 2) (length_ext_le ea .l)

theorem ext (sz : Size) (dn : RegNum) : Statement (.ext sz dn) := statement_of (Nat.zero_le 2) (Nat.zero_le 2)

theorem movemToMem (sz : Size) (mask : Word) (ea : Ea) : Statement (.movemToMem sz mask ea) :=
  statement_of (Nat.le_succ 1) (length_ext_le ea sz)

theorem tst (sz : Size) (ea : Ea) : Statement (.tst sz ea) := statement_of (Nat.zero_le 2) (length_ext_le ea sz)

theorem movemToRegs (sz : Size) (mask : Word) (ea : Ea) : Statement (.movemToRegs sz mask ea) :=
  statement_of (Nat.le_succ 1) (length_ext_le ea sz)

theorem trap (v : Fin 16) : Statement (.trap v) := statement_of (Nat.zero_le 2) (Nat.zero_le 2)

theorem link (an : RegNum) (d : Word) : Statement (.link an d) := statement_of (Nat.le_succ 1) (Nat.zero_le 2)

theorem unlk (an : RegNum) : Statement (.unlk an) := statement_of (Nat.zero_le 2) (Nat.zero_le 2)

theorem nop : Statement .nop := statement_of (Nat.zero_le 2) (Nat.zero_le 2)

theorem rts : Statement .rts := statement_of (Nat.zero_le 2) (Nat.zero_le 2)

theorem rtr : Statement .rtr := statement_of (Nat.zero_le 2) (Nat.zero_le 2)

theorem jsr (ea : Ea) : Statement (.jsr ea) := statement_of (Nat.zero_le 2) (length_ext_le ea .l)

theorem jmp (ea : Ea) : Statement (.jmp ea) := statement_of (Nat.zero_le 2) (length_ext_le ea .l)

theorem lea (ea : Ea) (an : RegNum) : Statement (.lea ea an) := statement_of (Nat.zero_le 2) (length_ext_le ea .l)

theorem addq (sz : Size) (q : Nat) (ea : Ea) : Statement (.addq sz q ea) :=
  statement_of (Nat.zero_le 2) (length_ext_le ea sz)

theorem subq (sz : Size) (q : Nat) (ea : Ea) : Statement (.subq sz q ea) :=
  statement_of (Nat.zero_le 2) (length_ext_le ea sz)

theorem dbcc (cond : Cond) (dn : RegNum) (d : Word) : Statement (.dbcc cond dn d) :=
  statement_of (Nat.le_succ 1) (Nat.zero_le 2)

theorem scc (cond : Cond) (ea : Ea) : Statement (.scc cond ea) := statement_of (Nat.zero_le 2) (length_ext_le ea .b)

theorem bra (d : Disp) : Statement (.bra d) := statement_of (length_dispExt_le d) (Nat.zero_le 2)

theorem bsr (d : Disp) : Statement (.bsr d) := statement_of (length_dispExt_le d) (Nat.zero_le 2)

theorem bcc (cond : Cond) (d : Disp) : Statement (.bcc cond d) := statement_of (length_dispExt_le d) (Nat.zero_le 2)

theorem moveq (imm : Byte) (dn : RegNum) : Statement (.moveq imm dn) := statement_of (Nat.zero_le 2) (Nat.zero_le 2)

theorem divu (ea : Ea) (dn : RegNum) : Statement (.divu ea dn) := statement_of (Nat.zero_le 2) (length_ext_le ea .w)

theorem divs (ea : Ea) (dn : RegNum) : Statement (.divs ea dn) := statement_of (Nat.zero_le 2) (length_ext_le ea .w)

theorem orEaDn (sz : Size) (ea : Ea) (dn : RegNum) : Statement (.orEaDn sz ea dn) :=
  statement_of (Nat.zero_le 2) (length_ext_le ea sz)

theorem orDnEa (sz : Size) (dn : RegNum) (ea : Ea) : Statement (.orDnEa sz dn ea) :=
  statement_of (Nat.zero_le 2) (length_ext_le ea sz)

theorem suba (sz : Size) (ea : Ea) (an : RegNum) : Statement (.suba sz ea an) :=
  statement_of (Nat.zero_le 2) (length_ext_le ea sz)

theorem subx (sz : Size) (mem : Bool) (y : RegNum) (x : RegNum) : Statement (.subx sz mem y x) :=
  statement_of (Nat.zero_le 2) (Nat.zero_le 2)

theorem subEaDn (sz : Size) (ea : Ea) (dn : RegNum) : Statement (.subEaDn sz ea dn) :=
  statement_of (Nat.zero_le 2) (length_ext_le ea sz)

theorem subDnEa (sz : Size) (dn : RegNum) (ea : Ea) : Statement (.subDnEa sz dn ea) :=
  statement_of (Nat.zero_le 2) (length_ext_le ea sz)

theorem cmpa (sz : Size) (ea : Ea) (an : RegNum) : Statement (.cmpa sz ea an) :=
  statement_of (Nat.zero_le 2) (length_ext_le ea sz)

theorem cmpm (sz : Size) (y : RegNum) (x : RegNum) : Statement (.cmpm sz y x) :=
  statement_of (Nat.zero_le 2) (Nat.zero_le 2)

theorem cmp (sz : Size) (ea : Ea) (dn : RegNum) : Statement (.cmp sz ea dn) :=
  statement_of (Nat.zero_le 2) (length_ext_le ea sz)

theorem eor (sz : Size) (dn : RegNum) (ea : Ea) : Statement (.eor sz dn ea) :=
  statement_of (Nat.zero_le 2) (length_ext_le ea sz)

theorem mulu (ea : Ea) (dn : RegNum) : Statement (.mulu ea dn) := statement_of (Nat.zero_le 2) (length_ext_le ea .w)

theorem muls (ea : Ea) (dn : RegNum) : Statement (.muls ea dn) := statement_of (Nat.zero_le 2) (length_ext_le ea .w)

theorem exgDD (x : RegNum) (y : RegNum) : Statement (.exgDD x y) := statement_of (Nat.zero_le 2) (Nat.zero_le 2)

theorem exgAA (x : RegNum) (y : RegNum) : Statement (.exgAA x y) := statement_of (Nat.zero_le 2) (Nat.zero_le 2)

theorem exgDA (x : RegNum) (y : RegNum) : Statement (.exgDA x y) := statement_of (Nat.zero_le 2) (Nat.zero_le 2)

theorem andEaDn (sz : Size) (ea : Ea) (dn : RegNum) : Statement (.andEaDn sz ea dn) :=
  statement_of (Nat.zero_le 2) (length_ext_le ea sz)

theorem andDnEa (sz : Size) (dn : RegNum) (ea : Ea) : Statement (.andDnEa sz dn ea) :=
  statement_of (Nat.zero_le 2) (length_ext_le ea sz)

theorem adda (sz : Size) (ea : Ea) (an : RegNum) : Statement (.adda sz ea an) :=
  statement_of (Nat.zero_le 2) (length_ext_le ea sz)

theorem addx (sz : Size) (mem : Bool) (y : RegNum) (x : RegNum) : Statement (.addx sz mem y x) :=
  statement_of (Nat.zero_le 2) (Nat.zero_le 2)

theorem addEaDn (sz : Size) (ea : Ea) (dn : RegNum) : Statement (.addEaDn sz ea dn) :=
  statement_of (Nat.zero_le 2) (length_ext_le ea sz)

theorem addDnEa (sz : Size) (dn : RegNum) (ea : Ea) : Statement (.addDnEa sz dn ea) :=
  statement_of (Nat.zero_le 2) (length_ext_le ea sz)

theorem asrReg (sz : Size) (cnt : Count) (dn : RegNum) : Statement (.asrReg sz cnt dn) :=
  statement_of (Nat.zero_le 2) (Nat.zero_le 2)

theorem aslReg (sz : Size) (cnt : Count) (dn : RegNum) : Statement (.aslReg sz cnt dn) :=
  statement_of (Nat.zero_le 2) (Nat.zero_le 2)

theorem lsrReg (sz : Size) (cnt : Count) (dn : RegNum) : Statement (.lsrReg sz cnt dn) :=
  statement_of (Nat.zero_le 2) (Nat.zero_le 2)

theorem lslReg (sz : Size) (cnt : Count) (dn : RegNum) : Statement (.lslReg sz cnt dn) :=
  statement_of (Nat.zero_le 2) (Nat.zero_le 2)

theorem roxrReg (sz : Size) (cnt : Count) (dn : RegNum) : Statement (.roxrReg sz cnt dn) :=
  statement_of (Nat.zero_le 2) (Nat.zero_le 2)

theorem roxlReg (sz : Size) (cnt : Count) (dn : RegNum) : Statement (.roxlReg sz cnt dn) :=
  statement_of (Nat.zero_le 2) (Nat.zero_le 2)

theorem rorReg (sz : Size) (cnt : Count) (dn : RegNum) : Statement (.rorReg sz cnt dn) :=
  statement_of (Nat.zero_le 2) (Nat.zero_le 2)

theorem rolReg (sz : Size) (cnt : Count) (dn : RegNum) : Statement (.rolReg sz cnt dn) :=
  statement_of (Nat.zero_le 2) (Nat.zero_le 2)

theorem asrMem (ea : Ea) : Statement (.asrMem ea) := statement_of (Nat.zero_le 2) (length_ext_le ea .w)

theorem aslMem (ea : Ea) : Statement (.aslMem ea) := statement_of (Nat.zero_le 2) (length_ext_le ea .w)

theorem lsrMem (ea : Ea) : Statement (.lsrMem ea) := statement_of (Nat.zero_le 2) (length_ext_le ea .w)

theorem lslMem (ea : Ea) : Statement (.lslMem ea) := statement_of (Nat.zero_le 2) (length_ext_le ea .w)

theorem roxrMem (ea : Ea) : Statement (.roxrMem ea) := statement_of (Nat.zero_le 2) (length_ext_le ea .w)

theorem roxlMem (ea : Ea) : Statement (.roxlMem ea) := statement_of (Nat.zero_le 2) (length_ext_le ea .w)

theorem rorMem (ea : Ea) : Statement (.rorMem ea) := statement_of (Nat.zero_le 2) (length_ext_le ea .w)

theorem rolMem (ea : Ea) : Statement (.rolMem ea) := statement_of (Nat.zero_le 2) (length_ext_le ea .w)

end Sys2Proof.Laws.WordCount
end

