-- ==== Sys2Proof/Laws/Shapes.lean ====
section
/-! SUPPORT. One lemma for each shape of instruction of `Sys2Proof.Claims`: it reduces the shape to the
meaning's own operation and to the rule of its result and flags. -/

namespace Sys2Proof.Machine

open Claims

/-- A commit of an error raises it. -/
theorem faults_of {i : Instr} {s : State} {c : Cause} {r : Res State} (h : Machine.exec i s = commit s r) (hr : r = .error c) :
    Faults i s c := by rw [Faults, h, hr]; rfl

/-- A commit of a state answers it. -/
theorem completes_of {i : Instr} {s u : State} {r : Res State} {p : State → Prop} (h : Machine.exec i s = commit s r)
    (hr : r = .ok u) (hp : p u) : Completes i s p := ⟨u, by rw [h, hr]; rfl, hp⟩

theorem eaToDn_shape {i : Instr} {sz : Size} {ea : Ea} {dn : RegNum} {rule : AluRule} {f : Alu sz}
    (he : Encoded i) (hx : ∀ s, Machine.exec i s = commit s (eaToDn i sz f ea dn s))
    (hr : ∀ s d c, rule sz.bits s.toNat d.toNat (f s d c).1.toNat c (f s d c).2) : EaToDn i sz ea dn rule := by
  refine ⟨he, fun s => ⟨fun c hc => faults_of (hx s) (eaToDn_of_error hc), fun v t h => ?_⟩⟩
  obtain ⟨u, h1, h2, h3, h4, h5, h6, h7⟩ := eaToDn_of_read (f := f) (dn := dn) h
  refine completes_of (hx s) h1 ⟨⟨_, (f v (s.dPart dn sz) s.ccr).1.isLt, ?_, h2⟩, h4, h5, h6, h7⟩
  rw [h3, ← dPart_toNat]
  exact hr v _ _

theorem modifies_shape {i : Instr} {sz : Size} {ea : Ea} {v : State → Nat} {rule : AluRule} {f : State → Alu sz} {w : State → BitVec sz.bits}
    (he : Encoded i) (hx : ∀ s, Machine.exec i s = commit s (modifyEa i sz (f s) (w s) ea s))
    (hwf : i.wf = true → ea.mode.isAreg = false ∧ ea.mode.isImm = false)
    (hr : i.wf = true → ∀ s d c, rule sz.bits (v s) d.toNat (f s (w s) d c).1.toNat c (f s (w s) d c).2) : ModifiesEa i sz v ea rule := by
  refine ⟨he, fun s hw => ⟨fun c hc => faults_of (hx s) (modifyEa_of_error hc), fun loc t d he hd => ?_⟩⟩
  obtain ⟨u, h1, h2, h3, h4, h5, h6⟩ := modifyEa_of_read (f := f s) (v := w s) he hd (evalEa_writable he (hwf hw).1 (hwf hw).2)
  refine completes_of (hx s) h1 ⟨⟨_, (f s (w s) d s.ccr).1.isLt, ?_, h2⟩, h4, h5, h6⟩
  rw [h3]
  exact hr hw s d _

theorem eaToAn_shape {i : Instr} {sz : Size} {ea : Ea} {an : RegNum} {f : Long → Long → Long} {g : Int → Int → Int}
    (he : Encoded i) (hx : ∀ s, Machine.exec i s = commit s (eaToAn i sz f ea an s))
    (hg : ∀ (v : BitVec sz.bits) a, ((f (longSource sz v) a).toNat : Int) = g (signed sz.bits v.toNat) a.toNat % 2 ^ 32) :
    EaToAn i sz ea an g := by
  refine ⟨he, fun s => ⟨fun c hc => faults_of (hx s) (eaToAn_of_error hc), fun v t h => ?_⟩⟩
  obtain ⟨u, h1, h2, h3, h4, h5, h6, h7⟩ := eaToAn_of_read (f := f) (an := an) h
  exact completes_of (hx s) h1 ⟨by rw [h2]; exact hg v _, h3, h4, h5, h6, h7⟩

theorem reads_shape {i : Instr} {sz : Size} {ea : Ea} {flags : State → Nat → Ccr → Prop} {g : State → BitVec sz.bits → State → Ccr}
    (he : Encoded i) (hx : ∀ s c, readEa i sz ea s = .error c → Machine.exec i s = commit s (.error c))
    (hy : ∀ s v t, readEa i sz ea s = .ok (v, t) → Machine.exec i s = commit s (.ok (advance i (t.setCcr (g s v t)))))
    (hg : ∀ s v t, readEa i sz ea s = .ok (v, t) → flags s v.toNat (g s v t)) : ReadsEa i sz ea flags := by
  refine ⟨he, fun s => ⟨fun c hc => faults_of (hx s c hc) rfl, fun v t h => completes_of (hy s v t h) rfl ?_⟩⟩
  obtain ⟨ht, hA⟩ := readEa_state h
  refine ⟨hg s v t h, fun n => dreg_of_a ht n, fun n => hA n, fun a => ?_, ?_, pcNext_advance i s _ (show t.pc = s.pc from pc_of_a ht)⟩
  · show t.mem.read a = _; rw [mem_of_a ht]
  · exact controlKept_of_plain (((plain_of_a ht).setCcr _).advance i)

/-- A memory operand whose access does not fault is read. -/
theorem readMem_ok {i : Instr} {sz : Size} {s t : State} {a : Long} {ea : Ea} (he : evalEa i sz ea s = .ok (.mem a, t))
   (h : accessFault s.cfg a sz.bytes .read = none) : ∃ v, readEa i sz ea s = .ok (v, t) ∧ v.toNat = valueAt s a sz.bytes ∧ readLoc (.mem a) sz t = .ok v := by
  have ht := (evalEa_ok he).1
  rw [← cfg_of_a ht] at h
  have hr : readLoc (.mem a) sz t = .ok ((BitVec.ofNat (8 * sz.bytes) (t.mem.readNat a.toNat sz.bytes)).setWidth sz.bits) := by
    simp only [readLoc, memRead_of_none h]
  refine ⟨_, readEa_of he hr, ?_, hr⟩
  rw [setWidth_bits_toNat, BitVec.toNat_ofNat, Nat.mod_eq_of_lt, mem_of_a ht]; rfl
  have := Memory.readNat_lt t.mem a.toNat sz.bytes
  rwa [show 256 = 2 ^ 8 by rfl, ← Nat.pow_mul] at this

/-- A memory operand whose access faults raises that fault. -/
theorem readMem_err {i : Instr} {sz : Size} {s t : State} {a : Long} {ea : Ea} {c : Cause} (he : evalEa i sz ea s = .ok (.mem a, t))
   (h : accessFault s.cfg a sz.bytes .read = some c) : readEa i sz ea s = .error c := by
  rw [← cfg_of_a (evalEa_ok he).1] at h
  simp only [readEa, he, readLoc, memRead_of_some h]

/-- The only fault of a control-class address is a bad brief extension word (R150). -/
theorem eaAddr_err {i : Instr} {ea : Ea} {s : State} {c : Cause} (hc : ea.mode.isControl = true) (h : eaAddr i ea s = .error c) :
   ∃ x, c = .illegalInstruction (opcodeWord i) (some x) := by
  cases ea <;> simp only [Ea.mode, EaMode.isControl] at hc <;> try (cases hc)
  case index n x => simp only [eaAddr, indexedAddr] at h; split at h <;> cases h; exact ⟨_, rfl⟩
  case pcIndex x => simp only [eaAddr, indexedAddr] at h; split at h <;> cases h; exact ⟨_, rfl⟩
  all_goals cases h

/-- PEA, BSR and JSR: push, then some change of `pc`. -/
theorem pushes_shape {i : Instr} {s : State} {v target : Long} (g : State → State)
   (hg : ∀ t, (g t).d = t.d ∧ (g t).a = t.a ∧ (g t).mem = t.mem ∧ (g t).ccr = t.ccr ∧ ControlKept t (g t)) 
   (hx : Machine.exec i s = commit s (match push s v with | .error c => .error c | .ok t => .ok (g t)))
   (hp : ∀ t, t.pc = s.pc → (g t).pc = target) : Pushes i s v target := by
  refine ⟨fun c hc => faults_of (r := .error c) ?_ rfl, fun hn => ?_⟩
  · rw [hx, push_of_some hc]
  · rw [push_of_none hn] at hx
    obtain ⟨h1, h2, h3, h4, h5⟩ := hg { s.setA 7 (s.areg 7 - 4) with mem := s.mem.writeNat (s.areg 7 - 4).toNat 4 v.toNat }
    refine completes_of hx rfl ⟨?_, fun m hm => ?_, fun m => ?_, ?_, h4, h5, hp _ rfl⟩
    · rw [show ∀ w : State, w.areg 7 = w.a[(7 : RegNum)] from fun _ => rfl, h2]
      show (s.setA 7 (s.areg 7 - 4)).areg 7 = _
      exact State.areg_setA_self s 7 _
    · rw [show ∀ w : State, w.areg m = w.a[m] from fun _ => rfl, h2]
      show (s.setA 7 (s.areg 7 - 4)).areg m = _
      exact (State.areg_setA s 7 m _).trans (if_neg hm)
    · simp only [State.dreg, h1]; rfl
    · have := memStored_writeNat s (s.areg 7 - 4).toNat 4 v.toNat
      exact ⟨fun j hj => by rw [h3]; exact this.1 j hj, fun b hb => by rw [h3]; exact this.2 b hb⟩

theorem shifts_shape {i : Instr} {sz : Size} {cnt : Count} {dn : RegNum} {rule : ShiftRule}
    {f : Nat → BitVec sz.bits → Ccr → BitVec sz.bits × Ccr}
    (he : Encoded i) (hx : ∀ s, Machine.exec i s = commit s (Machine.shiftReg i sz f cnt dn s))
    (hr : ∀ c d ccr, rule c sz.bits d.toNat (f c d ccr).1.toNat ccr (f c d ccr).2) : ShiftsDn i sz cnt dn rule := by
  refine ⟨he, fun s => ?_⟩
  have he : evalEa i sz (.dreg dn) s = .ok (.dreg dn, s) := rfl
  obtain ⟨u, h1, h2, h3, h4, h5, h6⟩ := modifyEa_of_read (f := fun _ d ccr => f (countValue cnt s) d ccr) (v := (0 : BitVec sz.bits)) he (d := s.dPart dn sz) rfl rfl
  refine completes_of (hx s) h1 ⟨⟨_, (f (countValue cnt s) (s.dPart dn sz) s.ccr).1.isLt, ?_, h2.1⟩, h4, h2.2, h5, h6⟩
  rw [h3, ← dPart_toNat]
  have := hr (countValue cnt s) (s.dPart dn sz) s.ccr
  cases cnt <;> exact this

theorem mul_shape {i : Instr} {ea : Ea} {dn : RegNum} {f : Nat → Nat → Int} {m : Word → Word → Long}
   (he : Encoded i) (hx : ∀ s, Machine.exec i s = commit s (wordToDn i (fun v d c => (m v (d.setWidth 16), nz00 (m v (d.setWidth 16)) c)) ea dn s))
   (hm : ∀ v d, ((m v d).toNat : Int) = f v.toNat d.toNat) : Multiplies i ea dn f := by
  refine ⟨he, fun s => ⟨fun c hc => faults_of (hx s) (by simp only [wordToDn, hc]), fun v t h => ?_⟩⟩
  obtain ⟨ht, hA⟩ := readEa_state h
  have hd := dreg_of_a ht dn
  refine completes_of (hx s) (u := advance i ((t.setD dn (m v ((s.dreg dn).setWidth 16))).setCcr (nz00 (m v ((s.dreg dn).setWidth 16)) s.ccr))) (by simp only [wordToDn, h, hd, ccr_of_a ht]) ⟨?_, fun k hk => ?_, ?_, fun n => hA n, fun a => ?_, ?_, pcNext_advance i s _ (show t.pc = s.pc from pc_of_a ht)⟩
  · rw [show ∀ w : State, (advance i ((t.setD dn (m v ((s.dreg dn).setWidth 16))).setCcr _)).dreg dn = (m v ((s.dreg dn).setWidth 16)) from fun _ => by simp, hm, BitVec.toNat_setWidth]
    exact s
  · simp [State.dreg_setD, hk]; exact dreg_of_a ht k
  · have := nz00_rule (m v ((s.dreg dn).setWidth 16)) s.ccr
    simpa using this
  · show t.mem.read a = _; rw [mem_of_a ht]
  · exact controlKept_of_plain ((((plain_of_a ht).setD _ _).setCcr _).advance i)

theorem div_shape {i : Instr} {sg : Bool} {ea : Ea} {dn : RegNum} {quot rem : Nat → Nat → Int} {fits : Int → Prop} {f : DivOvf → Word → Long → Ccr → Long × Ccr}
   (he : Encoded i) (hx : ∀ s, Machine.exec i s = commit s (divide i (f s.cfg.divOvf) ea dn s))
   (h1 : ∀ p v d c, v ≠ 0 → fits (quot d.toNat v.toNat) → let q := quot d.toNat v.toNat; ((f p v d c).1.toNat : Int) = rem d.toNat v.toNat % 2^16 * 2^16 + q % 2^16 ∧
     ((f p v d c).2.n = true ↔ (if sg then q < 0 else 2^15 ≤ q)) ∧ ((f p v d c).2.z = true ↔ q = 0) ∧ (f p v d c).2.v = false ∧ (f p v d c).2.c = false ∧ (f p v d c).2.x = c.x)
   (h2 : ∀ p v d c, v ≠ 0 → ¬ fits (quot d.toNat v.toNat) → f p v d c = (d, divOvfFlags p d v sg c)) :
   Divides i sg ea dn quot rem fits := by
  refine ⟨he, fun s => ⟨fun c hc => faults_of (hx s) (by simp only [divide, hc]), fun v t h => ⟨fun hv => faults_of (hx s) (by simp only [divide, h, hv, if_true]), fun hv => ?_⟩⟩⟩
  obtain ⟨ht, hA⟩ := readEa_state h
  have hd := dreg_of_a ht dn
  have hu : Machine.exec i s = _ := hx s
  set w := f s.cfg.divOvf v (s.dreg dn) s.ccr with hw
  refine completes_of (hx s) (u := advance i ((t.setD dn w.1).setCcr w.2)) (by simp only [divide, h, hd, ccr_of_a ht, hv, if_false]; rw [hw]) ?_
  have e1 : (advance i ((t.setD dn w.1).setCcr w.2)).dreg dn = w.1 := by simp
  have e2 : (advance i ((t.setD dn w.1).setCcr w.2)).ccr = w.2 := rfl
  refine ⟨fun hf => ?_, fun hf => ?_, ?_, fun k hk => ?_, fun n => hA n, fun a => ?_, ?_, pcNext_advance i s _ (show t.pc = s.pc from pc_of_a ht)⟩
  · obtain ⟨a1, a2, a3, a4, a5, a6⟩ := h1 s.cfg.divOvf v (s.dreg dn) s.ccr hv hf
    rw [e1, e2]
    exact ⟨a1, a2, a3, a4, a5⟩
  · rw [e1, e2, hw, h2 s.cfg.divOvf v (s.dreg dn) s.ccr hv hf]
    refine ⟨rfl, rfl, rfl, rfl, fun hp => ?_⟩
    simp [divOvfFlags, divOvfNZ, hp]
  · rw [e2]
    by_cases hf : fits (quot (s.dreg dn).toNat v.toNat)
    · exact (h1 s.cfg.divOvf v (s.dreg dn) s.ccr hv hf).2.2.2.2.2
    · rw [hw, h2 s.cfg.divOvf v (s.dreg dn) s.ccr hv hf]; rfl
  · simp [State.dreg_setD, hk]; exact dreg_of_a ht k
  · show t.mem.read a = _; rw [mem_of_a ht]
  · exact controlKept_of_plain ((((plain_of_a ht).setD _ _).setCcr _).advance i)

theorem pairsDn_shape {i : Instr} {sz : Size} {y x : RegNum} {rule : AluRule} {f : Alu sz}
    (he : Encoded i) (hx : ∀ s, Machine.exec i s = commit s (modifyEa i sz f (s.dPart y sz) (.dreg x) s))
    (hr : ∀ s d c, rule sz.bits s.toNat d.toNat (f s d c).1.toNat c (f s d c).2) : PairsDn i sz y x rule := by
  refine ⟨he, fun s => ?_⟩
  obtain ⟨u, h1, h2, h3, h4, h5, h6⟩ := modifyEa_of_read (f := f) (v := s.dPart y sz) (show evalEa i sz (.dreg x) s = .ok (.dreg x, s) from rfl) (d := s.dPart x sz) rfl rfl
  refine completes_of (hx s) h1 ⟨⟨_, (f (s.dPart y sz) (s.dPart x sz) s.ccr).1.isLt, ?_, h2.1⟩, h4, h2.2, h5, h6⟩
  rw [h3, ← dPart_toNat, ← dPart_toNat]
  exact hr _ _ _

theorem pairsMem_shape {i : Instr} {sz : Size} {y x : RegNum} {rule : AluRule} {f : Alu sz}
    (he : Encoded i) (hx : ∀ s, Machine.exec i s = commit s (xPairMem i sz f y x s))
    (hr : ∀ s d c, rule sz.bits s.toNat d.toNat (f s d c).1.toNat c (f s d c).2) : PairsMem i sz y x rule := by
  refine ⟨he, fun s => ?_⟩
  intro src dst
  have e1 : evalEa i sz (.preDec y) s = .ok (.mem src, s.setA y src) := by
    show Except.ok (Loc.mem (s.areg y - eaStep sz y), s.setA y (s.areg y - eaStep sz y)) = _
    rw [eaStep_eq_incr]
  have hA := (evalEa_ok e1).2
  have e2 : evalEa i sz (.preDec x) (s.setA y src) = .ok (.mem dst, (s.setA y src).setA x dst) := by
    show Except.ok (Loc.mem ((s.setA y src).areg x - eaStep sz x), (s.setA y src).setA x ((s.setA y src).areg x - eaStep sz x)) = _
    rw [eaStep_eq_incr, hA x]
  refine ⟨fun c h => ?_, fun h c g => ?_, fun h g => ?_⟩
  · apply faults_of (hx s); simp only [xPairMem, readMem_err e1 h]
  · obtain ⟨v, hv, -, -⟩ := readMem_ok e1 h
    apply faults_of (hx s); simp only [xPairMem, hv]
    exact modifyEa_of_error (readMem_err (s := s.setA y src) e2 g)
  · obtain ⟨v, hv, hvn, -⟩ := readMem_ok e1 h
    obtain ⟨d, -, hdn, hd⟩ := readMem_ok (s := s.setA y src) e2 g
    obtain ⟨u, h1, h2, h3, h4, h5, h6⟩ := modifyEa_of_read (f := f) (v := v) e2 hd rfl
    refine completes_of (hx s) (by simp only [xPairMem, hv]; exact h1) ⟨⟨_, (f v d s.ccr).1.isLt, ?_, h2.2⟩, fun n => ?_, h2.1, h5, h6⟩
    · rw [h3, ← hvn]
      have := hr v d s.ccr
      rw [hdn] at this; exact this
    · rw [h4 n, hA n]

end Sys2Proof.Machine
end

