-- ==== Sys2Proof/Laws/Step.lean ====
section
/-! SUPPORT. One step: what it is in each status, the end-of-program test, and the instruction-start set. -/

namespace Sys2Proof.Machine

open Claims

/-- A step of a running core. -/
theorem step_running {s : State} (h : s.status = .running) : step s = match fetchDecode s with
    | .ok i => endStep (exec i s)
    | .error c => .next (raise c s) := by
  unfold step; rw [h] <;> rfl

/-- Every step answers a next state. -/
theorem step_next (s : State) : ∃ t, step s = .next t := by
  rw [step]
  split
  · split
    · obtain ⟨t, ht⟩ := exec_next ‹_› s
      rw [ht]; exact ⟨_, rfl⟩
    · exact ⟨_, rfl⟩
  all_goals exact ⟨_, rfl⟩

theorem stepState_eq {s t : State} (h : step s = .next t) : stepState s = t := by rw [stepState, h]

/-- In any other status a step changes nothing (R355). -/
theorem step_other {s : State} (h : s.status ≠ .running) : stepState s = s := by
  apply stepState_eq; rw [step]; cases hs : s.status <;> simp_all

/-- An instruction start is the number of a word of the program. -/
theorem startsAt_lt : ∀ (ws : List Word) (skip k : Nat), startsAt ws skip k = true → k < ws.length
  | [], _, _, h => by cases h
  | _ :: _, _, 0, _ => by simp
  | w :: ws, 0, k + 1, h => by have := startsAt_lt ws _ k h; simpa
  | w :: ws, skip + 1, k + 1, h => by have := startsAt_lt ws _ k h; simpa

/-- The words that an instruction still covers begin none. -/
theorem startsAt_ge : ∀ (ws : List Word) (skip k : Nat), startsAt ws skip k = true → skip ≤ k
  | [], _, _, h => by cases h
  | _ :: _, 0, _, _ => Nat.zero_le _
  | _ :: _, skip + 1, 0, h => by simp [startsAt] at h
  | _ :: ws, skip + 1, k + 1, h => by have := startsAt_ge ws skip k h; omega

/-- After the words that an instruction covers the decoding starts afresh. -/
theorem startsAt_skip : ∀ (ws : List Word) (skip k : Nat), startsAt ws skip (skip + k) = startsAt (ws.drop skip) 0 k
  | ws, 0, k => by simp
  | [], skip + 1, k => by simp [startsAt]
  | w :: ws, skip + 1, k => by
    rw [show skip + 1 + k = (skip + k) + 1 by omega]
    simp only [startsAt, List.drop_succ_cons]
    exact startsAt_skip ws skip k

/-- A program with words begins with an instruction. -/
theorem startsAt_zero {ws : List Word} (h : ws ≠ []) : startsAt ws 0 0 = true := by
  cases ws with
  | nil => exact absurd rfl h
  | cons => rfl

/-- Word `k + 1` of a program begins an instruction if, and only if, it does counted from the end of the first one. -/
theorem startsAt_cons (x : Word) (xs : List Word) (k : Nat) : startsAt (x :: xs) 0 (k + 1) = true ↔
    ∃ j, k + 1 = lenOf x + j ∧ startsAt (xs.drop (lenOf x - 1)) 0 j = true := by
  have hx := lenOf_pos x
  rw [startsAt]
  constructor
  · intro h
    have g := startsAt_ge _ _ _ h
    refine ⟨k - (lenOf x - 1), by omega, ?_⟩
    rw [← startsAt_skip, show lenOf x - 1 + (k - (lenOf x - 1)) = k by omega]; exact h
  · rintro ⟨j, hj, h⟩
    rw [← startsAt_skip] at h
    rw [show k = lenOf x - 1 + j by omega]; exact h

/-- The word after an instruction that ends inside the program begins one (R119). -/
theorem startsAt_next : ∀ (n : Nat) {ws : List Word} {k : Nat} {w : Word}, k < n → startsAt ws 0 k = true →
    ws[k]? = some w → k + lenOf w < ws.length → startsAt ws 0 (k + lenOf w) = true := by
  intro n
  induction n with
  | zero => intro _ _ _ h; omega
  | succ n ih =>
    intro ws k w hk h1 h2 h3
    cases ws with
    | nil => cases h1
    | cons x xs =>
      have hw := lenOf_pos w
      have hx := lenOf_pos x
      obtain ⟨m, hm⟩ : ∃ m, k + lenOf w = m + 1 := ⟨k + lenOf w - 1, by omega⟩
      rw [hm, startsAt_cons]
      cases k with
      | zero =>
        obtain rfl : x = w := by simpa using h2
        refine ⟨0, by omega, startsAt_zero fun h => ?_⟩
        simp at h h3; omega
      | succ k =>
        obtain ⟨j, hj, h⟩ := (startsAt_cons x xs k).mp h1
        refine ⟨j + lenOf w, by omega, ih (by omega) h ?_ ?_⟩
        · rw [List.getElem?_drop, ← h2, List.getElem?_cons_succ]; congr 1; omega
        · simp at h3 ⊢; omega

/-- A word that begins an instruction is the first one or comes after one (R119). -/
theorem startsAt_prev : ∀ (n : Nat) {ws : List Word} {k : Nat}, k < n → startsAt ws 0 k = true →
    k = 0 ∨ ∃ j w, startsAt ws 0 j = true ∧ ws[j]? = some w ∧ k = j + lenOf w := by
  intro n
  induction n with
  | zero => intro _ _ h; omega
  | succ n ih =>
    intro ws k hk h1
    cases ws with
    | nil => cases h1
    | cons x xs =>
      have hx := lenOf_pos x
      cases k with
      | zero => exact .inl rfl
      | succ k =>
        right
        obtain ⟨j, hj, h⟩ := (startsAt_cons x xs k).mp h1
        rcases ih (by omega) h with rfl | ⟨i, w, h2, h3, rfl⟩
        · exact ⟨0, x, rfl, rfl, by omega⟩
        · obtain ⟨m, hm⟩ : ∃ m, lenOf x + i = m + 1 := ⟨lenOf x + i - 1, by omega⟩
          refine ⟨lenOf x + i, w, ?_, ?_, by omega⟩
          · rw [hm, startsAt_cons]; exact ⟨i, hm.symm, h2⟩
          · rw [hm, List.getElem?_cons_succ, ← h3, List.getElem?_drop]; congr 1; omega

/-- An instruction start lies in the program, an even number of bytes after its base. -/
theorem inIStart_bounds {c : Config} {a : Long} (h : inIStart c a = true) : c.progBase.toNat ≤ a.toNat ∧ a.toNat < c.progEnd ∧ (a.toNat - c.progBase.toNat) % 2 = 0 := by
  simp only [inIStart, Bool.and_eq_true, decide_eq_true_eq] at h
  have := startsAt_lt _ _ _ h.2
  rw [Config.progEnd]; omega

theorem endStep_next (t : State) : endStep (.next t) = .next (if t.status = .running ∧ t.pc.toNat = t.cfg.progEnd then { t with status := .terminated } else t) := rfl

/-- The end-of-program test (R356). -/
theorem endOfProgram_cases (t : State) : (endOfProgram t = t ∧ (t.status = .running → t.pc.toNat ≠ t.cfg.progEnd)) ∨ (t.status = .running ∧ t.pc.toNat = t.cfg.progEnd ∧ endOfProgram t = { t with status := .terminated }) := by
  rw [endOfProgram]; split
  · right; exact ⟨‹_ ∧ _›.1, ‹_ ∧ _›.2, rfl⟩
  · left; rename_i g; exact ⟨rfl, fun h1 h2 => g ⟨h1, h2⟩⟩

end Sys2Proof.Machine
end

