-- ==== Sys2Proof/Laws/Transfers.lean ====
section
/-! SUPPORT. Transfers of many items: MOVEM in both directions, the bytes of a ReadString answer, the scan of a
WriteString text. -/

namespace Sys2Proof.Machine

open Claims

theorem addr_up_succ (a : Long) (j b : Nat) : a + BitVec.ofNat 32 b + BitVec.ofNat 32 (j * b) = a + BitVec.ofNat 32 ((j+1) * b) := by
  rw [Nat.add_mul, Nat.one_mul, Nat.add_comm (j*b), BitVec.ofNat_add, BitVec.add_assoc]

theorem addr_up_disjoint (a : Long) (sz : Size) (j k : Nat) (hj : j < 17) (hk : k < 17) (h : j ≠ k) :
  (a + BitVec.ofNat 32 (j * sz.bytes)).toNat + sz.bytes ≤ (a + BitVec.ofNat 32 (k * sz.bytes)).toNat ∨
  (a + BitVec.ofNat 32 (k * sz.bytes)).toNat + sz.bytes ≤ (a + BitVec.ofNat 32 (j * sz.bytes)).toNat := by
  have := a.isLt
  rw [BitVec.toNat_add, BitVec.toNat_add, BitVec.toNat_ofNat, BitVec.toNat_ofNat]
  cases sz <;> simp only [Size.bytes] <;> omega

/-- The first store that faults, in ascending order, is the fault of the transfer. -/
theorem storeUp_err (s0 : State) (sz : Size) (ks : List (Fin 16)) : ∀ (a : Long) (s : State) (j : Nat) (c : Cause), j < ks.length →
   (∀ k, k < j → accessFault s.cfg (a + BitVec.ofNat 32 (k * sz.bytes)) sz.bytes .write = none) → accessFault s.cfg (a + BitVec.ofNat 32 (j * sz.bytes)) sz.bytes .write = some c →
   storeUp s0 sz ks a s = .error c := by
  induction ks with
  | nil => intro a s j c hj; simp at hj
  | cons r ks ih =>
    intro a s j c hj h1 h2
    rw [storeUp]
    cases j with
    | zero =>
      have h2' : accessFault s.cfg a sz.bytes .write = some c := by simpa using h2
      rw [memWrite_of_some _ h2']
    | succ j =>
      have h0 : accessFault s.cfg a sz.bytes .write = none := by simpa using h1 0 (by omega)
      rw [memWrite_of_none _ h0]
      refine ih (a + _) { s with mem := s.mem.writeNat a.toNat _ _ } j c (by simpa using hj) (fun k hk => ?_) ?_
      · rw [addr_up_succ]; exact h1 (k+1) (by omega)
      · rw [addr_up_succ]; exact h2

/-- Ascending stores: each listed register ends up at its own address, every other byte is kept. -/
theorem storeUp_ok (s0 : State) (sz : Size) (ks : List (Fin 16)) : ∀ (a : Long) (s : State), ks.length ≤ 16 →
   (∀ j, j < ks.length → accessFault s.cfg (a + BitVec.ofNat 32 (j * sz.bytes)) sz.bytes .write = none) →
   ∃ t, storeUp s0 sz ks a s = .ok t ∧ t = { s with mem := t.mem } ∧
    (∀ j k, ks[j]? = some k → ∀ b, b < sz.bytes →
        t.mem.read ((a + BitVec.ofNat 32 (j * sz.bytes)).toNat + b) = BitVec.ofNat 8 (low sz (multiReg s0 k) / 256 ^ (sz.bytes - 1 - b))) ∧
      (∀ x, (∀ j, j < ks.length → x < (a + BitVec.ofNat 32 (j * sz.bytes)).toNat ∨
        (a + BitVec.ofNat 32 (j * sz.bytes)).toNat + sz.bytes ≤ x) → t.mem.read x = s.mem.read x) := by
  induction ks with
  | nil => intro a s _ _; exact ⟨s, rfl, rfl, by simp, fun _ _ => rfl⟩
  | cons r ks ih =>
    intro a s hl h
    have h0 : accessFault s.cfg a sz.bytes .write = none := by simpa using h 0 (by simp)
    have hv : ((multiReg s0 r).setWidth (8 * sz.bytes)).toNat = low sz (multiReg s0 r) := by rw [BitVec.toNat_setWidth, eight_bytes, low]
    obtain ⟨t, h1, h2, h3, h4⟩ := ih (a + BitVec.ofNat 32 sz.bytes) { s with mem := s.mem.writeNat a.toNat sz.bytes (low sz (multiReg s0 r)) } (by simp at hl; omega) (fun j hj => by rw [addr_up_succ]; exact h (j+1) (by simpa using hj))
    refine ⟨t, ?_, ?_, fun j k hk b hb => ?_, fun x hx => ?_⟩
    · rw [storeUp, memWrite_of_none _ h0, hv]; exact h1
    · rw [h2]
    · cases j with
      | zero =>
        obtain rfl : r = k := by simpa using hk
        have e0 : a + BitVec.ofNat 32 (0 * sz.bytes) = a := by simp
        rw [h4 _ (fun j hj => ?_)]
        · rw [e0]; exact Memory.read_writeNat_inside _ _ _ _ _ hb
        · rw [addr_up_succ]
          have := addr_up_disjoint a sz 0 (j+1) (by omega) (by simp at hl; omega) (by omega)
          omega
      | succ j => rw [← addr_up_succ]; exact h3 j k (by simpa using hk) b hb
    · rw [h4 x (fun j hj => by rw [addr_up_succ]; exact hx (j+1) (by simpa using hj))]
      apply Memory.read_writeNat_outside
      have := hx 0 (by simp)
      simpa using this

theorem addr_down_succ (a : Long) (j b : Nat) : a - BitVec.ofNat 32 b - BitVec.ofNat 32 (j * b) = a - BitVec.ofNat 32 ((j+1) * b) := by
  rw [Nat.add_mul, Nat.one_mul, Nat.add_comm (j*b), BitVec.ofNat_add, BitVec.sub_sub]

theorem addr_down_disjoint (a : Long) (sz : Size) (j k : Nat) (hj : j < 17) (hk : k < 17) (h : j ≠ k) :
  (a - BitVec.ofNat 32 (j * sz.bytes)).toNat + sz.bytes ≤ (a - BitVec.ofNat 32 (k * sz.bytes)).toNat ∨
  (a - BitVec.ofNat 32 (k * sz.bytes)).toNat + sz.bytes ≤ (a - BitVec.ofNat 32 (j * sz.bytes)).toNat := by
  have := a.isLt
  rw [BitVec.toNat_sub, BitVec.toNat_sub, BitVec.toNat_ofNat, BitVec.toNat_ofNat]
  cases sz <;> simp only [Size.bytes] <;> omega

/-- The first store that faults, in descending order, is the fault of the transfer. -/
theorem storeDown_err (s0 : State) (sz : Size) (ks : List (Fin 16)) : ∀ (a : Long) (s : State) (j : Nat) (c : Cause), j < ks.length →
   (∀ k, k < j → accessFault s.cfg (a - BitVec.ofNat 32 ((k+1) * sz.bytes)) sz.bytes .write = none) → accessFault s.cfg (a - BitVec.ofNat 32 ((j+1) * sz.bytes)) sz.bytes .write = some c →
   storeDown s0 sz ks a s = .error c := by
  induction ks with
  | nil => intro a s j c hj; simp at hj
  | cons r ks ih =>
    intro a s j c hj h1 h2
    rw [storeDown]
    cases j with
    | zero =>
      have h2' : accessFault s.cfg (a - BitVec.ofNat 32 sz.bytes) sz.bytes .write = some c := by simpa using h2
      simp only [memWrite_of_some _ h2']
    | succ j =>
      have h0 : accessFault s.cfg (a - BitVec.ofNat 32 sz.bytes) sz.bytes .write = none := by simpa using h1 0 (by omega)
      simp only [memWrite_of_none _ h0]
      refine ih (a - _) { s with mem := s.mem.writeNat _ _ _ } j c (by simpa using hj) (fun k hk => ?_) ?_
      · rw [addr_down_succ]; exact h1 (k+1) (by omega)
      · rw [addr_down_succ]; exact h2

/-- Descending stores: each listed register ends up at its own address, every other byte is kept. -/
theorem storeDown_ok (s0 : State) (sz : Size) (ks : List (Fin 16)) : ∀ (a : Long) (s : State), ks.length ≤ 16 →
   (∀ j, j < ks.length → accessFault s.cfg (a - BitVec.ofNat 32 ((j+1) * sz.bytes)) sz.bytes .write = none) →
   ∃ t, storeDown s0 sz ks a s = .ok (a - BitVec.ofNat 32 (ks.length * sz.bytes), t) ∧ t = { s with mem := t.mem } ∧
    (∀ j k, ks[j]? = some k → ∀ b, b < sz.bytes →
        t.mem.read ((a - BitVec.ofNat 32 ((j+1) * sz.bytes)).toNat + b) = BitVec.ofNat 8 (low sz (multiReg s0 k) / 256 ^ (sz.bytes - 1 - b))) ∧
      (∀ x, (∀ j, j < ks.length → x < (a - BitVec.ofNat 32 ((j+1) * sz.bytes)).toNat ∨
        (a - BitVec.ofNat 32 ((j+1) * sz.bytes)).toNat + sz.bytes ≤ x) → t.mem.read x = s.mem.read x) := by
  induction ks with
  | nil => intro a s _ _; exact ⟨s, by simp [storeDown], rfl, by simp, fun _ _ => rfl⟩
  | cons r ks ih =>
    intro a s hl h
    have h0 : accessFault s.cfg (a - BitVec.ofNat 32 sz.bytes) sz.bytes .write = none := by simpa using h 0 (by simp)
    have hv : ((multiReg s0 r).setWidth (8 * sz.bytes)).toNat = low sz (multiReg s0 r) := by rw [BitVec.toNat_setWidth, eight_bytes, low]
    obtain ⟨t, h1, h2, h3, h4⟩ := ih (a - BitVec.ofNat 32 sz.bytes) { s with mem := s.mem.writeNat (a - BitVec.ofNat 32 sz.bytes).toNat sz.bytes (low sz (multiReg s0 r)) } (by simp at hl; omega) (fun j hj => by rw [addr_down_succ]; exact h (j+1) (by simpa using hj))
    refine ⟨t, ?_, ?_, fun j k hk b hb => ?_, fun x hx => ?_⟩
    · rw [storeDown]; simp only [memWrite_of_none _ h0, hv]; rw [h1, addr_down_succ]; simp
    · rw [h2]
    · cases j with
      | zero =>
        obtain rfl : r = k := by simpa using hk
        have e0 : a - BitVec.ofNat 32 ((0+1) * sz.bytes) = a - BitVec.ofNat 32 sz.bytes := by simp
        rw [h4 _ (fun j hj => ?_)]
        · rw [e0]; exact Memory.read_writeNat_inside _ _ _ _ _ hb
        · rw [addr_down_succ]
          have := addr_down_disjoint a sz 1 (j+1+1) (by omega) (by simp at hl; omega) (by omega)
          simp only [Nat.zero_add]
          omega
      | succ j => rw [← addr_down_succ]; exact h3 j k (by simpa using hk) b hb
    · rw [h4 x (fun j hj => by rw [addr_down_succ]; exact hx (j+1) (by simpa using hj))]
      apply Memory.read_writeNat_outside
      have := hx 0 (by simp)
      simpa using this

theorem finRange16_val : (List.finRange 16).map Fin.val = List.range 16 := by decide

/-- The ascending transfer order is the ascending list of the mask. -/
theorem maskRegs_map (mask : Word) : (maskRegs mask).map Fin.val = listed mask.getLsbD := by
  rw [maskRegs, listed, ← finRange16_val, List.filter_map]; rfl

theorem finRange16_rev : (((List.finRange 16).map fun k => (⟨15 - k.val, by omega⟩ : Fin 16)).map Fin.val).reverse = List.range 16 := by decide

/-- The predecrement transfer order reversed is the ascending list of the reversed mask. -/
theorem maskRegsRev_map (mask : Word) : ((maskRegsRev mask).map Fin.val).reverse = listed (fun k => mask.getLsbD (15 - k)) := by
  rw [listed, ← finRange16_rev, List.filter_reverse, List.filter_map, List.filter_map, maskRegsRev]
  congr 3

theorem getElem?_of_map_val {l : List (Fin 16)} {j k : Nat} (h : (l.map Fin.val)[j]? = some k) : ∃ r : Fin 16, l[j]? = some r ∧ r.val = k := by
  rw [List.getElem?_map] at h
  cases g : l[j]? with
  | none => rw [g] at h; cases h
  | some r => rw [g] at h; exact ⟨r, rfl, by simpa using h⟩

theorem maskRegs_len (mask : Word) : (maskRegs mask).length ≤ 16 := by
  have := List.length_filter_le (fun k : Fin 16 => mask.getLsbD k.val) (List.finRange 16)
  simpa [maskRegs] using this

theorem maskRegsRev_len (mask : Word) : (maskRegsRev mask).length ≤ 16 := by
  have := List.length_filter_le (fun k : Fin 16 => mask.getLsbD k.val) (List.finRange 16)
  simpa [maskRegsRev] using this

/-- Counting down from `a` and up from the bottom meet. -/
theorem bottom_up (a : Long) (n b m : Nat) (h : m < n) : a - BitVec.ofNat 32 (n * b) + BitVec.ofNat 32 ((n - 1 - m) * b) = a - BitVec.ofNat 32 ((m+1) * b) := by
  have : n * b = (n-1-m) * b + (m+1) * b := by rw [← Nat.add_mul]; congr 1; omega
  rw [this, BitVec.ofNat_add]
  generalize BitVec.ofNat 32 ((n-1-m)*b) = p
  generalize BitVec.ofNat 32 ((m+1)*b) = q
  bv_omega

theorem ofNat_readNat (m : Memory) (a n : Nat) : (BitVec.ofNat (8 * n) (m.readNat a n)).toNat = m.readNat a n := by
  rw [BitVec.toNat_ofNat, Nat.mod_eq_of_lt]
  have := Memory.readNat_lt m a n
  rwa [show 256 = 2 ^ 8 by rfl, ← Nat.pow_mul] at this

/-- The first load that faults is the fault of the transfer. -/
theorem loadUp_err (sz : Size) (ks : List (Fin 16)) : ∀ (a : Long) (s : State) (j : Nat) (c : Cause), j < ks.length →
   (∀ k, k < j → accessFault s.cfg (a + BitVec.ofNat 32 (k * sz.bytes)) sz.bytes .read = none) → accessFault s.cfg (a + BitVec.ofNat 32 (j * sz.bytes)) sz.bytes .read = some c →
   loadUp sz ks a s = .error c := by
  induction ks with
  | nil => intro a s j c hj; simp at hj
  | cons r ks ih =>
    intro a s j c hj h1 h2
    rw [loadUp]
    cases j with
    | zero =>
      have h2' : accessFault s.cfg a sz.bytes .read = some c := by
        rwa [Nat.zero_mul, BitVec.add_zero] at h2
      rw [memRead_of_some h2']
    | succ j =>
      have h0 : accessFault s.cfg a sz.bytes .read = none := by simpa using h1 0 (by omega)
      rw [memRead_of_none h0]
      have hc : ∀ v, (setMultiReg s r v).cfg = s.cfg := fun v => by unfold setMultiReg; split <;> rfl
      refine ih (a + _) _ j c (by simpa using hj) (fun k hk => ?_) ?_
      · rw [addr_up_succ, hc]; exact h1 (k+1) (by omega)
      · rw [addr_up_succ, hc]; exact h2

theorem multi_set (s : State) (k m : Fin 16) (v : Long) : multi (setMultiReg s k v) m.val = if m = k then v else multi s m.val := by
  have hk := k.isLt; have hm := m.isLt
  have e : (m = k) = (m.val = k.val) := by simp [Fin.ext_iff]
  unfold multi setMultiReg
  by_cases h1 : k.val < 8 <;> by_cases h2 : m.val < 8 <;> simp only [h1, h2, if_true, if_false, e]
  · rw [State.dreg_setD]; congr 1; simp [Fin.ext_iff, Fin.ofNat]; omega
  · rw [State.areg_setD, if_neg (by omega)]
  · rw [State.dreg_setA, if_neg (by omega)]
  · rw [State.areg_setA]; congr 1; simp [Fin.ext_iff, Fin.ofNat]; omega

theorem setMulti_kept (s : State) (k : Fin 16) (v : Long) : setMultiReg s k v = { s with d := (setMultiReg s k v).d, a := (setMultiReg s k v).a } := by
  unfold setMultiReg; split <;> rfl

/-- Ascending loads: each listed register takes its sign-extended item, every other register is kept. -/
theorem loadUp_ok (sz : Size) (ks : List (Fin 16)) : ∀ (a : Long) (s : State), ks.Nodup →
   (∀ j, j < ks.length → accessFault s.cfg (a + BitVec.ofNat 32 (j * sz.bytes)) sz.bytes .read = none) →
   ∃ t, loadUp sz ks a s = .ok (a + BitVec.ofNat 32 (ks.length * sz.bytes), t) ∧ t = { s with d := t.d, a := t.a } ∧
    (∀ j k, ks[j]? = some k → ((multi t k.val).toNat : Int) = signed sz.bits (valueAt s (a + BitVec.ofNat 32 (j * sz.bytes)) sz.bytes) % 2 ^ 32) ∧
      (∀ k, k ∉ ks → multi t k.val = multi s k.val) := by
  induction ks with
  | nil => intro a s _ _; exact ⟨s, by simp [loadUp], rfl, by simp, fun _ _ => rfl⟩
  | cons r ks ih =>
    intro a s hn h
    have h0 : accessFault s.cfg a sz.bytes .read = none := by simpa using h 0 (by simp)
    rw [List.nodup_cons] at hn
    have hk := fun v => setMulti_kept s r v
    obtain ⟨t, h1, h2, h3, h4⟩ := ih (a + BitVec.ofNat 32 sz.bytes) (setMultiReg s r (sext32 (BitVec.ofNat (8 * sz.bytes) (s.mem.readNat a.toNat sz.bytes)))) hn.2 (fun j hj => by rw [addr_up_succ, hk]; exact h (j+1) (by simpa using hj))
    refine ⟨t, ?_, ?_, fun j k hj => ?_, fun k hm => ?_⟩
    · rw [loadUp, memRead_of_none h0]; simp only []; rw [h1, addr_up_succ]; simp
    · rw [h2, hk]
    · cases j with
      | zero =>
        obtain rfl : r = k := by simpa using hj
        rw [h4 _ hn.1, multi_set, if_pos rfl]
        have := sext32_toNat (n := 8 * sz.bytes) (by cases sz <;> decide) (BitVec.ofNat (8 * sz.bytes) (s.mem.readNat a.toNat sz.bytes))
        have e : (BitVec.ofNat (8 * sz.bytes) (s.mem.readNat a.toNat sz.bytes)).toNat = valueAt s a sz.bytes := ofNat_readNat _ _ _
        rw [e] at this
        have e0 : a + BitVec.ofNat 32 (0 * sz.bytes) = a := by simp
        rw [e0]
        cases sz <;> exact this
      | succ j =>
        have := h3 j k (by simpa using hj)
        rw [addr_up_succ] at this
        rw [this, hk]; rfl
    · rw [h4 k (fun hc => hm (List.mem_cons_of_mem _ hc)), multi_set, if_neg]
      rintro rfl; exact hm (List.mem_cons_self)

theorem nodup_maskRegs (mask : Word) : (maskRegs mask).Nodup := (List.nodup_finRange 16).filter _

theorem mem_listed {mask : Word} {k : Nat} (hk : k < 16) : k ∈ listed mask.getLsbD ↔ (⟨k, hk⟩ : Fin 16) ∈ maskRegs mask := by
  simp [listed, maskRegs, hk]

theorem addr_add_one (a : Long) (j : Nat) : a + 1 + BitVec.ofNat 32 j = a + BitVec.ofNat 32 (j+1) := by
  rw [Nat.add_comm j 1, BitVec.ofNat_add, BitVec.add_assoc]; rfl

/-- The first byte that faults is the fault of the whole write. -/
theorem writeBytes_err (bs : List Byte) : ∀ (s : State) (a : Long) (j : Nat) (c : Cause), j < bs.length →
   (∀ k, k < j → accessFault s.cfg (a + BitVec.ofNat 32 k) 1 .write = none) → accessFault s.cfg (a + BitVec.ofNat 32 j) 1 .write = some c →
   writeBytes s a bs = .error c := by
  induction bs with
  | nil => intro s a j c hj; simp at hj
  | cons b bs ih =>
    intro s a j c hj h1 h2
    rw [writeBytes]
    cases j with
    | zero =>
      have h2' : accessFault s.cfg a 1 .write = some c := by simpa using h2
      rw [memWrite_of_some (v := (b : BitVec (8*1))) h2']
    | succ j =>
      have h0 : accessFault s.cfg a 1 .write = none := by simpa using h1 0 (by omega)
      rw [memWrite_of_none (v := (b : BitVec (8*1))) h0]
      refine ih { s with mem := s.mem.writeNat a.toNat 1 b.toNat } (a + 1) j c (by simpa using hj) (fun k hk => ?_) ?_
      · rw [addr_add_one]; exact h1 (k+1) (by omega)
      · rw [addr_add_one]; exact h2

theorem addr_up_ne (a : Long) (j k : Nat) (h : j ≠ k) (hj : j < 2^32) (hk : k < 2^32) : (a + BitVec.ofNat 32 j).toNat ≠ (a + BitVec.ofNat 32 k).toNat := by
  intro e
  have := BitVec.eq_of_toNat_eq e
  have h2 : BitVec.ofNat 32 j = BitVec.ofNat 32 k := by simpa using this
  have h3 := congrArg BitVec.toNat h2
  rw [BitVec.toNat_ofNat, BitVec.toNat_ofNat, Nat.mod_eq_of_lt hj, Nat.mod_eq_of_lt hk] at h3
  exact h h3

/-- The bytes end up one after the other, the last one written to an address staying there; every other byte is kept. -/
theorem writeBytes_ok (bs : List Byte) : ∀ (s : State) (a : Long),
   (∀ j, j < bs.length → accessFault s.cfg (a + BitVec.ofNat 32 j) 1 .write = none) →
   ∃ t, writeBytes s a bs = .ok t ∧ t = { s with mem := t.mem } ∧
     (∀ j b, bs[j]? = some b → (∀ k, j < k → k < bs.length → a + BitVec.ofNat 32 k ≠ a + BitVec.ofNat 32 j) →
       t.mem.read (a + BitVec.ofNat 32 j).toNat = b) ∧
     ∀ x, (∀ j, j < bs.length → x ≠ (a + BitVec.ofNat 32 j).toNat) → t.mem.read x = s.mem.read x := by
  induction bs with
  | nil => intro s a _; exact ⟨s, rfl, rfl, by simp, fun _ _ => rfl⟩
  | cons b bs ih =>
    intro s a h
    have h0 : accessFault s.cfg a 1 .write = none := by simpa using h 0 (by simp)
    obtain ⟨t, h1, h2, h3, h4⟩ := ih { s with mem := s.mem.writeNat a.toNat 1 b.toNat } (a + 1) (fun j hj => by rw [addr_add_one]; exact h (j+1) (by simpa using hj))
    refine ⟨t, ?_, ?_, fun j b' hb hl => ?_, fun x hx => ?_⟩
    · rw [writeBytes, memWrite_of_none (v := (b : BitVec (8*1))) h0]; exact h1
    · rw [h2]
    · cases j with
      | zero =>
        obtain rfl : b = b' := by simpa using hb
        have : t.mem.read (a + BitVec.ofNat 32 0).toNat = (s.mem.writeNat a.toNat 1 b.toNat).read (a + BitVec.ofNat 32 0).toNat := h4 _ (fun j hj => by
          rw [addr_add_one]; exact fun e => hl (j + 1) (by omega) (by simpa using hj) (BitVec.eq_of_toNat_eq e.symm))
        rw [this]; simp [Memory.writeNat]
      | succ j =>
        rw [← addr_add_one]
        exact h3 j b' (by simpa using hb) fun k h hk => by
          rw [addr_add_one, addr_add_one]; exact hl (k + 1) (by omega) (by simpa using hk)
    · rw [h4 x (fun j hj => by rw [addr_add_one]; exact hx (j+1) (by simpa using hj))]
      show (s.mem.writeNat a.toNat 1 b.toNat).read x = _
      have := hx 0 (by simp)
      apply Memory.read_writeNat_outside
      have : x ≠ a.toNat := by simpa using this
      omega

theorem writeBytes_plain (bs : List Byte) : ∀ (a : Long) (s t : State), writeBytes s a bs = .ok t → Plain s t := by
  induction bs with
  | nil => intro a s t h; injection h with h; subst h; exact .refl s
  | cons b bs ih =>
    intro a s t h
    rw [writeBytes] at h
    split at h
    · exact (plain_memWrite ‹_›).trans (ih _ _ _ h)
    · cases h

/-- The result half writes registers and memory only. -/
theorem resultWrites_plain {s t : State} {p : Interrupt} {a : Answer} (h : resultWrites s p a = .ok t) : Plain s t := by
  unfold resultWrites at h
  split at h
  · injection h with h; subst h; exact (Plain.refl s).setD _ _
  · split at h
    · injection h with h; subst h; exact (writeBytes_plain _ _ _ _ ‹_›).setDPart _ _ _
    · cases h
  all_goals injection h with h; subst h; exact .refl s

/-- A text with no zero byte, followed by one in range, is what the scan finds. -/
theorem scanBytes_some (m : Memory) (text : List Byte) : ∀ (n a : Nat), (∀ j, j < text.length → text[j]? = some (m.read (a + j))) → (∀ b, b ∈ text → b ≠ 0) → m.read (a + text.length) = 0 → text.length < n → scanBytes m n a = some text := by
  induction text with
  | nil => intro n a _ _ h0 hn; cases n with
    | zero => simp at hn
    | succ n => have : m.read a = 0 := by simpa using h0
                simp [scanBytes, this]
  | cons b bs ih =>
    intro n a h1 h2 h0 hn
    cases n with
    | zero => simp at hn
    | succ n =>
      have hb : m.read a = b := by have := h1 0 (by simp); simpa using this.symm
      have hb0 : m.read a ≠ 0 := by rw [hb]; exact h2 b (by simp)
      rw [scanBytes, if_neg hb0, ih n (a+1) (fun j hj => by have := h1 (j+1) (by simpa using hj); rw [show a + 1 + j = a + (j + 1) by omega]; simpa using this) (fun b hb => h2 b (by simp [hb])) (by rw [show a + 1 + bs.length = a + (bs.length + 1) by omega]; simpa using h0) (by simpa using hn), hb]
      rfl

/-- The scan fails when no byte in range is zero. -/
theorem scanBytes_none (m : Memory) : ∀ (n a : Nat), (∀ x, a ≤ x → x < a + n → m.read x ≠ 0) → scanBytes m n a = none := by
  intro n
  induction n with
  | zero => intros; rfl
  | succ n ih =>
    intro a h
    rw [scanBytes, if_neg (h a (by omega) (by omega)), ih (a+1) (fun x h1 h2 => h x (by omega) (by omega))]; rfl

end Sys2Proof.Machine
end

