-- ==== Sys2Proof/Tests/Slice0.lean ====
section
/-! SUPPORT. Tests.  The expected values are the spec's own vectors (spec/95_test_vectors.md, whose number ends a test's
name) or worked by hand from the rule that a comment names.  After them come the witnesses: for every statement with
hypotheses, concrete states and operands that meet them. -/

namespace Sys2Proof.Tests

open Machine Claims

/-- Registers set one after the other. -/
def regs (v : Vector Long 8) (rs : List (RegNum × Long)) : Vector Long 8 := rs.foldl (fun v r => v.set r.1 r.2) v

/-- The core of the spec's vectors: Running at 0x1000, the words and one NOP in the program store, the listed registers,
flags and bytes changed from reset. -/
def core (ws : List Word) (d a : List (RegNum × Long)) (f : BitVec 5) (m : List Host.Cell) : State :=
  { State.reset with
    cfg := { Config.default with prog := ws ++ [0x4E71], lines := List.range (ws.length + 1) }
    status := .running
    d := regs State.reset.d d
    a := regs State.reset.a a
    ccr := Ccr.unpack f
    mem := ⟨m⟩ }

/-! ### Ill-formed terms, one or more for each check of `Instr.wf` -/

theorem test_wf_class_data : (Instr.divu (.areg 0) 0).wf = false := by decide
theorem test_wf_class_control : (Instr.jmp (.postInc 0)).wf = false ∧ (Instr.lea (.dreg 0) 0).wf = false := by decide
theorem test_wf_class_alterable : (Instr.addq .w 1 (.pcDisp 0)).wf = false := by decide
theorem test_wf_class_dataAlterable :
    (Instr.scc .eq (.areg 0)).wf = false ∧ (Instr.move .w (.dreg 0) (.imm 0)).wf = false := by decide
theorem test_wf_class_memAlterable :
    (Instr.addDnEa .w 0 (.dreg 1)).wf = false ∧ (Instr.aslMem (.dreg 1)).wf = false := by decide
theorem test_wf_class_dataNoImm : (Instr.btstImm 0 (.imm 0)).wf = false ∧ (Instr.btstDn 0 (.imm 0)).wf = true := by decide
theorem test_wf_class_movem : (Instr.movemToMem .w 1 (.postInc 0)).wf = false ∧
    (Instr.movemToRegs .w 1 (.preDec 0)).wf = false := by decide
theorem test_wf_an_at_size_b : (Instr.addEaDn .b (.areg 0) 0).wf = false ∧ (Instr.addq .b 1 (.areg 0)).wf = false ∧
    (Instr.addEaDn .w (.areg 0) 0).wf = true := by decide
theorem test_wf_immediate_size : (Instr.addi .w 0x10000 (.dreg 0)).wf = false ∧
    (Instr.addi .w 0xFFFF (.dreg 0)).wf = true ∧ (Instr.addEaDn .b (.imm 0x100) 0).wf = false := by decide
theorem test_wf_short_displacement : (Instr.bra (.short 0)).wf = false := by decide
theorem test_wf_quick : (Instr.addq .w 0 (.dreg 0)).wf = false ∧ (Instr.subq .w 9 (.dreg 0)).wf = false ∧
    (Instr.addq .w 8 (.dreg 0)).wf = true := by decide
theorem test_wf_count : (Instr.asrReg .w (.imm 0) 0).wf = false ∧ (Instr.rolReg .w (.imm 9) 0).wf = false := by decide
theorem test_wf_branch_condition :
    (Instr.bcc .t (.short 2)).wf = false ∧ (Instr.bcc .f (.short 2)).wf = false := by decide
theorem test_wf_word_or_long : (Instr.movea .b (.dreg 0) 0).wf = false ∧ (Instr.ext .b 0).wf = false ∧
    (Instr.adda .b (.dreg 0) 0).wf = false ∧ (Instr.movemToMem .b 1 (.ind 0)).wf = false := by decide

/-! ### Words, bit by bit from the patterns of R101 -/

theorem test_decode_line0 : decode [0x0C2B, 0xAB80, 0x0010] = .ok (.cmpi .b 0x80 (.disp 3 0x0010), []) := by decide
theorem test_decode_move : decode [0x23FC, 0x0001, 0x0002, 0x0003, 0x0004] = .ok (.move .l (.imm 0x10002) (.absL 0x30004), [])
    := by decide
theorem test_decode_movea : decode [0x3A48, 0x7777] = .ok (.movea .w (.areg 0) 5, [0x7777]) := by decide
theorem test_decode_index : decode [0x41F3, 0xB8FE] = .ok (.lea (.index 3 ⟨true, 3, true, 0, 0xFE⟩) 0, []) := by decide
theorem test_decode_line4 : decode [0x4CD8, 0x0101] = .ok (.movemToRegs .l 0x0101 (.postInc 0), []) ∧
    decode [0x48C3] = .ok (.ext .l 3, []) ∧ decode [0x44FA, 0x0002] = .ok (.moveToCcr (.pcDisp 2), []) := by decide
theorem test_decode_line5 : decode [0x5150] = .ok (.subq .w 8 (.ind 0), []) ∧
    decode [0x5EF8, 0x2000] = .ok (.scc .gt (.absW 0x2000), []) := by decide
theorem test_decode_line6 : decode [0x6100, 0x0006] = .ok (.bsr (.long 6), []) ∧
    decode [0x6F80] = .ok (.bcc .le (.short 0x80), []) := by decide
theorem test_decode_line8_to_D : decode [0x8FA7] = .ok (.orDnEa .l 7 (.preDec 7), []) ∧
    decode [0x95CC] = .ok (.suba .l (.areg 4) 2, []) ∧ decode [0xB742] = .ok (.eor .w 3 (.dreg 2), []) ∧
    decode [0xC549] = .ok (.exgAA 2 1, []) ∧ decode [0xDB0C] = .ok (.addx .b true 4 5, []) := by decide
theorem test_decode_lineE : decode [0xE0B9] = .ok (.rorReg .l (.reg 0) 1, []) ∧
    decode [0xE150] = .ok (.roxlReg .w (.imm 8) 0, []) ∧ decode [0xE5DE] = .ok (.roxlMem (.postInc 6), []) := by decide
/-- Vectors Y9 to Y16, S15, B9. -/
theorem test_decode_illegal : decode [0x4E72] = .error (.illegal 0x4E72) ∧ decode [0x40C0] = .error (.illegal 0x40C0) ∧
    decode [0xA000] = .error (.illegal 0xA000) ∧ decode [0xFFFF] = .error (.illegal 0xFFFF) ∧
    decode [0x7100] = .error (.illegal 0x7100) ∧ decode [0x1008] = .error (.illegal 0x1008) ∧
    decode [0x29C0] = .error (.illegal 0x29C0) ∧ decode [0x2FC0] = .error (.illegal 0x2FC0) ∧
    decode [0xE8D0] = .error (.illegal 0xE8D0) ∧ decode [0x083C] = .error (.illegal 0x083C) := by decide
theorem test_decode_truncated : decode [0x303C] = .error .truncated ∧ decode [] = .error .noWord := by decide
/-- ADDI.W #5,d0: the second word is bits 31..16. -/
theorem test_decodeTableWord : decodeTableWord 32 0x00050640 = some (.addi .w 5 (.dreg 0)) ∧
    decodeTableWord 16 0x4E75 = some .rts ∧ decodeTableWord 16 0x4AFC = none := by decide
theorem test_withFetchWord : let t := stepState (State.reset.withFetchWord 32 0x00050640)
    t.dreg 0 = 5 ∧ t.pc = 0x1004 ∧ t.status = .running := by decide

/-! ### Single steps: the vectors of part 2 -/

theorem test_oriCcr_Y4 :
    let t := stepState (core [0x003C, 0x0004] [] [] 0x00 [])
    t.ccr.pack = 0x04 ∧ t.pc = 0x1004 := by decide

theorem test_ori_L6 :
    let t := stepState (core [0x0080, 0x8000, 0x0000] [(0, 0x1)] [] 0x00 [])
    t.dreg 0 = 0x80000001 ∧ t.ccr.pack = 0x08 ∧ t.pc = 0x1006 := by decide

theorem test_andiCcr_Y3 :
    let t := stepState (core [0x023C, 0x0010] [] [] 0x1F [])
    t.ccr.pack = 0x10 ∧ t.pc = 0x1004 := by decide

theorem test_andi_L5 :
    let t := stepState (core [0x0240, 0xFF00] [(0, 0x12345678)] [] 0x00 [])
    t.dreg 0 = 0x12345600 ∧ t.ccr.pack = 0x00 ∧ t.pc = 0x1004 := by decide

theorem test_subi_I16 :
    let t := stepState (core [0x0480, 0x0000, 0x0001] [(0, 0x80000000)] [] 0x00 [])
    t.dreg 0 = 0x7FFFFFFF ∧ t.ccr.pack = 0x02 ∧ t.pc = 0x1006 := by decide

theorem test_addi_I6 :
    let t := stepState (core [0x0600, 0x0080] [(0, 0x80)] [] 0x00 [])
    t.dreg 0 = 0x0 ∧ t.ccr.pack = 0x17 ∧ t.pc = 0x1004 := by decide

theorem test_btstImm_B1 :
    let t := stepState (core [0x0800, 0x0003] [(0, 0x8)] [] 0x1F [])
    t.ccr.pack = 0x1B ∧ t.pc = 0x1004 := by decide

theorem test_bclrImm_B4 :
    let t := stepState (core [0x0890, 0x0007] [] [(0, 0x2000)] 0x00 [(0x2000, 0x80)])
    t.mem.readNat 0x2000 1 = 0x00 ∧ t.ccr.pack = 0x00 ∧ t.pc = 0x1004 := by decide

theorem test_bsetImm_B8 :
    let t := stepState (core [0x08C0, 0xFF27] [(0, 0x0)] [] 0x00 [])
    t.dreg 0 = 0x80 ∧ t.ccr.pack = 0x04 ∧ t.pc = 0x1004 := by decide

theorem test_eoriCcr_Y5 :
    let t := stepState (core [0x0A3C, 0x001F] [] [] 0x15 [])
    t.ccr.pack = 0x0A ∧ t.pc = 0x1004 := by decide

theorem test_eori_L7 :
    let t := stepState (core [0x0A10, 0x00FF] [] [(0, 0x2000)] 0x00 [(0x2000, 0xFF)])
    t.mem.readNat 0x2000 1 = 0x00 ∧ t.ccr.pack = 0x04 ∧ t.pc = 0x1004 := by decide

theorem test_cmpi_I24 :
    let t := stepState (core [0x0C00, 0x0080] [(0, 0x7F)] [] 0x00 [])
    t.ccr.pack = 0x0B ∧ t.pc = 0x1004 := by decide

theorem test_btstDn_B2 :
    let t := stepState (core [0x0300] [(1, 0x23), (0, 0x0)] [] 0x00 [])
    t.ccr.pack = 0x04 ∧ t.pc = 0x1002 := by decide

theorem test_bchgDn_B3 :
    let t := stepState (core [0x0350] [(1, 0x9)] [(0, 0x2000)] 0x00 [(0x2000, 0x02)])
    t.mem.readNat 0x2000 1 = 0x00 ∧ t.ccr.pack = 0x00 ∧ t.pc = 0x1002 := by decide

theorem test_bsetDn_B6 :
    let t := stepState (core [0x01C0] [(0, 0x5)] [] 0x00 [])
    t.dreg 0 = 0x25 ∧ t.ccr.pack = 0x04 ∧ t.pc = 0x1002 := by decide

theorem test_move_A5 :
    let t := stepState (core [0x3030, 0x1002] [(1, 0x1FFFE)] [(0, 0x2000)] 0x00 [(0x2000, 0xAB), (0x2001, 0xCD), (0x22000, 0x11), (0x22001, 0x22)])
    t.dreg 0 = 0xABCD ∧ t.ccr.pack = 0x08 ∧ t.pc = 0x1004 := by decide

theorem test_move_A13 :
    let t := stepState (core [0x20D8] [] [(0, 0x2000)] 0x00 [(0x2000, 0x01), (0x2001, 0x02), (0x2002, 0x03), (0x2003, 0x04)])
    t.areg 0 = 0x2008 ∧ t.mem.readNat 0x2004 4 = 0x01020304 ∧ t.ccr.pack = 0x00 ∧ t.pc = 0x1002 := by decide

theorem test_movea_M5 :
    let t := stepState (core [0x2058] [] [(0, 0x2000)] 0x00 [(0x2002, 0x30)])
    t.areg 0 = 0x3000 ∧ t.ccr.pack = 0x00 ∧ t.pc = 0x1002 := by decide

theorem test_negx_I20 :
    let t := stepState (core [0x4080] [(0, 0x0)] [] 0x14 [])
    t.dreg 0 = 0xFFFFFFFF ∧ t.ccr.pack = 0x19 ∧ t.pc = 0x1002 := by decide

theorem test_clr_I21 :
    let t := stepState (core [0x4240] [(0, 0x12345678)] [] 0x1B [])
    t.dreg 0 = 0x12340000 ∧ t.ccr.pack = 0x14 ∧ t.pc = 0x1002 := by decide

theorem test_neg_I18 :
    let t := stepState (core [0x4400] [(0, 0x80)] [] 0x00 [])
    t.dreg 0 = 0x80 ∧ t.ccr.pack = 0x1B ∧ t.pc = 0x1002 := by decide

theorem test_moveToCcr_Y2 :
    let t := stepState (core [0x44C0] [(0, 0xFFFFFFE4)] [] 0x1B [])
    t.ccr.pack = 0x04 ∧ t.pc = 0x1002 := by decide

theorem test_not_L4 :
    let t := stepState (core [0x4600] [(0, 0x123456FF)] [] 0x00 [])
    t.dreg 0 = 0x12345600 ∧ t.ccr.pack = 0x04 ∧ t.pc = 0x1002 := by decide

theorem test_swap_M17 :
    let t := stepState (core [0x4840] [(0, 0x12348000)] [] 0x00 [])
    t.dreg 0 = 0x80001234 ∧ t.ccr.pack = 0x08 ∧ t.pc = 0x1002 := by decide

theorem test_pea_M11 :
    let t := stepState (core [0x4857] [] [(7, 0x3000)] 0x00 [])
    t.areg 7 = 0x2FFC ∧ t.mem.readNat 0x2FFC 4 = 0x00003000 ∧ t.ccr.pack = 0x00 ∧ t.pc = 0x1002 := by decide

theorem test_ext_I28 :
    let t := stepState (core [0x4880] [(0, 0x12340080)] [] 0x00 [])
    t.dreg 0 = 0x1234FF80 ∧ t.ccr.pack = 0x08 ∧ t.pc = 0x1002 := by decide

theorem test_movemToMem_M13 :
    let t := stepState (core [0x48E0, 0x8080] [(0, 0x11111111)] [(0, 0x2008)] 0x00 [])
    t.areg 0 = 0x2000 ∧ t.mem.readNat 0x2000 8 = 0x1111111100002008 ∧ t.ccr.pack = 0x00 ∧ t.pc = 0x1004 := by decide

theorem test_tst_I27 :
    let t := stepState (core [0x4A00] [(0, 0x80)] [] 0x13 [])
    t.ccr.pack = 0x18 ∧ t.pc = 0x1002 := by decide

theorem test_movemToRegs_M14 :
    let t := stepState (core [0x4CD8, 0x0101] [] [(0, 0x2000)] 0x00 [(0x2003, 0x01), (0x2007, 0x02)])
    t.dreg 0 = 0x1 ∧ t.areg 0 = 0x2008 ∧ t.ccr.pack = 0x00 ∧ t.pc = 0x1004 := by decide

theorem test_link_M23 :
    let t := stepState (core [0x4E57, 0x0000] [] [(7, 0x3000)] 0x00 [])
    t.areg 7 = 0x2FFC ∧ t.mem.readNat 0x2FFC 4 = 0x00002FFC ∧ t.ccr.pack = 0x00 ∧ t.pc = 0x1004 := by decide

theorem test_unlk_M22 :
    let t := stepState (core [0x4E5E] [] [(6, 0x2FFC), (7, 0x2FF4)] 0x00 [(0x2FFC, 0xAA), (0x2FFD, 0xBB), (0x2FFE, 0xCC), (0x2FFF, 0xDD)])
    t.areg 6 = 0xAABBCCDD ∧ t.areg 7 = 0x3000 ∧ t.ccr.pack = 0x00 ∧ t.pc = 0x1002 := by decide

theorem test_nop_C22 :
    let t := stepState (core [0x4E71] [] [] 0x1F [])
    t.ccr.pack = 0x1F ∧ t.pc = 0x1002 := by decide

theorem test_rts_C19 :
    let t := stepState (core [0x4E75] [] [(7, 0x7FFC)] 0x00 [(0x7FFE, 0x10), (0x7FFF, 0x02)])
    t.areg 7 = 0x8000 ∧ t.ccr.pack = 0x00 ∧ t.pc = 0x1002 := by decide

theorem test_rtr_C20 :
    let t := stepState (core [0x4E77] [] [(7, 0x7FFA)] 0x00 [(0x7FFA, 0xFF), (0x7FFB, 0x15), (0x7FFE, 0x10), (0x7FFF, 0x02)])
    t.areg 7 = 0x8000 ∧ t.ccr.pack = 0x15 ∧ t.pc = 0x1002 := by decide

theorem test_jsr_C17 :
    let t := stepState (core [0x4E97] [] [(7, 0x1002)] 0x00 [])
    t.areg 7 = 0xFFE ∧ t.mem.readNat 0xFFE 4 = 0x00001002 ∧ t.ccr.pack = 0x00 ∧ t.pc = 0x1002 := by decide

theorem test_jmp_C16 :
    let t := stepState (core [0x4EFA, 0x0002, 0x4E71] [] [] 0x00 [])
    t.ccr.pack = 0x00 ∧ t.pc = 0x1004 := by decide

theorem test_lea_A10 :
    let t := stepState (core [0x41FB, 0x00FE] [(0, 0x10)] [] 0x00 [])
    t.areg 0 = 0x1010 ∧ t.ccr.pack = 0x00 ∧ t.pc = 0x1004 := by decide

theorem test_addq_I8 :
    let t := stepState (core [0x5248] [] [(0, 0xFFFF)] 0x1F [])
    t.areg 0 = 0x10000 ∧ t.ccr.pack = 0x1F ∧ t.pc = 0x1002 := by decide

theorem test_subq_I9 :
    let t := stepState (core [0x5300] [(0, 0x100)] [] 0x00 [])
    t.dreg 0 = 0x1FF ∧ t.ccr.pack = 0x19 ∧ t.pc = 0x1002 := by decide

theorem test_dbcc_C10 :
    let t := stepState (core [0x51C8, 0xFFFC] [(0, 0x10000)] [] 0x00 [])
    t.dreg 0 = 0x1FFFF ∧ t.ccr.pack = 0x00 ∧ t.pc = 0x1004 := by decide

theorem test_dbcc_C11 :
    let t := stepState (core [0x51C8, 0xFFFC] [(0, 0x2)] [] 0x00 [])
    t.dreg 0 = 0x1 ∧ t.ccr.pack = 0x00 ∧ t.pc = 0xFFE := by decide

theorem test_scc_C14 :
    let t := stepState (core [0x56D0] [] [(0, 0x2000)] 0x04 [(0x2000, 0x55)])
    t.mem.readNat 0x2000 1 = 0x00 ∧ t.ccr.pack = 0x04 ∧ t.pc = 0x1002 := by decide

theorem test_bra_C1 :
    let t := stepState (core [0x6004, 0x4E71, 0x4E71] [] [] 0x00 [])
    t.ccr.pack = 0x00 ∧ t.pc = 0x1006 := by decide

theorem test_bsr_C7 :
    let t := stepState (core [0x6100, 0x0006, 0x4E71, 0x4E71] [] [(7, 0x8000)] 0x00 [])
    t.areg 7 = 0x7FFC ∧ t.mem.readNat 0x7FFC 4 = 0x00001004 ∧ t.ccr.pack = 0x00 ∧ t.pc = 0x1008 := by decide

theorem test_bcc_C4 :
    let t := stepState (core [0x6700, 0x0010] [] [] 0x04 [])
    t.ccr.pack = 0x04 ∧ t.pc = 0x1012 := by decide

theorem test_bcc_C9 :
    let t := stepState (core [0x6F02, 0x4E71] [] [] 0x0A [])
    t.ccr.pack = 0x0A ∧ t.pc = 0x1002 := by decide

theorem test_moveq_M7 :
    let t := stepState (core [0x7000] [(0, 0x55555555)] [] 0x1F [])
    t.dreg 0 = 0x0 ∧ t.ccr.pack = 0x14 ∧ t.pc = 0x1002 := by decide

theorem test_divu_I33 :
    let t := stepState (core [0x80C1] [(0, 0x10000), (1, 0x1)] [] 0x1D [])
    t.ccr.pack = 0x1E ∧ t.pc = 0x1002 := by decide

theorem test_divs_I34 :
    let t := stepState (core [0x81C1] [(0, 0xFFFFFFF9), (1, 0x2)] [] 0x00 [])
    t.dreg 0 = 0xFFFFFFFD ∧ t.ccr.pack = 0x08 ∧ t.pc = 0x1002 := by decide

theorem test_orDnEa_L2 :
    let t := stepState (core [0x8150] [(0, 0xF0)] [(0, 0x2000)] 0x00 [(0x2000, 0x0F), (0x2001, 0x0F)])
    t.mem.readNat 0x2000 2 = 0x0FFF ∧ t.ccr.pack = 0x00 ∧ t.pc = 0x1002 := by decide

theorem test_suba_I15 :
    let t := stepState (core [0x90FC, 0xFFFF] [] [(0, 0x0)] 0x00 [])
    t.areg 0 = 0x1 ∧ t.ccr.pack = 0x00 ∧ t.pc = 0x1004 := by decide

theorem test_subx_I17 :
    let t := stepState (core [0x9181] [(0, 0x0), (1, 0x0)] [] 0x14 [])
    t.dreg 0 = 0xFFFFFFFF ∧ t.ccr.pack = 0x19 ∧ t.pc = 0x1002 := by decide

theorem test_subEaDn_I13 :
    let t := stepState (core [0x9081] [(0, 0x0), (1, 0x1)] [] 0x00 [])
    t.dreg 0 = 0xFFFFFFFF ∧ t.ccr.pack = 0x19 ∧ t.pc = 0x1002 := by decide

theorem test_subDnEa_I14 :
    let t := stepState (core [0x9150] [(0, 0x1)] [(0, 0x2000)] 0x00 [(0x2000, 0x80)])
    t.mem.readNat 0x2000 2 = 0x7FFF ∧ t.ccr.pack = 0x02 ∧ t.pc = 0x1002 := by decide

theorem test_cmpa_I23 :
    let t := stepState (core [0xB0C0] [(0, 0x8000)] [(0, 0xFFFF8000)] 0x00 [])
    t.ccr.pack = 0x04 ∧ t.pc = 0x1002 := by decide

theorem test_cmpm_I26 :
    let t := stepState (core [0xB148] [] [(0, 0x2000)] 0x00 [(0x2001, 0x01), (0x2003, 0x02)])
    t.areg 0 = 0x2004 ∧ t.ccr.pack = 0x00 ∧ t.pc = 0x1002 := by decide

theorem test_cmp_I22 :
    let t := stepState (core [0xB081] [(0, 0x3), (1, 0x5)] [] 0x10 [])
    t.ccr.pack = 0x19 ∧ t.pc = 0x1002 := by decide

theorem test_eor_L3 :
    let t := stepState (core [0xB380] [(0, 0xFFFFFFFF), (1, 0xFFFFFFFF)] [] 0x00 [])
    t.dreg 0 = 0x0 ∧ t.ccr.pack = 0x04 ∧ t.pc = 0x1002 := by decide

theorem test_mulu_I30 :
    let t := stepState (core [0xC0C1] [(0, 0x1234FFFF), (1, 0xFFFF)] [] 0x00 [])
    t.dreg 0 = 0xFFFE0001 ∧ t.ccr.pack = 0x08 ∧ t.pc = 0x1002 := by decide

theorem test_muls_I31 :
    let t := stepState (core [0xC1C1] [(0, 0xFFFF), (1, 0x2)] [] 0x00 [])
    t.dreg 0 = 0xFFFFFFFE ∧ t.ccr.pack = 0x08 ∧ t.pc = 0x1002 := by decide

theorem test_exgDD_M19 :
    let t := stepState (core [0xC342] [(1, 0x1), (2, 0x2)] [] 0x00 [])
    t.dreg 1 = 0x2 ∧ t.dreg 2 = 0x1 ∧ t.ccr.pack = 0x00 ∧ t.pc = 0x1002 := by decide

theorem test_exgAA_M20 :
    let t := stepState (core [0xC149] [] [(0, 0x1), (1, 0x2)] 0x00 [])
    t.areg 0 = 0x2 ∧ t.areg 1 = 0x1 ∧ t.ccr.pack = 0x00 ∧ t.pc = 0x1002 := by decide

theorem test_exgDA_M18 :
    let t := stepState (core [0xC189] [(0, 0x1)] [(1, 0x2)] 0x1F [])
    t.dreg 0 = 0x2 ∧ t.areg 1 = 0x1 ∧ t.ccr.pack = 0x1F ∧ t.pc = 0x1002 := by decide

theorem test_andEaDn_L1 :
    let t := stepState (core [0xC081] [(0, 0xF0F0F0F0), (1, 0x8000FFFF)] [] 0x13 [])
    t.dreg 0 = 0x8000F0F0 ∧ t.ccr.pack = 0x18 ∧ t.pc = 0x1002 := by decide

theorem test_adda_I5 :
    let t := stepState (core [0xD1D8] [] [(0, 0x2000)] 0x00 [(0x2003, 0x10)])
    t.areg 0 = 0x2014 ∧ t.ccr.pack = 0x00 ∧ t.pc = 0x1002 := by decide

theorem test_addx_I12 :
    let t := stepState (core [0xD308] [] [(0, 0x2001), (1, 0x2011)] 0x14 [(0x2000, 0xFF), (0x2010, 0x01)])
    t.areg 0 = 0x2000 ∧ t.areg 1 = 0x2010 ∧
      t.mem.readNat 0x2010 1 = 0x01 ∧ t.ccr.pack = 0x11 ∧ t.pc = 0x1002 := by decide

theorem test_addEaDn_I1 :
    let t := stepState (core [0xD081] [(0, 0x7FFFFFFF), (1, 0x1)] [] 0x00 [])
    t.dreg 0 = 0x80000000 ∧ t.ccr.pack = 0x0A ∧ t.pc = 0x1002 := by decide

theorem test_addDnEa_I3 :
    let t := stepState (core [0xD150] [(0, 0x1)] [(0, 0x2000)] 0x00 [(0x2000, 0xFF), (0x2001, 0xFF)])
    t.mem.readNat 0x2000 2 = 0x0000 ∧ t.ccr.pack = 0x15 ∧ t.pc = 0x1002 := by decide

theorem test_asrReg_S1 :
    let t := stepState (core [0xE440] [(0, 0x8006)] [] 0x00 [])
    t.dreg 0 = 0xE001 ∧ t.ccr.pack = 0x19 ∧ t.pc = 0x1002 := by decide

theorem test_aslReg_S2 :
    let t := stepState (core [0xE300] [(0, 0x40)] [] 0x00 [])
    t.dreg 0 = 0x80 ∧ t.ccr.pack = 0x0A ∧ t.pc = 0x1002 := by decide

theorem test_lsrReg_S5 :
    let t := stepState (core [0xE268] [(0, 0x1234), (1, 0x40)] [] 0x13 [])
    t.ccr.pack = 0x10 ∧ t.pc = 0x1002 := by decide

theorem test_lslReg_S3 :
    let t := stepState (core [0xE3A8] [(0, 0x1), (1, 0x20)] [] 0x00 [])
    t.dreg 0 = 0x0 ∧ t.ccr.pack = 0x15 ∧ t.pc = 0x1002 := by decide

theorem test_roxrReg_S6 :
    let t := stepState (core [0xE250] [(0, 0x1)] [] 0x00 [])
    t.dreg 0 = 0x0 ∧ t.ccr.pack = 0x15 ∧ t.pc = 0x1002 := by decide

theorem test_roxlReg_S7 :
    let t := stepState (core [0xE330] [(0, 0x80), (1, 0x9)] [] 0x00 [])
    t.dreg 0 = 0x80 ∧ t.ccr.pack = 0x08 ∧ t.pc = 0x1002 := by decide

theorem test_rorReg_S9 :
    let t := stepState (core [0xE898] [(0, 0x12345678)] [] 0x10 [])
    t.dreg 0 = 0x81234567 ∧ t.ccr.pack = 0x19 ∧ t.pc = 0x1002 := by decide

theorem test_rolReg_S8 :
    let t := stepState (core [0xE118] [(0, 0x81)] [] 0x00 [])
    t.dreg 0 = 0x81 ∧ t.ccr.pack = 0x09 ∧ t.pc = 0x1002 := by decide

theorem test_aslMem_S10 :
    let t := stepState (core [0xE1D0] [] [(0, 0x2000)] 0x00 [(0x2000, 0x40)])
    t.mem.readNat 0x2000 2 = 0x8000 ∧ t.ccr.pack = 0x0A ∧ t.pc = 0x1002 := by decide

theorem test_lsrMem_S11 :
    let t := stepState (core [0xE2D8] [] [(0, 0x2000)] 0x00 [(0x2001, 0x01)])
    t.areg 0 = 0x2002 ∧ t.mem.readNat 0x2000 2 = 0x0000 ∧ t.ccr.pack = 0x15 ∧ t.pc = 0x1002 := by decide

theorem test_roxlMem_S12 :
    let t := stepState (core [0xE5E0] [] [(0, 0x2002)] 0x10 [(0x2000, 0x80)])
    t.areg 0 = 0x2000 ∧ t.mem.readNat 0x2000 2 = 0x0001 ∧ t.ccr.pack = 0x11 ∧ t.pc = 0x1002 := by decide

/-! ### Single steps by hand, for the forms without a vector -/

/-- R282: bit 32 mod 32. -/
theorem test_bchgImm : let t := stepState (core [0x0841, 0x0020] [(1, 1)] [] 0x04 [])
    t.dreg 1 = 0 ∧ t.ccr.pack = 0 := by decide
/-- R283: bit 8 mod 8. -/
theorem test_bclrDn : let t := stepState (core [0x0390] [(1, 8)] [(0, 0x2000)] 0 [(0x2000, 0xFF)])
    t.mem.read 0x2000 = 0xFE ∧ t.ccr.pack = 0 := by decide
/-- R243, R135. -/
theorem test_orEaDn : let t := stepState (core [0x8418] [(2, 0x11223301)] [(0, 0x2000)] 0 [(0x2000, 0x80)])
    t.dreg 2 = 0x11223381 ∧ t.areg 0 = 0x2001 ∧ t.ccr.pack = 0x08 := by decide
/-- R241, R136: X unchanged. -/
theorem test_andDnEa : let t := stepState (core [0xC7A1] [(3, 0x0F0F0F0F)] [(1, 0x2004)] 0x1F [(0x2000, 0xFF), (0x2001, 0xFF)])
    t.mem.readNat 0x2000 4 = 0x0F0F0000 ∧ t.areg 1 = 0x2000 ∧ t.ccr.pack = 0x10 := by decide
/-- R263, R271. -/
theorem test_asrMem : let t := stepState (core [0xE0D0] [] [(0, 0x2000)] 0 [(0x2000, 0x80), (0x2001, 0x01)])
    t.mem.readNat 0x2000 2 = 0xC000 ∧ t.ccr.pack = 0x19 := by decide
/-- R266, R271. -/
theorem test_lslMem : let t := stepState (core [0xE3D0] [] [(0, 0x2000)] 0 [(0x2000, 0x80), (0x2001, 0x01)])
    t.mem.readNat 0x2000 2 = 0x0002 ∧ t.ccr.pack = 0x11 := by decide
/-- R269, R271. -/
theorem test_roxrMem : let t := stepState (core [0xE4D0] [] [(0, 0x2000)] 0x10 [(0x2001, 0x01)])
    t.mem.readNat 0x2000 2 = 0x8000 ∧ t.ccr.pack = 0x19 := by decide
/-- R267, R271: X unchanged. -/
theorem test_rorMem : let t := stepState (core [0xE6D0] [] [(0, 0x2000)] 0 [(0x2001, 0x01)])
    t.mem.readNat 0x2000 2 = 0x8000 ∧ t.ccr.pack = 0x09 := by decide
/-- R268, R271: X unchanged. -/
theorem test_rolMem : let t := stepState (core [0xE7D0] [] [(0, 0x2000)] 0 [(0x2000, 0x80)])
    t.mem.readNat 0x2000 2 = 0x0001 ∧ t.ccr.pack = 0x01 := by decide

/-! ### Faults: nothing else changes -/

theorem test_fault_A7 : let s := core [0x1038, 0x8000] [] [] 0 []
    stepState s = raise (.accessFault 0xFFFF8000 1 .read) s := by decide
theorem test_fault_A12 : let s := core [0x3030, 0x0100] [] [(0, 0x2000)] 0 []
    stepState s = raise (.illegalInstruction 0x3030 (some 0x0100)) s := by decide
theorem test_fault_A16 : let s := core [0x3010] [] [(0, 0x2001)] 0 [(0x2001, 0x12), (0x2002, 0x34)]
    let s := { s with cfg := { s.cfg with alignFault := true } }
    stepState s = raise (.addressError 0x2001 2 .read) s := by decide
theorem test_fault_A21 : let s := core [0x4A58] [] [(0, 0xFFFFFF)] 0 []
    stepState s = raise (.accessFault 0xFFFFFF 2 .read) s := by decide
theorem test_fault_M16 : let s := core [0x48E7, 0xC000] [(0, 1), (1, 2)] [(7, 4)] 0 []
    stepState s = raise (.accessFault 0xFFFFFFFC 4 .write) s := by decide
theorem test_fault_I36 : let s := core [0x81FC, 0x0000] [(0, 7)] [] 0 []
    stepState s = raise .zeroDivide s := by decide
theorem test_fault_Y6 : let s := core [0x4E40] [] [] 0 []
    stepState s = raise (.unimplementedTrap 0 none) s ∧ (Cause.unimplementedTrap 0 none).code = 32 := by decide
theorem test_fault_Y11 : let s := core [0x4AFC] [] [] 0 []
    stepState s = raise (.illegalInstruction 0x4AFC none) s := by decide
theorem test_fault_Y17 : let s := core [0x4E4F] [(0, 14)] [(1, 0xFFFFFD)] 0 [(0xFFFFFD, 0x41), (0xFFFFFE, 0x42)]
    stepState s = raise (.accessFault 0xFFFFFF 1 .read) s := by decide
/-- C4's next step: a target that begins no instruction. -/
theorem test_fault_C4 : let s := { core [0x6700, 0x0010] [] [] 0x04 [] with pc := 0x1012 }
    stepState s = raise (.fetchFault 0x1012) s := by decide

/-! ### Traps, the host port and the end of the program -/

theorem test_trap_P4 : let t := stepState (core [0x4E4F] [(0, 4)] [] 0 [])
    t.status = .awaitingInterrupt ∧ t.pending = some .readInteger ∧ t.pc = 0x1002 ∧
      (answerInterrupt (.value 21) t).1.dreg 1 = 21 ∧ (answerInterrupt (.value 21) t).1.status = .running := by decide
theorem test_trap_Y8 : let t := stepState (core [0x4E4F] [(0, 0xFFFFFF09)] [] 0 [])
    t.status = .terminated ∧ t.pending = none ∧ t.pc = 0x1002 := by decide
/-- The third step of H9 and its answer. -/
theorem test_H9 : let t := stepState (core [0x4E4F] [(0, 2), (1, 0xAAAA0000)] [(1, 0x2000)] 0 [])
    t.pending = some (.readString 0x2000 80) ∧ (answerInterrupt (.bytes [0x61, 0x62]) t).1.dreg 1 = 0xAAAA0002 ∧
      (answerInterrupt (.bytes [0x61, 0x62]) t).1.mem.readNat 0x2000 3 = 0x616200 := by decide
/-- The answer of H10, after the trap at 0x1000: no byte is kept. -/
theorem test_H10 : let t := stepState (core [0x4E4F] [(0, 2)] [(1, 0xFFFFFD)] 0 [])
    (answerInterrupt (.bytes [0x61, 0x62]) t).1 = { t with
      pending := none, status := .terminatedByFault, fault := some ⟨.accessFault 0xFFFFFF 1 .write, 0x1000⟩ } := by decide
theorem test_H12 : (stepState (core [0x4E4F] [(0, 14)] [(1, 0x2000)] 0 [(0x2000, 0x48), (0x2001, 0x69)])).pending =
    some (.writeString [0x48, 0x69]) := by decide
theorem test_H7 : let c := { Config.default with prog := [0x203C, 0x0000, 0x0005, 0x0680, 0x0000, 0x0003] }
    (([0x1000, 0x1006, 0x1002, 0x1004, 0x1001, 0x100C, 0x0FFE, 0] : List Long).map (inIStart c)) =
      [true, true, false, false, false, false, false, false] := by decide
/-- R4: SP_RESET for an odd, an even and the largest MEM_SIZE; LINE_OF by program word. -/
theorem test_parameters : Config.defaultSpReset 16777215 = 0xFFFFFE ∧ Config.defaultSpReset 0x10000 = 0x10000 ∧
    Config.defaultSpReset (2 ^ 32) = 0 ∧
    (let c := Config.ofProgram 0x10000 [] 0x1000 [0x203C, 0x0000, 0x0005, 0x4E71] [7, 0, 0, 9]
     lineAt c 0x1000 = some 7 ∧ lineAt c 0x1002 = none ∧ lineAt c 0x1006 = some 9) := by decide
theorem test_H8 : readDataReg State.reset 8 .l = .error .badRegisterIndex ∧
    readBytes State.reset 0xFFFFFE 2 = .error .badAddress ∧ readBytes State.reset 0xFFFFFE 1 = .ok [0] := by decide
theorem test_H14 : State.reset.status = .terminated ∧ stepResponse State.reset = ⟨none, .terminated, some .halted⟩ := by decide
/-- C23: a jump to PROG_END ends the program in the same step. -/
theorem test_C23 : let s := core [0x4EF8, 0x1006] [] [] 0 []
    (stepState s).status = .terminated ∧ (stepState s).pc = 0x1006 := by decide
/-- Part 3.9. -/
theorem test_conditions : ([Cond.t, .hi, .cc, .ne, .vs, .mi, .ge, .gt].all fun k => condHolds k (Ccr.unpack 0x0A)) = true ∧
    ([Cond.f, .ls, .cs, .eq, .vc, .pl, .lt, .le].any fun k => condHolds k (Ccr.unpack 0x0A)) = false := by decide
/-- Writing what an unlisted address reads as removes the entry; the list stays canonical. -/
theorem test_memory : (((Memory.mk []).write 5 1).write 3 2).cells = [(3, 2), (5, 1)] ∧
    (((Memory.mk []).write 5 1).write 5 0).cells = [] ∧ (((Memory.mk []).write 5 1).write 3 2).wf = true := by decide

/-! ### Witnesses for the hypotheses of the statements -/

/-- A state in which the boundary bytes of memory are the last valid ones: 0xFFFFFD and 0xFFFFFE. -/
def w0 : State := core [] [(0, 0x12345678), (1, 2), (2, 0xFFFFFFF9)] [(0, 0x2000), (1, 0x2010), (6, 0x3000), (7, 0x3000)] 0x1F
  [(0x2000, 0xFF), (0x2001, 0x01), (0x2010, 0x80)]

/-- The same with ALIGN_FAULT. -/
def wAlign : State := { w0 with cfg := { w0.cfg with alignFault := true } }

/-- A brief extension word whose bits 10:8 are not 000. -/
def badBrief : Brief := ⟨false, 0, false, 1, 0⟩

/-- A brief extension word whose bits 10:8 are 000. -/
def goodBrief : Brief := ⟨false, 0, false, 0, 0⟩

/-- An operand that is read at the last address where it fits, and one that faults one byte later, at size `sz`. -/
def Reads (mk : Ea → Instr) (sz : Size) : Prop :=
  (∃ v t, readEa (mk (.absL (BitVec.ofNat 32 (0xFFFFFF - sz.bytes)))) sz
    (.absL (BitVec.ofNat 32 (0xFFFFFF - sz.bytes))) w0 = .ok (v, t)) ∧
  ∃ c, readEa (mk (.absL (BitVec.ofNat 32 (0x1000000 - sz.bytes)))) sz
    (.absL (BitVec.ofNat 32 (0x1000000 - sz.bytes))) w0 = .error c

/-- The same for an operand that is read and written, of a well-formed instruction. -/
def Modifies (mk : Ea → Instr) (sz : Size) : Prop :=
  (mk (.absL (BitVec.ofNat 32 (0xFFFFFF - sz.bytes)))).wf = true ∧
  (mk (.absL (BitVec.ofNat 32 (0x1000000 - sz.bytes)))).wf = true ∧
  (∃ loc t d, evalEa (mk (.absL (BitVec.ofNat 32 (0xFFFFFF - sz.bytes)))) sz
    (.absL (BitVec.ofNat 32 (0xFFFFFF - sz.bytes))) w0 = .ok (loc, t) ∧ readLoc loc sz t = .ok d) ∧
  ∃ c, readEa (mk (.absL (BitVec.ofNat 32 (0x1000000 - sz.bytes)))) sz
    (.absL (BitVec.ofNat 32 (0x1000000 - sz.bytes))) w0 = .error c

/-- The same for an operand that is written and not read; its address may be bad too. -/
def Stores (mk : Ea → Instr) (sz : Size) : Prop :=
  ((mk (.index 0 badBrief)).wf = true ∧ ∃ c, evalEa (mk (.index 0 badBrief)) sz (.index 0 badBrief) w0 = .error c) ∧
  ((mk (.absL (BitVec.ofNat 32 (0xFFFFFF - sz.bytes)))).wf = true ∧
    ∃ loc t, evalEa (mk (.absL (BitVec.ofNat 32 (0xFFFFFF - sz.bytes)))) sz
      (.absL (BitVec.ofNat 32 (0xFFFFFF - sz.bytes))) w0 = .ok (loc, t) ∧ writeFault w0.cfg loc sz = none) ∧
  (mk (.absL (BitVec.ofNat 32 (0x1000000 - sz.bytes)))).wf = true ∧
    ∃ loc t c, evalEa (mk (.absL (BitVec.ofNat 32 (0x1000000 - sz.bytes)))) sz
      (.absL (BitVec.ofNat 32 (0x1000000 - sz.bytes))) w0 = .ok (loc, t) ∧ writeFault w0.cfg loc sz = some c

theorem reads_of {mk : Ea → Instr} {sz : Size} : Reads mk sz := by
  cases sz <;> exact ⟨⟨_, _, rfl⟩, ⟨_, rfl⟩⟩

theorem modifies_of {mk : Ea → Instr} {sz : Size} (h : (mk (.absL (BitVec.ofNat 32 (0xFFFFFF - sz.bytes)))).wf = true)
    (g : (mk (.absL (BitVec.ofNat 32 (0x1000000 - sz.bytes)))).wf = true) : Modifies mk sz := by
  cases sz <;> exact ⟨h, g, ⟨_, _, _, rfl, rfl⟩, ⟨_, rfl⟩⟩

theorem stores_of {mk : Ea → Instr} {sz : Size} (h : (mk (.index 0 badBrief)).wf = true)
    (g : (mk (.absL (BitVec.ofNat 32 (0xFFFFFF - sz.bytes)))).wf = true)
    (k : (mk (.absL (BitVec.ofNat 32 (0x1000000 - sz.bytes)))).wf = true) : Stores mk sz := by
  cases sz
  · exact ⟨⟨h, _, rfl⟩, ⟨g, _, _, rfl, by decide⟩, k, _, _, .accessFault 0xFFFFFF 1 .write, rfl, by decide⟩
  · exact ⟨⟨h, _, rfl⟩, ⟨g, _, _, rfl, by decide⟩, k, _, _, .accessFault 0xFFFFFE 2 .write, rfl, by decide⟩
  · exact ⟨⟨h, _, rfl⟩, ⟨g, _, _, rfl, by decide⟩, k, _, _, .accessFault 0xFFFFFC 4 .write, rfl, by decide⟩

/-- MemReadChecksThenReadsBigEndian, MemWriteChecksThenStoresBigEndian: each clause at its boundary. -/
theorem witness_memory_access :
    (wAlign.cfg.alignFault = true ∧ 1 < 2 ∧ (0x2001 : Long).toNat % 2 = 1) ∧
    (¬(w0.cfg.alignFault = true ∧ 1 < 2 ∧ (0xFFFFFE : Long).toNat % 2 = 1) ∧
      ¬(0xFFFFFE : Long).toNat + 2 ≤ w0.cfg.memSize) ∧
    (¬(w0.cfg.alignFault = true ∧ 1 < 2 ∧ (0xFFFFFD : Long).toNat % 2 = 1) ∧
      (0xFFFFFD : Long).toNat + 2 ≤ w0.cfg.memSize) ∧
    ¬(wAlign.cfg.alignFault = true ∧ 1 < 1 ∧ (0x2001 : Long).toNat % 2 = 1) := by decide

/-- PushAndPopFollowTheStackRule: SP = 3 and 0; for its other clauses see `witness_stack_slot`. -/
theorem witness_stack : w0.cfg.memSize < 2 ^ 32 ∧ ((w0.setA 7 3).areg 7).toNat < 4 ∧
    ((w0.setA 7 0).areg 7).toNat < 4 := by decide

/-- IndexedAndPcRelativeModes. -/
theorem witness_indexed : badBrief.rsv ≠ 0 ∧ goodBrief.rsv = 0 ∧
    ∃ w ws, eaExt (.cmpi .l 5 (.pcIndex goodBrief)) = w :: ws := ⟨by decide, by decide, _, _, rfl⟩

/-- LocationsReadAndWriteAtTheirSize. -/
theorem witness_locations : immOk .b 0xFF = true ∧
    (∃ c, accessFault w0.cfg 0xFFFFFE Size.w.bytes .read = some c) ∧
    accessFault w0.cfg 0xFFFFFD Size.w.bytes .read = none ∧
    (∃ c, accessFault wAlign.cfg 0x2001 Size.l.bytes .write = some c) ∧
    accessFault wAlign.cfg 0x2001 Size.b.bytes .write = none :=
  ⟨by decide, ⟨.accessFault 0xFFFFFE 2 .read, by decide⟩, by decide, ⟨.addressError 0x2001 4 .write, by decide⟩, by decide⟩

/-- MoveCopiesSourceToDestination: a source that faults; a destination whose address is bad; one that cannot be
written; one that can. -/
theorem witness_move :
    Reads (fun e => .move .w e (.dreg 0)) .w ∧ Stores (fun e => .move .w (.postInc 0) e) .w ∧
    (Instr.move .w (.absL 0xFFFFFE) (.dreg 0)).wf = true ∧
    ∃ v t, readEa (.move .w (.postInc 0) (.ind 1)) .w (.postInc 0) w0 = .ok (v, t) :=
  ⟨reads_of, stores_of rfl rfl rfl, rfl, _, _, rfl⟩

/-- AddressRegisterDestinations. -/
theorem witness_address_registers : Reads (fun e => .movea .w e 0) .w ∧ Reads (fun e => .adda .l e 0) .l ∧
    Reads (fun e => .suba .w e 0) .w := ⟨reads_of, reads_of, reads_of⟩

/-- LeaAndPeaUseTheAddressOnly, JumpsGoToTheOperandAddress: a bad brief extension word, a good one; the stack slot that
can and that cannot be written (see `witness_stack_slot`). -/
theorem witness_addresses :
    ((Instr.lea (.index 0 badBrief) 1).wf = true ∧ ∃ c, eaAddr (.lea (.index 0 badBrief) 1) (.index 0 badBrief) w0 = .error c) ∧
    ((Instr.lea (.pcIndex goodBrief) 1).wf = true ∧
      ∃ a, eaAddr (.lea (.pcIndex goodBrief) 1) (.pcIndex goodBrief) w0 = .ok a) ∧
    ((Instr.pea (.index 0 badBrief)).wf = true ∧ ∃ c, eaAddr (.pea (.index 0 badBrief)) (.index 0 badBrief) w0 = .error c) ∧
    ((Instr.pea (.ind 7)).wf = true ∧ ∃ a, eaAddr (.pea (.ind 7)) (.ind 7) w0 = .ok a) ∧
    ((Instr.jmp (.index 0 badBrief)).wf = true ∧ ∃ c, eaAddr (.jmp (.index 0 badBrief)) (.index 0 badBrief) w0 = .error c) ∧
    ((Instr.jmp (.absW 0xFFFF)).wf = true ∧ ∃ a, eaAddr (.jmp (.absW 0xFFFF)) (.absW 0xFFFF) w0 = .ok a) ∧
    ((Instr.jsr (.index 0 badBrief)).wf = true ∧ ∃ c, eaAddr (.jsr (.index 0 badBrief)) (.index 0 badBrief) w0 = .error c) ∧
    (Instr.jsr (.ind 7)).wf = true ∧ ∃ a, eaAddr (.jsr (.ind 7)) (.ind 7) w0 = .ok a :=
  ⟨⟨rfl, _, rfl⟩, ⟨rfl, _, rfl⟩, ⟨rfl, _, rfl⟩, ⟨rfl, _, rfl⟩, ⟨rfl, _, rfl⟩, ⟨rfl, _, rfl⟩, ⟨rfl, _, rfl⟩, rfl, _, rfl⟩

/-- `Pushes` (PEA, BSR, JSR), LINK, UNLK, RTS, RTR: the stack accesses that fault and that do not, at the end of memory. -/
theorem witness_stack_slot :
    (∃ c, accessFault (w0.setA 7 0x1000000).cfg ((w0.setA 7 0x1000000).areg 7 - 4) 4 .write = some c) ∧
    accessFault (w0.setA 7 0xFFFFFF).cfg ((w0.setA 7 0xFFFFFF).areg 7 - 4) 4 .write = none ∧
    (∃ c, accessFault (w0.setA 7 0xFFFFFC).cfg ((w0.setA 7 0xFFFFFC).areg 7) 4 .read = some c) ∧
    accessFault (w0.setA 7 0xFFFFFB).cfg ((w0.setA 7 0xFFFFFB).areg 7) 4 .read = none ∧
    (∃ c, accessFault (w0.setA 6 0xFFFFFC).cfg ((w0.setA 6 0xFFFFFC).areg 6) 4 .read = some c) ∧
    accessFault w0.cfg (w0.areg 6) 4 .read = none ∧
    (∃ c, accessFault (w0.setA 7 0xFFFFFE).cfg ((w0.setA 7 0xFFFFFE).areg 7) 2 .read = some c) ∧
    (accessFault (w0.setA 7 0xFFFFFD).cfg ((w0.setA 7 0xFFFFFD).areg 7) 2 .read = none ∧
      ∃ c, accessFault (w0.setA 7 0xFFFFFD).cfg ((w0.setA 7 0xFFFFFD).areg 7 + 2) 4 .read = some c) ∧
    accessFault w0.cfg (w0.areg 7) 2 .read = none ∧ accessFault w0.cfg (w0.areg 7 + 2) 4 .read = none :=
  ⟨⟨.accessFault 0xFFFFFC 4 .write, by decide⟩, by decide, ⟨.accessFault 0xFFFFFC 4 .read, by decide⟩, by decide,
    ⟨.accessFault 0xFFFFFC 4 .read, by decide⟩, by decide, ⟨.accessFault 0xFFFFFE 2 .read, by decide⟩,
    ⟨by decide, .accessFault 0xFFFFFF 4 .read, by decide⟩, by decide, by decide⟩

/-- MovemStoresTheListedRegisters, control form: a bad address; the second transfer faulting; none faulting. -/
theorem witness_movem_store_control :
    (Instr.movemToMem .l 3 (.index 0 badBrief)).wf = true ∧
    (∃ c, eaAddr (.movemToMem .l 3 (.index 0 badBrief)) (.index 0 badBrief) w0 = .error c) ∧
    (Instr.movemToMem .l 3 (.absL 0xFFFFFA)).wf = true ∧ (Ea.absL 0xFFFFFA).mode.isPreDec = false ∧
    eaAddr (.movemToMem .l 3 (.absL 0xFFFFFA)) (.absL 0xFFFFFA) w0 = .ok 0xFFFFFA ∧
    listed (3 : Word).getLsbD = [0, 1] ∧
    accessFault w0.cfg (0xFFFFFA + BitVec.ofNat 32 (0 * Size.l.bytes)) Size.l.bytes .write = none ∧
    (∃ c, accessFault w0.cfg (0xFFFFFA + BitVec.ofNat 32 (1 * Size.l.bytes)) Size.l.bytes .write = some c) ∧
    ∀ j, j < 2 → accessFault w0.cfg (0xFFFFF7 + BitVec.ofNat 32 (j * Size.l.bytes)) Size.l.bytes .write = none :=
  ⟨rfl, ⟨_, rfl⟩, rfl, rfl, rfl, by decide, by decide, ⟨.accessFault 0xFFFFFE 4 .write, by decide⟩, by decide⟩

/-- MovemStoresTheListedRegisters, predecrement form: A7 = 4 and two registers, whose second transfer faults; and one
that completes. -/
theorem witness_movem_store_predec :
    (Instr.movemToMem .l 0xC000 (.preDec 7)).wf = true ∧ (listed fun k => (0xC000 : Word).getLsbD (15 - k)) = [0, 1] ∧
    accessFault (w0.setA 7 4).cfg ((w0.setA 7 4).areg 7 - BitVec.ofNat 32 (2 * 4) + BitVec.ofNat 32 (1 * 4)) 4 .write = none ∧
    (∃ c, accessFault (w0.setA 7 4).cfg ((w0.setA 7 4).areg 7 - BitVec.ofNat 32 (2 * 4) + BitVec.ofNat 32 (0 * 4)) 4 .write =
      some c) ∧
    ∀ j, j < 2 → accessFault w0.cfg (w0.areg 7 - BitVec.ofNat 32 (2 * 4) + BitVec.ofNat 32 (j * 4)) 4 .write = none :=
  ⟨rfl, by decide, by decide, ⟨.accessFault 0xFFFFFFFC 4 .write, by decide⟩, by decide⟩

/-- MovemLoadsTheListedRegisters: as for the stores, in both forms. -/
theorem witness_movem_load :
    (Instr.movemToRegs .w 3 (.index 0 badBrief)).wf = true ∧
    (∃ c, eaAddr (.movemToRegs .w 3 (.index 0 badBrief)) (.index 0 badBrief) w0 = .error c) ∧
    (Instr.movemToRegs .w 3 (.absL 0xFFFFFC)).wf = true ∧ (Ea.absL 0xFFFFFC).mode.isPostInc = false ∧
    eaAddr (.movemToRegs .w 3 (.absL 0xFFFFFC)) (.absL 0xFFFFFC) w0 = .ok 0xFFFFFC ∧
    accessFault w0.cfg (0xFFFFFC + BitVec.ofNat 32 (0 * Size.w.bytes)) Size.w.bytes .read = none ∧
    (∃ c, accessFault w0.cfg (0xFFFFFC + BitVec.ofNat 32 (1 * Size.w.bytes)) Size.w.bytes .read = some c) ∧
    (Instr.movemToRegs .w 3 (.postInc 0)).wf = true ∧
    (∀ j, j < 2 → accessFault w0.cfg (w0.areg 0 + BitVec.ofNat 32 (j * Size.w.bytes)) Size.w.bytes .read = none) ∧
    ∃ c, accessFault (w0.setA 0 0xFFFFFE).cfg ((w0.setA 0 0xFFFFFE).areg 0 + BitVec.ofNat 32 (0 * 2)) 2 .read = some c :=
  ⟨rfl, ⟨_, rfl⟩, rfl, rfl, rfl, by decide, ⟨.accessFault 0xFFFFFE 2 .read, by decide⟩, rfl, by decide,
    .accessFault 0xFFFFFE 2 .read, by decide⟩

/-- LinkAndUnlkMakeAndRemoveAFrame: its accesses are in `witness_stack_slot`; both frame registers. -/
theorem witness_link : (7 : RegNum) ≠ 6 ∧ accessFault w0.cfg (w0.areg 7 - 4) 4 .write = none := by decide

/-- AddWritesTheSumAndItsFlags, SubWritesTheDifferenceAndItsFlags, QuickAddAndSubtract. -/
theorem witness_add_sub :
    Reads (fun e => .addEaDn .w e 1) .w ∧ Modifies (fun e => .addDnEa .b 1 e) .b ∧ Modifies (fun e => .addi .l 5 e) .l ∧
    Reads (fun e => .subEaDn .w e 1) .w ∧ Modifies (fun e => .subDnEa .b 1 e) .b ∧ Modifies (fun e => .subi .l 5 e) .l ∧
    Modifies (fun e => .addq .w 1 e) .w ∧ Modifies (fun e => .subq .w 8 e) .w :=
  ⟨reads_of, modifies_of rfl rfl, modifies_of rfl rfl, reads_of, modifies_of rfl rfl, modifies_of rfl rfl,
    modifies_of rfl rfl, modifies_of rfl rfl⟩

/-- ExtendedAddAndSubtract, memory form: the source faults; the destination faults; neither does. -/
theorem witness_extended_memory :
    (∃ c, accessFault (w0.setA 0 0).cfg ((w0.setA 0 0).areg 0 - incr .b 0) Size.b.bytes .read = some c) ∧
    (accessFault (w0.setA 1 0).cfg ((w0.setA 1 0).areg 0 - incr .b 0) Size.b.bytes .read = none ∧
      ∃ c, accessFault (w0.setA 1 0).cfg (afterEa .b (.preDec 0) 1 ((w0.setA 1 0).areg 1) - incr .b 1) Size.b.bytes .read =
        some c) ∧
    accessFault w0.cfg (w0.areg 0 - incr .b 0) Size.b.bytes .read = none ∧
    accessFault w0.cfg (afterEa .b (.preDec 0) 1 (w0.areg 1) - incr .b 1) Size.b.bytes .read = none :=
  ⟨⟨.accessFault 0xFFFFFFFF 1 .read, by decide⟩, ⟨by decide, .accessFault 0xFFFFFFFF 1 .read, by decide⟩, by decide, by decide⟩

/-- NegateAndClear. -/
theorem witness_negate : Modifies (fun e => .neg .w e) .w ∧ Modifies (fun e => .negx .l e) .l ∧ Stores (fun e => .clr .b e) .b :=
  ⟨modifies_of rfl rfl, modifies_of rfl rfl, stores_of rfl rfl rfl⟩

/-- CompareAndTestWriteFlagsOnly. -/
theorem witness_compare : Reads (fun e => .cmp .b e 1) .b ∧ Reads (fun e => .cmpa .w e 1) .w ∧
    Reads (fun e => .cmpi .l 5 e) .l ∧ Reads (fun e => .tst .w e) .w := ⟨reads_of, reads_of, reads_of, reads_of⟩

/-- CmpmComparesTwoMemoryItems: the first read faults; the second does; neither does, one register included. -/
theorem witness_cmpm :
    (∃ c, accessFault (w0.setA 0 0xFFFFFF).cfg ((w0.setA 0 0xFFFFFF).areg 0) Size.b.bytes .read = some c) ∧
    (accessFault (w0.setA 0 0xFFFFFE).cfg ((w0.setA 0 0xFFFFFE).areg 0) Size.b.bytes .read = none ∧
      ∃ c, accessFault (w0.setA 0 0xFFFFFE).cfg (afterEa .b (.postInc 0) 0 ((w0.setA 0 0xFFFFFE).areg 0)) Size.b.bytes .read =
        some c) ∧
    accessFault w0.cfg (w0.areg 0) Size.b.bytes .read = none ∧
    accessFault w0.cfg (afterEa .b (.postInc 0) 1 (w0.areg 1)) Size.b.bytes .read = none :=
  ⟨⟨.accessFault 0xFFFFFF 1 .read, by decide⟩, ⟨by decide, .accessFault 0xFFFFFF 1 .read, by decide⟩, by decide, by decide⟩

/-- MultiplyWritesTheWholeProduct. -/
theorem witness_multiply : Reads (fun e => .mulu e 0) .w ∧ Reads (fun e => .muls e 0) .w := ⟨reads_of, reads_of⟩

/-- DivideWritesQuotientAndRemainder: a source that faults, a zero divisor, a quotient at the edge of the range and one
past it, unsigned and signed. -/
theorem witness_divide :
    Reads (fun e => .divu e 0) .w ∧ Reads (fun e => .divs e 0) .w ∧
    (∃ t, readEa (.divu (.imm 0) 0) .w (.imm 0) w0 = .ok (0, t)) ∧
    (∃ t, readEa (.divs (.imm 0xFFFF) 0) .w (.imm 0xFFFF) w0 = .ok (0xFFFF, t)) ∧ (0xFFFF : Word) ≠ 0 ∧
    ((0xFFFF / 1 : Nat) : Int) ≤ 0xFFFF ∧ ¬((0x10000 / 1 : Nat) : Int) ≤ 0xFFFF ∧
    (-32768 ≤ (signed 32 0xFFFF8000).tdiv (signed 16 1) ∧ (signed 32 0xFFFF8000).tdiv (signed 16 1) ≤ 32767) ∧
    ¬(-32768 ≤ (signed 32 0xFFFF8000).tdiv (signed 16 0xFFFF) ∧ (signed 32 0xFFFF8000).tdiv (signed 16 0xFFFF) ≤ 32767) ∧
    w0.cfg.divOvf = .unchanged :=
  ⟨reads_of, reads_of, ⟨_, rfl⟩, ⟨_, rfl⟩, by decide, by decide, by decide, by decide, by decide, by decide⟩

/-- SignedDivisionLaw: -7 divided by 2. -/
theorem witness_signed_division : ∃ t u v, readEa (.divs (.dreg 1) 2) .w (.dreg 1) w0 = .ok (v, t) ∧ v ≠ 0 ∧
    exec (.divs (.dreg 1) 2) w0 = .next u ∧ u.ccr.v = false ∧ u.dreg 2 = 0xFFFFFFFD :=
  ⟨_, _, _, rfl, by decide, rfl, by decide, by decide⟩

/-- OverflowIsSignedOverflow, at width 8, and the two sides of its equivalences for 0x7F + 1 and 0x80 - 1. -/
theorem witness_overflow : 0 < 8 ∧ (aluAdd (1 : Byte) 0x7F w0.ccr).2.v = true ∧ (aluSub (1 : Byte) 0x80 w0.ccr).2.v = true ∧
    (aluAdd (1 : Byte) 0x7E w0.ccr).2.v = false ∧ (aluSub (1 : Byte) 0 w0.ccr).2.c = true := by decide

/-- LogicIsBitwise. -/
theorem witness_logic :
    Reads (fun e => .andEaDn .b e 1) .b ∧ Modifies (fun e => .andDnEa .w 1 e) .w ∧ Modifies (fun e => .andi .l 5 e) .l ∧
    Reads (fun e => .orEaDn .b e 1) .b ∧ Modifies (fun e => .orDnEa .w 1 e) .w ∧ Modifies (fun e => .ori .l 5 e) .l ∧
    Modifies (fun e => .eor .w 1 e) .w ∧ Modifies (fun e => .eori .b 0xFF e) .b ∧ Modifies (fun e => .not .l e) .l :=
  ⟨reads_of, modifies_of rfl rfl, modifies_of rfl rfl, reads_of, modifies_of rfl rfl, modifies_of rfl rfl,
    modifies_of rfl rfl, modifies_of rfl rfl, modifies_of rfl rfl⟩

/-- RegisterShifts, its overflow by cases: counts 0, 1, n - 1 and n of an 8-bit operand. -/
theorem witness_shift_counts : (0 < 8 ∧ 0x80 < 2 ^ 8) ∧ (0 < 1 ∧ 1 < 8) ∧ (0 < 7 ∧ 7 < 8) ∧ 8 ≤ 8 := by decide

/-- MemoryShiftsAndRotates. -/
theorem witness_memory_shifts :
    Modifies .asrMem .w ∧ Modifies .aslMem .w ∧ Modifies .lsrMem .w ∧ Modifies .lslMem .w ∧
    Modifies .rorMem .w ∧ Modifies .rolMem .w ∧ Modifies .roxrMem .w ∧ Modifies .roxlMem .w :=
  ⟨modifies_of rfl rfl, modifies_of rfl rfl, modifies_of rfl rfl, modifies_of rfl rfl, modifies_of rfl rfl,
    modifies_of rfl rfl, modifies_of rfl rfl, modifies_of rfl rfl⟩

/-- BitInstructions, on memory and on a data register. -/
theorem witness_bits :
    Reads (fun e => .btstImm 31 e) .b ∧ Reads (fun e => .btstDn 1 e) .b ∧
    Modifies (fun e => .bchgImm 7 e) .b ∧ Modifies (fun e => .bchgDn 1 e) .b ∧ Modifies (fun e => .bclrImm 8 e) .b ∧
    Modifies (fun e => .bclrDn 1 e) .b ∧ Modifies (fun e => .bsetImm 255 e) .b ∧ Modifies (fun e => .bsetDn 1 e) .b ∧
    bitSize (.absL 0) = .b ∧ (Instr.bsetDn 0 (.dreg 0)).wf = true :=
  ⟨reads_of, reads_of, modifies_of rfl rfl, modifies_of rfl rfl, modifies_of rfl rfl, modifies_of rfl rfl,
    modifies_of rfl rfl, modifies_of rfl rfl, rfl, rfl⟩

/-- ConditionTable: 0x80 compared with 0x7F at size B, where the signed and the unsigned order differ. -/
theorem witness_condition : cmpRule 8 0x7F 0x80 ⟨false, false, false, false, false⟩ ⟨false, false, false, true, false⟩ :=
  ⟨1, by decide, by decide, by simp [OvfSub, Msb], by simp [NZ, Msb], rfl⟩

/-- DbccCountsDownAndSccStores. -/
theorem witness_dbcc : condHolds .eq w0.ccr = true ∧ condHolds .ne w0.ccr = false ∧ Stores (fun e => .scc .eq e) .b :=
  ⟨by decide, by decide, stores_of rfl rfl rfl⟩

/-- CcrInstructions. -/
theorem witness_ccr : Reads .moveToCcr .w := reads_of

/-- TrapPublishesItsRequest: the five tasks, another one, and the two cases of the text scan; an empty text too. -/
theorem witness_trap :
    (14 : Fin 16) ≠ 15 ∧ low .b ((w0.setD 0 2).dreg 0) = 2 ∧ low .b ((w0.setD 0 0xFFFFFF03).dreg 0) = 3 ∧
    low .b ((w0.setD 0 4).dreg 0) = 4 ∧ low .b ((w0.setD 0 9).dreg 0) = 9 ∧ low .b ((w0.setD 0 14).dreg 0) = 14 ∧
    low .b ((w0.setD 0 5).dreg 0) ∉ [2, 3, 4, 9, 14] ∧
    (∀ j, j < 2 → ([0xFF, 0x01] : List Byte)[j]? = some (w0.mem.read (0x2000 + j))) ∧
    (∀ b, b ∈ ([0xFF, 0x01] : List Byte) → b ≠ 0) ∧ w0.mem.read (0x2000 + 2) = 0 ∧ 0x2000 + 2 < w0.cfg.memSize ∧
    w0.mem.read (0x3000 + ([] : List Byte).length) = 0 := by decide

/-- The unterminated text: two bytes up to MEM_SIZE; and a buffer at MEM_SIZE, where nothing is in range. -/
theorem witness_trap_unterminated : let s := { w0 with cfg := { w0.cfg with memSize := 0x2002 } }
    (∀ a, 0x2000 ≤ a → a < s.cfg.memSize → s.mem.read a ≠ 0) ∧ ∀ a, 0x2002 ≤ a → a < s.cfg.memSize → s.mem.read a ≠ 0 := by
  refine ⟨fun a h1 h2 => ?_, fun a h1 h2 => absurd h1 (Nat.not_le.mpr h2)⟩
  have h2 : a < 0x2002 := h2
  obtain rfl | rfl : a = 0x2000 ∨ a = 0x2001 := by omega
  · decide
  · decide

/-- The suspended state of a kind. -/
def waiting (p : Interrupt) : State := { w0 with status := .awaitingInterrupt, pending := some p, pc := 0x1002 }

/-- AnswerCompletesTheTrap: each kind with an answer that fits and one that does not; a string of RS_MAX bytes and one of
RS_MAX + 1; a buffer that fits exactly and one whose terminator does not. -/
theorem witness_answer :
    w0.status ≠ .awaitingInterrupt ∧ (waiting .readInteger).status = .awaitingInterrupt ∧
    (waiting .readInteger).pending = some .readInteger ∧ (∀ v, Answer.empty ≠ .value v) ∧
    (waiting (.writeInteger 5)).pending = some (.writeInteger 5) ∧
    (waiting (.writeString [0x41])).pending = some (.writeString [0x41]) ∧ Answer.bytes [] ≠ .empty ∧
    (waiting (.readString 0x2010 80)).pending = some (.readString 0x2010 80) ∧
    (List.replicate 80 (0x41 : Byte)).length ≤ w0.cfg.rsMax ∧ w0.cfg.rsMax < (List.replicate 81 (0x41 : Byte)).length ∧
    accessFault w0.cfg (0xFFFFFD + BitVec.ofNat 32 0) 1 .write = none ∧
    accessFault w0.cfg (0xFFFFFD + BitVec.ofNat 32 1) 1 .write = none ∧
    accessFault w0.cfg (0xFFFFFD + BitVec.ofNat 32 2) 1 .write = some (.accessFault 0xFFFFFF 1 .write) := by
  refine ⟨by decide, rfl, rfl, ?_, rfl, rfl, ?_, rfl, by decide, by decide, by decide, by decide, by decide⟩ <;> simp

/-- FaultsArePrecise. -/
theorem witness_fault : ∃ u, exec (.trap 3) w0 = .next u ∧ u.status = .terminatedByFault ∧ w0.status ≠ .terminatedByFault :=
  ⟨_, rfl, by decide, by decide⟩

/-- FetchAndOpcodeFaults: an address that begins no instruction, an illegal opcode word, an odd address, the addresses
just below and at the end of the program. -/
theorem witness_fetch :
    w0.status = .running ∧ inIStart w0.cfg 0x1002 = false ∧
    (inIStart (core [0x4AFC] [] [] 0 []).cfg 0x1000 = true ∧
      fetchWords (core [0x4AFC] [] [] 0 []).cfg 0x1000 5 = [0x4AFC, 0x4E71] ∧
      decode [0x4AFC, 0x4E71] = .error (.illegal 0x4AFC)) ∧
    (w0.cfg.progBase.toNat % 2 = 0 ∧ (0x1001 : Long).toNat % 2 = 1) ∧ (0x0FFF : Long).toNat < w0.cfg.progBase.toNat ∧
    w0.cfg.progEnd ≤ (0x1002 : Long).toNat := by decide

/-- FetchAndOpcodeFaults, what is in ISTART: a start of two words whose successor is the last word of the program. -/
theorem witness_istart : let c := (core [0x003C, 0x0004] [] [] 0 []).cfg
    c.prog ≠ [] ∧ inIStart c 0x1000 = true ∧ c.prog[((0x1000 : Long).toNat - c.progBase.toNat) / 2]? = some 0x003C ∧
    (0x1004 : Long).toNat = (0x1000 : Long).toNat + 2 * lenOf 0x003C ∧ (0x1004 : Long).toNat < c.progEnd ∧
    inIStart c 0x1004 = true := by decide

/-- StepRunsTheDecodedInstruction, PlacedInstructionRuns, FetchStaysInsideAWellFormedProgram. -/
theorem witness_step : w0.status = .running ∧ inIStart w0.cfg w0.pc = true ∧
    decode (fetchWords w0.cfg w0.pc 5) = .ok (.nop, []) ∧ Instr.nop.wf = true ∧ wellFormedConfig w0.cfg = true := by decide

theorem witness_placed : ∀ k w, (encode Instr.nop)[k]? = some w →
    fetch16 w0.cfg (w0.pc + BitVec.ofNat 32 (2 * k)) = some w := by
  intro k w h
  match k with
  | 0 => injection h with h; subst h; decide
  | k + 1 => cases h

/-- StatusTransitions, HostErrorsAreReportedAndChangeNothing: a state in each status, an answer accepted and one
rejected. -/
theorem witness_status : State.reset.status = .terminated ∧ (raise .zeroDivide w0).status = .terminatedByFault ∧
    (waiting .readInteger).status = .awaitingInterrupt ∧ w0.status = .running ∧
    (answerInterrupt (.value 1) (waiting .readInteger)).2 = none ∧
    (answerInterrupt .empty (waiting .readInteger)).2 = some .shapeMismatch := by decide

/-- RunIsIteratedStep: a program of one NOP ends after one step. -/
theorem witness_run : ∃ t, runFuel 2 w0 = some t ∧ t.status ≠ .running := ⟨_, rfl, by decide⟩

/-- HostErrorsAreReportedAndChangeNothing, HostAccessorsReadTheState: a range of memory that ends at its last byte and one
that ends after it; an instruction start and an address that is none. -/
theorem witness_accessors : (8 ≤ 8 ∧ w0.cfg.memSize < 0xFFFFFE + 2) ∧ 0xFFFFFE + 1 ≤ w0.cfg.memSize ∧
    inIStart w0.cfg w0.pc = true ∧ inIStart w0.cfg (w0.pc + 1) = false ∧
    (∃ i rest, decode (fetchWords w0.cfg w0.pc 5) = .ok (i, rest)) :=
  ⟨by decide, by decide, by decide, by decide, _, _, rfl⟩

/-- ConditionTable: a Bcc. -/
theorem witness_bcc : (Instr.bcc .hi (.short 0xFF)).wf = true := by decide

/-- OpcodeWordsFollowTheTable, DecodeOfEncodeIsTheInstruction: an instruction of five words. -/
theorem witness_encode : (Instr.move .l (.imm 0xFFFFFFFF) (.absL 0x2000)).wf = true := by decide

/-- DecodedInstructionsAreAdmitted: accepted, illegal, and cut short. -/
theorem witness_decode : (∃ i rest, decode [0xD041, 0x1234] = .ok (i, rest)) ∧
    decode [0x4AFC] = .error (.illegal 0x4AFC) ∧ decode [0x0680, 0x0000] = .error .truncated :=
  ⟨⟨_, _, rfl⟩, by decide, by decide⟩

/-- StepKeepsTheInvariant, HostRunKeepsTheInvariant. -/
theorem witness_inv : w0.Inv ∧ ∃ t, step w0 = .next t := ⟨⟨by decide, by decide, by decide, by decide, by decide, trivial⟩, _, rfl⟩

/-- ResetHasTheInvariant; HostAccessorsReadTheState has a line in `w0`, whose parameters are well formed
(`witness_step`). -/
theorem witness_config : wellFormedConfig Config.default = true := by decide

/-- FlagSummaryTable: an instruction of each row that is stated about, which completes. -/
theorem witness_flag_rows :
    (flagRow .nop = .kept ∧ flagRow (.moveq 0 0) = .logic ∧ flagRow (.divu (.dreg 1) 0) = .divide ∧
      flagRow (.cmp .b (.dreg 1) 0) = .compare ∧ flagRow (.rorReg .b (.imm 8) 0) = .rotate ∧
      flagRow (.lsrReg .b (.imm 8) 0) = .shift ∧ flagRow (.aslReg .b (.imm 8) 0) = .shiftV ∧
      flagRow (.btstImm 0 (.dreg 0)) = .zOnly ∧ flagRow (.neg .b (.dreg 0)) = .arith ∧
      flagRow (.negx .b (.dreg 0)) = .extended) ∧
    ∀ i ∈ [Instr.nop, .moveq 0 0, .divu (.dreg 1) 0, .cmp .b (.dreg 1) 0, .rorReg .b (.imm 8) 0, .lsrReg .b (.imm 8) 0,
      .aslReg .b (.imm 8) 0, .btstImm 0 (.dreg 0), .neg .b (.dreg 0), .negx .b (.dreg 0)],
      (match exec i w0 with | .next u => decide (u.status ≠ .terminatedByFault) | .fault _ | .refused _ => false) = true := by
  decide

/-- ReturnAfterCallComesBack. -/
theorem witness_call : eaAddr (.jsr (.ind 0)) (.ind 0) w0 = .ok 0x2000 ∧
    accessFault w0.cfg (w0.areg 7 - 4) 4 .write = none := ⟨rfl, by decide⟩

/-- AddThenAddxAddsSixtyFourBits. -/
theorem witness_add64 : (1 : RegNum) ≠ 0 ∧ (3 : RegNum) ≠ 0 := by decide

end Sys2Proof.Tests
end

/-! SUPPORT. Proofs about the state (spec/10_state.md): the invariant of the core under steps and host calls. -/

section

namespace Sys2Proof.Machine

open Claims

/-! ### The invariant (R31, R32, R34, R36, R356) -/

/-- The invariant but for the end-of-program test: what an instruction leaves before that test is made. -/
structure State.InvBeforeEnd (s : State) : Prop where
  memWf : s.mem.wf = true
  memBelow : s.mem.below s.cfg.memSize = true
  pendingIff : s.pending.isSome = true ↔ s.status = .awaitingInterrupt
  faultIff : s.fault.isSome = true ↔ s.status = .terminatedByFault
  pendingOk : pendingMatches s

theorem State.Inv.beforeEnd {s : State} (h : s.Inv) : s.InvBeforeEnd :=
  ⟨h.memWf, h.memBelow, h.pendingIff, h.faultIff, h.pendingOk⟩

/-- With the end-of-program condition excluded the invariant is whole. -/
theorem State.InvBeforeEnd.inv {s : State} (h : s.InvBeforeEnd)
    (he : s.status = .running → s.pc.toNat ≠ s.cfg.progEnd) : s.Inv :=
  ⟨h.memWf, h.memBelow, h.pendingIff, h.faultIff, he, h.pendingOk⟩

theorem State.Inv.pending_eq_none {s : State} (h : s.Inv) (hs : s.status ≠ .awaitingInterrupt) : s.pending = none := by
  simpa using mt h.pendingIff.mp hs

theorem State.Inv.fault_eq_none {s : State} (h : s.Inv) (hs : s.status ≠ .terminatedByFault) : s.fault = none := by
  simpa using mt h.faultIff.mp hs

theorem pendingMatches_of_none {s : State} (h : s.pending = none) : pendingMatches s := by
  rw [pendingMatches, h]; trivial

/-- A state without a pending descriptor and without a fault. -/
theorem State.InvBeforeEnd.of_none {s : State} (hw : s.mem.wf = true) (hb : s.mem.below s.cfg.memSize = true)
    (hp : s.pending = none) (hf : s.fault = none) (h1 : s.status ≠ .awaitingInterrupt)
    (h2 : s.status ≠ .terminatedByFault) : s.InvBeforeEnd :=
  ⟨hw, hb, by simp [hp, h1], by simp [hf, h2], pendingMatches_of_none hp⟩

/-- Termination, at the end of the program (R356) or by the trap (R320). -/
theorem terminated_inv {t : State} (hw : t.mem.wf = true) (hb : t.mem.below t.cfg.memSize = true)
    (hp : t.pending = none) (hf : t.fault = none) : State.Inv { t with status := .terminated } :=
  ⟨hw, hb, by simp [hp], by simp [hf], nofun, pendingMatches_of_none hp⟩

/-- The end-of-program test completes the invariant (R356). -/
theorem endOfProgram_inv {t : State} (h : t.InvBeforeEnd) : (endOfProgram t).Inv := by
  obtain ⟨he, hne⟩ | ⟨hrun, -, he⟩ := endOfProgram_cases t
  · rw [he]
    exact h.inv hne
  · have hp : t.pending = none := by simpa [hrun] using h.pendingIff
    have hf : t.fault = none := by simpa [hrun] using h.faultIff
    rw [he]
    exact terminated_inv h.memWf h.memBelow hp hf

/-- Raising a fault in a running core (R341). -/
theorem raise_inv {s : State} (h : s.Inv) (hs : s.status = .running) (c : Cause) : (raise c s).Inv := by
  have hp : s.pending = none := h.pending_eq_none (by simp [hs])
  exact ⟨h.memWf, h.memBelow, by simp [hp], by simp, by simp, pendingMatches_of_none hp⟩

/-- An instruction without control effects keeps what a running core has. -/
theorem plain_invBeforeEnd {s t : State} (h : s.Inv) (hs : s.status = .running) (hp : Plain s t) : t.InvBeforeEnd := by
  have ht : t.status = .running := hp.status.trans hs
  exact .of_none (hp.wf h.memWf) (hp.below h.memBelow) (hp.pending.trans (h.pending_eq_none (by simp [hs])))
    (hp.fault.trans (h.fault_eq_none (by simp [hs]))) (by simp [ht]) (by simp [ht])

/-- The suspension of a TRAP publishes what its descriptor owes (R36, R357). -/
theorem suspend_inv {s : State} (h : s.Inv) (hs : s.status = .running) (i : Instr) {p : Interrupt}
    (hp : p = .readString (s.areg 1) s.cfg.rsMax ∨ p = .writeInteger (s.dreg 1) ∨ p = .readInteger ∨
      ∃ text, p = .writeString text) :
    State.Inv { advance i s with pending := some p, status := .awaitingInterrupt } := by
  have hf : s.fault = none := h.fault_eq_none (by simp [hs])
  refine ⟨h.memWf, h.memBelow, by simp, by simp [hf], nofun, ?_⟩
  obtain rfl | rfl | rfl | ⟨text, rfl⟩ := hp
  · exact ⟨rfl, rfl⟩
  · exact rfl
  · trivial
  · trivial

/-- What an instruction of a running core leaves to the end-of-program test. -/
theorem exec_invBeforeEnd {s t : State} {i : Instr} (h : s.Inv) (hs : s.status = .running) (ht : exec i s = .next t) :
    t.InvBeforeEnd := by
  obtain ⟨c, he⟩ | ⟨u, he, hu⟩ | ⟨-, -, p, he, hp⟩ | ⟨-, -, he⟩ := exec_cases i s <;>
    obtain rfl := Host.Outcome.next.inj (he.symm.trans ht)
  · exact (raise_inv h hs c).beforeEnd
  · exact plain_invBeforeEnd h hs hu
  · exact (suspend_inv h hs i hp).beforeEnd
  · exact (terminated_inv (t := advance i s) h.memWf h.memBelow (h.pending_eq_none (by simp [hs]))
      (h.fault_eq_none (by simp [hs]))).beforeEnd

theorem stepState_inv {s : State} (h : s.Inv) : (stepState s).Inv := by
  by_cases hs : s.status = .running
  · cases hf : fetchDecode s with
    | error c =>
      rw [stepState_eq (t := raise c s) (by rw [step_running hs, hf])]
      exact raise_inv h hs c
    | ok i =>
      obtain ⟨t, ht⟩ := exec_next i s
      rw [stepState_eq (t := endOfProgram t) (by rw [step_running hs, hf]; exact congrArg endStep ht)]
      exact endOfProgram_inv (exec_invBeforeEnd h hs ht)
  · rwa [step_other hs]

/-- The result half of a trap ends the suspension, with a fault or without (R362). -/
theorem resultHalf_inv {s : State} (h : s.Inv) (hs : s.status = .awaitingInterrupt) (p : Interrupt) (a : Answer) :
    (resultHalf s p a).Inv := by
  rw [resultHalf]
  cases hw : resultWrites s p a with
  | error c => exact ⟨h.memWf, h.memBelow, by simp, by simp, nofun, trivial⟩
  | ok t =>
    have hp : Plain s t := resultWrites_plain hw
    have hf : t.fault = none := hp.fault.trans (h.fault_eq_none (by simp [hs]))
    exact endOfProgram_inv (.of_none (hp.wf h.memWf) (hp.below h.memBelow) rfl hf nofun nofun)

/-- Everything an answer can do: be rejected, or complete the suspended trap (R362). -/
theorem answerInterrupt_cases (a : Answer) (s : State) :
    (answerInterrupt a s).1 = s ∨
      s.status = .awaitingInterrupt ∧ ∃ p, (answerInterrupt a s).1 = resultHalf s p a := by
  rw [answerInterrupt]
  split
  · split
    · split
      · exact .inr ⟨‹_›, _, rfl⟩
      · exact .inl rfl
    · exact .inl rfl
  all_goals exact .inl rfl

theorem answerInterrupt_inv {s : State} (h : s.Inv) (a : Answer) : (answerInterrupt a s).1.Inv := by
  obtain he | ⟨hs, p, he⟩ := answerInterrupt_cases a s <;> rw [he]
  · exact h
  · exact resultHalf_inv h hs p a

theorem hostCall_inv {s : State} (h : s.Inv) : ∀ c : HostCall, (hostCall s c).Inv
  | .step => stepState_inv h
  | .answer a => answerInterrupt_inv h a

/-- Settles O54: every outcome of an instruction meets the invariant but for the end-of-program test, which the step
then makes. -/
theorem stepKeepsTheInvariant : Obligations.StepKeepsTheInvariant :=
  fun _ _ h ht => stepState_eq ht ▸ stepState_inv h

/-- Settles O56, by induction on the host calls. -/
theorem hostRunKeepsTheInvariant : Obligations.HostRunKeepsTheInvariant := by
  intro s calls
  induction calls generalizing s with
  | nil => exact id
  | cons c calls ih => exact fun h => ih _ (hostCall_inv h c)

end Sys2Proof.Machine
end

/-! SUPPORT. Proofs about the flags and the register file (R8, R23, R27 to R29, R39). -/

section

namespace Sys2Proof.Machine

open Claims

/-! ### Carry and overflow (R8, R27) -/

/-- An integer is the value of an `n`-bit two's-complement number. -/
def FitsSigned (n : Nat) (x : Int) : Prop := -2 ^ (n - 1) ≤ x ∧ x < 2 ^ (n - 1)

section
variable {n : Nat}

/-- The signed value of a bit vector by its most significant bit, over half the modulus. -/
theorem toInt_cases (hn : 0 < n) (v : BitVec n) :
    2 ^ n = 2 * 2 ^ (n - 1) ∧ v.toNat < 2 * 2 ^ (n - 1) ∧
      (Msb n v.toNat ∧ v.toInt = v.toNat - 2 * 2 ^ (n - 1) ∨ ¬Msb n v.toNat ∧ v.toInt = v.toNat) := by
  have hp : 2 ^ n = 2 * 2 ^ (n - 1) := by rw [← Nat.pow_succ']; congr 1; omega
  have hpi : (2 : Int) ^ n = 2 * 2 ^ (n - 1) := by exact_mod_cast hp
  refine ⟨hp, hp ▸ v.isLt, ?_⟩
  rw [← signed_eq_toInt hn, signed, ← hpi, Msb]
  by_cases h : 2 ^ (n - 1) ≤ v.toNat
  · exact .inl ⟨h, if_pos h⟩
  · exact .inr ⟨h, if_neg h⟩

/-- The sum with carry in wraps at most once. -/
theorem addWith_toNat_cases (d s : BitVec n) (c : Bool) :
    (addWith d s c).toNat = d.toNat + s.toNat + c.toNat ∨
      (addWith d s c).toNat + 2 ^ n = d.toNat + s.toNat + c.toNat := by
  have := d.isLt
  have := s.isLt
  have := c.toNat_le
  rw [addWith_toNat]
  rcases Nat.lt_or_ge (d.toNat + s.toNat + c.toNat) (2 ^ n) with h | h
  · exact .inl (Nat.mod_eq_of_lt h)
  · rw [Nat.mod_eq_sub_mod h, Nat.mod_eq_of_lt (by omega)]
    omega

/-- The difference with borrow in wraps at most once. -/
theorem subWith_toNat_cases (d s : BitVec n) (b : Bool) :
    (subWith d s b).toNat + s.toNat + b.toNat = d.toNat ∨
      (subWith d s b).toNat + s.toNat + b.toNat = d.toNat + 2 ^ n := by
  have := d.isLt
  have := s.isLt
  have := b.toNat_le
  have h := subWith_toNat d s b
  have hp : ((2 ^ n : Nat) : Int) = 2 ^ n := by push_cast; rfl
  rcases Nat.lt_or_ge d.toNat (s.toNat + b.toNat) with g | g
  · rw [← Int.add_emod_right, Int.emod_eq_of_lt (by omega) (by omega)] at h
    omega
  · rw [Int.emod_eq_of_lt (by omega) (by omega)] at h
    omega

/-- `ovf_add` says that the exact signed sum does not fit (R8, R27). -/
theorem ovfAdd_iff_not_fits (hn : 0 < n) (d s : BitVec n) (c : Bool) :
    ovfAdd d s (addWith d s c) = true ↔ ¬FitsSigned n (d.toInt + s.toInt + c.toNat) := by
  obtain ⟨hp, hd, hdi⟩ := toInt_cases hn d
  obtain ⟨-, hs, hsi⟩ := toInt_cases hn s
  obtain ⟨-, hr, -⟩ := toInt_cases hn (addWith d s c)
  have hc := addWith_toNat_cases d s c
  have := c.toNat_le
  have hm : ((2 ^ (n - 1) : Nat) : Int) = 2 ^ (n - 1) := by push_cast; rfl
  rw [ovfAdd_iff, OvfAdd, FitsSigned]
  simp only [Msb] at hdi hsi ⊢
  omega

/-- `ovf_sub` says that the exact signed difference does not fit (R8, R27). -/
theorem ovfSub_iff_not_fits (hn : 0 < n) (d s : BitVec n) (b : Bool) :
    ovfSub d s (subWith d s b) = true ↔ ¬FitsSigned n (d.toInt - s.toInt - b.toNat) := by
  obtain ⟨hp, hd, hdi⟩ := toInt_cases hn d
  obtain ⟨-, hs, hsi⟩ := toInt_cases hn s
  obtain ⟨-, hr, -⟩ := toInt_cases hn (subWith d s b)
  have hc := subWith_toNat_cases d s b
  have := b.toNat_le
  have hm : ((2 ^ (n - 1) : Nat) : Int) = 2 ^ (n - 1) := by push_cast; rfl
  rw [ovfSub_iff, OvfSub, FitsSigned]
  simp only [Msb] at hdi hsi ⊢
  omega

end

/-- Settles O27: with the most significant bits of operands and result at hand, one wrap-around at most, V is a
statement of linear arithmetic. -/
theorem overflowIsSignedOverflow : Obligations.OverflowIsSignedOverflow := by
  intro n s d f hn
  have hadd := ovfAdd_iff_not_fits hn d s
  have hsub := ovfSub_iff_not_fits hn d s
  have hadd0 : ovfAdd d s (addWith d s false) = true ↔ ¬FitsSigned n (d.toInt + s.toInt) := by simpa using hadd false
  have hsub0 : ovfSub d s (subWith d s false) = true ↔ ¬FitsSigned n (d.toInt - s.toInt) := by simpa using hsub false
  exact ⟨⟨hadd0, carryAdd_iff d s false⟩, ⟨hadd f.x, carryAdd_iff d s f.x⟩, ⟨hsub0, borrowSub_iff d s false⟩,
    ⟨hsub f.x, borrowSub_iff d s f.x⟩, hsub0, borrowSub_iff d s false⟩

/-! ### Construction (R39) -/

/-- Settles O1. -/
theorem resetLeavesTheTableOfValues : Obligations.ResetLeavesTheTableOfValues := by
  intro c
  refine ⟨fun n => ?_, fun n hn => ?_, rfl, rfl, rfl, rfl, rfl, rfl, rfl, fun a => rfl⟩
  · simp [State.resetOf, State.dreg]
  · show ((Vector.replicate 8 (0 : Long)).set 7 c.spReset)[n] = 0
    have h7 : 7 ≠ n.val := fun h => hn (Fin.ext h.symm)
    simp [h7]

/-! ### Registers at a width (R23) -/

/-- Settles O2. -/
theorem widthQualifiedRegisterAccess : Obligations.WidthQualifiedRegisterAccess := by
  have hread (s : State) (n : RegNum) (sz : Size) (v : BitVec sz.bits) :
      ((s.setDPart n sz v).dPart n sz).toNat = v.toNat := by
    rw [dPart_toNat, State.dreg_setDPart, if_pos rfl, low_mergeLow]
  refine ⟨fun r sz v => ⟨lowPart_toNat sz r, mergeLow_toNat sz r v⟩, fun s n sz v => ?_⟩
  refine ⟨dPart_toNat s n sz, dStored_setDPart s n sz v, BitVec.eq_of_toNat_eq (hread s n sz v), ?_, fun m => rfl⟩
  rintro rfl
  rw [State.dreg_setDPart, if_pos rfl]
  rfl

/-! ### Views of the flags (R28) -/

/-- The packed bitfield, bit by bit from bit 7 down. -/
theorem pack_eq_append : ∀ f : Ccr, f.pack = 0b000#3 ++ BitVec.ofBool f.x ++ BitVec.ofBool f.n ++ BitVec.ofBool f.z ++
    BitVec.ofBool f.v ++ BitVec.ofBool f.c
  | ⟨x, n, z, v, c⟩ => by revert x n z v c; decide

/-- Writing back the packed flags changes none. -/
theorem unpack_pack : ∀ f : Ccr, Ccr.unpack (f.pack.setWidth 5) = f
  | ⟨x, n, z, v, c⟩ => by revert x n z v c; decide

/-- Settles O3. -/
theorem flagViewsArePackedAndOrdered : Obligations.FlagViewsArePackedAndOrdered :=
  ⟨fun f => ⟨rfl, pack_eq_append f⟩, fun _ => ⟨rfl, rfl, rfl, rfl, rfl⟩, unpack_pack⟩

end Sys2Proof.Machine
end

/-! SUPPORT. The summary table of the flags (R29): one lemma for each shared operation says where its flags come from,
then each instruction meets its row. -/

section

namespace Sys2Proof.Machine

open Claims

/-! ### The rows -/

/-- What a row says of the old and the new flags (R29, R221). -/
def FlagEffect : FlagRow → Ccr → Ccr → Prop
  | .all, _, _ => True
  | .arith, _, new => new.x = new.c
  | .extended, old, new => new.x = new.c ∧ (new.z = true → old.z = true)
  | .compare, old, new => new.x = old.x
  | .logic, old, new => new.x = old.x ∧ new.v = false ∧ new.c = false
  | .divide, old, new => new.x = old.x ∧ new.c = false
  | .shift, old, new => new.v = false ∧ (new.x = new.c ∨ new.x = old.x)
  | .shiftV, old, new => new.x = new.c ∨ new.x = old.x
  | .rotate, old, new => new.x = old.x ∧ new.v = false
  | .zOnly, old, new => new = { old with z := new.z }
  | .kept, old, new => new = old

/-- Every success of `r` leaves flags that the row `k` allows. -/
def MeetsRow (k : FlagRow) (s : State) (r : Res State) : Prop := ∀ u, r = .ok u → FlagEffect k s.ccr u.ccr

/-- An outcome that is no fault leaves flags that the row `k` allows. -/
def EndsInRow (k : FlagRow) (s : State) (o : Outcome) : Prop :=
  ∀ u, o = .next u → u.status ≠ .terminatedByFault → FlagEffect k s.ccr u.ccr

section
variable {k : FlagRow} {s : State} {i : Instr} {sz : Size}

theorem MeetsRow.ok {u : State} (h : FlagEffect k s.ccr u.ccr) : MeetsRow k s (.ok u) :=
  fun _ e => Except.ok.inj e ▸ h

theorem MeetsRow.error (c : Cause) : MeetsRow k s (.error c) := fun _ e => by cases e

/-- A committed error is a fault, so the row speaks of successes only. -/
theorem EndsInRow.commit {r : Res State} (h : MeetsRow k s r) : EndsInRow k s (commit s r) := by
  intro u hu hn
  cases r with
  | error c => exact absurd (Host.Outcome.next.inj hu ▸ State.raise_status s c) hn
  | ok t => exact Host.Outcome.next.inj hu ▸ h t rfl

theorem EndsInRow.ok {u : State} (h : FlagEffect k s.ccr u.ccr) : EndsInRow k s (Machine.commit s (.ok u)) :=
  .commit (.ok h)

/-- A row about all flags says nothing. -/
theorem EndsInRow.all (o : Outcome) : EndsInRow .all s o := fun _ _ _ => trivial

/-! ### Where the flags of an operation come from -/

theorem readEa_ccr {ea : Ea} {t : State} {v : BitVec sz.bits} (h : readEa i sz ea s = .ok (v, t)) : t.ccr = s.ccr :=
  ccr_of_a (readEa_state h).1

theorem meetsRow_modifyEa {f : Alu sz} {v : BitVec sz.bits} {ea : Ea} (h : ∀ d, FlagEffect k s.ccr (f v d s.ccr).2) :
    MeetsRow k s (modifyEa i sz f v ea s) := by
  unfold modifyEa
  split
  · exact .error _
  · have hc := ccr_of_a (evalEa_ok ‹_›).1
    split
    · exact .error _
    · split
      · exact .error _
      · exact .ok (hc ▸ h _)

theorem meetsRow_shiftReg {f : Nat → BitVec sz.bits → Ccr → BitVec sz.bits × Ccr} {cnt : Count} {dn : RegNum}
    (h : ∀ c d, FlagEffect k s.ccr (f c d s.ccr).2) : MeetsRow k s (shiftReg i sz f cnt dn s) :=
  meetsRow_modifyEa fun d => h _ d

theorem meetsRow_shiftMem {f : Nat → Word → Ccr → Word × Ccr} {ea : Ea}
    (h : ∀ c d, FlagEffect k s.ccr (f c d s.ccr).2) : MeetsRow k s (shiftMem i f ea s) :=
  meetsRow_modifyEa fun d => h 1 d

theorem meetsRow_storeEa {v : BitVec sz.bits} {f : Ccr} {ea : Ea} {t : State} (h : FlagEffect k s.ccr f) :
    MeetsRow k s (storeEa i sz v f ea t) := by
  unfold storeEa
  split
  · exact .error _
  · split
    · exact .error _
    · exact .ok h

theorem meetsRow_eaToDn {f : Alu sz} {ea : Ea} {dn : RegNum} (h : ∀ v d, FlagEffect k s.ccr (f v d s.ccr).2) :
    MeetsRow k s (eaToDn i sz f ea dn s) := by
  unfold eaToDn
  split
  · exact .error _
  · exact .ok (readEa_ccr ‹_› ▸ h _ _)

theorem meetsRow_eaToAn {f : Long → Long → Long} {ea : Ea} {an : RegNum} :
    MeetsRow .kept s (eaToAn i sz f ea an s) := by
  unfold eaToAn
  split
  · exact .error _
  · have hc := readEa_ccr ‹_›
    exact .ok hc

theorem meetsRow_xPairMem {f : Alu sz} {y x : RegNum} (h : ∀ v d, FlagEffect k s.ccr (f v d s.ccr).2) :
    MeetsRow k s (xPairMem i sz f y x s) := by
  unfold xPairMem
  split
  · exact .error _
  · have hc := readEa_ccr ‹_›
    exact fun u hu => hc ▸ meetsRow_modifyEa (fun d => hc.symm ▸ h _ d) u hu

theorem meetsRow_wordToDn {f : Word → Long → Ccr → Long × Ccr} {ea : Ea} {dn : RegNum}
    (h : ∀ v d, FlagEffect k s.ccr (f v d s.ccr).2) : MeetsRow k s (wordToDn i f ea dn s) := by
  unfold wordToDn
  split
  · exact .error _
  · exact .ok (readEa_ccr ‹_› ▸ h _ _)

theorem meetsRow_divide {f : Word → Long → Ccr → Long × Ccr} {ea : Ea} {dn : RegNum}
    (h : ∀ v d, FlagEffect k s.ccr (f v d s.ccr).2) : MeetsRow k s (divide i f ea dn s) := by
  unfold divide
  split
  · exact .error _
  · have hc := readEa_ccr ‹_›
    split
    · exact .error _
    · exact .ok (hc ▸ h _ _)

theorem meetsRow_bitTest {b : Nat} {ea : Ea} : MeetsRow .zOnly s (bitTest i b ea s) := by
  unfold bitTest
  split
  · exact .error _
  · exact .ok (readEa_ccr ‹_› ▸ rfl)

/-- An instruction that reads one operand and then sets flags only. -/
theorem endsInRow_flags {ea : Ea} {f : BitVec sz.bits → State → Ccr}
    (h : ∀ v t, t.ccr = s.ccr → FlagEffect k s.ccr (f v t)) :
    EndsInRow k s
      (commit s (match readEa i sz ea s with | .error c => .error c | .ok (v, t) => setFlags i (f v t) t)) := by
  split
  · exact .commit (.error _)
  · exact .ok (h _ _ (readEa_ccr ‹_›))

/-! ### Operations that keep the flags -/

theorem memWrite_ccr {t : State} {a : Long} {n : Nat} {v : BitVec (8 * n)} (h : memWrite s a n v = .ok t) :
    t.ccr = s.ccr := by rw [(memWrite_ok h).2]

theorem push_ccr {t : State} {v : Long} (h : push s v = .ok t) : t.ccr = s.ccr := by rw [(push_ok h).2]; rfl

theorem pop_ccr {t : State} {v : Long} (h : pop s = .ok (v, t)) : t.ccr = s.ccr := by rw [(pop_ok h).2]; rfl

theorem setMultiReg_ccr (m : Fin 16) (v : Long) : (setMultiReg s m v).ccr = s.ccr := by
  unfold setMultiReg
  split <;> rfl

theorem storeUp_ccr (s0 : State) (sz : Size) (ks : List (Fin 16)) :
    ∀ (a : Long) (s t : State), storeUp s0 sz ks a s = .ok t → t.ccr = s.ccr := by
  induction ks with
  | nil => intro a s t h; exact Except.ok.inj h ▸ rfl
  | cons m ks ih =>
    intro a s t h
    rw [storeUp] at h
    split at h
    · exact (ih _ _ _ h).trans (memWrite_ccr ‹_›)
    · cases h

theorem storeDown_ccr (s0 : State) (sz : Size) (ks : List (Fin 16)) :
    ∀ (a : Long) (s : State) (b : Long) (t : State), storeDown s0 sz ks a s = .ok (b, t) → t.ccr = s.ccr := by
  induction ks with
  | nil => intro a s b t h; exact (Prod.mk.inj (Except.ok.inj h)).2 ▸ rfl
  | cons m ks ih =>
    intro a s b t h
    rw [storeDown] at h
    split at h
    · exact (ih _ _ _ _ h).trans (memWrite_ccr ‹_›)
    · cases h

theorem loadUp_ccr (sz : Size) (ks : List (Fin 16)) :
    ∀ (a : Long) (s : State) (b : Long) (t : State), loadUp sz ks a s = .ok (b, t) → t.ccr = s.ccr := by
  induction ks with
  | nil => intro a s b t h; exact (Prod.mk.inj (Except.ok.inj h)).2 ▸ rfl
  | cons m ks ih =>
    intro a s b t h
    rw [loadUp] at h
    split at h
    · exact (ih _ _ _ _ h).trans (setMultiReg_ccr _ _)
    · cases h

theorem meetsRow_call {target : Long} : MeetsRow .kept s (call i target s) := by
  unfold call
  split
  · exact .error _
  · have hc := push_ccr ‹_›
    exact .ok hc

/-! ### Instructions with a meaning of their own -/

theorem endsInRow_move (src dst : Ea) : EndsInRow .logic s (execMove sz src dst s) := by
  unfold execMove
  simp only
  split
  · exact .commit (.error _)
  · exact .commit (meetsRow_storeEa ⟨rfl, rfl, rfl⟩)

theorem endsInRow_cmpm (y x : RegNum) : EndsInRow .compare s (execCmpm sz y x s) := by
  unfold execCmpm
  simp only
  split
  · exact .commit (.error _)
  · have hy := readEa_ccr ‹_›
    split
    · exact .commit (.error _)
    · have hx := (readEa_ccr ‹_›).trans hy
      exact .ok (congrArg Ccr.x hx :)

theorem endsInRow_lea (ea : Ea) (an : RegNum) : EndsInRow .kept s (execLea ea an s) := by
  unfold execLea
  simp only
  split
  · exact .commit (.error _)
  · exact .ok rfl

theorem endsInRow_pea (ea : Ea) : EndsInRow .kept s (execPea ea s) := by
  unfold execPea
  simp only
  split
  · exact .commit (.error _)
  · split
    · exact .commit (.error _)
    · have hc := push_ccr ‹_›
      exact .ok hc

theorem endsInRow_link (an : RegNum) (d : Word) : EndsInRow .kept s (execLink an d s) := by
  unfold execLink
  simp only
  split
  · exact .commit (.error _)
  · have hc := memWrite_ccr ‹_›
    exact .ok hc

theorem endsInRow_unlk (an : RegNum) : EndsInRow .kept s (execUnlk an s) := by
  unfold execUnlk
  split
  · exact .commit (.error _)
  · have hc := pop_ccr ‹_›
    exact .ok hc

theorem endsInRow_jmp (ea : Ea) : EndsInRow .kept s (execJmp ea s) := by
  unfold execJmp
  split
  · exact .commit (.error _)
  · exact .ok rfl

theorem endsInRow_jsr (ea : Ea) : EndsInRow .kept s (execJsr ea s) := by
  unfold execJsr
  simp only
  split
  · exact .commit (.error _)
  · exact .commit meetsRow_call

theorem endsInRow_rts : EndsInRow .kept s (execRts s) := by
  unfold execRts
  split
  · exact .commit (.error _)
  · have hc := pop_ccr ‹_›
    exact .ok hc

theorem endsInRow_dbcc (c : Cond) (dn : RegNum) (d : Word) : EndsInRow .kept s (execDbcc c dn d s) := by
  unfold execDbcc
  simp only
  split
  · exact .ok rfl
  · split <;> exact .ok rfl

theorem endsInRow_movemToMem (mask : Word) (ea : Ea) : EndsInRow .kept s (execMovemToMem sz mask ea s) := by
  unfold execMovemToMem
  cases ea
  case preDec n =>
    simp only
    split
    · exact .commit (.error _)
    · have hc := storeDown_ccr _ _ _ _ _ _ _ ‹_›
      exact .ok hc
  all_goals
    simp only
    split
    · exact .commit (.error _)
    · split
      · exact .commit (.error _)
      · have hc := storeUp_ccr _ _ _ _ _ _ ‹_›
        exact .ok hc

theorem endsInRow_movemToRegs (mask : Word) (ea : Ea) : EndsInRow .kept s (execMovemToRegs sz mask ea s) := by
  unfold execMovemToRegs
  cases ea
  case postInc n =>
    simp only
    split
    · exact .commit (.error _)
    · have hc := loadUp_ccr _ _ _ _ _ _ ‹_›
      exact .ok hc
  all_goals
    simp only
    split
    · exact .commit (.error _)
    · split
      · exact .commit (.error _)
      · have hc := loadUp_ccr _ _ _ _ _ _ ‹_›
        exact .ok hc

theorem endsInRow_trap (v : Fin 16) : EndsInRow .kept s (execTrap v s) := by
  intro u hu _
  obtain ⟨c, h⟩ | ⟨-, -, p, h, -⟩ | ⟨-, -, h⟩ := execTrap_cases v s <;>
    exact Host.Outcome.next.inj (h.symm.trans hu) ▸ rfl

/-- ADDQ and SUBQ: an address register destination keeps the flags (R193, R199). -/
theorem endsInRow_addq (q : Nat) (ea : Ea) : EndsInRow (flagRow (.addq sz q ea)) s (execAddq sz q ea s) := by
  by_cases h : ea.mode.isAreg = false
  · rw [execAddq_of_ne sz q ea h, flagRow, h]
    exact .commit (meetsRow_modifyEa fun _ => rfl)
  · cases ea
    case areg n => exact .ok rfl
    all_goals exact absurd rfl h

theorem endsInRow_subq (q : Nat) (ea : Ea) : EndsInRow (flagRow (.subq sz q ea)) s (execSubq sz q ea s) := by
  by_cases h : ea.mode.isAreg = false
  · rw [execSubq_of_ne sz q ea h, flagRow, h]
    exact .commit (meetsRow_modifyEa fun _ => rfl)
  · cases ea
    case areg n => exact .ok rfl
    all_goals exact absurd rfl h

end

/-! ### Computations whose row is not plain from their definition -/

section
variable {n : Nat} (f : Ccr)

theorem aluAddx_extended (s d : BitVec n) : FlagEffect .extended f (aluAddx s d f).2 :=
  ⟨rfl, fun h => (Bool.and_eq_true_iff.mp h).1⟩

theorem aluSubx_extended (s d : BitVec n) : FlagEffect .extended f (aluSubx s d f).2 :=
  ⟨rfl, fun h => (Bool.and_eq_true_iff.mp h).1⟩

/-- X of a shift is a copy of C, but for a count of 0 unchanged (R262). -/
theorem shiftFlags_x (r : BitVec n) (c : Nat) (carry ovf : Bool) :
    FlagEffect .shiftV f (shiftFlags r c carry ovf f) := by
  by_cases h : c = 0
  · exact .inr (if_pos h)
  · exact .inl (if_neg h)

theorem shiftFlags_shift (r : BitVec n) (c : Nat) (carry : Bool) :
    FlagEffect .shift f (shiftFlags r c carry false f) := ⟨rfl, shiftFlags_x f r c carry false⟩

theorem roxFlags_shift (e : BitVec (n + 1)) : FlagEffect .shift f (roxFlags e) := ⟨rfl, .inl rfl⟩

theorem rotateFlags_rotate (r : BitVec n) (carry : Bool) : FlagEffect .rotate f (rotateFlags r carry f) := ⟨rfl, rfl⟩

theorem divUnsigned_divide (p : DivOvf) (s : Word) (d : Long) : FlagEffect .divide f (divUnsigned p s d f).2 := by
  unfold divUnsigned
  simp only
  split <;> exact ⟨rfl, rfl⟩

theorem divSigned_divide (p : DivOvf) (s : Word) (d : Long) : FlagEffect .divide f (divSigned p s d f).2 := by
  unfold divSigned
  simp only
  split <;> exact ⟨rfl, rfl⟩

end

/-! ### The table -/

/-- Every instruction that does not fault leaves flags that its row allows (R29). -/
theorem exec_endsInRow (i : Instr) (s : State) : EndsInRow (flagRow i) s (exec i s) := by
  cases i
  -- Instructions with a lemma of their own.
  case move => exact endsInRow_move _ _
  case cmpm => exact endsInRow_cmpm _ _
  case lea => exact endsInRow_lea _ _
  case pea => exact endsInRow_pea _
  case link => exact endsInRow_link _ _
  case unlk => exact endsInRow_unlk _
  case jmp => exact endsInRow_jmp _
  case jsr => exact endsInRow_jsr _
  case rts => exact endsInRow_rts
  case dbcc => exact endsInRow_dbcc _ _ _
  case movemToMem => exact endsInRow_movemToMem _ _
  case movemToRegs => exact endsInRow_movemToRegs _ _
  case trap => exact endsInRow_trap _
  case addq => exact endsInRow_addq _ _
  case subq => exact endsInRow_subq _ _
  -- All flags written.
  case moveToCcr | andiCcr | oriCcr | eoriCcr | rtr => exact .all _
  -- ADD, SUB, NEG.
  case addi | subi | addDnEa | subDnEa | neg => exact .commit (meetsRow_modifyEa fun _ => rfl)
  case addEaDn | subEaDn => exact .commit (meetsRow_eaToDn fun _ _ => rfl)
  -- ADDX, SUBX, NEGX.
  case addx sz m y x =>
    cases m
    · exact .commit (r := modifyEa (.addx sz false y x) sz aluAddx (s.dPart y sz) (.dreg x) s)
        (meetsRow_modifyEa fun _ => aluAddx_extended _ _ _)
    · exact .commit (r := xPairMem (.addx sz true y x) sz aluAddx y x s)
        (meetsRow_xPairMem fun _ _ => aluAddx_extended _ _ _)
  case subx sz m y x =>
    cases m
    · exact .commit (r := modifyEa (.subx sz false y x) sz aluSubx (s.dPart y sz) (.dreg x) s)
        (meetsRow_modifyEa fun _ => aluSubx_extended _ _ _)
    · exact .commit (r := xPairMem (.subx sz true y x) sz aluSubx y x s)
        (meetsRow_xPairMem fun _ _ => aluSubx_extended _ _ _)
  case negx => exact .commit (meetsRow_modifyEa fun _ => aluSubx_extended _ _ _)
  -- CMP.
  case cmp | cmpa | cmpi => exact endsInRow_flags fun _ _ h => (congrArg Ccr.x h :)
  -- Logic, moves, multiplication.
  case andDnEa | andi | orDnEa | ori | eor | eori | not => exact .commit (meetsRow_modifyEa fun _ => ⟨rfl, rfl, rfl⟩)
  case andEaDn | orEaDn => exact .commit (meetsRow_eaToDn fun _ _ => ⟨rfl, rfl, rfl⟩)
  case mulu | muls => exact .commit (meetsRow_wordToDn fun _ _ => ⟨rfl, rfl, rfl⟩)
  case clr => exact .commit (meetsRow_storeEa ⟨rfl, rfl, rfl⟩)
  case tst => exact endsInRow_flags fun _ _ h => ⟨(congrArg Ccr.x h :), rfl, rfl⟩
  case moveq | ext | swap => exact .ok ⟨rfl, rfl, rfl⟩
  -- Division.
  case divu => exact .commit (meetsRow_divide fun _ _ => divUnsigned_divide _ _ _ _)
  case divs => exact .commit (meetsRow_divide fun _ _ => divSigned_divide _ _ _ _)
  -- Shifts and rotates.
  case asrReg | lsrReg | lslReg => exact .commit (meetsRow_shiftReg fun _ _ => shiftFlags_shift _ _ _ _)
  case asrMem | lsrMem | lslMem => exact .commit (meetsRow_shiftMem fun _ _ => shiftFlags_shift _ _ _ _)
  case roxrReg | roxlReg => exact .commit (meetsRow_shiftReg fun _ _ => roxFlags_shift _ _)
  case roxrMem | roxlMem => exact .commit (meetsRow_shiftMem fun _ _ => roxFlags_shift _ _)
  case aslReg => exact .commit (meetsRow_shiftReg fun _ _ => shiftFlags_x _ _ _ _ _)
  case aslMem => exact .commit (meetsRow_shiftMem fun _ _ => shiftFlags_x _ _ _ _ _)
  case rorReg | rolReg => exact .commit (meetsRow_shiftReg fun _ _ => rotateFlags_rotate _ _ _)
  case rorMem | rolMem => exact .commit (meetsRow_shiftMem fun _ _ => rotateFlags_rotate _ _ _)
  -- Bits.
  case btstImm | btstDn => exact .commit meetsRow_bitTest
  case bchgImm | bclrImm | bsetImm | bchgDn | bclrDn | bsetDn => exact .commit (meetsRow_modifyEa fun _ => rfl)
  -- No flag changes.
  case movea | adda | suba => exact .commit meetsRow_eaToAn
  case scc => exact .commit (meetsRow_storeEa rfl)
  case bsr => exact .commit meetsRow_call
  case exgDD | exgAA | exgDA | bcc | bra | nop => exact .ok rfl

/-- Settles O58: `FlagEffect` holds the statement's clauses, and the row of the instruction picks one. -/
theorem flagSummaryTable : Obligations.FlagSummaryTable := by
  intro i s u hu hn
  have h (k : FlagRow) (hk : flagRow i = k) : FlagEffect k s.ccr u.ccr := hk ▸ exec_endsInRow i s u hu hn
  exact ⟨h .kept, h .logic, h .divide, h .compare, h .rotate, h .shift, h .shiftV, h .zOnly, h .arith, h .extended⟩

end Sys2Proof.Machine
end

/-! SUPPORT. Proofs about data memory, the stack and the program store (R35, R60 to R74). -/

section

namespace Sys2Proof.Machine

open Claims

/-! ### Accesses (R60 to R63) -/

/-- Byte number `j` of a value read of `n` bytes, most significant first (R60). -/
theorem Memory.readNat_byte (m : Memory) (a n j : Nat) (h : j < n) :
    m.readNat a n / 256 ^ (n - 1 - j) % 256 = (m.read (a + j)).toNat := by
  induction n with
  | zero => omega
  | succ n ih =>
    have hb := (m.read (a + n)).isLt
    rw [readNat]
    rcases Nat.lt_or_ge j n with g | g
    · have hd : (m.readNat a n * 256 + (m.read (a + n)).toNat) / 256 = m.readNat a n := by omega
      rw [← ih g, show n + 1 - 1 - j = n - 1 - j + 1 by omega, Nat.pow_succ', ← Nat.div_div_eq_div_mul, hd]
    · obtain rfl : j = n := by omega
      rw [show j + 1 - 1 - j = 0 by omega, Nat.pow_zero]
      omega

/-- The alignment check comes first (R349). -/
theorem accessFault_misaligned {c : Config} {a : Long} {n : Nat} (k : AccessKind)
    (h : c.alignFault = true ∧ 1 < n ∧ a.toNat % 2 = 1) :
    accessFault c a n k = some (.addressError a.toNat n k) := if_pos h

theorem accessFault_outside {c : Config} {a : Long} {n : Nat} (k : AccessKind)
    (h : ¬(c.alignFault = true ∧ 1 < n ∧ a.toNat % 2 = 1)) (g : ¬a.toNat + n ≤ c.memSize) :
    accessFault c a n k = some (.accessFault a.toNat n k) := (if_neg h).trans (if_neg g)

/-- A value read fits the bits of its bytes. -/
theorem readNat_toNat (m : Memory) (a n : Nat) : (BitVec.ofNat (8 * n) (m.readNat a n)).toNat = m.readNat a n := by
  rw [BitVec.toNat_ofNat, Nat.mod_eq_of_lt ((Memory.readNat_lt m a n).trans_eq (Nat.pow_mul 2 8 n).symm)]

/-- The bytes just written are read back as the value written. -/
theorem memRead_memWrite {s t : State} {a : Long} {n : Nat} {v : BitVec (8 * n)} (h : memWrite s a n v = .ok t) :
    memRead t a n = .ok v := by
  obtain ⟨hf, ht⟩ := memWrite_ok h
  have hr : accessFault t.cfg a n .read = none := by rw [ht]; exact accessFault_none_kind hf .read
  have hv : v.toNat < 256 ^ n := v.isLt.trans_eq (Nat.pow_mul 2 8 n)
  refine (memRead_of_none hr).trans (congrArg _ (BitVec.eq_of_toNat_eq ?_))
  rw [readNat_toNat, ht, Memory.readNat_writeNat, Nat.mod_eq_of_lt hv]

/-- Settles O4: a read is its checks and then `Memory.readNat`, whose bytes are those of memory. -/
theorem memReadChecksThenReadsBigEndian : Obligations.MemReadChecksThenReadsBigEndian := by
  intro s a n
  refine ⟨fun h => memRead_of_some (accessFault_misaligned _ h),
    fun h g => memRead_of_some (accessFault_outside _ h g),
    fun h g => ⟨_, memRead_of_none ((accessFault_none_iff ..).mpr ⟨h, g⟩), fun j hj => ?_⟩⟩
  rw [readNat_toNat, Memory.readNat_byte _ _ _ _ hj]

/-- Settles O5: a write is its checks and then `Memory.writeNat`. -/
theorem memWriteChecksThenStoresBigEndian : Obligations.MemWriteChecksThenStoresBigEndian := by
  intro s a n v
  refine ⟨fun h => memWrite_of_some v (accessFault_misaligned _ h),
    fun h g => memWrite_of_some v (accessFault_outside _ h g), fun h g => ?_⟩
  have hw := memWrite_of_none v ((accessFault_none_iff s.cfg a n .write).mpr ⟨h, g⟩)
  exact ⟨_, hw, memStored_writeNat s a.toNat n v.toNat, rfl, memRead_memWrite hw⟩

/-! ### The stack (R69) -/

theorem aKeptBut_setA (s : State) (n : RegNum) (v : Long) : AKeptBut n s (s.setA n v) :=
  fun m hm => by rw [State.areg_setA, if_neg hm]

theorem pop_of_memRead {s : State} {v : Long} (h : memRead s (s.areg spNum) 4 = .ok v) :
    pop s = .ok (v, s.setA 7 (s.areg 7 + 4)) := by
  rw [pop, h]; rfl

/-- A pop after a push gives back the value and the old stack pointer. -/
theorem pop_push {s t : State} {v : Long} (h : push s v = .ok t) :
    ∃ u, pop t = .ok (v, u) ∧ u.areg 7 = s.areg 7 := by
  have hr : memRead t (s.areg 7 - 4) 4 = .ok v := memRead_memWrite h
  have hsp : t.areg 7 = s.areg 7 - 4 := by
    obtain ⟨-, rfl⟩ := push_ok h
    exact State.areg_setA_self s 7 _
  rw [← hsp] at hr
  refine ⟨_, pop_of_memRead hr, ?_⟩
  rw [State.areg_setA_self, hsp, BitVec.sub_add_cancel]

/-- A push below address 0 wraps to an address at the end of the 32-bit range (R69). -/
theorem push_underflow {s : State} (v : Long) (hm : s.cfg.memSize < 2 ^ 32) (hsp : (s.areg 7).toNat < 4) :
    ∃ c, push s v = .error c := by
  cases hf : accessFault s.cfg (s.areg 7 - 4) 4 .write with
  | some c => exact ⟨c, push_of_some hf⟩
  | none =>
    have hr := ((accessFault_none_iff ..).mp hf).2
    bv_omega

/-- Settles O6: push and pop by whether their access faults, the pop after the push and the push below address 0. -/
theorem pushAndPopFollowTheStackRule : Obligations.PushAndPopFollowTheStackRule := by
  intro s v
  refine ⟨fun c => push_of_some, fun hf => ?_, fun c => pop_of_some, fun hf => ?_, push_underflow v⟩
  · have hp := push_of_none (v := v) hf
    exact ⟨_, hp, State.areg_setA_self s 7 _, aKeptBut_setA s 7 _, fun _ => rfl, rfl, ⟨rfl, rfl, rfl, rfl⟩, rfl,
      memStored_writeNat s _ 4 v.toNat, pop_push hp⟩
  · obtain ⟨w, hp, hw⟩ := pop_of_none hf
    exact ⟨w, _, hp, hw, State.areg_setA_self s 7 _, aKeptBut_setA s 7 _, fun _ => rfl, rfl, fun _ => rfl,
      ⟨rfl, rfl, rfl, rfl⟩, rfl⟩

/-! ### The parameters (R35, R37, R74) -/

@[simp] theorem endOfProgram_cfg (t : State) : (endOfProgram t).cfg = t.cfg := by
  obtain ⟨h, -⟩ | ⟨-, -, h⟩ := endOfProgram_cases t <;> rw [h]

theorem exec_cfg {i : Instr} {s t : State} (h : exec i s = .next t) : t.cfg = s.cfg := by
  obtain ⟨c, he⟩ | ⟨u, he, hu⟩ | ⟨-, -, p, he, -⟩ | ⟨-, -, he⟩ := exec_cases i s <;>
    obtain rfl := Host.Outcome.next.inj (he.symm.trans h)
  · rfl
  · exact hu.cfg
  · rfl
  · rfl

theorem stepState_cfg (s : State) : (stepState s).cfg = s.cfg := by
  by_cases hs : s.status = .running
  · cases hf : fetchDecode s with
    | error c => rw [stepState_eq (t := raise c s) (by rw [step_running hs, hf]), State.raise_cfg]
    | ok i =>
      obtain ⟨t, ht⟩ := exec_next i s
      rw [stepState_eq (t := endOfProgram t) (by rw [step_running hs, hf]; exact congrArg endStep ht),
        endOfProgram_cfg, exec_cfg ht]
  · rw [step_other hs]

theorem resultHalf_cfg (s : State) (p : Interrupt) (a : Answer) : (resultHalf s p a).cfg = s.cfg := by
  rw [resultHalf]
  cases hw : resultWrites s p a with
  | error c => rfl
  | ok t => exact (endOfProgram_cfg _).trans (resultWrites_plain hw).cfg

theorem hostCall_cfg (s : State) : ∀ c : HostCall, (hostCall s c).cfg = s.cfg
  | .step => stepState_cfg s
  | .answer a => by
    obtain h | ⟨-, p, h⟩ := answerInterrupt_cases a s <;> rw [hostCall, h]
    exact resultHalf_cfg s p a

theorem hostRun_cfg (s : State) (calls : List HostCall) : (hostRun s calls).cfg = s.cfg := by
  induction calls generalizing s with
  | nil => rfl
  | cons c calls ih => exact (ih (hostCall s c)).trans (hostCall_cfg s c)

/-- Settles O57: the program store is a parameter, and no host call changes a parameter. -/
theorem programAndParametersNeverChange : Obligations.ProgramAndParametersNeverChange :=
  fun s calls => ⟨hostRun_cfg s calls, fun a => congrArg (fetch16 · a) (hostRun_cfg s calls)⟩

end Sys2Proof.Machine
end

/-! SUPPORT. What the decoder does with the words after an opcode word: it takes a number of them that the opcode word
alone fixes and reads an admitted instruction of that length, or it rejects the opcode word whatever follows (R102,
R103, R107). -/

section

namespace Sys2Proof

/-! ### Readers of extension words -/

/-- `D` takes exactly `n` words: with fewer it is cut short, otherwise it leaves the rest and reads an instruction of
which `P` holds. -/
def Takes (n : Nat) (P : Instr → Prop) (D : List Word → DecodeResult) : Prop :=
  ∀ ws, (ws.length < n ∧ D ws = .error .truncated) ∨
    (n ≤ ws.length ∧ ∃ i, D ws = .ok (i, ws.drop n) ∧ P i)

/-- An admitted instruction of `n` words. -/
def Admitted (n : Nat) (i : Instr) : Prop := i.wf = true ∧ i.len = n

theorem Admitted.of_eq {n m : Nat} {i : Instr} (h : Admitted n i) (e : n = m) : Admitted m i := e ▸ h

/-- After the opcode word `w`, `D` rejects it whatever follows, or takes a fixed number of words, at most four. -/
def Reads (w : Word) (D : List Word → DecodeResult) : Prop :=
  (∀ ws, D ws = .error (.illegal w)) ∨ ∃ n ≤ 4, Takes n (Admitted (n + 1)) D

/-- The number of extension words of an operand (R92). -/
def EaMode.extLen (md : EaMode) (sz : Size) : Nat :=
  match md with
  | .dreg _ | .areg _ | .ind _ | .postInc _ | .preDec _ => 0
  | .disp _ | .index _ | .absW | .pcDisp | .pcIndex => 1
  | .absL => 2
  | .imm => if sz = .l then 2 else 1

theorem EaMode.extLen_le (md : EaMode) (sz : Size) : md.extLen sz ≤ 2 := by
  cases md
  case imm => cases sz <;> decide
  all_goals exact Nat.le_of_ble_eq_true rfl

theorem Ea.length_ext (e : Ea) (sz : Size) : (e.ext sz).length = e.mode.extLen sz := by
  cases e
  case imm v => exact length_immWords sz v
  all_goals rfl

theorem immOk_setWidth (sz : Size) (v : BitVec sz.bits) : immOk sz (v.setWidth 32) = true := by
  have h : sz.bits ≤ 32 := by cases sz <;> decide
  rw [immOk, decide_eq_true_eq, BitVec.toNat_setWidth_of_le h]
  exact v.isLt

/-- An operand is in a class and legal at a size if its mode is (R100) and an immediate is a value of that size. -/
theorem Ea.ok_of_mode {e : Ea} {c : EaClass} {sz : Size} (h : (c.has e.mode && e.mode.sizeOk sz) = true)
    (hi : ∀ v, e = .imm v → immOk sz v = true) : e.ok c sz = true := by
  rw [Ea.ok.eq_def, h, Bool.true_and]
  cases e
  case imm v => exact hi v rfl
  all_goals rfl

/-! ### Values of opcode fields -/

theorem field_lt (w : Word) (lo n : Nat) : field w lo n < 2 ^ n := Nat.mod_lt _ (Nat.two_pow_pos n)

theorem isWL_sizeOfBit (b : Bool) : (sizeOfBit b).isWL = true := by cases b <;> rfl

theorem quickOk_quickOf {q : Nat} (h : q < 8) : quickOk (quickOf q) = true := by
  rw [quickOk, decide_eq_true_eq, quickOf]
  split <;> omega

theorem ok_countOf (w : Word) : (countOf w).ok = true := by
  unfold countOf
  split
  · rfl
  · exact quickOk_quickOf (field_lt w 9 3)

/-- The codes 0 and 1 of BRA and BSR are the only conditions that Bcc does not have (R297). -/
theorem branchOk_condOf (n : Nat) : (condOf (n + 2)).branchOk = true :=
  match n with
  | 0 | 1 | 2 | 3 | 4 | 5 | 6 | 7 | 8 | 9 | 10 | 11 | 12 | _ + 13 => rfl

namespace Takes
variable {n : Nat} {P : Instr → Prop}

theorem ok {i : Instr} (h : P i) : Takes 0 P fun ws => .ok (i, ws) := fun _ => .inr ⟨Nat.zero_le _, i, rfl, h⟩

theorem takeWord {k : Word → List Word → DecodeResult} (hk : ∀ x, Takes n P (k x)) :
    Takes (n + 1) P fun ws => takeWord ws k
  | [] => .inl ⟨Nat.succ_pos n, rfl⟩
  | x :: ws => by
    obtain ⟨hlt, h⟩ | ⟨hle, h⟩ := hk x ws
    · exact .inl ⟨Nat.succ_lt_succ hlt, h⟩
    · exact .inr ⟨Nat.succ_le_succ hle, h⟩

theorem takeLong {k : Long → List Word → DecodeResult} (hk : ∀ v, Takes n P (k v)) :
    Takes (n + 2) P fun ws => takeLong ws k :=
  takeWord fun _ => takeWord fun _ => hk _

/-- An immediate is a value of its size (R96). -/
theorem takeImm {sz : Size} {k : Long → List Word → DecodeResult}
    (hk : ∀ v, immOk sz v = true → Takes n P (k v)) :
    Takes (n + EaMode.imm.extLen sz) P fun ws => takeImm sz ws k := by
  cases sz
  · exact takeWord fun _ => hk _ (immOk_setWidth .b _)
  · exact takeWord fun _ => hk _ (immOk_setWidth .w _)
  · exact takeLong fun v => hk v (decide_eq_true v.isLt)

/-- The operand read is in the class of its mode and has as many words as the mode says. -/
theorem takeEa {md : EaMode} {c : EaClass} {sz : Size} (h : (c.has md && md.sizeOk sz) = true)
    {k : Ea → List Word → DecodeResult}
    (hk : ∀ ea, ea.ok c sz = true → (ea.ext sz).length = md.extLen sz → Takes n P (k ea)) :
    Takes (n + md.extLen sz) P fun ws => takeEa md sz ws k := by
  have hok (ea : Ea) (hm : ea.mode = md) (hi : ∀ v, ea = .imm v → immOk sz v = true) : Takes n P (k ea) :=
    hk ea (Ea.ok_of_mode (hm ▸ h) hi) (hm ▸ ea.length_ext sz)
  cases md
  case absL => exact takeLong (k := fun a => k (.absL a)) fun _ => hok (.absL _) rfl nofun
  case imm => exact takeImm fun v hv => hok (.imm v) rfl fun _ e => Ea.imm.inj e ▸ hv
  case disp | index | absW | pcDisp | pcIndex => exact takeWord fun _ => hok _ rfl nofun
  all_goals exact hok _ rfl nofun

end Takes

/-! ### The shapes of operand fields -/

namespace Reads
variable {w : Word}

theorem illegal : Reads w fun _ => .error (.illegal w) := .inl fun _ => rfl

theorem of_takes {n : Nat} {D : List Word → DecodeResult} (hn : n ≤ 4) (h : Takes n (Admitted (n + 1)) D) : Reads w D :=
  .inr ⟨n, hn, h⟩

/-- No extension word. -/
theorem ok {i : Instr} (h : Admitted 1 i) : Reads w fun ws => .ok (i, ws) := of_takes (by decide) (.ok h)

/-- One extension word of the instruction's own and nothing else. -/
theorem oneWord {k : Word → Instr} (h : ∀ x, Admitted 2 (k x)) :
    Reads w fun ws => takeWord ws fun x ws => .ok (k x, ws) :=
  of_takes (by decide) (.takeWord fun x => .ok (h x))

/-- A test of the opcode word alone. -/
theorem ite {p : Prop} [Decidable p] {D E : List Word → DecodeResult} (h : p → Reads w D) (g : ¬p → Reads w E) :
    Reads w fun ws => if p then D ws else E ws := by
  by_cases hp : p
  · simpa only [if_pos hp] using h hp
  · simpa only [if_neg hp] using g hp

theorem checkEa {m : Nat} {r : RegNum} {c : EaClass} {sz : Size} {k : EaMode → List Word → DecodeResult}
    (hk : ∀ md, (c.has md && md.sizeOk sz) = true → Reads w (k md)) :
    Reads w fun ws => checkEa w m r c sz fun md => k md ws := by
  unfold Sys2Proof.checkEa
  cases eaModeOf m r with
  | none => exact illegal
  | some md => exact ite (hk md) fun _ => illegal

theorem withSize {k : Size → List Word → DecodeResult} (hk : ∀ sz, Reads w (k sz)) :
    Reads w fun ws => withSize w fun sz => k sz ws := by
  unfold Sys2Proof.withSize
  cases sizeOfSs (field w 6 2) with
  | none => exact illegal
  | some sz => exact hk sz

/-- An operand, and no extension word of the instruction's own. -/
theorem withEa {c : EaClass} {sz : Size} {k : Ea → Instr}
    (h : ∀ ea, ea.ok c sz = true → Admitted (1 + (ea.ext sz).length) (k ea)) :
    Reads w fun ws => withEa w c sz ws k :=
  checkEa fun md hmd => of_takes (by have := md.extLen_le sz; omega)
    (.takeEa hmd fun ea hea hl => .ok ((h ea hea).of_eq (by omega)))

theorem withSizedEa {c : EaClass} {k : Size → Ea → Instr}
    (h : ∀ sz ea, ea.ok c sz = true → Admitted (1 + (ea.ext sz).length) (k sz ea)) :
    Reads w fun ws => withSizedEa w c ws k :=
  withSize fun sz => withEa (h sz)

/-- An immediate, then an operand (R99). -/
theorem withImmEa {k : Size → Long → Ea → Instr}
    (h : ∀ sz v ea, (immOk sz v && ea.ok .dataAlterable sz) = true →
      Admitted (1 + (immWords sz v).length + (ea.ext sz).length) (k sz v ea)) :
    Reads w fun ws => withImmEa w ws k := by
  refine withSize fun sz => checkEa fun md hmd => of_takes ?_
    (.takeImm fun v hv => .takeEa hmd fun ea hea hl => .ok ((h sz v ea ?_).of_eq ?_))
  · have := md.extLen_le sz
    have := EaMode.imm.extLen_le sz
    omega
  · exact Bool.and_eq_true_iff.mpr ⟨hv, hea⟩
  · have hi : (immWords sz v).length = EaMode.imm.extLen sz := length_immWords sz v
    omega

/-- A word of the instruction's own, then an operand (R99). -/
theorem withOwnEa {c : EaClass} {sz : Size} {k : Word → Ea → Instr}
    (h : ∀ x ea, ea.ok c sz = true → Admitted (2 + (ea.ext sz).length) (k x ea)) :
    Reads w fun ws => withOwnEa w c sz ws k :=
  checkEa fun md hmd => of_takes (by have := md.extLen_le sz; omega)
    (.takeWord fun x => .takeEa hmd fun ea hea hl => .ok ((h x ea hea).of_eq (by omega)))

/-- A displacement: a byte of the opcode word that is not 0, or one word (R98). -/
theorem withDisp {k : Disp → Instr} (h : ∀ d, d.ok = true → Admitted (1 + d.ext.length) (k d)) :
    Reads w fun ws => withDisp w ws k := by
  refine ite (fun _ => oneWord fun x => h (.long x) rfl) fun hd => ok (h (.short _) ?_)
  refine bne_iff_ne.mpr fun e => hd ?_
  have hz : field w 0 8 % 2 ^ 8 = 0 := by rw [← BitVec.toNat_ofNat, e]; rfl
  rwa [Nat.mod_eq_of_lt (field_lt w 0 8)] at hz

/-! ### The lines (R102) -/

theorem decodeBitDyn : Reads w (decodeBitDyn w) := by
  unfold Sys2Proof.decodeBitDyn
  match field w 6 2 with
  | 0 | 1 | 2 | _ + 3 => exact withEa fun _ h => ⟨h, rfl⟩

theorem decodeBitStatic : Reads w (decodeBitStatic w) := by
  unfold Sys2Proof.decodeBitStatic
  match field w 6 2 with
  | 0 | 1 | 2 | _ + 3 => exact withOwnEa fun _ _ h => ⟨h, rfl⟩

/-- ORI, ANDI, EORI, each with its form on the CCR. -/
theorem immOrCcr {v : Word} {k : BitVec 5 → Instr} {l : Size → Long → Ea → Instr} (hk : ∀ x, Admitted 2 (k x))
    (hl : ∀ sz x ea, (immOk sz x && ea.ok .dataAlterable sz) = true →
      Admitted (1 + (immWords sz x).length + (ea.ext sz).length) (l sz x ea)) :
    Reads w fun ws => if w = v then withCcrImm ws k else Sys2Proof.withImmEa w ws l :=
  ite (fun _ => oneWord fun _ => hk _) fun _ => withImmEa hl

theorem decodeLine0 : Reads w (decodeLine0 w) := by
  refine ite (fun _ => decodeBitDyn) fun _ => ?_
  match field w 9 3 with
  | 0 | 1 | 5 => exact immOrCcr (fun _ => ⟨rfl, rfl⟩) fun _ _ _ h => ⟨h, rfl⟩
  | 2 | 3 | 6 => exact withImmEa fun _ _ _ h => ⟨h, rfl⟩
  | 4 => exact decodeBitStatic
  | _ + 7 => exact illegal

theorem decodeLine48 : Reads w (decodeLine48 w) := by
  unfold Sys2Proof.decodeLine48
  match field w 6 2 with
  | 0 => exact illegal
  | 1 => exact ite (fun _ => ok ⟨rfl, rfl⟩) fun _ => withEa fun _ h => ⟨h, rfl⟩
  | _ + 2 =>
    exact ite (fun _ => ok ⟨isWL_sizeOfBit _, rfl⟩) fun _ =>
      withOwnEa fun _ _ h => ⟨Bool.and_eq_true_iff.mpr ⟨isWL_sizeOfBit _, h⟩, rfl⟩

theorem decodeLine4E4 : Reads w (decodeLine4E4 w) := by
  unfold Sys2Proof.decodeLine4E4
  match field w 3 3 with
  | 0 | 1 | 3 => exact ok ⟨rfl, rfl⟩
  | 2 => exact oneWord fun _ => ⟨rfl, rfl⟩
  | 4 | 5 | _ + 7 => exact illegal
  | 6 =>
    match field w 0 3 with
    | 1 | 5 | 7 => exact ok ⟨rfl, rfl⟩
    | 0 | 2 | 3 | 4 | 6 | _ + 8 => exact illegal

theorem decodeLine4 : Reads w (decodeLine4 w) := by
  refine ite (fun _ => ite (fun _ => withEa fun _ h => ⟨h, rfl⟩) fun _ => illegal) fun _ => ?_
  match field w 9 3 with
  | 0 | 1 | 3 | 5 => exact withSizedEa fun _ _ h => ⟨h, rfl⟩
  | 2 => exact ite (fun _ => withEa fun _ h => ⟨h, rfl⟩) fun _ => withSizedEa fun _ _ h => ⟨h, rfl⟩
  | 4 => exact decodeLine48
  | 6 =>
    exact ite (fun _ => illegal) fun _ =>
      withOwnEa fun _ _ h => ⟨Bool.and_eq_true_iff.mpr ⟨isWL_sizeOfBit _, h⟩, rfl⟩
  | _ + 7 =>
    match field w 6 2 with
    | 0 => exact illegal
    | 1 => exact decodeLine4E4
    | 2 | _ + 3 => exact withEa fun _ h => ⟨h, rfl⟩

/-- MOVEA and MOVE: the source's extension words, then the destination's (R99). -/
theorem decodeMove : Reads w (decodeMove w) := by
  unfold Sys2Proof.decodeMove
  cases sizeOfZz (field w 12 2) with
  | none => exact illegal
  | some sz =>
    refine checkEa fun src hsrc => ite (fun _ => ite (fun hwl => ?movea) fun _ => illegal) fun _ =>
      checkEa fun dst hdst => ?move
    all_goals have hsrcLen := src.extLen_le sz
    case movea =>
      refine of_takes (by omega) (.takeEa hsrc fun ea hea hl => .ok ⟨Bool.and_eq_true_iff.mpr ⟨hwl, hea⟩, ?_⟩)
      show 1 + (ea.ext sz).length = _
      omega
    case move =>
      have hdstLen := dst.extLen_le sz
      refine of_takes (by omega) (.takeEa hsrc fun s hs hsl => .takeEa hdst fun d hd hdl =>
        .ok ⟨Bool.and_eq_true_iff.mpr ⟨hs, hd⟩, ?_⟩)
      show 1 + (s.ext sz ++ d.ext sz).length = _
      rw [List.length_append]
      omega

theorem decodeLine5 : Reads w (decodeLine5 w) := by
  have hq : quickOk (quickOf (field w 9 3)) = true := quickOk_quickOf (field_lt w 9 3)
  refine ite (fun _ => ite (fun _ => oneWord fun _ => ⟨rfl, rfl⟩) fun _ => withEa fun _ h => ⟨h, rfl⟩) fun _ => ?_
  exact ite (fun _ => withSizedEa fun _ _ h => ⟨Bool.and_eq_true_iff.mpr ⟨hq, h⟩, rfl⟩) fun _ =>
    withSizedEa fun _ _ h => ⟨Bool.and_eq_true_iff.mpr ⟨hq, h⟩, rfl⟩

theorem decodeLine6 : Reads w (decodeLine6 w) := by
  unfold Sys2Proof.decodeLine6
  match field w 8 4 with
  | 0 | 1 => exact withDisp fun _ h => ⟨h, rfl⟩
  | cc + 2 => exact withDisp fun _ h => ⟨Bool.and_eq_true_iff.mpr ⟨branchOk_condOf cc, h⟩, rfl⟩

theorem decodeLine7 : Reads w (decodeLine7 w) := ite (fun _ => illegal) fun _ => ok ⟨rfl, rfl⟩

/-- ADDX and SUBX. -/
theorem withXPair {k : Size → Bool → RegNum → RegNum → Instr} (h : ∀ sz m y x, Admitted 1 (k sz m y x)) :
    Reads w fun ws => withXPair w ws k :=
  withSize fun _ => ok (h _ _ _ _)

theorem decodeLine8 : Reads w (decodeLine8 w) := by
  unfold Sys2Proof.decodeLine8
  split
  · exact withEa fun _ h => ⟨h, rfl⟩
  · exact withEa fun _ h => ⟨h, rfl⟩
  · exact ite (fun _ => withSizedEa fun _ _ h => ⟨h, rfl⟩) fun _ => withSizedEa fun _ _ h => ⟨h, rfl⟩

/-- ADDA, SUBA and CMPA: the size is the bit of the opcode word. -/
theorem sizedByBit {b : Bool} {k : Ea → Instr} (h : ∀ ea, ((sizeOfBit b).isWL && ea.ok .all (sizeOfBit b)) = true →
    Admitted (1 + (ea.ext (sizeOfBit b)).length) (k ea)) :
    Reads w fun ws => Sys2Proof.withEa w .all (sizeOfBit b) ws k :=
  withEa fun ea hea => h ea (Bool.and_eq_true_iff.mpr ⟨isWL_sizeOfBit b, hea⟩)

theorem decodeLine9 : Reads w (decodeLine9 w) := by
  refine ite (fun _ => sizedByBit fun _ h => ⟨h, rfl⟩) fun _ => ite (fun _ => ?_) fun _ =>
    withSizedEa fun _ _ h => ⟨h, rfl⟩
  exact ite (fun _ => withXPair fun _ _ _ _ => ⟨rfl, rfl⟩) fun _ => withSizedEa fun _ _ h => ⟨h, rfl⟩

theorem decodeLineB : Reads w (decodeLineB w) := by
  refine ite (fun _ => sizedByBit fun _ h => ⟨h, rfl⟩) fun _ => ite (fun _ => ?_) fun _ =>
    withSizedEa fun _ _ h => ⟨h, rfl⟩
  exact ite (fun _ => withSize fun _ => ok ⟨rfl, rfl⟩) fun _ => withSizedEa fun _ _ h => ⟨h, rfl⟩

theorem decodeExg : Reads w (decodeExg w) := by
  unfold Sys2Proof.decodeExg
  split
  · exact ok ⟨rfl, rfl⟩
  · exact ok ⟨rfl, rfl⟩
  · exact ok ⟨rfl, rfl⟩
  · exact illegal

theorem decodeLineC : Reads w (decodeLineC w) := by
  unfold Sys2Proof.decodeLineC
  split
  · exact withEa fun _ h => ⟨h, rfl⟩
  · exact withEa fun _ h => ⟨h, rfl⟩
  · exact ite (fun _ => ite (fun _ => decodeExg) fun _ => withSizedEa fun _ _ h => ⟨h, rfl⟩) fun _ =>
      withSizedEa fun _ _ h => ⟨h, rfl⟩

theorem decodeLineD : Reads w (decodeLineD w) := by
  refine ite (fun _ => sizedByBit fun _ h => ⟨h, rfl⟩) fun _ => ite (fun _ => ?_) fun _ =>
    withSizedEa fun _ _ h => ⟨h, rfl⟩
  exact ite (fun _ => withXPair fun _ _ _ _ => ⟨rfl, rfl⟩) fun _ => withSizedEa fun _ _ h => ⟨h, rfl⟩

theorem decodeShiftReg : Reads w (decodeShiftReg w) := by
  refine withSize fun sz => ?_
  match field w 3 2 with
  | 0 | 1 | 2 | _ + 3 => exact ite (fun _ => ok ⟨ok_countOf w, rfl⟩) fun _ => ok ⟨ok_countOf w, rfl⟩

theorem decodeShiftMem : Reads w (decodeShiftMem w) := by
  unfold Sys2Proof.decodeShiftMem
  match field w 9 3 with
  | 0 | 1 | 2 | 3 => exact withEa fun _ h => by split <;> exact ⟨h, rfl⟩
  | _ + 4 => exact illegal

theorem decodeLineE : Reads w (decodeLineE w) := ite (fun _ => decodeShiftMem) fun _ => decodeShiftReg

/-- What the decoder does after any opcode word. -/
theorem decodeOpcode (w : Word) : Reads w (decodeOpcode w) := by
  unfold Sys2Proof.decodeOpcode
  match field w 12 4 with
  | 0 => exact decodeLine0
  | 1 | 2 | 3 => exact decodeMove
  | 4 => exact decodeLine4
  | 5 => exact decodeLine5
  | 6 => exact decodeLine6
  | 7 => exact decodeLine7
  | 8 => exact decodeLine8
  | 9 => exact decodeLine9
  | 11 => exact decodeLineB
  | 12 => exact decodeLineC
  | 13 => exact decodeLineD
  | 14 => exact decodeLineE
  | 10 | _ + 15 => exact illegal

end Reads

/-! ### The length of an opcode word (R107) -/

/-- An opcode word is illegal whatever follows, or takes `lenOf w - 1` words and reads an admitted instruction of
`lenOf w` words. -/
theorem decode_cases (w : Word) : (lenOf w = 1 ∧ ∀ ws, decode (w :: ws) = .error (.illegal w)) ∨
    Takes (lenOf w - 1) (Admitted (lenOf w)) (decodeOpcode w) := by
  obtain h | ⟨n, hn, h⟩ := Reads.decodeOpcode w
  · exact .inl ⟨by rw [lenOf, decode, h], h⟩
  · have hl : lenOf w = n + 1 := by
      obtain ⟨hlt, -⟩ | ⟨-, i, hi, -⟩ := h [0, 0, 0, 0]
      · exact absurd hlt (Nat.not_lt.mpr hn)
      · rw [lenOf, decode, hi]
        simp only [List.length_drop, List.length_cons, List.length_nil]
        omega
    rw [hl]
    exact .inr h

theorem lenOf_le (w : Word) : lenOf w ≤ 5 := by
  unfold lenOf
  split <;> omega

end Sys2Proof

namespace Sys2Proof.Machine

/-! ### The words at an instruction start (R70, R119) -/

/-- The words an instruction still covers are in the program. -/
theorem skip_le_of_chainEnds : ∀ (ws : List Word) (skip : Nat), chainEnds ws skip = true → skip ≤ ws.length
  | [], _, h => (beq_iff_eq.mp h).le
  | _ :: _, 0, _ => Nat.zero_le _
  | _ :: ws, skip + 1, h => Nat.succ_le_succ (skip_le_of_chainEnds ws skip h)

/-- When sequential decode ends at the end of the program, the words of every instruction are in it (R119). -/
theorem lenOf_le_of_startsAt : ∀ (ws : List Word) (skip k : Nat) {w : Word} {tl : List Word}, chainEnds ws skip = true →
    startsAt ws skip k = true → ws.drop k = w :: tl → lenOf w - 1 ≤ tl.length
  | [], _, _, _, _, _, h, _ => by cases h
  | _ :: _, 0, 0, _, _, hc, _, hd => by
    obtain ⟨rfl, rfl⟩ := List.cons.inj hd
    exact skip_le_of_chainEnds _ _ hc
  | _ :: _, _ + 1, 0, _, _, _, hs, _ => by cases hs
  | _ :: ws, 0, k + 1, _, _, hc, hs, hd => lenOf_le_of_startsAt ws _ k hc hs hd
  | _ :: ws, skip + 1, k + 1, _, _, hc, hs, hd => lenOf_le_of_startsAt ws skip k hc hs hd

/-- In a program at an even base `Fetch16` reads word number `k` (R70). -/
theorem fetch16_eq {c : Config} {a : Long} {k : Nat} (hb : c.progBase.toNat % 2 = 0)
    (ha : a.toNat = c.progBase.toNat + 2 * k) : fetch16 c a = c.prog[k]? := by
  rw [fetch16, if_pos (by omega), show (a.toNat - c.progBase.toNat) / 2 = k by omega]

/-- The words fetched from word number `k` on are those of the program. -/
theorem fetchWords_eq {c : Config} (hb : c.progBase.toNat % 2 = 0) (he : c.progEnd < 2 ^ 32) (n : Nat) {a : Long}
    {k : Nat} (ha : a.toNat = c.progBase.toNat + 2 * k) : fetchWords c a n = (c.prog.drop k).take n := by
  induction n generalizing a k with
  | zero => rfl
  | succ n ih =>
    rw [fetchWords, fetch16_eq hb ha]
    cases hk : c.prog[k]? with
    | none => rw [List.drop_eq_nil_of_le (List.getElem?_eq_none_iff.mp hk), List.take_nil]
    | some w =>
      obtain ⟨hlt, hw⟩ := List.getElem?_eq_some_iff.mp hk
      have ha2 : (a + 2).toNat = c.progBase.toNat + 2 * (k + 1) := by
        rw [Config.progEnd] at he
        bv_omega
      rw [List.drop_eq_getElem_cons hlt, hw, List.take_succ_cons, ← ih ha2]

/-- An illegal opcode word at an instruction start is named by the fault; any other decodes when its words are there. -/
theorem fetchDecode_cases {s : State} {w : Word} {ws : List Word} (hi : inIStart s.cfg s.pc = true)
    (hf : fetchWords s.cfg s.pc 5 = w :: ws) (hl : lenOf w - 1 ≤ ws.length) :
    (∃ i, fetchDecode s = .ok i ∧ Admitted (lenOf w) i) ∨ fetchDecode s = .error (.illegalInstruction w none) := by
  obtain ⟨-, h⟩ | h := decode_cases w
  · right
    simp only [fetchDecode, hi, if_true, hf, h]
  · obtain ⟨hlt, -⟩ | ⟨-, i, hd, ha⟩ := h ws
    · omega
    · left
      refine ⟨i, ?_, ha⟩
      simp only [fetchDecode, hi, if_true, hf, decode, hd]

/-- The program from an instruction start on, when sequential decode ends at its end (R119). -/
theorem drop_of_inIStart {c : Config} {a : Long} (hc : chainEnds c.prog 0 = true) (h : inIStart c a = true) :
    ∃ k w tl, a.toNat = c.progBase.toNat + 2 * k ∧ c.prog.drop k = w :: tl ∧ lenOf w - 1 ≤ tl.length := by
  obtain ⟨hlo, -, hpar⟩ := inIStart_bounds h
  have hs := (Bool.and_eq_true_iff.mp h).2
  have hd := List.drop_eq_getElem_cons (startsAt_lt _ _ _ hs)
  exact ⟨_, _, _, by omega, hd, lenOf_le_of_startsAt _ _ _ hc hs hd⟩

/-- Settles O45: the program from an instruction start on holds the words that its opcode word asks for, and the fetch
reads them. -/
theorem fetchStaysInsideAWellFormedProgram : Obligations.FetchStaysInsideAWellFormedProgram := by
  intro s hwf _ hi
  obtain ⟨hlo, hhi, -⟩ := inIStart_bounds hi
  simp only [wellFormedConfig, Bool.and_eq_true, decide_eq_true_eq] at hwf
  obtain ⟨⟨⟨⟨⟨-, hb⟩, he⟩, hchain⟩, -⟩, -⟩ := hwf
  obtain ⟨k, w, tl, hpc, hdrop, hlen⟩ := drop_of_inIStart hchain hi
  have hend : s.cfg.prog.length = k + 1 + tl.length := by
    have := congrArg List.length hdrop
    rw [List.length_drop, List.length_cons] at this
    omega
  have hword : fetch16 s.cfg s.pc = some w := by
    rw [fetch16_eq hb hpc, ← List.head?_drop, hdrop, List.head?_cons]
  have hfetch : fetchWords s.cfg s.pc 5 = w :: tl.take 4 := by
    rw [fetchWords_eq hb he 5 hpc, hdrop, List.take_succ_cons]
  have hfive := lenOf_le w
  have hpos := lenOf_pos w
  refine ⟨by omega, hlo, hhi, ?_⟩
  obtain ⟨i, hd, hiwf, hilen⟩ | hd := fetchDecode_cases hi hfetch (by rw [List.length_take]; omega)
  · refine .inl ⟨i, hd, hiwf, ?_⟩
    rw [Config.progEnd]
    omega
  · exact .inr ⟨w, hword, hd⟩

end Sys2Proof.Machine
end

/-! SUPPORT. Proofs about the encoding (spec/30_encoding.md): the class table, the patterns of the opcode words, and the
sample words. -/

section

namespace Sys2Proof

open Claims

/-! ### Bit fields of R101 as numbers -/

theorem toNat_append_eq {a b n : Nat} (x : BitVec a) (y : BitVec b) (h : x.toNat * 2 ^ b + y.toNat = n) :
    (x ++ y).toNat = n := by
  rw [BitVec.toNat_append, ← Nat.shiftLeft_add_eq_or_of_lt y.isLt, Nat.shiftLeft_eq, h]

theorem toNat_append {a b : Nat} (x : BitVec a) (y : BitVec b) : (x ++ y).toNat = x.toNat * 2 ^ b + y.toNat :=
  toNat_append_eq x y rfl

@[simp] theorem toNat_r3 (n : RegNum) : (r3 n).toNat = n.val := Nat.mod_eq_of_lt n.isLt

@[simp] theorem toNat_ss (sz : Size) : (ss sz).toNat = sz.ss := by cases sz <;> rfl

@[simp] theorem toNat_zz (sz : Size) : (zz sz).toNat = sz.zz := by cases sz <;> rfl

@[simp] theorem toNat_s1 (sz : Size) : (s1 sz).toNat = sz.bitCode := by cases sz <;> rfl

@[simp] theorem toNat_modeBits (e : Ea) : (modeBits e).toNat = e.mode.m := by cases e <;> rfl

@[simp] theorem toNat_regBits (e : Ea) : (regBits e).toNat = e.mode.r := by
  cases e
  case absW | absL | pcDisp | pcIndex | imm => rfl
  all_goals exact toNat_r3 _

@[simp] theorem toNat_ea6 (e : Ea) : (ea6 e).toNat = e.field :=
  toNat_append_eq _ _ (by rw [toNat_modeBits, toNat_regBits]; rfl)

@[simp] theorem toNat_cccc (k : Cond) : (cccc k).toNat = k.code := by cases k <;> rfl

@[simp] theorem toNat_qqq (q : Nat) : (qqq q).toNat = quickCode q := by
  unfold qqq
  split
  · next h => rw [h]; rfl
  · exact BitVec.toNat_ofNat q 3

@[simp] theorem toNat_dispBits (d : Disp) : (dispBits d).toNat = d.code := by cases d <;> rfl

theorem Count.code_eq (c : Count) : c.code = (countBits c).toNat * 512 + (countKind c).toNat * 32 := by
  cases c <;> simp [Count.code, countBits, countKind]

/-- A pattern of R101, read as a number field by field, is the number of the encoder. -/
theorem toNat_pattern (i : Instr) : (pattern i).toNat = opcodeNat i := by
  cases i
  case oriCcr | andiCcr | eoriCcr | nop | rts | rtr => rfl
  case trap v => exact toNat_append_eq _ _ (by simp [opcodeNat])
  all_goals
    refine toNat_append_eq _ _ ?_
    simp only [toNat_append, toNat_r3, toNat_ss, toNat_zz, toNat_s1, toNat_modeBits, toNat_regBits, toNat_ea6,
      toNat_cccc, toNat_qqq, toNat_dispBits, Count.code_eq, BitVec.toNat_ofBool, BitVec.reduceToNat, opcodeNat,
      Ea.dstField]
    omega

theorem opcodeWord_eq_of_toNat {i : Instr} {w : Word} (h : opcodeNat i = w.toNat) : opcodeWord i = w := by
  rw [opcodeWord, h, BitVec.ofNat_toNat, BitVec.setWidth_eq]

/-- R100, column by column. -/
theorem has_eq_mem_classesOf (m : EaMode) (c : EaClass) : c.has m = decide (c ∈ classesOf m) := by
  cases m <;> cases c <;> rfl

/-- Settles O50: the table of R100 entry by entry, and each pattern as a number. -/
theorem opcodeWordsFollowTheTable : Obligations.OpcodeWordsFollowTheTable :=
  ⟨has_eq_mem_classesOf, fun _ c => by cases c <;> rfl, fun i _ =>
    opcodeWord_eq_of_toNat (toNat_pattern i).symm⟩

/-- Settles O53 by running the decoder on the words. -/
theorem sampleWordsDecode : Obligations.SampleWordsDecode := by
  unfold Obligations.SampleWordsDecode
  and_intros <;> rfl

end Sys2Proof
end

/-! SUPPORT. Decoding the words of an admitted instruction: the decoder reads an opcode word through six fields, and
`opcode` lists them for every instruction. -/

section

namespace Sys2Proof

open Claims

/-! ### The fields of an opcode word that the decoder reads -/

/-- An opcode word cut into the fields that every line of the table is read by (R101, R102). -/
structure Opcode where
  /-- Bits 15:12. -/
  line : BitVec 4
  /-- Bits 11:9. -/
  x : BitVec 3
  /-- Bit 8. -/
  d : BitVec 1
  /-- Bits 7:6. -/
  s : BitVec 2
  /-- Bits 5:3. -/
  m : BitVec 3
  /-- Bits 2:0. -/
  r : BitVec 3

namespace Opcode

/-- The opcode word of the six fields. -/
def word (o : Opcode) : Word := o.line ++ o.x ++ o.d ++ o.s ++ o.m ++ o.r

theorem toNat_word (o : Opcode) : o.word.toNat =
    o.line.toNat * 4096 + o.x.toNat * 512 + o.d.toNat * 256 + o.s.toNat * 64 + o.m.toNat * 8 + o.r.toNat := by
  refine toNat_append_eq _ _ ?_
  simp only [toNat_append]
  omega

variable (o : Opcode)

@[simp] theorem field_line : field o.word 12 4 = o.line.toNat := by rw [field, toNat_word]; omega

@[simp] theorem field_x : field o.word 9 3 = o.x.toNat := by rw [field, toNat_word]; omega

@[simp] theorem field_s : field o.word 6 2 = o.s.toNat := by rw [field, toNat_word]; omega

@[simp] theorem field_m : field o.word 3 3 = o.m.toNat := by rw [field, toNat_word]; omega

@[simp] theorem field_r : field o.word 0 3 = o.r.toNat := by rw [field, toNat_word]; omega

/-- `zz` of MOVE. -/
@[simp] theorem field_zz : field o.word 12 2 = o.line.toNat % 4 := by rw [field, toNat_word]; omega

/-- Bits 8:6. -/
@[simp] theorem field_ds : field o.word 6 3 = o.d.toNat * 4 + o.s.toNat := by rw [field, toNat_word]; omega

/-- Bits 11:8. -/
theorem field_xd : field o.word 8 4 = o.x.toNat * 2 + o.d.toNat := by rw [field, toNat_word]; omega

/-- Bits 7:3. -/
@[simp] theorem field_sm : field o.word 3 5 = o.s.toNat * 8 + o.m.toNat := by rw [field, toNat_word]; omega

@[simp] theorem bit_d : bit o.word 8 = (o.d.toNat == 1) := by
  rw [bit, field, toNat_word]; congr 1; omega

@[simp] theorem bit_size : bit o.word 6 = (o.s.toNat % 2 == 1) := by
  rw [bit, field, toNat_word]; congr 1; omega

@[simp] theorem bit_kind : bit o.word 5 = (o.m.toNat / 4 == 1) := by
  rw [bit, field, toNat_word]; congr 1; omega

@[simp] theorem bit_mem : bit o.word 3 = (o.m.toNat % 2 == 1) := by
  rw [bit, field, toNat_word]; congr 1; omega

@[simp] theorem regField_x : regField o.word 9 = o.x.toFin := Fin.ext o.field_x

@[simp] theorem regField_r : regField o.word 0 = o.r.toFin := Fin.ext o.field_r

end Opcode

/-- Bits 7:0 are the byte `b`. -/
abbrev Opcode.ofByte (line : BitVec 4) (x : BitVec 3) (d : BitVec 1) (b : Byte) : Opcode :=
  ⟨line, x, d, b.extractLsb' 6 2, b.extractLsb' 3 3, b.extractLsb' 0 3⟩

/-- The fields of an instruction's opcode word; those of a condition, a displacement or a byte are cut at the field
boundaries. -/
def opcode : Instr → Opcode
  | .oriCcr _ => ⟨0, 0, 0, 0, 7, 4⟩
  | .ori sz _ ea => ⟨0, 0, 0, ss sz, modeBits ea, regBits ea⟩
  | .andiCcr _ => ⟨0, 1, 0, 0, 7, 4⟩
  | .andi sz _ ea => ⟨0, 1, 0, ss sz, modeBits ea, regBits ea⟩
  | .subi sz _ ea => ⟨0, 2, 0, ss sz, modeBits ea, regBits ea⟩
  | .addi sz _ ea => ⟨0, 3, 0, ss sz, modeBits ea, regBits ea⟩
  | .btstImm _ ea => ⟨0, 4, 0, 0, modeBits ea, regBits ea⟩
  | .bchgImm _ ea => ⟨0, 4, 0, 1, modeBits ea, regBits ea⟩
  | .bclrImm _ ea => ⟨0, 4, 0, 2, modeBits ea, regBits ea⟩
  | .bsetImm _ ea => ⟨0, 4, 0, 3, modeBits ea, regBits ea⟩
  | .eoriCcr _ => ⟨0, 5, 0, 0, 7, 4⟩
  | .eori sz _ ea => ⟨0, 5, 0, ss sz, modeBits ea, regBits ea⟩
  | .cmpi sz _ ea => ⟨0, 6, 0, ss sz, modeBits ea, regBits ea⟩
  | .btstDn dn ea => ⟨0, r3 dn, 1, 0, modeBits ea, regBits ea⟩
  | .bchgDn dn ea => ⟨0, r3 dn, 1, 1, modeBits ea, regBits ea⟩
  | .bclrDn dn ea => ⟨0, r3 dn, 1, 2, modeBits ea, regBits ea⟩
  | .bsetDn dn ea => ⟨0, r3 dn, 1, 3, modeBits ea, regBits ea⟩
  | .move sz src dst => ⟨0#2 ++ zz sz, regBits dst, (modeBits dst).extractLsb' 2 1, (modeBits dst).extractLsb' 0 2,
    modeBits src, regBits src⟩
  | .movea sz src an => ⟨0#2 ++ zz sz, r3 an, 0, 1, modeBits src, regBits src⟩
  | .negx sz ea => ⟨4, 0, 0, ss sz, modeBits ea, regBits ea⟩
  | .clr sz ea => ⟨4, 1, 0, ss sz, modeBits ea, regBits ea⟩
  | .neg sz ea => ⟨4, 2, 0, ss sz, modeBits ea, regBits ea⟩
  | .moveToCcr ea => ⟨4, 2, 0, 3, modeBits ea, regBits ea⟩
  | .not sz ea => ⟨4, 3, 0, ss sz, modeBits ea, regBits ea⟩
  | .swap dn => ⟨4, 4, 0, 1, 0, r3 dn⟩
  | .pea ea => ⟨4, 4, 0, 1, modeBits ea, regBits ea⟩
  | .ext sz dn => ⟨4, 4, 0, 1#1 ++ s1 sz, 0, r3 dn⟩
  | .movemToMem sz _ ea => ⟨4, 4, 0, 1#1 ++ s1 sz, modeBits ea, regBits ea⟩
  | .tst sz ea => ⟨4, 5, 0, ss sz, modeBits ea, regBits ea⟩
  | .movemToRegs sz _ ea => ⟨4, 6, 0, 1#1 ++ s1 sz, modeBits ea, regBits ea⟩
  | .trap v => ⟨4, 7, 0, 1, BitVec.ofNat 3 (v.val / 8), BitVec.ofNat 3 v.val⟩
  | .link an _ => ⟨4, 7, 0, 1, 2, r3 an⟩
  | .unlk an => ⟨4, 7, 0, 1, 3, r3 an⟩
  | .nop => ⟨4, 7, 0, 1, 6, 1⟩
  | .rts => ⟨4, 7, 0, 1, 6, 5⟩
  | .rtr => ⟨4, 7, 0, 1, 6, 7⟩
  | .jsr ea => ⟨4, 7, 0, 2, modeBits ea, regBits ea⟩
  | .jmp ea => ⟨4, 7, 0, 3, modeBits ea, regBits ea⟩
  | .lea ea an => ⟨4, r3 an, 1, 3, modeBits ea, regBits ea⟩
  | .addq sz q ea => ⟨5, qqq q, 0, ss sz, modeBits ea, regBits ea⟩
  | .subq sz q ea => ⟨5, qqq q, 1, ss sz, modeBits ea, regBits ea⟩
  | .dbcc k dn _ => ⟨5, (cccc k).extractLsb' 1 3, (cccc k).extractLsb' 0 1, 3, 1, r3 dn⟩
  | .scc k ea => ⟨5, (cccc k).extractLsb' 1 3, (cccc k).extractLsb' 0 1, 3, modeBits ea, regBits ea⟩
  | .bra d => Opcode.ofByte 6 0 0 (dispBits d)
  | .bsr d => Opcode.ofByte 6 0 1 (dispBits d)
  | .bcc k d => Opcode.ofByte 6 ((cccc k).extractLsb' 1 3) ((cccc k).extractLsb' 0 1) (dispBits d)
  | .moveq imm dn => Opcode.ofByte 7 (r3 dn) 0 imm
  | .divu ea dn => ⟨8, r3 dn, 0, 3, modeBits ea, regBits ea⟩
  | .divs ea dn => ⟨8, r3 dn, 1, 3, modeBits ea, regBits ea⟩
  | .orEaDn sz ea dn => ⟨8, r3 dn, 0, ss sz, modeBits ea, regBits ea⟩
  | .orDnEa sz dn ea => ⟨8, r3 dn, 1, ss sz, modeBits ea, regBits ea⟩
  | .suba sz ea an => ⟨9, r3 an, s1 sz, 3, modeBits ea, regBits ea⟩
  | .subx sz m y x => ⟨9, r3 x, 1, ss sz, 0#2 ++ BitVec.ofBool m, r3 y⟩
  | .subEaDn sz ea dn => ⟨9, r3 dn, 0, ss sz, modeBits ea, regBits ea⟩
  | .subDnEa sz dn ea => ⟨9, r3 dn, 1, ss sz, modeBits ea, regBits ea⟩
  | .cmpa sz ea an => ⟨11, r3 an, s1 sz, 3, modeBits ea, regBits ea⟩
  | .cmpm sz y x => ⟨11, r3 x, 1, ss sz, 1, r3 y⟩
  | .cmp sz ea dn => ⟨11, r3 dn, 0, ss sz, modeBits ea, regBits ea⟩
  | .eor sz dn ea => ⟨11, r3 dn, 1, ss sz, modeBits ea, regBits ea⟩
  | .mulu ea dn => ⟨12, r3 dn, 0, 3, modeBits ea, regBits ea⟩
  | .muls ea dn => ⟨12, r3 dn, 1, 3, modeBits ea, regBits ea⟩
  | .exgDD x y => ⟨12, r3 x, 1, 1, 0, r3 y⟩
  | .exgAA x y => ⟨12, r3 x, 1, 1, 1, r3 y⟩
  | .exgDA x y => ⟨12, r3 x, 1, 2, 1, r3 y⟩
  | .andEaDn sz ea dn => ⟨12, r3 dn, 0, ss sz, modeBits ea, regBits ea⟩
  | .andDnEa sz dn ea => ⟨12, r3 dn, 1, ss sz, modeBits ea, regBits ea⟩
  | .adda sz ea an => ⟨13, r3 an, s1 sz, 3, modeBits ea, regBits ea⟩
  | .addx sz m y x => ⟨13, r3 x, 1, ss sz, 0#2 ++ BitVec.ofBool m, r3 y⟩
  | .addEaDn sz ea dn => ⟨13, r3 dn, 0, ss sz, modeBits ea, regBits ea⟩
  | .addDnEa sz dn ea => ⟨13, r3 dn, 1, ss sz, modeBits ea, regBits ea⟩
  | .asrReg sz cnt dn => ⟨14, countBits cnt, 0, ss sz, countKind cnt ++ 0#2, r3 dn⟩
  | .aslReg sz cnt dn => ⟨14, countBits cnt, 1, ss sz, countKind cnt ++ 0#2, r3 dn⟩
  | .lsrReg sz cnt dn => ⟨14, countBits cnt, 0, ss sz, countKind cnt ++ 1#2, r3 dn⟩
  | .lslReg sz cnt dn => ⟨14, countBits cnt, 1, ss sz, countKind cnt ++ 1#2, r3 dn⟩
  | .roxrReg sz cnt dn => ⟨14, countBits cnt, 0, ss sz, countKind cnt ++ 2#2, r3 dn⟩
  | .roxlReg sz cnt dn => ⟨14, countBits cnt, 1, ss sz, countKind cnt ++ 2#2, r3 dn⟩
  | .rorReg sz cnt dn => ⟨14, countBits cnt, 0, ss sz, countKind cnt ++ 3#2, r3 dn⟩
  | .rolReg sz cnt dn => ⟨14, countBits cnt, 1, ss sz, countKind cnt ++ 3#2, r3 dn⟩
  | .asrMem ea => ⟨14, 0, 0, 3, modeBits ea, regBits ea⟩
  | .aslMem ea => ⟨14, 0, 1, 3, modeBits ea, regBits ea⟩
  | .lsrMem ea => ⟨14, 1, 0, 3, modeBits ea, regBits ea⟩
  | .lslMem ea => ⟨14, 1, 1, 3, modeBits ea, regBits ea⟩
  | .roxrMem ea => ⟨14, 2, 0, 3, modeBits ea, regBits ea⟩
  | .roxlMem ea => ⟨14, 2, 1, 3, modeBits ea, regBits ea⟩
  | .rorMem ea => ⟨14, 3, 0, 3, modeBits ea, regBits ea⟩
  | .rolMem ea => ⟨14, 3, 1, 3, modeBits ea, regBits ea⟩

theorem toNat_word_opcode (i : Instr) : (opcode i).word.toNat = opcodeNat i := by
  cases i
  all_goals
    simp only [Opcode.toNat_word, opcode, toNat_append, toNat_ss, toNat_zz, toNat_s1, toNat_r3, toNat_modeBits,
      toNat_regBits, toNat_qqq, toNat_cccc, toNat_dispBits, Count.code_eq, opcodeNat, Ea.field, Ea.dstField,
      BitVec.toNat_ofBool, BitVec.extractLsb'_toNat, BitVec.toNat_ofNat, BitVec.reduceToNat, Nat.shiftRight_eq_div_pow]
  case move sz src dst => have := dst.mode.m_lt; omega
  case dbcc k _ _ | scc k _ => have := k.code_lt; omega
  case bra d | bsr d => have := d.code_lt; omega
  case bcc k d => have := k.code_lt; have := d.code_lt; omega
  all_goals omega

theorem opcodeWord_eq_word (i : Instr) : opcodeWord i = (opcode i).word :=
  opcodeWord_eq_of_toNat (toNat_word_opcode i).symm

/-! ### The shapes of operand fields -/

@[simp] theorem toFin_r3 (n : RegNum) : (r3 n).toFin = n := Fin.ext (toNat_r3 n)

section
variable {l : BitVec 4} {x : BitVec 3} {d : BitVec 1} {s : BitVec 2} {m r : BitVec 3} {rest : List Word}
variable {c : EaClass} {sz : Size} {ea : Ea}

/-- The operand of bits 5:0 passes the check of the opcode word. -/
theorem checkEa_word {k : EaMode → DecodeResult} (h : ea.ok c sz = true) {o : Opcode}
    (hm : o.m = modeBits ea) (hr : o.r = regBits ea) :
    checkEa o.word (field o.word 3 3) (regField o.word 0) c sz k = k ea.mode := by
  rw [Opcode.field_m, Opcode.regField_r, hm, hr, toNat_modeBits, checkEa_ok h (toNat_regBits ea)]

@[simp] theorem withEa_word {k : Ea → Instr} (h : ea.ok c sz = true) :
    withEa (Opcode.word ⟨l, x, d, s, modeBits ea, regBits ea⟩) c sz (ea.ext sz ++ rest) k = .ok (k ea, rest) := by
  rw [withEa, checkEa_word h rfl rfl, takeEa_ext _ _ _ h]

@[simp] theorem withSize_word {k : Size → DecodeResult} : withSize (Opcode.word ⟨l, x, d, ss sz, m, r⟩) k = k sz := by
  rw [withSize, Opcode.field_s, toNat_ss, sizeOfSs_ss]

@[simp] theorem withSizedEa_word {k : Size → Ea → Instr} (h : ea.ok c sz = true) :
    withSizedEa (Opcode.word ⟨l, x, d, ss sz, modeBits ea, regBits ea⟩) c (ea.ext sz ++ rest) k =
      .ok (k sz ea, rest) := by
  rw [withSizedEa, withSize_word, withEa_word h]

@[simp] theorem withImmEa_word {v : Long} {k : Size → Long → Ea → Instr} (hv : immOk sz v = true)
    (h : ea.ok .dataAlterable sz = true) :
    withImmEa (Opcode.word ⟨l, x, d, ss sz, modeBits ea, regBits ea⟩) (immWords sz v ++ (ea.ext sz ++ rest)) k =
      .ok (k sz v ea, rest) := by
  rw [withImmEa, withSize_word, checkEa_word h rfl rfl, takeImm_words _ _ hv, takeEa_ext _ _ _ h]

@[simp] theorem withOwnEa_word {v : Word} {k : Word → Ea → Instr} (h : ea.ok c sz = true) :
    withOwnEa (Opcode.word ⟨l, x, d, s, modeBits ea, regBits ea⟩) c sz (v :: (ea.ext sz ++ rest)) k =
      .ok (k v ea, rest) := by
  rw [withOwnEa, checkEa_word h rfl rfl, takeWord, takeEa_ext _ _ _ h]

theorem toNat_word_ofByte (b : Byte) : (Opcode.ofByte l x d b).word.toNat % 256 = b.toNat := by
  have := b.isLt
  simp only [Opcode.toNat_word, BitVec.extractLsb'_toNat, Nat.shiftRight_eq_div_pow]
  omega

@[simp] theorem setWidth_ofByte (b : Byte) : (Opcode.ofByte l x d b).word.setWidth 8 = b :=
  BitVec.eq_of_toNat_eq ((BitVec.toNat_setWidth _ _).trans (toNat_word_ofByte b))

@[simp] theorem withDisp_word {e : Disp} {k : Disp → Instr} (h : e.ok = true) :
    withDisp (Opcode.ofByte l x d (dispBits e)).word (e.ext ++ rest) k = .ok (k e, rest) := by
  have hf : field (Opcode.ofByte l x d (dispBits e)).word 0 8 = (dispBits e).toNat := by
    rw [field, pow_zero, Nat.div_one]
    exact toNat_word_ofByte _
  rw [withDisp, hf, BitVec.ofNat_toNat, BitVec.setWidth_eq]
  cases e with
  | short b => exact if_neg fun hb => bne_iff_ne.mp h (BitVec.eq_of_toNat_eq hb)
  | long b => rfl

/-- The condition of DBcc, Scc and Bcc (R290). -/
@[simp] theorem field_cond (k : Cond) :
    field (Opcode.word ⟨l, (cccc k).extractLsb' 1 3, (cccc k).extractLsb' 0 1, s, m, r⟩) 8 4 = k.code := by
  have := k.code_lt
  simp only [Opcode.field_xd, BitVec.extractLsb'_toNat, toNat_cccc, Nat.shiftRight_eq_div_pow]
  omega

/-- The type of a register shift (R261). -/
@[simp] theorem field_type (k : BitVec 1) (t : BitVec 2) :
    field (Opcode.word ⟨l, x, d, s, k ++ t, r⟩) 3 2 = t.toNat := by
  rw [field, Opcode.toNat_word, toNat_append]
  omega

theorem countOf_word {n : Count} {t : BitVec 2} (h : n.ok = true) :
    countOf (Opcode.word ⟨l, countBits n, d, s, countKind n ++ t, r⟩) = n := by
  have := t.isLt
  rw [countOf, Opcode.bit_kind, toNat_append]
  cases n with
  | imm q =>
    rw [if_neg (by simp [countKind]; omega), Opcode.field_x, countBits, toNat_qqq, quickOf_quickCode h]
  | reg n =>
    rw [if_pos (by simp [countKind]; omega), Opcode.regField_x, countBits, toFin_r3]

/-- A data alterable operand is not the immediate that selects the forms of ORI, ANDI and EORI on the CCR. -/
theorem word_ne_ccr (h : ea.ok .dataAlterable sz = true) {w : Word} (hw : w.toNat % 64 = 60) :
    Opcode.word ⟨l, x, d, s, modeBits ea, regBits ea⟩ ≠ w := by
  rintro rfl
  have := ea.mode.m_lt
  have := ea.mode.r_lt
  refine (m_of_dataAlterable h).2 ?_
  simp only [Opcode.toNat_word, toNat_modeBits, toNat_regBits] at hw
  omega

end

/-! ### Decoding the words of an instruction -/

@[simp] theorem ss_ne_three (sz : Size) : sz.ss ≠ 3 := sz.ss_lt.ne

/-- The decoder reads `i` from the fields of its opcode word and the words of its operands. -/
def Decodes (i : Instr) : Prop :=
  ∀ rest, decodeOpcode (opcode i).word (ownExt i ++ (eaExt i ++ rest)) = .ok (i, rest)

/-- MOVE and MOVEA are the instructions of lines 1 to 3. -/
theorem decodeOpcode_zz {sz : Size} {x : BitVec 3} {d : BitVec 1} {s : BitVec 2} {m r : BitVec 3} {ws : List Word} :
    decodeOpcode (Opcode.word ⟨0#2 ++ zz sz, x, d, s, m, r⟩) ws =
      decodeMove (Opcode.word ⟨0#2 ++ zz sz, x, d, s, m, r⟩) ws := by
  rw [decodeOpcode, Opcode.field_line]
  cases sz <;> rfl

theorem sizeOfZz_field {sz : Size} {x : BitVec 3} {d : BitVec 1} {s : BitVec 2} {m r : BitVec 3} :
    sizeOfZz (field (Opcode.word ⟨0#2 ++ zz sz, x, d, s, m, r⟩) 12 2) = some sz := by
  rw [Opcode.field_zz]
  cases sz <;> rfl

theorem decodes_movea {sz : Size} {src : Ea} (an : RegNum) (hw : sz.isWL = true) (hs : src.ok .all sz = true) :
    Decodes (.movea sz src an) := by
  intro rest
  have hm : field (opcode (.movea sz src an)).word 6 3 = 1 := Opcode.field_ds _
  rw [opcode] at hm ⊢
  rw [decodeOpcode_zz, decodeMove, sizeOfZz_field]
  dsimp only
  rw [checkEa_word hs rfl rfl, if_pos hm, if_pos hw, Opcode.regField_x, toFin_r3]
  exact takeEa_ext _ _ _ hs _ _

theorem decodes_move {sz : Size} {src dst : Ea} (hs : src.ok .all sz = true) (hd : dst.ok .dataAlterable sz = true) :
    Decodes (.move sz src dst) := by
  intro rest
  have hm : field (opcode (.move sz src dst)).word 6 3 = dst.mode.m := by
    have := dst.mode.m_lt
    simp only [opcode, Opcode.field_ds, BitVec.extractLsb'_toNat, toNat_modeBits, Nat.shiftRight_eq_div_pow]
    omega
  rw [opcode] at hm ⊢
  rw [decodeOpcode_zz, decodeMove, sizeOfZz_field]
  dsimp only
  rw [checkEa_word hs rfl rfl, hm, if_neg (m_of_dataAlterable hd).1, Opcode.regField_x,
    checkEa_ok hd (toNat_regBits dst), ownExt, eaExt, List.nil_append, List.append_assoc, takeEa_ext _ _ _ hs,
    takeEa_ext _ _ _ hd]

theorem eq_w_or_l {sz : Size} (h : sz.isWL = true) : sz = .w ∨ sz = .l := by
  cases sz
  · cases h
  · exact .inl rfl
  · exact .inr rfl

/-- The conditions of Bcc are those that are not the codes of BRA and BSR (R297). -/
theorem exists_code_of_branchOk {k : Cond} (h : k.branchOk = true) : ∃ n, k.code = n + 2 := by
  cases k
  case t | f => cases h
  all_goals exact ⟨_, rfl⟩

/-- Every admitted instruction, line by line of R102: its fixed fields choose the branch of the decoder, and its class
excludes the instructions that share the branch. -/
theorem decodes (i : Instr) (h : i.wf = true) : Decodes i := by
  cases i
  all_goals simp only [Instr.wf, Bool.and_eq_true] at h
  -- Lines 1 to 3
  case move sz src dst => exact decodes_move h.1 h.2
  case movea sz src an => exact decodes_movea an h.1 h.2
  all_goals
    intro rest
    simp only [opcode, ownExt, eaExt, decodeOpcode, Opcode.field_line, BitVec.reduceToNat, List.nil_append]
  -- Line 0
  case oriCcr v | andiCcr v | eoriCcr v =>
    refine congrArg (fun v => Except.ok (_, rest)) (?_ : (v.setWidth 16).setWidth 5 = v)
    simp
  case ori sz v ea | andi sz v ea | eori sz v ea =>
    simp [decodeLine0, h, word_ne_ccr h.2]
  case subi sz v ea | addi sz v ea | cmpi sz v ea =>
    simp [decodeLine0, h]
  case btstImm n ea | bchgImm n ea | bclrImm n ea | bsetImm n ea =>
    simp [decodeLine0, decodeBitStatic, h]
  case btstDn dn ea | bchgDn dn ea | bclrDn dn ea | bsetDn dn ea =>
    simp [decodeLine0, decodeBitDyn, h]
  -- Line 4
  case negx sz ea | clr sz ea | neg sz ea | not sz ea | tst sz ea | moveToCcr ea | lea ea an | jsr ea | jmp ea =>
    simp [decodeLine4, h]
  case swap dn =>
    simp [decodeLine4, decodeLine48]
  case pea ea =>
    have hm : ea.mode.m ≠ 0 := by have := two_le_m (.inr (.inl h)); omega
    simp [decodeLine4, decodeLine48, h, hm]
  case ext sz dn =>
    obtain rfl | rfl := eq_w_or_l h <;> simp [decodeLine4, decodeLine48, s1, sizeOfBit]
  case movemToMem sz mask ea =>
    have hm : ea.mode.m ≠ 0 := by have := two_le_m (.inr (.inr h.2)); omega
    obtain rfl | rfl := eq_w_or_l h.1 <;> simp [decodeLine4, decodeLine48, s1, sizeOfBit, h, hm]
  case movemToRegs sz mask ea =>
    obtain rfl | rfl := eq_w_or_l h.1 <;> simp [decodeLine4, s1, sizeOfBit, h]
  case trap v => fin_cases v <;> rfl
  case link | unlk | nop | rts | rtr =>
    simp [decodeLine4, decodeLine4E4, takeWord]
  -- Line 5
  case addq sz q ea | subq sz q ea =>
    simp [decodeLine5, h, quickOf_quickCode]
  case dbcc k dn v =>
    simp [decodeLine5, takeWord]
  case scc k ea =>
    simp [decodeLine5, h, (m_of_dataAlterable h).1]
  -- Lines 6 and 7
  case bra e | bsr e =>
    simp [decodeLine6, Opcode.field_xd, h]
  case bcc k e =>
    obtain ⟨n, hn⟩ := exists_code_of_branchOk h.1
    have hk : condOf (n + 2) = k := hn ▸ condOf_code k
    simp [decodeLine6, h, hn, hk]
  case moveq imm dn =>
    simp [decodeLine7]
  -- Lines 8 and C
  case divu ea dn | divs ea dn | mulu ea dn | muls ea dn =>
    simp [decodeLine8, decodeLineC, h]
  case orEaDn sz ea dn | andEaDn sz ea dn =>
    cases sz <;> simp [decodeLine8, decodeLineC, h, Size.ss]
  case orDnEa sz dn ea | andDnEa sz dn ea =>
    have hm := (two_le_m (.inl h)).not_gt
    cases sz <;> simp [decodeLine8, decodeLineC, h, Size.ss, hm]
  case exgDD | exgAA | exgDA =>
    simp [decodeLineC, decodeExg]
  -- Lines 9, B and D
  case suba sz ea an | cmpa sz ea an | adda sz ea an =>
    simp [decodeLine9, decodeLineB, decodeLineD, h, sizeOfBit_code]
  case subx sz mem y x | addx sz mem y x =>
    cases mem <;> simp [decodeLine9, decodeLineD, withXPair]
  case subEaDn sz ea dn | cmp sz ea dn | addEaDn sz ea dn =>
    simp [decodeLine9, decodeLineB, decodeLineD, h]
  case subDnEa sz dn ea | addDnEa sz dn ea =>
    have hm := Nat.not_le.mpr (two_le_m (.inl h))
    simp [decodeLine9, decodeLineD, h, hm]
  case cmpm sz y x =>
    simp [decodeLineB]
  case eor sz dn ea =>
    simp [decodeLineB, h, (m_of_dataAlterable h).1]
  -- Line E
  case asrReg sz cnt dn | aslReg sz cnt dn | lsrReg sz cnt dn | lslReg sz cnt dn | roxrReg sz cnt dn
      | roxlReg sz cnt dn | rorReg sz cnt dn | rolReg sz cnt dn =>
    simp [decodeLineE, decodeShiftReg, countOf_word h]
  case asrMem ea | aslMem ea | lsrMem ea | lslMem ea | roxrMem ea | roxlMem ea | rorMem ea | rolMem ea =>
    simp [decodeLineE, decodeShiftMem, h]

/-- Settles O51: the words of an instruction are its opcode word, cut into fields, and the words of its operands. -/
theorem decodeOfEncodeIsTheInstruction : Obligations.DecodeOfEncodeIsTheInstruction := by
  intro i rest h
  rw [encode, List.cons_append, decode, opcodeWord_eq_word, List.append_assoc]
  exact decodes i h rest

end Sys2Proof
end

/-! SUPPORT. The opcode word of a decoded instruction is the word it was read from (R102). -/

section

namespace Sys2Proof

open Claims

/-! ### From fields back to codes (R92, R93, R97, R290) -/

@[simp] theorem val_regField (w : Word) (lo : Nat) : (regField w lo).val = field w lo 3 := rfl

theorem ss_of_sizeOfSs {n : Nat} {sz : Size} (h : sizeOfSs n = some sz) : sz.ss = n := by
  unfold sizeOfSs at h
  split at h <;> cases h <;> rfl

theorem zz_of_sizeOfZz {n : Nat} {sz : Size} (h : sizeOfZz n = some sz) : sz.zz = n := by
  unfold sizeOfZz at h
  split at h <;> cases h <;> rfl

theorem code_condOf {n : Nat} (h : n < 16) : (condOf n).code = n := by
  interval_cases n <;> rfl

theorem quickCode_quickOf {n : Nat} (h : n < 8) : quickCode (quickOf n) = n := by
  unfold quickCode quickOf
  split <;> omega

theorem mode_of_eaModeOf {m : Nat} {r : RegNum} {md : EaMode} (hm : m < 8) (h : eaModeOf m r = some md) :
    md.m = m ∧ md.r = r.val := by
  match m, hm with
  | 0, _ | 1, _ | 2, _ | 3, _ | 4, _ | 5, _ | 6, _ => cases h; exact ⟨rfl, rfl⟩
  | 7, _ =>
    simp only [eaModeOf] at h
    split at h <;> cases h <;> exact ⟨rfl, Eq.symm ‹_›⟩

theorem bit_cases (w : Word) (i : Nat) : (bit w i = true ∧ field w i 1 = 1) ∨ (bit w i = false ∧ field w i 1 = 0) := by
  have h := field_lt w i 1
  rw [bit]
  interval_cases field w i 1
  · exact .inr ⟨rfl, rfl⟩
  · exact .inl ⟨rfl, rfl⟩

@[simp] theorem toNat_bit (w : Word) (i : Nat) : (bit w i).toNat = field w i 1 := by
  obtain ⟨hb, hf⟩ | ⟨hb, hf⟩ := bit_cases w i <;> rw [hb, hf] <;> rfl

@[simp] theorem bitCode_sizeOfBit (b : Bool) : (sizeOfBit b).bitCode = b.toNat := by cases b <;> rfl

@[simp] theorem code_countOf (w : Word) : (countOf w).code = field w 9 3 * 512 + field w 5 1 * 32 := by
  obtain ⟨hb, hf⟩ | ⟨hb, hf⟩ := bit_cases w 5
  · rw [countOf, if_pos hb, hf, Count.code, val_regField]
  · rw [countOf, if_neg (by simp [hb]), hf, Count.code, quickCode_quickOf (field_lt w 9 3), Nat.zero_mul, Nat.add_zero]

/-! ### Fields that overlap -/

/-- A field is its high part and its low part. -/
theorem field_split (w : Word) (lo a b : Nat) : field w lo (a + b) = field w (lo + a) b * 2 ^ a + field w lo a := by
  rw [field, field, field, Nat.pow_add, Nat.mod_mul, Nat.div_div_eq_div_mul, ← Nat.pow_add, Nat.mul_comm, Nat.add_comm]

theorem field_byte (w : Word) : field w 0 8 = field w 6 2 * 64 + field w 3 3 * 8 + field w 0 3 := by
  simp only [field]
  omega

theorem toNat_eq_fields (w : Word) : w.toNat = field w 12 4 * 4096 + field w 9 3 * 512 + field w 8 1 * 256 +
    field w 6 2 * 64 + field w 3 3 * 8 + field w 0 3 := by
  simp only [field]
  omega

/-! ### The opcode word of what is read -/

/-- An instruction that the decoding reads has the opcode word `w`. -/
def Spells (w : Word) (r : DecodeResult) : Prop := ∀ i rest, r = .ok (i, rest) → opcodeNat i = w.toNat

namespace Spells
variable {w : Word} {ws : List Word}

theorem error {e : DecodeError} : Spells w (.error e) := by rintro _ _ ⟨⟩

theorem ok {i : Instr} (h : opcodeNat i = w.toNat) : Spells w (.ok (i, ws)) := by rintro _ _ ⟨⟩; exact h

theorem ite {p : Prop} [Decidable p] {D E : DecodeResult} (h : p → Spells w D) (g : ¬p → Spells w E) :
    Spells w (if p then D else E) := by split <;> [exact h ‹_›; exact g ‹_›]

theorem iteBit {i : Nat} {D E : DecodeResult} (h : field w i 1 = 1 → Spells w D) (g : field w i 1 = 0 → Spells w E) :
    Spells w (if bit w i then D else E) := by
  obtain ⟨hb, hf⟩ | ⟨hb, hf⟩ := bit_cases w i
  · rw [hb]; exact h hf
  · rw [hb]; exact g hf

theorem takeWord {k : Word → List Word → DecodeResult} (hk : ∀ x rest, Spells w (k x rest)) :
    Spells w (takeWord ws k) := by
  cases ws with
  | nil => exact error
  | cons x rest => exact hk x rest

theorem takeImm {sz : Size} {k : Long → List Word → DecodeResult} (hk : ∀ v rest, Spells w (k v rest)) :
    Spells w (takeImm sz ws k) := by
  cases sz with
  | b | w => exact takeWord fun _ _ => hk _ _
  | l => exact takeWord fun _ _ => takeWord fun _ _ => hk _ _

theorem takeEa {md : EaMode} {sz : Size} {k : Ea → List Word → DecodeResult}
    (hk : ∀ ea rest, ea.mode = md → Spells w (k ea rest)) : Spells w (takeEa md sz ws k) := by
  cases md
  case absL => exact takeWord fun _ _ => takeWord fun _ _ => hk (.absL _) _ rfl
  case imm => exact takeImm (k := fun v ws => k (.imm v) ws) fun _ _ => hk _ _ rfl
  case disp | index | absW | pcDisp | pcIndex => exact takeWord fun _ _ => hk _ _ rfl
  all_goals exact hk _ _ rfl

theorem checkEa {m : Nat} {r : RegNum} {c : EaClass} {sz : Size} {k : EaMode → DecodeResult} (hm : m < 8)
    (hk : ∀ md, md.m = m → md.r = r.val → Spells w (k md)) : Spells w (checkEa w m r c sz k) := by
  unfold Sys2Proof.checkEa
  split
  next md h =>
    obtain ⟨h1, h2⟩ := mode_of_eaModeOf hm h
    split <;> [exact hk md h1 h2; exact error]
  · exact error

theorem withSize {k : Size → DecodeResult} (hk : ∀ sz, sz.ss = field w 6 2 → Spells w (k sz)) :
    Spells w (withSize w k) := by
  unfold Sys2Proof.withSize
  split
  next sz h => exact hk sz (ss_of_sizeOfSs h)
  · exact error

/-- The operand of bits 5:0. -/
theorem operand {c : EaClass} {sz : Size} {k : EaMode → DecodeResult}
    (hk : ∀ md, md.m * 8 + md.r = field w 3 3 * 8 + field w 0 3 → Spells w (k md)) :
    Spells w (Sys2Proof.checkEa w (field w 3 3) (regField w 0) c sz k) :=
  checkEa (field_lt w 3 3) fun md hm hr => hk md (by rw [hm, hr, val_regField])

theorem withEa {c : EaClass} {sz : Size} {k : Ea → Instr}
    (hk : ∀ ea, ea.field = field w 3 3 * 8 + field w 0 3 → opcodeNat (k ea) = w.toNat) :
    Spells w (withEa w c sz ws k) :=
  operand fun _ h => takeEa fun ea _ he => ok (hk ea (by rw [Ea.field, he, h]))

theorem withSizedEa {c : EaClass} {k : Size → Ea → Instr}
    (hk : ∀ sz ea, sz.ss = field w 6 2 → ea.field = field w 3 3 * 8 + field w 0 3 → opcodeNat (k sz ea) = w.toNat) :
    Spells w (withSizedEa w c ws k) :=
  withSize fun sz hs => withEa fun ea => hk sz ea hs

theorem withImmEa {k : Size → Long → Ea → Instr}
    (hk : ∀ sz v ea, sz.ss = field w 6 2 → ea.field = field w 3 3 * 8 + field w 0 3 → opcodeNat (k sz v ea) = w.toNat) :
    Spells w (withImmEa w ws k) :=
  withSize fun sz hs => operand fun _ h => takeImm fun v _ => takeEa fun ea _ he =>
    ok (hk sz v ea hs (by rw [Ea.field, he, h]))

theorem withOwnEa {c : EaClass} {sz : Size} {k : Word → Ea → Instr}
    (hk : ∀ x ea, ea.field = field w 3 3 * 8 + field w 0 3 → opcodeNat (k x ea) = w.toNat) :
    Spells w (withOwnEa w c sz ws k) :=
  operand fun _ h => takeWord fun x _ => takeEa fun ea _ he => ok (hk x ea (by rw [Ea.field, he, h]))

theorem withDisp {k : Disp → Instr} (hk : ∀ d, d.code = field w 0 8 → opcodeNat (k d) = w.toNat) :
    Spells w (withDisp w ws k) := by
  unfold Sys2Proof.withDisp
  split
  next h => exact takeWord fun _ _ => ok (hk _ h.symm)
  · exact ok (hk _ (Nat.mod_eq_of_lt (field_lt w 0 8)))

/-! ### The lines (R102): the fields that the branches test and those that the operands hold make up the opcode word -/

theorem decodeBitDyn (hl : field w 12 4 = 0) (hd : field w 8 1 = 1) : Spells w (decodeBitDyn w ws) := by
  have hw := toNat_eq_fields w
  have hs4 := field_lt w 6 2
  unfold Sys2Proof.decodeBitDyn
  match hs : field w 6 2 with
  | 0 | 1 | 2 | _ + 3 =>
    refine withEa fun ea he => ?_
    simp only [opcodeNat, val_regField]
    omega

theorem decodeBitStatic (hl : field w 12 4 = 0) (hx : field w 9 3 = 4) (hd : field w 8 1 = 0) :
    Spells w (decodeBitStatic w ws) := by
  have hw := toNat_eq_fields w
  have hs4 := field_lt w 6 2
  unfold Sys2Proof.decodeBitStatic
  match hs : field w 6 2 with
  | 0 | 1 | 2 | _ + 3 =>
    refine withOwnEa fun x ea he => ?_
    simp only [opcodeNat]
    omega

theorem withCcrImm {k : BitVec 5 → Instr} {v : Word} (hk : ∀ x, opcodeNat (k x) = v.toNat) (hv : w = v) :
    Spells w (withCcrImm ws k) :=
  takeWord fun _ _ => ok (hv ▸ hk _)

theorem decodeLine0 (hl : field w 12 4 = 0) : Spells w (decodeLine0 w ws) := by
  have hw := toNat_eq_fields w
  refine iteBit (decodeBitDyn hl) fun hd => ?_
  match hx : field w 9 3 with
  | 0 | 1 | 5 =>
    refine ite (withCcrImm fun _ => rfl) fun _ => withImmEa fun sz v ea hs he => ?_
    simp only [opcodeNat]
    omega
  | 2 | 3 | 6 =>
    refine withImmEa fun sz v ea hs he => ?_
    simp only [opcodeNat]
    omega
  | 4 => exact decodeBitStatic hl hx hd
  | _ + 7 => exact error

theorem decodeMove (hl : field w 12 4 = field w 12 2) : Spells w (decodeMove w ws) := by
  have hw := toNat_eq_fields w
  unfold Sys2Proof.decodeMove
  split
  · exact error
  next sz hz =>
  have hzz := zz_of_sizeOfZz hz
  have h63 : field w 6 3 = field w 8 1 * 4 + field w 6 2 := field_split w 6 2 1
  refine operand fun src hsrc => ite (fun hm => ite (fun _ => ?movea) fun _ => error) fun _ =>
    checkEa (field_lt w 6 3) fun dst hm hr => ?move
  case movea =>
    refine takeEa fun ea _ he => ok ?_
    subst he
    simp only [opcodeNat, Ea.field, val_regField]
    omega
  case move =>
    refine takeEa fun s _ he => takeEa fun d _ hd => ok ?_
    subst he hd
    rw [val_regField] at hr
    simp only [opcodeNat, Ea.field, Ea.dstField]
    omega

theorem decodeLine48 (hl : field w 12 4 = 4) (hx : field w 9 3 = 4) (hd : field w 8 1 = 0) :
    Spells w (decodeLine48 w ws) := by
  have hw := toNat_eq_fields w
  have hs4 := field_lt w 6 2
  have h62 : field w 6 2 = field w 7 1 * 2 + field w 6 1 := field_split w 6 1 1
  have h61 := field_lt w 6 1
  unfold Sys2Proof.decodeLine48
  match hs : field w 6 2 with
  | 0 => exact error
  | 1 =>
    refine ite (fun hm => ok ?_) fun _ => withEa fun ea he => ?_
    all_goals simp only [opcodeNat, val_regField]; omega
  | _ + 2 =>
    refine ite (fun hm => ok ?_) fun _ => withOwnEa fun x ea he => ?_
    all_goals simp only [opcodeNat, val_regField, bitCode_sizeOfBit, toNat_bit]; omega

theorem decodeLine4E4 (hl : field w 12 4 = 4) (hx : field w 9 3 = 7) (hd : field w 8 1 = 0)
    (hs : field w 6 2 = 1) : Spells w (decodeLine4E4 w ws) := by
  have hw := toNat_eq_fields w
  have hr := field_lt w 0 3
  unfold Sys2Proof.decodeLine4E4
  match hm : field w 3 3 with
  | 0 | 1 | 3 =>
    refine ok ?_
    simp only [opcodeNat, val_regField, Fin.ofNat]
    omega
  | 2 =>
    refine takeWord fun x _ => ok ?_
    simp only [opcodeNat, val_regField]
    omega
  | 4 | 5 | _ + 7 => exact error
  | 6 =>
    match hr : field w 0 3 with
    | 1 | 5 | 7 =>
      refine ok ?_
      simp only [opcodeNat]
      omega
    | 0 | 2 | 3 | 4 | 6 | _ + 8 => exact error

theorem decodeLine4 (hl : field w 12 4 = 4) : Spells w (decodeLine4 w ws) := by
  have hw := toNat_eq_fields w
  have hx7 := field_lt w 9 3
  have hs4 := field_lt w 6 2
  have h62 : field w 6 2 = field w 7 1 * 2 + field w 6 1 := field_split w 6 1 1
  have h61 := field_lt w 6 1
  refine iteBit (fun hd => ite (fun hs => withEa fun ea he => ?_) fun _ => error) fun hd => ?_
  · simp only [opcodeNat, val_regField]; omega
  match hx : field w 9 3 with
  | 0 | 1 | 3 | 5 =>
    refine withSizedEa fun sz ea hs he => ?_
    simp only [opcodeNat]; omega
  | 2 =>
    refine ite (fun hs => withEa fun ea he => ?_) fun _ => withSizedEa fun sz ea hs he => ?_
    all_goals simp only [opcodeNat]; omega
  | 4 => exact decodeLine48 hl hx hd
  | 6 =>
    refine ite (fun _ => error) fun _ => withOwnEa fun x ea he => ?_
    simp only [opcodeNat, bitCode_sizeOfBit, toNat_bit]
    omega
  | _ + 7 =>
    match hs : field w 6 2 with
    | 0 => exact error
    | 1 => exact decodeLine4E4 hl (by omega) hd hs
    | 2 | _ + 3 =>
      refine withEa fun ea he => ?_
      simp only [opcodeNat]
      omega

theorem decodeLine5 (hl : field w 12 4 = 5) : Spells w (decodeLine5 w ws) := by
  have hw := toNat_eq_fields w
  have h84 : field w 8 4 = field w 9 3 * 2 + field w 8 1 := field_split w 8 1 3
  refine ite (fun hs => ite (fun hm => takeWord fun x _ => ok ?_) fun _ => withEa fun ea he => ?_) fun _ =>
    iteBit (fun hd => withSizedEa fun sz ea hs he => ?_) fun hd => withSizedEa fun sz ea hs he => ?_
  all_goals
    simp only [opcodeNat, val_regField, code_condOf (field_lt w 8 4), quickCode_quickOf (field_lt w 9 3)]
    omega

theorem decodeLine6 (hl : field w 12 4 = 6) : Spells w (decodeLine6 w ws) := by
  have hw := toNat_eq_fields w
  have h84 : field w 8 4 = field w 9 3 * 2 + field w 8 1 := field_split w 8 1 3
  have h08 := field_byte w
  unfold Sys2Proof.decodeLine6
  split
  all_goals
    refine withDisp fun d hd => ?_
    simp only [opcodeNat, code_condOf (field_lt w 8 4)]
    omega

theorem decodeLine7 (hl : field w 12 4 = 7) : Spells w (decodeLine7 w ws) := by
  have hw := toNat_eq_fields w
  refine iteBit (fun _ => error) fun hd => ok ?_
  have himm : (BitVec.ofNat 8 w.toNat).toNat = field w 0 8 := by rw [BitVec.toNat_ofNat, field, pow_zero, Nat.div_one]
  simp only [opcodeNat, val_regField, himm, field_byte]
  omega

theorem decodeLine8 (hl : field w 12 4 = 8) : Spells w (decodeLine8 w ws) := by
  have hw := toNat_eq_fields w
  have h63 : field w 6 3 = field w 8 1 * 4 + field w 6 2 := field_split w 6 2 1
  have hs4 := field_lt w 6 2
  unfold Sys2Proof.decodeLine8
  split
  case h_3 =>
    refine iteBit (fun hd => withSizedEa fun sz ea hs he => ?_) fun hd => withSizedEa fun sz ea hs he => ?_
    all_goals
      simp only [opcodeNat, val_regField]
      omega
  all_goals
    refine withEa fun ea he => ?_
    simp only [opcodeNat, val_regField]
    omega

theorem withXPair {k : Size → Bool → RegNum → RegNum → Instr} (hk : ∀ sz, sz.ss = field w 6 2 →
    opcodeNat (k sz (bit w 3) (regField w 0) (regField w 9)) = w.toNat) : Spells w (withXPair w ws k) :=
  withSize fun sz hs => ok (hk sz hs)

theorem decodeLine9 (hl : field w 12 4 = 9) : Spells w (decodeLine9 w ws) := by
  have hw := toNat_eq_fields w
  have h33 : field w 3 3 = field w 4 2 * 2 + field w 3 1 := field_split w 3 1 2
  refine ite (fun hs => withEa fun ea he => ?_) fun _ => iteBit (fun hd => ite (fun hm => withXPair fun sz hs => ?_)
    fun _ => withSizedEa fun sz ea hs he => ?_) fun hd => withSizedEa fun sz ea hs he => ?_
  all_goals
    simp only [opcodeNat, val_regField, bitCode_sizeOfBit, toNat_bit]
    omega

theorem decodeLineB (hl : field w 12 4 = 11) : Spells w (decodeLineB w ws) := by
  have hw := toNat_eq_fields w
  refine ite (fun hs => withEa fun ea he => ?_) fun _ => iteBit (fun hd => ite (fun hm => withSize fun sz hs => ok ?_)
    fun _ => withSizedEa fun sz ea hs he => ?_) fun hd => withSizedEa fun sz ea hs he => ?_
  all_goals
    simp only [opcodeNat, val_regField, bitCode_sizeOfBit, toNat_bit]
    omega

theorem decodeExg (hl : field w 12 4 = 12) (hd : field w 8 1 = 1) : Spells w (decodeExg w ws) := by
  have hw := toNat_eq_fields w
  have hm := field_lt w 3 3
  have h35 : field w 3 5 = field w 6 2 * 8 + field w 3 3 := field_split w 3 3 2
  unfold Sys2Proof.decodeExg
  split
  case h_4 => exact error
  all_goals
    refine ok ?_
    simp only [opcodeNat, val_regField]
    omega

theorem decodeLineC (hl : field w 12 4 = 12) : Spells w (decodeLineC w ws) := by
  have hw := toNat_eq_fields w
  have h63 : field w 6 3 = field w 8 1 * 4 + field w 6 2 := field_split w 6 2 1
  have hs4 := field_lt w 6 2
  unfold Sys2Proof.decodeLineC
  split
  case h_3 =>
    refine iteBit (fun hd => ite (fun _ => decodeExg hl hd) fun _ => withSizedEa fun sz ea hs he => ?_) fun hd =>
      withSizedEa fun sz ea hs he => ?_
    all_goals
      simp only [opcodeNat, val_regField]
      omega
  all_goals
    refine withEa fun ea he => ?_
    simp only [opcodeNat, val_regField]
    omega

theorem decodeLineD (hl : field w 12 4 = 13) : Spells w (decodeLineD w ws) := by
  have hw := toNat_eq_fields w
  have h33 : field w 3 3 = field w 4 2 * 2 + field w 3 1 := field_split w 3 1 2
  refine ite (fun hs => withEa fun ea he => ?_) fun _ => iteBit (fun hd => ite (fun hm => withXPair fun sz hs => ?_)
    fun _ => withSizedEa fun sz ea hs he => ?_) fun hd => withSizedEa fun sz ea hs he => ?_
  all_goals
    simp only [opcodeNat, val_regField, bitCode_sizeOfBit, toNat_bit]
    omega

theorem decodeShiftReg (hl : field w 12 4 = 14) : Spells w (decodeShiftReg w ws) := by
  have hw := toNat_eq_fields w
  have h33 : field w 3 3 = field w 5 1 * 4 + field w 3 2 := field_split w 3 2 1
  have ht := field_lt w 3 2
  refine withSize fun sz hs => ?_
  match ht : field w 3 2 with
  | 0 | 1 | 2 | _ + 3 =>
    refine iteBit (fun hd => ok ?_) fun hd => ok ?_
    all_goals
      simp only [opcodeNat, val_regField, code_countOf]
      omega

theorem decodeShiftMem (hl : field w 12 4 = 14) (hs : field w 6 2 = 3) : Spells w (decodeShiftMem w ws) := by
  have hw := toNat_eq_fields w
  unfold Sys2Proof.decodeShiftMem
  obtain ⟨hb, hd⟩ | ⟨hb, hd⟩ := bit_cases w 8
  all_goals
    simp only [hb, if_true, Bool.false_eq_true, if_false]
    match hx : field w 9 3 with
    | 0 | 1 | 2 | 3 =>
      refine withEa fun ea he => ?_
      simp only [opcodeNat]
      omega
    | _ + 4 => exact error

theorem decodeLineE (hl : field w 12 4 = 14) : Spells w (decodeLineE w ws) :=
  ite (decodeShiftMem hl) fun _ => decodeShiftReg hl

/-- The opcode word of an instruction is the one it was read from. -/
theorem decodeOpcode : Spells w (decodeOpcode w ws) := by
  have hz : field w 12 4 = field w 14 2 * 4 + field w 12 2 := field_split w 12 2 2
  have hz4 := field_lt w 12 2
  unfold Sys2Proof.decodeOpcode
  match hl : field w 12 4 with
  | 0 => exact decodeLine0 hl
  | 1 | 2 | 3 => exact decodeMove (by omega)
  | 4 => exact decodeLine4 hl
  | 5 => exact decodeLine5 hl
  | 6 => exact decodeLine6 hl
  | 7 => exact decodeLine7 hl
  | 8 => exact decodeLine8 hl
  | 9 => exact decodeLine9 hl
  | 11 => exact decodeLineB hl
  | 12 => exact decodeLineC hl
  | 13 => exact decodeLineD hl
  | 14 => exact decodeLineE hl
  | 10 | _ + 15 => exact error

end Spells

/-- Settles O52: `decode_cases` says what the words after the opcode word decide, and an accepted instruction spells
the opcode word. -/
theorem decodedInstructionsAreAdmitted : Obligations.DecodedInstructionsAreAdmitted := by
  intro w ws
  simp only [decode]
  obtain ⟨hl, hill⟩ | h := decode_cases w
  · simp only [decode] at hill
    rw [hill]
    refine ⟨fun _ _ h => (nomatch h), ?_⟩
    intro e he
    obtain rfl := Except.error.inj he
    exact .inl ⟨rfl, hl, hill⟩
  obtain ⟨hlt, hd⟩ | ⟨hle, i, hd, hwf, hlen⟩ := h ws
  · rw [hd]
    refine ⟨fun _ _ h => (nomatch h), ?_⟩
    intro e he
    obtain rfl := Except.error.inj he
    exact .inr ⟨rfl, by omega⟩
  · have hword : opcodeWord i = w := opcodeWord_eq_of_toNat (Spells.decodeOpcode i _ hd)
    have hpos := lenOf_pos w
    have hfive := lenOf_le w
    rw [hd]
    refine ⟨?_, fun _ h => nomatch h⟩
    intro j rest hj
    obtain ⟨rfl, rfl⟩ := Prod.mk.inj (Except.ok.inj hj)
    refine ⟨hwf, hword, hlen, by omega, by omega, ws.take (lenOf w - 1), (List.take_append_drop ..).symm, ?_⟩
    rw [List.length_take]
    omega

end Sys2Proof
end

/-! SUPPORT. Proofs about the addressing modes (spec/40_addressing_modes.md) and about the precision of faults (R147). -/

section

namespace Sys2Proof.Machine

open Claims

/-! ### Locations of the modes (R132 to R144) -/

theorem evalEa_postInc (i : Instr) (sz : Size) (s : State) (n : RegNum) :
    evalEa i sz (.postInc n) s = .ok (.mem (s.areg n), s.setA n (s.areg n + incr sz n)) := by
  rw [evalEa, eaStep_eq_incr]

theorem evalEa_preDec (i : Instr) (sz : Size) (s : State) (n : RegNum) :
    evalEa i sz (.preDec n) s = .ok (.mem (s.areg n - incr sz n), s.setA n (s.areg n - incr sz n)) := by
  rw [evalEa, eaStep_eq_incr]

/-- Settles O7: the two modes with a side effect write one address register, the others leave the state. -/
theorem eaModesGiveTheirLocations : Obligations.EaModesGiveTheirLocations := by
  intro i sz s n
  refine ⟨rfl, rfl, rfl, rfl, ?postInc, ?preDec, fun _ => rfl, fun _ => rfl, fun _ => rfl, fun _ => rfl, rfl,
    fun hn => if_neg hn, rfl, rfl⟩
  case postInc =>
    exact ⟨_, evalEa_postInc i sz s n, rfl, State.areg_setA_self s n _, aKeptBut_setA s n _⟩
  case preDec =>
    exact ⟨_, evalEa_preDec i sz s n, rfl, State.areg_setA_self s n _, aKeptBut_setA s n _⟩

/-! ### Indexed and PC-relative addresses (R138, R141, R142) -/

/-- The operand's first extension word stands after the opcode word and the instruction's own extension words (R99). -/
theorem encode_eaExt {i : Instr} {w : Word} {ws : List Word} (h : eaExt i = w :: ws) :
    (encode i)[1 + (ownExt i).length]? = some w := by
  rw [encode, h, Nat.add_comm, List.getElem?_cons_succ, List.getElem?_append_right le_rfl, Nat.sub_self]
  rfl

theorem eaExtAddr_eq (i : Instr) (s : State) :
    eaExtAddr i s = s.pc + BitVec.ofNat 32 (2 * (1 + (ownExt i).length)) := by
  rw [eaExtAddr, Nat.mul_add]

theorem indexedAddr_ok {x : Brief} (h : x.rsv = 0) (i : Instr) (base : Long) (s : State) :
    indexedAddr i base x s = .ok (base + indexValue x s + sext32 x.d8) := if_pos h

theorem indexedAddr_bad {x : Brief} (h : x.rsv ≠ 0) (i : Instr) (base : Long) (s : State) :
    indexedAddr i base x s = .error (.illegalInstruction (opcodeWord i) (some x.word)) := if_neg h

theorem evalEa_index_ok {x : Brief} (h : x.rsv = 0) (i : Instr) (sz : Size) (s : State) (n : RegNum) :
    evalEa i sz (.index n x) s = .ok (.mem (s.areg n + indexValue x s + sext32 x.d8), s) := by
  simp only [evalEa, eaAddr, indexedAddr_ok h]

theorem evalEa_pcIndex_ok {x : Brief} (h : x.rsv = 0) (i : Instr) (sz : Size) (s : State) :
    evalEa i sz (.pcIndex x) s = .ok (.mem (eaExtAddr i s + indexValue x s + sext32 x.d8), s) := by
  simp only [evalEa, eaAddr, indexedAddr_ok h]

/-- Settles O8: the index and the base by their definitions, and the two outcomes of `indexedAddr`. -/
theorem indexedAndPcRelativeModes : Obligations.IndexedAndPcRelativeModes := by
  intro i sz s x
  simp only [← eaExtAddr_eq]
  refine ⟨fun _ _ => encode_eaExt, fun _ => rfl, fun h => ⟨evalEa_index_ok h i sz s, evalEa_pcIndex_ok h i sz s⟩,
    fun h => ⟨fun n => ?index, ?pcIndex⟩⟩
  case index => simp only [evalEa, eaAddr, indexedAddr_bad h]
  case pcIndex => simp only [evalEa, eaAddr, indexedAddr_bad h]

/-! ### Reading and writing a location (R148) -/

/-- An immediate of a size is its own low part (R96). -/
theorem low_of_immOk {sz : Size} {v : Long} (h : immOk sz v = true) : low sz v = v.toNat :=
  Nat.mod_eq_of_lt (of_decide_eq_true h)

theorem readLoc_mem_of_none {sz : Size} {s : State} {a : Long} (h : accessFault s.cfg a sz.bytes .read = none) :
    ∃ v, readLoc (.mem a) sz s = .ok v ∧ v.toNat = valueAt s a sz.bytes := by
  refine ⟨_, by rw [readLoc, memRead_of_none h], ?_⟩
  rw [setWidth_bits_toNat, readNat_toNat, valueAt]

theorem readLoc_mem_of_some {sz : Size} {s : State} {a : Long} {c : Cause}
    (h : accessFault s.cfg a sz.bytes .read = some c) : readLoc (.mem a) sz s = .error c := by
  rw [readLoc, memRead_of_some h]

/-- A write that does not fault stores the value and changes nothing else. -/
theorem writeLoc_stores {loc : Loc} {sz : Size} {s : State} (i : Instr) (v : BitVec sz.bits)
    (hw : loc.writable = true) (hf : writeFault s.cfg loc sz = none) :
    ∃ u, writeLoc i loc sz v s = .ok u ∧ Stored loc sz v.toNat s u ∧ AKept s u ∧ u.ccr = s.ccr ∧ ControlKept s u ∧
      u.pc = s.pc := by
  obtain ⟨u, hu⟩ := writeLoc_of_none (i := i) v hw hf
  obtain ⟨hstored, ha, hpc, hccr, hplain⟩ := writeLoc_ok hu
  exact ⟨u, hu, hstored, fun n => congrArg (·[n]) ha, hccr, controlKept_of_plain hplain, hpc⟩

/-- Settles O9: a register and an immediate by their low parts, memory by whether its access faults. -/
theorem locationsReadAndWriteAtTheirSize : Obligations.LocationsReadAndWriteAtTheirSize := by
  intro i sz s
  exact ⟨fun n => ⟨_, rfl, dPart_toNat s n sz⟩,
    fun n => ⟨_, rfl, lowPart_toNat sz (s.areg n)⟩,
    fun k hk => ⟨_, rfl, (lowPart_toNat sz k).trans (low_of_immOk hk)⟩,
    fun _ _ hf => readLoc_mem_of_some hf,
    fun _ hf => readLoc_mem_of_none hf,
    fun _ v => writeLoc_stores i v rfl rfl,
    fun _ v _ hf => writeLoc_of_some v hf,
    fun _ v hf => writeLoc_stores i v rfl hf⟩

/-! ### Precise faults (R147, R341) -/

/-- An instruction that ends in TerminatedByFault has raised its fault in the state before it. -/
theorem exec_precise {i : Instr} {s u : State} (he : exec i s = .next u) (hs : s.status ≠ .terminatedByFault)
    (hu : u.status = .terminatedByFault) : ∃ c, u = raise c s := by
  obtain ⟨c, h⟩ | ⟨t, h, ht⟩ | ⟨-, -, p, h, -⟩ | ⟨-, -, h⟩ := exec_cases i s <;>
    obtain rfl := Host.Outcome.next.inj (h.symm.trans he)
  · exact ⟨c, rfl⟩
  · exact absurd (ht.status.symm.trans hu) hs
  · cases hu
  · cases hu

/-- The end-of-program test terminates a core without a fault (R356). -/
theorem endOfProgram_faulted {t : State} (h : (endOfProgram t).status = .terminatedByFault) : endOfProgram t = t := by
  obtain ⟨he, -⟩ | ⟨-, -, he⟩ := endOfProgram_cases t
  · exact he
  · rw [he] at h
    cases h

/-- A step of a running core that ends in TerminatedByFault has raised its fault in the state before it. -/
theorem step_precise {s u : State} (hs : s.status = .running) (hstep : step s = .next u)
    (hu : u.status = .terminatedByFault) : ∃ c, u = raise c s := by
  rw [step_running hs] at hstep
  cases hf : fetchDecode s with
  | error c =>
    rw [hf] at hstep
    exact ⟨c, (Host.Outcome.next.inj hstep).symm⟩
  | ok i =>
    obtain ⟨t, ht⟩ := exec_next i s
    rw [hf] at hstep
    obtain rfl : endOfProgram t = u := Host.Outcome.next.inj ((congrArg endStep ht).symm.trans hstep)
    have hend := endOfProgram_faulted hu
    rw [hend] at hu ⊢
    exact exec_precise ht (by simp [hs]) hu

/-- Settles O41: an instruction and a step each answer a next state, and the faulted one is `raise` of the state
before it. -/
theorem faultsArePrecise : Obligations.FaultsArePrecise := by
  refine ⟨fun i s => ?_, fun s hs => ?_⟩
  · obtain ⟨u, hu⟩ := exec_next i s
    exact ⟨u, hu, fun hfault hs => exec_precise hu hs hfault⟩
  · obtain ⟨u, hu⟩ := step_next s
    exact ⟨u, hu, step_precise hs hu⟩

end Sys2Proof.Machine
end

/-! SUPPORT. Proofs about data movement (spec/41_data_movement.md): the moves between an operand and a register, inside
the register file, and of addresses. -/

section

namespace Sys2Proof.Machine

open Claims

/-- The opcode word of every instruction is its pattern of R101. -/
theorem encoded (i : Instr) : Encoded i := opcodeWordsFollowTheTable.2.2 i

theorem completes_mono {i : Instr} {s : State} {p q : State → Prop} (h : Completes i s p) (hpq : ∀ u, p u → q u) :
    Completes i s q := by
  obtain ⟨u, hu, hp⟩ := h
  exact ⟨u, hu, hpq u hp⟩

/-! ### MOVE (R161) -/

section
variable {sz : Size} {src dst : Ea} {s t : State} {v : BitVec sz.bits}

theorem exec_move_of_error {c : Cause} (h : readEa (.move sz src dst) sz src s = .error c) :
    exec (.move sz src dst) s = commit s (.error c) := by
  show execMove sz src dst s = _
  simp only [execMove, h]

theorem exec_move_of_read (h : readEa (.move sz src dst) sz src s = .ok (v, t)) :
    exec (.move sz src dst) s = commit s (storeEa (.move sz src dst) sz v (nz00 v s.ccr) dst t) := by
  show execMove sz src dst s = _
  simp only [execMove, h]

/-- The destination of an admitted MOVE can be written (R161). -/
theorem move_destination_alterable (h : (Instr.move sz src dst).wf = true) :
    dst.mode.isAreg = false ∧ dst.mode.isImm = false :=
  Ea.ok_alterable (.inl (Bool.and_eq_true_iff.mp h).2)

end

/-- Settles O10: the source is read, then the value is stored from the state that its side effect left. -/
theorem moveCopiesSourceToDestination : Obligations.MoveCopiesSourceToDestination := by
  intro sz src dst i
  refine ⟨encoded i, fun s hwf => ⟨fun c hc => faults_of (exec_move_of_error hc) rfl, fun v t hread => ?_⟩⟩
  have hexec := exec_move_of_read hread
  obtain ⟨ht, hsrc⟩ := readEa_state hread
  refine ⟨fun c hc => faults_of hexec (storeEa_of_error hc), fun loc w hdst => ⟨fun c hc => ?fault, fun hnone => ?store⟩⟩
  case fault => exact faults_of hexec (storeEa_of_some hdst (by rwa [cfg_of_a ht]))
  case store =>
    obtain ⟨harea, himm⟩ := move_destination_alterable hwf
    obtain ⟨u, hu, hstored, hccr, hafter, hcontrol, hpc⟩ :=
      storeEa_of_none (v := v) (f := nz00 v s.ccr) hdst (by rwa [cfg_of_a ht]) (evalEa_writable hdst harea himm)
    refine completes_of hexec hu ⟨stored_congr (dreg_of_a ht) (mem_of_a ht) hstored, ?_, fun n => ?_, ?_, ?_⟩
    · rw [hccr]
      exact nz00_rule v s.ccr
    · rw [hafter n, hsrc n]
    · rwa [ht] at hcontrol
    · rwa [ht] at hpc

/-! ### MOVEA, ADDA and SUBA (R162, R191, R197) -/

/-- A word or long source as a signed number modulo 2^32 (R24). -/
theorem longSource_toNat (sz : Size) (v : BitVec sz.bits) :
    ((longSource sz v).toNat : Int) = signed sz.bits v.toNat % 2 ^ 32 := sext32_toNat (size_pos sz) v

theorem add_longSource_toNat (sz : Size) (v : BitVec sz.bits) (a : Long) :
    ((a + longSource sz v).toNat : Int) = (a.toNat + signed sz.bits v.toNat) % 2 ^ 32 := by
  have h := longSource_toNat sz v
  rw [BitVec.toNat_add]
  omega

theorem sub_longSource_toNat (sz : Size) (v : BitVec sz.bits) (a : Long) :
    ((a - longSource sz v).toNat : Int) = (a.toNat - signed sz.bits v.toNat) % 2 ^ 32 := by
  have h := longSource_toNat sz v
  rw [BitVec.toNat_sub]
  omega

/-- Settles O11: one shape with three operations on 32 bits. -/
theorem addressRegisterDestinations : Obligations.AddressRegisterDestinations := fun sz _ _ =>
  ⟨eaToAn_shape (encoded _) (fun _ => rfl) fun v _ => longSource_toNat sz v,
    eaToAn_shape (encoded _) (fun _ => rfl) fun v a => add_longSource_toNat sz v a,
    eaToAn_shape (encoded _) (fun _ => rfl) fun v a => sub_longSource_toNat sz v a⟩

/-! ### MOVEQ, SWAP, EXT and EXG (R163, R168, R212, R169) -/

theorem exec_moveq (imm : Byte) (dn : RegNum) (s : State) : exec (.moveq imm dn) s =
    commit s (.ok (advance (.moveq imm dn) ((s.setD dn (sext32 imm)).setCcr (nz00 (sext32 imm) s.ccr)))) := rfl

/-- The halves of a long exchanged (R168). -/
def swapped (v : Long) : Long := v.extractLsb' 0 16 ++ v.extractLsb' 16 16

theorem exec_swap (dn : RegNum) (s : State) : exec (.swap dn) s = commit s (.ok (advance (.swap dn)
    ((s.setD dn (swapped (s.dreg dn))).setCcr (nz00 (swapped (s.dreg dn)) s.ccr)))) := rfl

/-- The low half of an operand, sign-extended to the operand's size (R212). -/
def extended (sz : Size) (v : Long) : BitVec sz.bits := (v.setWidth (sz.bits / 2)).signExtend sz.bits

theorem exec_ext (sz : Size) (dn : RegNum) (s : State) : exec (.ext sz dn) s = commit s (.ok (advance (.ext sz dn)
    ((s.setDPart dn sz (extended sz (s.dreg dn))).setCcr (nz00 (extended sz (s.dreg dn)) s.ccr)))) := rfl

theorem exec_exgDD (x y : RegNum) (s : State) : exec (.exgDD x y) s =
    commit s (.ok (advance (.exgDD x y) ((s.setD x (s.dreg y)).setD y (s.dreg x)))) := rfl

theorem exec_exgAA (x y : RegNum) (s : State) : exec (.exgAA x y) s =
    commit s (.ok (advance (.exgAA x y) ((s.setA x (s.areg y)).setA y (s.areg x)))) := rfl

theorem exec_exgDA (x y : RegNum) (s : State) : exec (.exgDA x y) s =
    commit s (.ok (advance (.exgDA x y) ((s.setD x (s.areg y)).setA y (s.dreg x)))) := rfl

/-- MOVEQ and SWAP: a data register takes a value, N and Z follow it. -/
theorem completes_setD {i : Instr} {s : State} {dn : RegNum} {r : Long}
    (hx : exec i s = commit s (.ok (advance i ((s.setD dn r).setCcr (nz00 r s.ccr))))) :
    Completes i s fun u => u.dreg dn = r ∧ NZ00 32 (u.dreg dn).toNat s.ccr u.ccr ∧ DKeptBut dn s u ∧ AKept s u ∧
      MemKept s u ∧ ControlKept s u ∧ PcNext i s u := by
  have hr : (advance i ((s.setD dn r).setCcr (nz00 r s.ccr))).dreg dn = r := State.dreg_setD_self s dn r
  refine completes_of hx rfl ⟨hr, ?_, fun m hm => ?_, fun _ => rfl, fun _ => rfl, ⟨rfl, rfl, rfl, rfl⟩,
    pcNext_advance i s _ rfl⟩
  · rw [hr]
    exact nz00_rule r s.ccr
  · exact (State.dreg_setD s dn m r).trans (if_neg hm)

theorem swapped_toNat (v : Long) :
    (swapped v).toNat = v.toNat % 2 ^ 16 * 2 ^ 16 + v.toNat / 2 ^ 16 := by
  have h := v.isLt
  rw [swapped, toNat_append, BitVec.extractLsb'_toNat, BitVec.extractLsb'_toNat, Nat.shiftRight_eq_div_pow,
    Nat.shiftRight_eq_div_pow]
  omega

theorem extended_toNat (sz : Size) (v : Long) : ((extended sz v).toNat : Int) =
    signed (sz.bits / 2) (v.toNat % 2 ^ (sz.bits / 2)) % 2 ^ sz.bits := by
  have hhalf : 0 < sz.bits / 2 := by cases sz <;> decide
  rw [extended, BitVec.signExtend, ofInt_toNat, ← signed_eq_toInt hhalf, BitVec.toNat_setWidth]

/-- Two data registers exchanged, also one with itself (R169). -/
theorem dreg_exchanged (s : State) (x y : RegNum) :
    ((s.setD x (s.dreg y)).setD y (s.dreg x)).dreg x = s.dreg y ∧
      ((s.setD x (s.dreg y)).setD y (s.dreg x)).dreg y = s.dreg x ∧
      ∀ m, m ≠ x → m ≠ y → ((s.setD x (s.dreg y)).setD y (s.dreg x)).dreg m = s.dreg m := by
  refine ⟨?_, State.dreg_setD_self _ y _, fun m hx hy => ?_⟩
  · by_cases h : x = y
    · rw [h, State.dreg_setD_self]
    · rw [State.dreg_setD, if_neg h, State.dreg_setD_self]
  · rw [State.dreg_setD, if_neg hy, State.dreg_setD, if_neg hx]

theorem areg_exchanged (s : State) (x y : RegNum) :
    ((s.setA x (s.areg y)).setA y (s.areg x)).areg x = s.areg y ∧
      ((s.setA x (s.areg y)).setA y (s.areg x)).areg y = s.areg x ∧
      ∀ m, m ≠ x → m ≠ y → ((s.setA x (s.areg y)).setA y (s.areg x)).areg m = s.areg m := by
  refine ⟨?_, State.areg_setA_self _ y _, fun m hx hy => ?_⟩
  · by_cases h : x = y
    · rw [h, State.areg_setA_self]
    · rw [State.areg_setA, if_neg h, State.areg_setA_self]
  · rw [State.areg_setA, if_neg hy, State.areg_setA, if_neg hx]

/-- Settles O12: each instruction writes registers that it names, from values of before. -/
theorem registerMoves : Obligations.RegisterMoves := by
  refine ⟨fun imm dn => ⟨encoded _, fun s => ?moveq⟩, fun dn => ⟨encoded _, fun s => ?swap⟩,
    fun sz dn _ => ⟨encoded _, fun s => ?ext⟩, fun x y => ⟨encoded _, fun s => ?exgDD⟩,
    fun x y => ⟨encoded _, fun s => ?exgAA⟩, fun x y => ⟨encoded _, fun s => ?exgDA⟩⟩
  case moveq =>
    refine completes_mono (completes_setD (exec_moveq imm dn s)) fun u ⟨hr, hrest⟩ => ⟨?_, hrest⟩
    rw [hr]
    exact sext32_toNat (by decide) imm
  case swap =>
    refine completes_mono (completes_setD (exec_swap dn s)) fun u ⟨hr, hrest⟩ => ⟨?_, hrest⟩
    rw [hr]
    exact swapped_toNat (s.dreg dn)
  case ext =>
    let r := extended sz (s.dreg dn)
    exact completes_of (exec_ext sz dn s) rfl ⟨⟨r.toNat, r.isLt, extended_toNat sz (s.dreg dn),
      dStored_setDPart s dn sz r, nz00_rule r s.ccr⟩, fun _ => rfl, fun _ => rfl, ⟨rfl, rfl, rfl, rfl⟩,
      pcNext_advance _ s _ rfl⟩
  case exgDD =>
    obtain ⟨hx, hy, hothers⟩ := dreg_exchanged s x y
    exact completes_of (exec_exgDD x y s) rfl ⟨hx, hy, hothers, fun _ => rfl, ⟨rfl, fun _ => rfl⟩,
      ⟨rfl, rfl, rfl, rfl⟩, pcNext_advance _ s _ rfl⟩
  case exgAA =>
    obtain ⟨hx, hy, hothers⟩ := areg_exchanged s x y
    exact completes_of (exec_exgAA x y s) rfl ⟨hx, hy, hothers, fun _ => rfl, ⟨rfl, fun _ => rfl⟩,
      ⟨rfl, rfl, rfl, rfl⟩, pcNext_advance _ s _ rfl⟩
  case exgDA =>
    exact completes_of (exec_exgDA x y s) rfl ⟨State.dreg_setD_self s x _, State.areg_setA_self _ y _,
      fun m hm => (State.dreg_setD s x m _).trans (if_neg hm), fun m hm => (State.areg_setA _ y m _).trans (if_neg hm),
      ⟨rfl, fun _ => rfl⟩, ⟨rfl, rfl, rfl, rfl⟩, pcNext_advance _ s _ rfl⟩

/-! ### LEA and PEA (R164, R167, R150) -/

section
variable {ea : Ea} {s : State}

theorem exec_lea_of_error {an : RegNum} {c : Cause} (h : eaAddr (.lea ea an) ea s = .error c) :
    exec (.lea ea an) s = commit s (.error c) := by
  show execLea ea an s = _
  simp only [execLea, h]

theorem exec_lea_of_ok {an : RegNum} {a : Long} (h : eaAddr (.lea ea an) ea s = .ok a) :
    exec (.lea ea an) s = commit s (.ok (advance (.lea ea an) (s.setA an a))) := by
  show execLea ea an s = _
  simp only [execLea, h]

theorem exec_pea_of_error {c : Cause} (h : eaAddr (.pea ea) ea s = .error c) :
    exec (.pea ea) s = commit s (.error c) := by
  show execPea ea s = _
  simp only [execPea, h]

theorem exec_pea_of_ok {a : Long} (h : eaAddr (.pea ea) ea s = .ok a) :
    exec (.pea ea) s = commit s ((push s a).map (advance (.pea ea))) := by
  show execPea ea s = _
  simp only [execPea, h]
  cases push s a <;> rfl

theorem isControl_of_ok {sz : Size} (h : ea.ok .control sz = true) : ea.mode.isControl = true := by
  simp only [Ea.ok, Bool.and_eq_true] at h
  exact h.1.1

end

/-- Settles O13: the address is `eaAddr`'s, whose only fault is a bad brief extension word; LEA writes it, PEA pushes
it. -/
theorem leaAndPeaUseTheAddressOnly : Obligations.LeaAndPeaUseTheAddressOnly := by
  refine ⟨fun ea an => ⟨encoded _, fun s hwf => ⟨fun c hc => ?badLea, fun a ha => ?lea⟩⟩,
    fun ea => ⟨encoded _, fun s hwf => ⟨fun c hc => faults_of (exec_pea_of_error hc) rfl, fun a ha => ?pea⟩⟩⟩
  case badLea => exact ⟨faults_of (exec_lea_of_error hc) rfl, eaAddr_err (isControl_of_ok hwf) hc⟩
  case lea =>
    exact completes_of (exec_lea_of_ok ha) rfl ⟨State.areg_setA_self s an a, aKeptBut_setA s an a, fun _ => rfl,
      ⟨rfl, fun _ => rfl⟩, ⟨rfl, rfl, rfl, rfl⟩, pcNext_advance _ s _ rfl⟩
  case pea =>
    refine pushes_shape (advance (.pea ea)) (fun _ => ⟨rfl, rfl, rfl, rfl, rfl, rfl, rfl, rfl⟩) ?_
      fun t ht => pcNext_advance _ s t ht
    rw [exec_pea_of_ok ha]
    cases push s a <;> rfl

/-! ### LINK and UNLK (R170, R171) -/

section
variable {an : RegNum} {s : State}

/-- The state of LINK after the frame register is pushed: for A7 the value is the decremented SP (R170). -/
def linked (an : RegNum) (s : State) : State :=
  { s.setA 7 (s.areg 7 - 4) with
    mem := s.mem.writeNat (s.areg 7 - 4).toNat 4 (if an = 7 then s.areg 7 - 4 else s.areg an).toNat }

theorem memStored_linked (an : RegNum) (s : State) :
    MemStored (s.areg 7 - 4).toNat 4 (if an = 7 then s.areg 7 - 4 else s.areg an).toNat s (linked an s) :=
  memStored_writeNat s _ 4 _

theorem areg_linked {m : RegNum} (hm : m ≠ 7) : (linked an s).areg m = s.areg m :=
  (State.areg_setA s 7 m _).trans (if_neg hm)

theorem exec_link_of_some {d : Word} {c : Cause} (h : accessFault s.cfg (s.areg 7 - 4) 4 .write = some c) :
    exec (.link an d) s = commit s (.error c) := by
  show execLink an d s = _
  simp only [execLink, spNum, memWrite_of_some _ (s := s.setA 7 (s.areg 7 - 4)) h]

theorem exec_link_of_none {d : Word} (h : accessFault s.cfg (s.areg 7 - 4) 4 .write = none) :
    exec (.link an d) s = commit s (.ok (advance (.link an d)
      (((linked an s).setA an (s.areg 7 - 4)).setA 7 (s.areg 7 - 4 + sext32 d)))) := by
  show execLink an d s = _
  simp only [execLink, spNum, memWrite_of_none _ (s := s.setA 7 (s.areg 7 - 4)) h, State.areg_setA]
  rfl

theorem exec_unlk_of_some {c : Cause} (h : accessFault s.cfg (s.areg an) 4 .read = some c) :
    exec (.unlk an) s = commit s (.error c) := by
  have hpop : pop (s.setA 7 (s.areg an)) = .error c := pop_of_some (by rwa [State.areg_setA_self])
  show execUnlk an s = _
  simp only [execUnlk, spNum, hpop]

theorem exec_unlk_of_none (h : accessFault s.cfg (s.areg an) 4 .read = none) :
    ∃ v : Long, v.toNat = valueAt s (s.areg an) 4 ∧ exec (.unlk an) s =
      commit s (.ok (advance (.unlk an) (((s.setA 7 (s.areg an)).setA 7 (s.areg an + 4)).setA an v))) := by
  obtain ⟨v, hpop, hv⟩ := pop_of_none (s := s.setA 7 (s.areg an)) (by rwa [State.areg_setA_self])
  rw [State.areg_setA_self] at hpop hv
  refine ⟨v, hv, ?_⟩
  show execUnlk an s = _
  simp only [execUnlk, spNum, hpop]

end

/-- Settles O16: the two writes of address registers in the order of the rules, so that for A7 the second one stays. -/
theorem linkAndUnlkMakeAndRemoveAFrame : Obligations.LinkAndUnlkMakeAndRemoveAFrame := by
  refine ⟨fun an d => ⟨encoded _, fun s => ⟨fun c hc => faults_of (exec_link_of_some hc) rfl, fun hnone => ?link⟩⟩,
    fun an => ⟨encoded _, fun s => ⟨fun c hc => faults_of (exec_unlk_of_some hc) rfl, fun hnone => ?unlk⟩⟩⟩
  case link =>
    refine completes_of (exec_link_of_none hnone) rfl ⟨memStored_linked an s, fun han => ?_,
      State.areg_setA_self _ 7 _, fun m hm h7 => ?_, fun _ => rfl, rfl, ⟨rfl, rfl, rfl, rfl⟩, pcNext_advance _ s _ rfl⟩
    · rw [State.areg_advance, State.areg_setA, if_neg han, State.areg_setA_self]
    · rw [State.areg_advance, State.areg_setA, if_neg h7, State.areg_setA, if_neg hm, areg_linked h7]
  case unlk =>
    obtain ⟨v, hv, hexec⟩ := exec_unlk_of_none hnone
    refine completes_of hexec rfl ⟨?_, fun han => ?_, fun m hm h7 => ?_, fun _ => rfl, ⟨rfl, fun _ => rfl⟩,
      ⟨rfl, rfl, rfl, rfl⟩, pcNext_advance _ s _ rfl⟩
    · rw [State.areg_advance, State.areg_setA_self, hv]
    · rw [State.areg_advance, State.areg_setA, if_neg han.symm, State.areg_setA_self]
    · rw [State.areg_advance, State.areg_setA, if_neg hm, State.areg_setA, if_neg h7, State.areg_setA, if_neg h7]

end Sys2Proof.Machine
end

/-! SUPPORT. Proofs about MOVEM (R165, R166): the transfer lists in ascending order of registers and of addresses. -/

section

namespace Sys2Proof.Machine

open Claims

/-- The address of item `j` of a transfer that begins at `base`. -/
def itemAddr (sz : Size) (base : Long) (j : Nat) : Long := base + BitVec.ofNat 32 (j * sz.bytes)

/-- What stores of the registers `regs` of `s` from `base` on do to memory. -/
def ItemsStored (sz : Size) (s u : State) (regs : List Nat) (base : Long) : Prop :=
  (∀ j k, regs[j]? = some k → ∀ b, b < sz.bytes → u.mem.read ((itemAddr sz base j).toNat + b) =
    BitVec.ofNat 8 (low sz (multi s k) / 256 ^ (sz.bytes - 1 - b))) ∧
  ∀ x, (∀ j, j < regs.length → x < (itemAddr sz base j).toNat ∨ (itemAddr sz base j).toNat + sz.bytes ≤ x) →
    u.mem.read x = s.mem.read x

/-! ### Transfer lists -/

theorem length_listed (mask : Word) : (listed mask.getLsbD).length = (maskRegs mask).length := by
  rw [← maskRegs_map, List.length_map]

theorem length_listed_rev (mask : Word) :
    (listed fun k => mask.getLsbD (15 - k)).length = (maskRegsRev mask).length := by
  rw [← maskRegsRev_map, List.length_reverse, List.length_map]

/-- Item `j` of the ascending list of a predecrement mask is transferred with `j` items left after it. -/
theorem maskRegsRev_getElem? {mask : Word} {j k : Nat} (h : (listed fun k => mask.getLsbD (15 - k))[j]? = some k) :
    j < (maskRegsRev mask).length ∧
      ∃ r : Fin 16, (maskRegsRev mask)[(maskRegsRev mask).length - 1 - j]? = some r ∧ r.val = k := by
  have hj : j < (maskRegsRev mask).length := length_listed_rev mask ▸ (List.getElem?_eq_some_iff.mp h).1
  rw [← maskRegsRev_map, List.getElem?_reverse (by rwa [List.length_map]), List.length_map] at h
  exact ⟨hj, getElem?_of_map_val h⟩

/-! ### Registers to memory (R165) -/

section
variable {sz : Size} {mask : Word} {s : State} {a : Long}

theorem storeUp_listed (h : ∀ j, j < (listed mask.getLsbD).length →
    accessFault s.cfg (itemAddr sz a j) sz.bytes .write = none) :
    ∃ t, storeUp s sz (maskRegs mask) a s = .ok t ∧ t = { s with mem := t.mem } ∧
      ItemsStored sz s t (listed mask.getLsbD) a := by
  rw [length_listed] at h
  obtain ⟨t, hok, ht, hstored, hkept⟩ := storeUp_ok s sz (maskRegs mask) a s (maskRegs_len mask) h
  refine ⟨t, hok, ht, fun j k hk => ?_, fun x hx => hkept x fun j hj => hx j (by rwa [length_listed])⟩
  rw [← maskRegs_map] at hk
  obtain ⟨r, hr, rfl⟩ := getElem?_of_map_val hk
  exact hstored j r hr

/-- The final address of the predecrement form, from which on its items stand in ascending order (R165). -/
def bottomAddr (sz : Size) (mask : Word) (a : Long) : Long :=
  a - BitVec.ofNat 32 ((maskRegsRev mask).length * sz.bytes)

/-- The address of transfer `m` of the predecrement form, counted from the bottom. -/
theorem itemAddr_bottomAddr {m : Nat} (h : m < (maskRegsRev mask).length) :
    itemAddr sz (bottomAddr sz mask a) ((maskRegsRev mask).length - 1 - m) =
      a - BitVec.ofNat 32 ((m + 1) * sz.bytes) := bottom_up a _ sz.bytes m h

theorem storeDown_listed (h : ∀ j, j < (maskRegsRev mask).length →
    accessFault s.cfg (itemAddr sz (bottomAddr sz mask a) j) sz.bytes .write = none) :
    ∃ t, storeDown s sz (maskRegsRev mask) a s = .ok (bottomAddr sz mask a, t) ∧ t = { s with mem := t.mem } ∧
      ItemsStored sz s t (listed fun k => mask.getLsbD (15 - k)) (bottomAddr sz mask a) := by
  have haddr {m : Nat} (hm : m < (maskRegsRev mask).length) := itemAddr_bottomAddr (sz := sz) (a := a) hm
  obtain ⟨t, hok, ht, hstored, hkept⟩ := storeDown_ok s sz (maskRegsRev mask) a s (maskRegsRev_len mask)
    fun m hm => haddr hm ▸ h _ (by omega)
  refine ⟨t, hok, ht, fun j k hk b hb => ?_, fun x hx => hkept x fun m hm => ?_⟩
  · obtain ⟨hj, r, hr, rfl⟩ := maskRegsRev_getElem? hk
    have hb := hstored _ r hr b hb
    rwa [← haddr (by omega), Nat.sub_sub_self (by omega)] at hb
  · rw [← haddr hm]
    exact hx _ (by rw [length_listed_rev]; omega)

/-- Transfers go from the last item of the ascending list to the first (R165). -/
theorem storeDown_first_fault {c : Cause} {j : Nat} (hj : j < (maskRegsRev mask).length)
    (hbefore : ∀ k, j < k → k < (maskRegsRev mask).length →
      accessFault s.cfg (itemAddr sz (bottomAddr sz mask a) k) sz.bytes .write = none)
    (hfault : accessFault s.cfg (itemAddr sz (bottomAddr sz mask a) j) sz.bytes .write = some c) :
    storeDown s sz (maskRegsRev mask) a s = .error c := by
  have haddr {m : Nat} (hm : m < (maskRegsRev mask).length) := itemAddr_bottomAddr (sz := sz) (a := a) hm
  refine storeDown_err s sz (maskRegsRev mask) a s ((maskRegsRev mask).length - 1 - j) c (by omega) (fun k hk => ?_) ?_
  · rw [← haddr (by omega)]
    exact hbefore _ (by omega) (by omega)
  · rwa [← haddr (by omega), Nat.sub_sub_self (by omega)]

end

section
variable {sz : Size} {mask : Word} {ea : Ea} {s : State}

theorem exec_movemToMem_of_error {c : Cause} (hp : ea.mode.isPreDec = false)
    (h : eaAddr (.movemToMem sz mask ea) ea s = .error c) :
    exec (.movemToMem sz mask ea) s = commit s (.error c) := by
  show execMovemToMem sz mask ea s = _
  cases ea
  case preDec => cases hp
  all_goals simp only [execMovemToMem, h]

theorem exec_movemToMem_of_addr {a : Long} (hp : ea.mode.isPreDec = false)
    (h : eaAddr (.movemToMem sz mask ea) ea s = .ok a) : exec (.movemToMem sz mask ea) s =
      commit s ((storeUp s sz (maskRegs mask) a s).map (advance (.movemToMem sz mask ea))) := by
  show execMovemToMem sz mask ea s = _
  cases ea
  case preDec => cases hp
  all_goals
    simp only [execMovemToMem, h]
    cases storeUp s sz (maskRegs mask) a s <;> rfl

theorem exec_movemToMem_preDec (n : RegNum) : exec (.movemToMem sz mask (.preDec n)) s =
    commit s ((storeDown s sz (maskRegsRev mask) (s.areg n) s).map
      fun p => advance (.movemToMem sz mask (.preDec n)) (p.2.setA n p.1)) := by
  show execMovemToMem sz mask (.preDec n) s = _
  simp only [execMovemToMem]
  cases storeDown s sz (maskRegsRev mask) (s.areg n) s <;> rfl

end

/-- Settles O14: both forms store the ascending list from its lowest address on; the predecrement form transfers it from
the end. -/
theorem movemStoresTheListedRegisters : Obligations.MovemStoresTheListedRegisters := by
  intro sz mask ea i stores
  refine ⟨encoded i, fun s _ => ⟨fun hp => ⟨fun c hc => faults_of (exec_movemToMem_of_error hp hc) rfl, ?up⟩, ?down⟩⟩
  case up =>
    refine fun a ha => ⟨fun j c hj hbefore hfault => ?_, fun hnone => ?_⟩
    · rw [length_listed] at hj
      refine faults_of (exec_movemToMem_of_addr hp ha) ?_
      rw [storeUp_err s sz (maskRegs mask) a s j c hj hbefore hfault]
      rfl
    · obtain ⟨t, hok, ht, hstored, hkept⟩ := storeUp_listed hnone
      have hexec : exec i s = commit s (.ok (advance i t)) := by rw [exec_movemToMem_of_addr hp ha, hok]; rfl
      refine completes_of hexec rfl ⟨⟨hstored, hkept, ?_, ?_, ?_, ?_⟩, ?_⟩
      all_goals rw [ht]
      exacts [fun _ => rfl, rfl, ⟨rfl, rfl, rfl, rfl⟩, pcNext_advance i s _ rfl, fun _ => rfl]
  case down =>
    rintro n rfl
    simp only [length_listed_rev]
    refine ⟨fun j c hj hbefore hfault => ?_, fun hnone => ?_⟩
    · refine faults_of (exec_movemToMem_preDec n) ?_
      rw [storeDown_first_fault hj hbefore hfault]
      rfl
    · obtain ⟨t, hok, ht, hstored, hkept⟩ := storeDown_listed hnone
      have hexec : exec i s = commit s (.ok (advance i (t.setA n (bottomAddr sz mask (s.areg n))))) := by
        rw [exec_movemToMem_preDec, hok]; rfl
      refine completes_of hexec rfl ⟨⟨hstored, hkept, ?_, ?_, ?_, ?_⟩, State.areg_setA_self t n _, ?_⟩
      all_goals rw [ht]
      exacts [fun _ => rfl, rfl, ⟨rfl, rfl, rfl, rfl⟩, pcNext_advance i s _ rfl, aKeptBut_setA _ n _]

/-! ### Memory to registers (R166) -/

/-- What loads of the registers `regs` from `base` on do to the register file. -/
def ItemsLoaded (sz : Size) (s u : State) (regs : List Nat) (base : Long) : Prop :=
  (∀ j k, regs[j]? = some k →
    ((multi u k).toNat : Int) = signed sz.bits (valueAt s (itemAddr sz base j) sz.bytes) % 2 ^ 32) ∧
  ∀ k, k < 16 → k ∉ regs → multi u k = multi s k

theorem loadUp_listed {sz : Size} {mask : Word} {s : State} {a : Long} (h : ∀ j, j < (listed mask.getLsbD).length →
    accessFault s.cfg (itemAddr sz a j) sz.bytes .read = none) :
    ∃ t, loadUp sz (maskRegs mask) a s = .ok (itemAddr sz a (listed mask.getLsbD).length, t) ∧
      t = { s with d := t.d, a := t.a } ∧ ItemsLoaded sz s t (listed mask.getLsbD) a := by
  rw [length_listed] at h ⊢
  obtain ⟨t, hok, ht, hloaded, hkept⟩ := loadUp_ok sz (maskRegs mask) a s (nodup_maskRegs mask) h
  refine ⟨t, hok, ht, fun j k hk => ?_, fun k hk hm => hkept ⟨k, hk⟩ fun hin => hm ((mem_listed hk).mpr hin)⟩
  rw [← maskRegs_map] at hk
  obtain ⟨r, hr, rfl⟩ := getElem?_of_map_val hk
  exact hloaded j r hr

/-- Writing `A[n]` writes register `8 + n` of a MOVEM list (R165). -/
theorem multi_setA (s : State) (n : RegNum) (v : Long) {k : Nat} (hk : k < 16) (hn : k ≠ 8 + n.val) :
    multi (s.setA n v) k = multi s k := by
  unfold multi
  split_ifs with h
  · rfl
  · refine (State.areg_setA s n _ v).trans (if_neg fun he => hn ?_)
    have := congrArg Fin.val he
    simp only [Fin.ofNat] at this
    omega

theorem lt_of_listed {m : Nat → Bool} {j k : Nat} (h : (listed m)[j]? = some k) : k < 16 :=
  List.mem_range.mp (List.mem_of_mem_filter (List.mem_of_getElem? h))

section
variable {sz : Size} {mask : Word} {ea : Ea} {s : State}

theorem exec_movemToRegs_of_error {c : Cause} (hp : ea.mode.isPostInc = false)
    (h : eaAddr (.movemToRegs sz mask ea) ea s = .error c) :
    exec (.movemToRegs sz mask ea) s = commit s (.error c) := by
  show execMovemToRegs sz mask ea s = _
  cases ea
  case postInc => cases hp
  all_goals simp only [execMovemToRegs, h]

theorem exec_movemToRegs_of_addr {a : Long} (hp : ea.mode.isPostInc = false)
    (h : eaAddr (.movemToRegs sz mask ea) ea s = .ok a) : exec (.movemToRegs sz mask ea) s =
      commit s ((loadUp sz (maskRegs mask) a s).map fun p => advance (.movemToRegs sz mask ea) p.2) := by
  show execMovemToRegs sz mask ea s = _
  cases ea
  case postInc => cases hp
  all_goals
    simp only [execMovemToRegs, h]
    cases loadUp sz (maskRegs mask) a s <;> rfl

theorem exec_movemToRegs_postInc (n : RegNum) : exec (.movemToRegs sz mask (.postInc n)) s =
    commit s ((loadUp sz (maskRegs mask) (s.areg n) s).map
      fun p => advance (.movemToRegs sz mask (.postInc n)) (p.2.setA n p.1)) := by
  show execMovemToRegs sz mask (.postInc n) s = _
  simp only [execMovemToRegs]
  cases loadUp sz (maskRegs mask) (s.areg n) s <;> rfl

end

/-- Settles O15: both forms load the ascending list; the postincrement form then writes the final address over what
`an` may have taken. -/
theorem movemLoadsTheListedRegisters : Obligations.MovemLoadsTheListedRegisters := by
  intro sz mask ea i regs loads
  refine ⟨encoded i, fun s _ => ⟨fun hp => ⟨fun c hc => faults_of (exec_movemToRegs_of_error hp hc) rfl, ?addr⟩, ?inc⟩⟩
  case addr =>
    refine fun a ha => ⟨fun j c hj hbefore hfault => ?_, fun hnone => ?_⟩
    · rw [length_listed] at hj
      refine faults_of (exec_movemToRegs_of_addr hp ha) ?_
      rw [loadUp_err sz (maskRegs mask) a s j c hj hbefore hfault]
      rfl
    · obtain ⟨t, hok, ht, hloaded, hkept⟩ := loadUp_listed hnone
      have hexec : exec i s = commit s (.ok (advance i t)) := by rw [exec_movemToRegs_of_addr hp ha, hok]; rfl
      refine completes_of hexec rfl
        ⟨fun j k hk _ => hloaded j k hk, fun k hk hm _ => hkept k hk hm, ?_, ?_, ?_⟩
      all_goals rw [ht]
      exacts [⟨rfl, fun _ => rfl⟩, ⟨rfl, rfl, rfl, rfl⟩, pcNext_advance i s _ rfl]
  case inc =>
    rintro n rfl
    refine ⟨fun j c hj hbefore hfault => ?_, fun hnone => ?_⟩
    · rw [length_listed] at hj
      refine faults_of (exec_movemToRegs_postInc n) ?_
      rw [loadUp_err sz (maskRegs mask) (s.areg n) s j c hj hbefore hfault]
      rfl
    · obtain ⟨t, hok, ht, hloaded, hkept⟩ := loadUp_listed hnone
      let final := itemAddr sz (s.areg n) regs.length
      have hexec : exec i s = commit s (.ok (advance i (t.setA n final))) := by
        rw [exec_movemToRegs_postInc, hok]; rfl
      have hmulti {k : Nat} (hk : k < 16) (hn : k ≠ 8 + n.val) := multi_setA t n final hk hn
      refine completes_of hexec rfl
        ⟨⟨fun j k hk hn => ?_, fun k hk hm hn => (hmulti hk hn).trans (hkept k hk hm), ?_, ?_, ?_⟩,
          State.areg_setA_self t n _⟩
      · exact (congrArg (fun w : Long => (w.toNat : Int)) (hmulti (lt_of_listed hk) hn)).trans (hloaded j k hk)
      all_goals rw [ht]
      exacts [⟨rfl, fun _ => rfl⟩, ⟨rfl, rfl, rfl, rfl⟩, pcNext_advance i s _ rfl]

end Sys2Proof.Machine
end

/-! SUPPORT. Proofs about integer arithmetic (spec/42_integer_arithmetic.md): each instruction is one of the shapes of
`Sys2Proof.Claims`, and its ALU function meets the rule of its result and flags. -/

section

namespace Sys2Proof.Machine

open Claims

/-! ### ADD and SUB (R190, R192, R196, R198) -/

section
variable {i : Instr} {sz : Size} {ea : Ea}

/-- A read-modify-write whose source value `w` is the statement's `v`. -/
theorem modifiesEa_of_rule {v : State → Nat} {rule : AluRule} {f : Alu sz} {w : State → BitVec sz.bits}
    (hexec : ∀ s, exec i s = commit s (modifyEa i sz f (w s) ea s))
    (hea : i.wf = true → ea.mode.isAreg = false ∧ ea.mode.isImm = false)
    (hsource : i.wf = true → ∀ s, (w s).toNat = v s)
    (hrule : ∀ s d c, rule sz.bits s.toNat d.toNat (f s d c).1.toNat c (f s d c).2) : ModifiesEa i sz v ea rule :=
  modifies_shape (encoded i) hexec hea fun hwf s d c => hsource hwf s ▸ hrule (w s) d c

theorem alterable_of_memAlterable (h : ea.ok .memAlterable sz = true) :
    ea.mode.isAreg = false ∧ ea.mode.isImm = false := Ea.ok_alterable (.inr (.inl h))

/-- The destination of an admitted ADDI or SUBI can be written. -/
theorem alterable_of_immediate {imm : Long} (h : (immOk sz imm && ea.ok .dataAlterable sz) = true) :
    ea.mode.isAreg = false ∧ ea.mode.isImm = false := Ea.ok_alterable (.inl (Bool.and_eq_true_iff.mp h).2)

/-- The destination of an admitted ADDQ or SUBQ can be written when it is no address register. -/
theorem alterable_of_quick {q : Nat} (ha : ea.mode.isAreg = false) (h : (quickOk q && ea.ok .alterable sz) = true) :
    ea.mode.isAreg = false ∧ ea.mode.isImm = false :=
  Ea.ok_alterable (.inr (.inr ⟨(Bool.and_eq_true_iff.mp h).2, ha⟩))

end

/-- Settles O17: the three forms differ in where source and destination are; `aluAdd` is the sum of all. -/
theorem addWritesTheSumAndItsFlags : Obligations.AddWritesTheSumAndItsFlags :=
  ⟨fun _ _ _ => eaToDn_shape (encoded _) (fun _ => rfl) aluAdd_rule,
    fun sz dn _ => modifiesEa_of_rule (fun _ => rfl) alterable_of_memAlterable (fun _ s => dPart_toNat s dn sz)
      aluAdd_rule,
    fun sz imm _ => modifiesEa_of_rule (fun _ => rfl) alterable_of_immediate (fun _ _ => lowPart_toNat sz imm)
      aluAdd_rule⟩

/-- Settles O18: as O17 with `aluSub`. -/
theorem subWritesTheDifferenceAndItsFlags : Obligations.SubWritesTheDifferenceAndItsFlags :=
  ⟨fun _ _ _ => eaToDn_shape (encoded _) (fun _ => rfl) aluSub_rule,
    fun sz dn _ => modifiesEa_of_rule (fun _ => rfl) alterable_of_memAlterable (fun _ s => dPart_toNat s dn sz)
      aluSub_rule,
    fun sz imm _ => modifiesEa_of_rule (fun _ => rfl) alterable_of_immediate (fun _ _ => lowPart_toNat sz imm)
      aluSub_rule⟩

/-! ### ADDQ and SUBQ (R193, R199) -/

/-- A quick immediate, 1 to 8, fits every operation size (R97). -/
theorem toNat_quick {q : Nat} (sz : Size) (h : quickOk q = true) : (BitVec.ofNat sz.bits q).toNat = q := by
  have hq : 1 ≤ q ∧ q ≤ 8 := of_decide_eq_true h
  have hbits : 2 ^ 8 ≤ 2 ^ sz.bits := Nat.pow_le_pow_right (by decide) (by cases sz <;> decide)
  exact Nat.mod_eq_of_lt (by omega)

/-- The address register takes `v`, of which `p` holds, and nothing else but the program counter changes. -/
theorem completes_quickToAn {i : Instr} {n : RegNum} {v : Long} {s : State} (p : Long → Prop) (hp : p v)
    (hexec : exec i s = commit s (quickToAn i n v s)) : Completes i s fun u =>
      p (u.areg n) ∧ AKeptBut n s u ∧ DKept s u ∧ CcrMemKept s u ∧ ControlKept s u ∧ PcNext i s u :=
  completes_of hexec rfl ⟨(State.areg_setA_self s n v).symm ▸ hp, aKeptBut_setA s n v, fun _ => rfl,
    ⟨rfl, fun _ => rfl⟩, ⟨rfl, rfl, rfl, rfl⟩, pcNext_advance i s _ rfl⟩

theorem add_ofNat_toNat (a : Long) (q : Nat) : (a + BitVec.ofNat 32 q).toNat = (a.toNat + q) % 2 ^ 32 := by
  rw [BitVec.toNat_add, BitVec.toNat_ofNat, Nat.add_mod_mod]

theorem sub_ofNat_toNat (a : Long) (q : Nat) :
    ((a - BitVec.ofNat 32 q).toNat : Int) = ((a.toNat : Int) - q) % 2 ^ 32 := by
  rw [BitVec.toNat_sub, BitVec.toNat_ofNat]
  omega

/-- Settles O19: a destination that is no address register is modified as by ADD and SUB, an address register takes the
32-bit sum or difference. -/
theorem quickAddAndSubtract : Obligations.QuickAddAndSubtract := by
  refine ⟨fun sz q ea ha => ?addq, fun sz q ea ha => ?subq, fun sz q n => ⟨encoded _, fun s => ?addqAn⟩,
    fun sz q n => ⟨encoded _, fun s => ?subqAn⟩⟩
  case addq =>
    exact modifiesEa_of_rule (execAddq_of_ne sz q ea ha) (alterable_of_quick ha)
      (fun hwf _ => toNat_quick sz (Bool.and_eq_true_iff.mp hwf).1) aluAdd_rule
  case subq =>
    exact modifiesEa_of_rule (execSubq_of_ne sz q ea ha) (alterable_of_quick ha)
      (fun hwf _ => toNat_quick sz (Bool.and_eq_true_iff.mp hwf).1) aluSub_rule
  case addqAn =>
    exact completes_quickToAn (fun r => r.toNat = ((s.areg n).toNat + q) % 2 ^ 32) (add_ofNat_toNat _ q) rfl
  case subqAn =>
    exact completes_quickToAn (fun r => (r.toNat : Int) = ((s.areg n).toNat - q) % 2 ^ 32) (sub_ofNat_toNat _ q) rfl

/-! ### ADDX and SUBX (R194, R200) -/

/-- Settles O20: both forms of both instructions by the rule of their ALU function. -/
theorem extendedAddAndSubtract : Obligations.ExtendedAddAndSubtract := fun _ _ _ =>
  ⟨pairsDn_shape (encoded _) (fun _ => rfl) aluAddx_rule, pairsMem_shape (encoded _) (fun _ => rfl) aluAddx_rule,
    pairsDn_shape (encoded _) (fun _ => rfl) aluSubx_rule, pairsMem_shape (encoded _) (fun _ => rfl) aluSubx_rule⟩

/-! ### NEG, NEGX and CLR (R203, R204, R205) -/

/-- A store to one operand that is not read. -/
theorem storesEa_of_exec {i : Instr} {sz : Size} {ea : Ea} {v : State → Nat} {flags : Ccr → Ccr → Prop}
    {w : State → BitVec sz.bits} {f : State → Ccr}
    (hexec : ∀ s, exec i s = commit s (storeEa i sz (w s) (f s) ea s))
    (hea : i.wf = true → ea.mode.isAreg = false ∧ ea.mode.isImm = false)
    (hvalue : ∀ s, (w s).toNat = v s) (hflags : ∀ s, flags s.ccr (f s)) : StoresEa i sz v ea flags := by
  refine ⟨encoded i, fun s hwf => ⟨fun c hc => faults_of (hexec s) (storeEa_of_error hc), fun loc t heval =>
    ⟨fun c hc => faults_of (hexec s) (storeEa_of_some heval hc), fun hnone => ?_⟩⟩⟩
  obtain ⟨harea, himm⟩ := hea hwf
  obtain ⟨u, hu, hstored, hccr, hrest⟩ := storeEa_of_none heval hnone (evalEa_writable heval harea himm)
  exact completes_of (hexec s) hu ⟨hccr ▸ hflags s, hvalue s ▸ hstored, hrest⟩

/-- Settles O21: NEG and NEGX modify their operand with source 0, which their ALU functions do not use; CLR stores 0. -/
theorem negateAndClear : Obligations.NegateAndClear := by
  intro sz ea
  have hzero : ∀ _ : State, (0 : BitVec sz.bits).toNat = 0 := fun _ => BitVec.toNat_zero
  have hea (h : ea.ok .dataAlterable sz = true) := Ea.ok_alterable (.inl h)
  exact ⟨modifiesEa_of_rule (fun _ => rfl) hea (fun _ => hzero) (aluNeg_rule (size_pos sz)),
    modifiesEa_of_rule (fun _ => rfl) hea (fun _ => hzero) aluNegx_rule,
    storesEa_of_exec (fun _ => rfl) hea hzero fun _ => ⟨rfl, rfl, rfl, rfl, rfl⟩⟩

/-! ### CMP, CMPA, CMPI, TST and CMPM (R207 to R211) -/

/-- Read one operand, then set the flags: `f` gives them from the value read and the state after the read. -/
def flagsFromEa (i : Instr) (sz : Size) (ea : Ea) (f : BitVec sz.bits → State → Ccr) (s : State) : Res State :=
  match readEa i sz ea s with
  | .error c => .error c
  | .ok (v, t) => setFlags i (f v t) t

theorem readsEa_of_flags {i : Instr} {sz : Size} {ea : Ea} {flags : State → Nat → Ccr → Prop}
    {f : BitVec sz.bits → State → Ccr} (hexec : ∀ s, exec i s = commit s (flagsFromEa i sz ea f s))
    (hflags : ∀ s v t, t = { s with a := t.a } → AAfter sz ea s t → flags s v.toNat (f v t)) :
    ReadsEa i sz ea flags := by
  refine reads_shape (encoded i) (g := fun _ => f) (fun s c hc => ?error) (fun s v t hread => ?ok)
    fun s v t hread => ?flags
  case error => rw [hexec, flagsFromEa, hc]
  case ok => rw [hexec, flagsFromEa, hread]; rfl
  case flags =>
    obtain ⟨ht, hafter⟩ := readEa_state hread
    exact hflags s v t ht hafter

theorem dPart_of_a {s t : State} (h : t = { s with a := t.a }) (n : RegNum) (sz : Size) :
    (t.dPart n sz).toNat = low sz (s.dreg n) := by rw [dPart_toNat, dreg_of_a h]

/-- Settles O22: each instruction reads its operand and sets flags; the read changes neither flags nor data registers,
and the address register of CMPA is compared after it. -/
theorem compareAndTestWriteFlagsOnly : Obligations.CompareAndTestWriteFlagsOnly := by
  refine ⟨fun sz ea dn => readsEa_of_flags (f := fun v t => cmpFlags v (t.dPart dn sz) t.ccr) (fun _ => rfl)
      fun s v t ht _ => ?cmp,
    fun sz ea an => readsEa_of_flags (f := fun v t => cmpFlags (longSource sz v) (t.areg an) t.ccr) (fun _ => rfl)
      fun s v t ht hafter => ?cmpa,
    fun sz imm ea => readsEa_of_flags (f := fun d t => cmpFlags (lowPart sz imm) d t.ccr) (fun _ => rfl)
      fun s d t ht _ => ?cmpi,
    fun sz ea => readsEa_of_flags (f := fun d t => nz00 d t.ccr) (fun _ => rfl) fun s d t ht _ => ?tst⟩
  case cmp =>
    rw [← dPart_of_a ht dn sz, ← ccr_of_a ht]
    exact cmpFlags_rule v (t.dPart dn sz) t.ccr
  case cmpa =>
    refine ⟨(longSource sz v).toNat, longSource_toNat sz v, ?_⟩
    rw [← hafter an, ← ccr_of_a ht]
    exact cmpFlags_rule (longSource sz v) (t.areg an) t.ccr
  case cmpi =>
    rw [← lowPart_toNat, ← ccr_of_a ht]
    exact cmpFlags_rule (lowPart sz imm) d t.ccr
  case tst =>
    rw [← ccr_of_a ht]
    exact nz00_rule d t.ccr

section
variable {sz : Size} {y x : RegNum} {s t u : State} {v d : BitVec sz.bits} {c : Cause}

theorem exec_cmpm_of_source_error (h : readEa (.cmpm sz y x) sz (.postInc y) s = .error c) :
    exec (.cmpm sz y x) s = commit s (.error c) := by
  show execCmpm sz y x s = _
  simp only [execCmpm, h]

theorem exec_cmpm_of_destination_error (hy : readEa (.cmpm sz y x) sz (.postInc y) s = .ok (v, t))
    (hx : readEa (.cmpm sz y x) sz (.postInc x) t = .error c) : exec (.cmpm sz y x) s = commit s (.error c) := by
  show execCmpm sz y x s = _
  simp only [execCmpm, hy, hx]

theorem exec_cmpm_of_reads (hy : readEa (.cmpm sz y x) sz (.postInc y) s = .ok (v, t))
    (hx : readEa (.cmpm sz y x) sz (.postInc x) t = .ok (d, u)) :
    exec (.cmpm sz y x) s = commit s (setFlags (.cmpm sz y x) (cmpFlags v d u.ccr) u) := by
  show execCmpm sz y x s = _
  simp only [execCmpm, hy, hx]

end

/-- Settles O23: the second operand is read in the state that the first one's increment left, so that one register
twice compares two consecutive items. -/
theorem cmpmComparesTwoMemoryItems : Obligations.CmpmComparesTwoMemoryItems := by
  intro sz y x i
  refine ⟨encoded i, fun s => ?_⟩
  intro dst
  have hy := evalEa_postInc i sz s y
  let t := s.setA y (s.areg y + incr sz y)
  have hdst : t.areg x = dst := (evalEa_ok hy).2 x
  have hx : evalEa i sz (.postInc x) t = .ok (.mem dst, t.setA x (dst + incr sz x)) := hdst ▸ evalEa_postInc i sz t x
  refine ⟨fun c hc => ?source, fun hsrc c hc => ?destination, fun hsrc hdst => ?compare⟩
  case source => exact faults_of (exec_cmpm_of_source_error (readMem_err hy hc)) rfl
  case destination =>
    obtain ⟨v, hv, -⟩ := readMem_ok hy hsrc
    exact faults_of (exec_cmpm_of_destination_error hv (readMem_err hx hc)) rfl
  case compare =>
    obtain ⟨v, hv, hvalue, -⟩ := readMem_ok hy hsrc
    obtain ⟨d, hd, hdvalue, -⟩ := readMem_ok hx hdst
    refine completes_of (exec_cmpm_of_reads hv hd) rfl ⟨?_, fun n => ?_, fun _ => rfl, fun _ => rfl,
      ⟨rfl, rfl, rfl, rfl⟩, pcNext_advance i s _ rfl⟩
    · have hcmp := cmpFlags_rule v d s.ccr
      rwa [hvalue, hdvalue] at hcmp
    · exact ((evalEa_ok hx).2 n).trans (congrArg _ ((evalEa_ok hy).2 n))

/-! ### MULU and MULS (R214, R215) -/

/-- The product of two words fits a long, so no bit of it is lost (R214). -/
theorem mulUnsigned_toNat (s d : Word) : (mulUnsigned s d).toNat = d.toNat * s.toNat :=
  Nat.mod_eq_of_lt (show d.toNat * s.toNat < 2 ^ 16 * 2 ^ 16 from Nat.mul_lt_mul'' d.isLt s.isLt)

theorem mulSigned_toNat (s d : Word) :
    ((mulSigned s d).toNat : Int) = signed 16 d.toNat * signed 16 s.toNat % 2 ^ 32 := by
  rw [mulSigned, ofInt_toNat, signed_eq_toInt (by decide), signed_eq_toInt (by decide)]

/-- Settles O24. -/
theorem multiplyWritesTheWholeProduct : Obligations.MultiplyWritesTheWholeProduct := fun _ _ =>
  ⟨mul_shape (encoded _) (fun _ => rfl) fun v d => congrArg Nat.cast (mulUnsigned_toNat v d),
    mul_shape (encoded _) (fun _ => rfl) mulSigned_toNat⟩

/-! ### DIVU and DIVS (R216, R217, R220) -/

section
variable {p : DivOvf} {s : Word} {d : Long} {f : Ccr}

theorem divUnsigned_of_fits (h : d.toNat / s.toNat ≤ 0xFFFF) : divUnsigned p s d f =
    (BitVec.ofNat 16 (d.toNat % s.toNat) ++ BitVec.ofNat 16 (d.toNat / s.toNat),
      nz00 (BitVec.ofNat 16 (d.toNat / s.toNat)) f) := if_neg (Nat.not_lt.mpr h)

theorem divUnsigned_of_overflow (h : ¬d.toNat / s.toNat ≤ 0xFFFF) :
    divUnsigned p s d f = (d, divOvfFlags p d s false f) := if_pos (Nat.lt_of_not_le h)

/-- The quotient of DIVS as an integer, truncated toward zero (R217). -/
def signedQuotient (s : Word) (d : Long) : Int := (signed 32 d.toNat).tdiv (signed 16 s.toNat)

/-- The remainder of DIVS as an integer (R217). -/
def signedRemainder (s : Word) (d : Long) : Int := signed 32 d.toNat - signedQuotient s d * signed 16 s.toNat

theorem signedQuotient_eq (s : Word) (d : Long) : signedQuotient s d = d.toInt.tdiv s.toInt := by
  rw [signedQuotient, signed_eq_toInt (by decide), signed_eq_toInt (by decide)]

theorem signedRemainder_eq (s : Word) (d : Long) : signedRemainder s d = d.toInt - d.toInt.tdiv s.toInt * s.toInt := by
  rw [signedRemainder, signedQuotient_eq, signed_eq_toInt (by decide), signed_eq_toInt (by decide)]

theorem divSigned_of_fits (h : -32768 ≤ signedQuotient s d ∧ signedQuotient s d ≤ 32767) : divSigned p s d f =
    (BitVec.ofInt 16 (signedRemainder s d) ++ BitVec.ofInt 16 (signedQuotient s d),
      { f with n := decide (signedQuotient s d < 0), z := decide (signedQuotient s d = 0), v := false,
               c := false }) := by
  rw [signedRemainder_eq]
  rw [signedQuotient_eq] at h ⊢
  exact if_neg (by omega)

theorem divSigned_of_overflow (h : ¬(-32768 ≤ signedQuotient s d ∧ signedQuotient s d ≤ 32767)) :
    divSigned p s d f = (d, divOvfFlags p d s true f) := by
  rw [signedQuotient_eq] at h
  exact if_pos (by omega)

end

/-- Settles O25: a quotient that fits is joined below its remainder; one that does not leaves the register. -/
theorem divideWritesQuotientAndRemainder : Obligations.DivideWritesQuotientAndRemainder := by
  intro ea dn
  refine ⟨div_shape (encoded _) (fun _ => rfl) (fun p v d c _ hfits => ?unsigned)
      fun p v d c _ hfits => ?unsignedOverflow,
    div_shape (encoded _) (fun _ => rfl) (fun p v d c _ hfits => ?signed) fun p v d c _ hfits => ?signedOverflow⟩
  case unsigned =>
    have hq : d.toNat / v.toNat ≤ 0xFFFF := by exact_mod_cast hfits
    have hword : (BitVec.ofNat 16 (d.toNat / v.toNat)).toNat = d.toNat / v.toNat := Nat.mod_eq_of_lt (by omega)
    obtain ⟨⟨hn, hz⟩, hv, hc, hx⟩ := nz00_rule (BitVec.ofNat 16 (d.toNat / v.toNat)) c
    rw [hword] at hn hz
    rw [divUnsigned_of_fits hq]
    refine ⟨?_, hn.trans (Int.ofNat_le (m := 2 ^ 15)).symm, hz.trans Int.natCast_eq_zero.symm, hv, hc, hx⟩
    rw [toNat_append, BitVec.toNat_ofNat, BitVec.toNat_ofNat]
    rfl
  case unsignedOverflow => exact divUnsigned_of_overflow (by exact_mod_cast hfits)
  case signed =>
    rw [divSigned_of_fits hfits]
    refine ⟨?_, decide_eq_true_iff, decide_eq_true_iff, rfl, rfl, rfl⟩
    rw [toNat_append]
    push_cast
    rw [ofInt_toNat, ofInt_toNat]
    rfl
  case signedOverflow => exact divSigned_of_overflow hfits

/-- The remainder of a truncated division is smaller than the divisor and is 0 or has the dividend's sign (R220). -/
theorem tmod_bounds (n : Int) {d : Int} (hd : d ≠ 0) :
    |n.tmod d| < |d| ∧ (n.tmod d = 0 ∨ (n.tmod d < 0 ↔ n < 0)) := by
  constructor
  · rw [Int.abs_eq_natAbs, Int.abs_eq_natAbs, Int.natAbs_tmod]
    exact_mod_cast Nat.mod_lt _ (Int.natAbs_pos.mpr hd)
  · rcases Int.le_total 0 n with hn | hn
    · have := Int.tmod_nonneg d hn
      omega
    · have hneg := Int.tmod_nonneg d (Int.neg_nonneg_of_nonpos hn)
      rw [Int.neg_tmod] at hneg
      by_cases hz : n = 0
      · exact .inl (by rw [hz, Int.zero_tmod])
      · omega

/-- A 16-bit half that holds an integer in the range of a signed word is that integer. -/
theorem signed_of_emod {k : Int} {r : Nat} (hk : -32768 ≤ k ∧ k ≤ 32767) (h : (r : Int) = k % 2 ^ 16) :
    signed 16 r = k := by
  unfold signed
  split <;> omega

theorem signed_word_bounds (v : Word) : -32768 ≤ signed 16 v.toNat ∧ signed 16 v.toNat ≤ 32767 := by
  have := v.isLt
  unfold signed
  split <;> omega

theorem signed_word_ne_zero {v : Word} (h : v ≠ 0) : signed 16 v.toNat ≠ 0 := by
  have hv : v.toNat ≠ 0 := fun e => h (BitVec.eq_of_toNat_eq e)
  have := v.isLt
  unfold signed
  split <;> omega

/-- Settles O26: V clear says that the quotient fits; then both halves of the register are read back as the integers of
`divideWritesQuotientAndRemainder`. -/
theorem signedDivisionLaw : Obligations.SignedDivisionLaw := by
  intro ea dn s t u v hread hv hexec hclear n d q r
  obtain ⟨-, hdivs⟩ := (divideWritesQuotientAndRemainder ea dn).2
  obtain ⟨u', hexec', hfit, hover, -⟩ := ((hdivs s).2 v t hread).2 hv
  obtain rfl : u = u' := Host.Outcome.next.inj (hexec.symm.trans hexec')
  have hfits : -32768 ≤ n.tdiv d ∧ n.tdiv d ≤ 32767 := by
    by_contra hnot
    obtain ⟨-, hset, -⟩ := hover hnot
    exact Bool.false_ne_true (hclear.symm.trans hset)
  have hmod : n - n.tdiv d * d = n.tmod d := by rw [Int.tmod_def, Int.mul_comm]
  have hreg : ((u.dreg dn).toNat : Int) = n.tmod d % 2 ^ 16 * 2 ^ 16 + n.tdiv d % 2 ^ 16 := hmod ▸ (hfit hfits).1
  obtain ⟨habs, hsign⟩ := tmod_bounds n (d := d) (signed_word_ne_zero hv)
  have hd : |d| ≤ 32768 := abs_le.mpr ⟨(signed_word_bounds v).1, (signed_word_bounds v).2.trans (by decide)⟩
  have hm : -32768 ≤ n.tmod d ∧ n.tmod d ≤ 32767 := by
    obtain ⟨hlower, hupper⟩ := abs_lt.mp (habs.trans_le hd)
    exact ⟨hlower.le, Int.le_of_lt_add_one hupper⟩
  have hq : q = n.tdiv d := signed_of_emod hfits (by omega)
  have hr : r = n.tmod d := signed_of_emod hm (by omega)
  rw [hq, hr]
  exact ⟨(Int.tdiv_mul_add_tmod n d).symm, habs, hsign⟩

/-! ### 64-bit addition (R190, R194) -/

theorem low_long (v : Long) : low .l v = v.toNat := Nat.mod_eq_of_lt v.isLt

/-- A long write replaces the whole register (R23). -/
theorem dreg_toNat_of_dStored_long {n : RegNum} {r : Nat} {s u : State} (h : DStored n .l r s u) :
    (u.dreg n).toNat = r := by
  have hlt : (s.dreg n).toNat < 2 ^ Size.l.bits := (s.dreg n).isLt
  rw [h.1, Nat.div_eq_of_lt hlt, Nat.zero_mul, Nat.zero_add]

/-- The carry out of a 32-bit sum of two longs, as a number. -/
theorem carry_toNat {carry : Bool} {total : Nat} (h : carry = true ↔ 2 ^ 32 ≤ total) (hlt : total < 2 ^ 33) :
    carry.toNat = total / 2 ^ 32 := by
  cases carry
  · have : ¬2 ^ 32 ≤ total := fun hle => Bool.false_ne_true (h.mpr hle)
    rw [Bool.toNat_false]
    omega
  · have := h.mp rfl
    rw [Bool.toNat_true]
    omega

/-- Settles O60: the carry of ADD.L is the X that ADDX.L adds; ADD.L writes no operand of ADDX.L, which keeps the low
sum. -/
theorem addThenAddxAddsSixtyFourBits : Obligations.AddThenAddxAddsSixtyFourBits := by
  intro s y0 x0 y1 x1 hx hy
  obtain ⟨t, ht, ⟨r0, -, ⟨hsum0, hcarry0, hx0, -⟩, hlow⟩, -⟩ :=
    ((addWritesTheSumAndItsFlags.1 .l (.dreg y0) x0).2 s).2 (s.dPart y0 .l) s rfl
  obtain ⟨u, hu, ⟨r1, -, ⟨hsum1, hcarry1, hx1, -⟩, hhigh⟩, -⟩ := (extendedAddAndSubtract .l y1 x1).1.2 t
  refine ⟨t, u, ht, hu, ?_⟩
  have hbits : 2 ^ Size.l.bits = 2 ^ 32 := rfl
  rw [dPart_toNat, low_long, low_long, hbits] at hsum0 hcarry0
  rw [low_long, low_long, hlow.2 y1 hy, hlow.2 x1 hx, hbits] at hsum1 hcarry1
  have hcarry : t.ccr.x.toNat = ((s.dreg x0).toNat + (s.dreg y0).toNat) / 2 ^ 32 :=
    hx0 ▸ carry_toNat hcarry0 (by omega)
  rw [hhigh.2 x0 hx.symm, dreg_toNat_of_dStored_long hlow, dreg_toNat_of_dStored_long hhigh, hcarry1]
  exact ⟨by omega, by omega, hx1⟩

end Sys2Proof.Machine
end

/-! SUPPORT. Proofs about the logical instructions (spec/43_logical.md): nine forms of the two shapes of
`Sys2Proof.Claims`, with the four bitwise ALU functions. -/

section

namespace Sys2Proof.Machine

open Claims

section
variable {i : Instr} {sz : Size} {ea : Ea} {rule : AluRule} {f : Alu sz}

/-- A read-modify-write whose source is the low part of a data register. -/
theorem modifiesEa_of_dreg {dn : RegNum} (hexec : ∀ s, exec i s = commit s (modifyEa i sz f (s.dPart dn sz) ea s))
    (hea : i.wf = true → ea.mode.isAreg = false ∧ ea.mode.isImm = false)
    (hrule : ∀ s d c, rule sz.bits s.toNat d.toNat (f s d c).1.toNat c (f s d c).2) :
    ModifiesEa i sz (fun s => low sz (s.dreg dn)) ea rule :=
  modifiesEa_of_rule hexec hea (fun _ s => dPart_toNat s dn sz) hrule

/-- A read-modify-write whose source is an immediate; the destination of an admitted one is data alterable. -/
theorem modifiesEa_of_immediate {imm : Long} (hexec : ∀ s, exec i s = commit s (modifyEa i sz f (lowPart sz imm) ea s))
    (hwf : i.wf = (immOk sz imm && ea.ok .dataAlterable sz))
    (hrule : ∀ s d c, rule sz.bits s.toNat d.toNat (f s d c).1.toNat c (f s d c).2) :
    ModifiesEa i sz (fun _ => low sz imm) ea rule :=
  modifiesEa_of_rule hexec (fun h => alterable_of_immediate (hwf ▸ h)) (fun _ _ => lowPart_toNat sz imm) hrule

end

/-- Settles O28: the forms differ in where source and destination are, the operations in their ALU function; the
destination of EOR and NOT may be a data register too, and NOT does not use its source. -/
theorem logicIsBitwise : Obligations.LogicIsBitwise := by
  refine ⟨fun _ _ _ => ?andToDn, fun _ _ _ => ?andToEa, fun _ _ _ => ?andi, fun _ _ _ => ?orToDn,
    fun _ _ _ => ?orToEa, fun _ _ _ => ?ori, fun _ _ _ => ?eor, fun _ _ _ => ?eori, fun _ _ => ?not⟩
  case andToDn => exact eaToDn_shape (encoded _) (fun _ => rfl) aluAnd_rule
  case andToEa => exact modifiesEa_of_dreg (fun _ => rfl) alterable_of_memAlterable aluAnd_rule
  case andi => exact modifiesEa_of_immediate (fun _ => rfl) rfl aluAnd_rule
  case orToDn => exact eaToDn_shape (encoded _) (fun _ => rfl) aluOr_rule
  case orToEa => exact modifiesEa_of_dreg (fun _ => rfl) alterable_of_memAlterable aluOr_rule
  case ori => exact modifiesEa_of_immediate (fun _ => rfl) rfl aluOr_rule
  case eor => exact modifiesEa_of_dreg (fun _ => rfl) (fun hwf => Ea.ok_alterable (.inl hwf)) aluEor_rule
  case eori => exact modifiesEa_of_immediate (fun _ => rfl) rfl aluEor_rule
  case not =>
    exact modifiesEa_of_rule (fun _ => rfl) (fun hwf => Ea.ok_alterable (.inl hwf)) (fun _ _ => BitVec.toNat_zero)
      aluNot_rule

end Sys2Proof.Machine
end

/-! SUPPORT. Proofs about shifts and rotates (spec/44_shift_rotate.md): eight operations, each in the register form and
the memory form, with one ALU function and one rule for both forms. -/

section

namespace Sys2Proof.Machine

open Claims

/-- R271: a memory form meets the rule of its operation with n = 16 and c = 1. -/
theorem modifiesEa_of_shiftMem {i : Instr} {ea : Ea} {rule : ShiftRule} {f : Nat → Word → Ccr → Word × Ccr}
    (hexec : ∀ s, exec i s = commit s (shiftMem i f ea s)) (hwf : i.wf = ea.ok .memAlterable .w)
    (hrule : ∀ c d ccr, rule c 16 d.toNat (f c d ccr).1.toNat ccr (f c d ccr).2) :
    ModifiesEa i .w (fun _ => 0) ea fun n _ d r old new => rule 1 n d r old new :=
  modifiesEa_of_rule hexec (fun h => alterable_of_memAlterable (hwf ▸ h)) (fun _ _ => BitVec.toNat_zero)
    fun _ d ccr => hrule 1 d ccr

/-- Settles O29: each shift by the rule of its ALU function; the cases of ASL's overflow are those of the most
significant bit among the shifted operands. -/
theorem registerShifts : Obligations.RegisterShifts := by
  refine ⟨fun sz cnt dn => ⟨?asr, ?asl, ?lsr, ?lsl⟩, fun c _ d hn hd => msbChanges_cases c d hn hd⟩
  case asr => exact shifts_shape (encoded _) (fun _ => rfl) (aluAsr_rule (size_pos sz))
  case asl => exact shifts_shape (encoded _) (fun _ => rfl) (aluAsl_rule (size_pos sz))
  case lsr => exact shifts_shape (encoded _) (fun _ => rfl) aluLsr_rule
  case lsl => exact shifts_shape (encoded _) (fun _ => rfl) aluLsl_rule

/-- Settles O30: ROR and ROL turn the n > 0 bits of the operand, ROXR and ROXL the n + 1 bits with X. -/
theorem registerRotates : Obligations.RegisterRotates := by
  refine fun sz cnt dn => ⟨?ror, ?rol, ?roxr, ?roxl⟩
  case ror => exact shifts_shape (encoded _) (fun _ => rfl) (aluRor_rule (size_pos sz))
  case rol => exact shifts_shape (encoded _) (fun _ => rfl) (aluRol_rule (size_pos sz))
  case roxr => exact shifts_shape (encoded _) (fun _ => rfl) aluRoxr_rule
  case roxl => exact shifts_shape (encoded _) (fun _ => rfl) aluRoxl_rule

/-- Settles O31: the memory forms use the ALU functions of the register forms, so the same rules hold of them. -/
theorem memoryShiftsAndRotates : Obligations.MemoryShiftsAndRotates := by
  have hbits : 0 < 16 := by decide
  refine fun ea => ⟨?asr, ?asl, ?lsr, ?lsl, ?ror, ?rol, ?roxr, ?roxl⟩
  case asr => exact modifiesEa_of_shiftMem (fun _ => rfl) rfl (aluAsr_rule hbits)
  case asl => exact modifiesEa_of_shiftMem (fun _ => rfl) rfl (aluAsl_rule hbits)
  case lsr => exact modifiesEa_of_shiftMem (fun _ => rfl) rfl aluLsr_rule
  case lsl => exact modifiesEa_of_shiftMem (fun _ => rfl) rfl aluLsl_rule
  case ror => exact modifiesEa_of_shiftMem (fun _ => rfl) rfl (aluRor_rule hbits)
  case rol => exact modifiesEa_of_shiftMem (fun _ => rfl) rfl (aluRol_rule hbits)
  case roxr => exact modifiesEa_of_shiftMem (fun _ => rfl) rfl aluRoxr_rule
  case roxl => exact modifiesEa_of_shiftMem (fun _ => rfl) rfl aluRoxl_rule

end Sys2Proof.Machine
end

/-! SUPPORT. Proofs about bit manipulation (spec/45_bit_manipulation.md): BTST is one test of a bit, BCHG, BCLR and BSET
are one change of a bit by different functions; where the bit number comes from does not matter. -/

section

namespace Sys2Proof.Machine

open Claims

/-! ### The operand size (R280) -/

theorem bitSize_dreg (n : RegNum) : bitSize (.dreg n) = .l := rfl

theorem bitSize_of_ne_dreg {ea : Ea} (h : ∀ n, ea ≠ .dreg n) : bitSize ea = .b := by
  cases ea
  case dreg n => exact absurd rfl (h n)
  all_goals rfl

/-! ### One bit inverted, cleared or set -/

section
variable {n j k : Nat} (v : BitVec n)

/-- The mask of the three operations. -/
theorem getLsbD_bitMask (hk : k < n) : (BitVec.ofNat n (2 ^ j)).getLsbD k = decide (k = j) := by
  rw [BitVec.getLsbD_ofNat, decide_eq_true hk, Bool.true_and, Nat.testBit_two_pow]
  exact decide_eq_decide.mpr eq_comm

theorem getLsbD_bitFlip (hk : k < n) :
    (bitFlip v j).getLsbD k = if k = j then !v.getLsbD k else v.getLsbD k := by
  rw [bitFlip, BitVec.getLsbD_xor, getLsbD_bitMask hk]
  by_cases h : k = j <;> simp [h]

theorem getLsbD_bitClear (hk : k < n) :
    (bitClear v j).getLsbD k = if k = j then false else v.getLsbD k := by
  rw [bitClear, BitVec.getLsbD_and, BitVec.getLsbD_not, getLsbD_bitMask hk]
  by_cases h : k = j <;> simp [h, hk]

theorem getLsbD_bitSet (hk : k < n) :
    (bitSet v j).getLsbD k = if k = j then true else v.getLsbD k := by
  rw [bitSet, BitVec.getLsbD_or, getLsbD_bitMask hk]
  by_cases h : k = j <;> simp [h]

end

/-! ### The two shapes -/

section
variable {i : Instr} {ea : Ea} {b : State → Nat}

/-- A bit test meets BTST's rule: the operand's read keeps the flags. -/
theorem readsEa_of_bitTest (hexec : ∀ s, exec i s = commit s (bitTest i (b s) ea s)) :
    ReadsEa i (bitSize ea) ea fun s v new => testRule (bitSize ea).bits (b s) v s.ccr new := by
  refine reads_shape (encoded i)
    (g := fun s v t => { t.ccr with z := !v.getLsbD (b s % (bitSize ea).bits) })
    (fun s c hc => ?error) (fun s v t hread => ?ok) fun s v t hread => ?flags
  case error => rw [hexec, bitTest, hc]
  case ok => rw [hexec, bitTest, hread]
  case flags => rw [testRule, BitVec.testBit_toNat, readEa_ccr hread]

/-- A change of one bit by `f` meets the rule of BCHG, BCLR and BSET when `f` gives that bit the value `g` of itself. -/
theorem modifiesEa_of_bitModify {f : BitVec (bitSize ea).bits → Nat → BitVec (bitSize ea).bits} {g : Bool → Bool}
    (hexec : ∀ s, exec i s = commit s (bitModify i (b s) ea f s)) (hwf : i.wf = ea.ok .dataAlterable .b)
    (hbit : ∀ v j k, k < (bitSize ea).bits → (f v j).getLsbD k = if k = j then g (v.getLsbD k) else v.getLsbD k) :
    ModifiesEa i (bitSize ea) b ea (bitRule g) := by
  refine modifies_shape (encoded i) hexec (fun h => Ea.ok_alterable (.inl (hwf ▸ h))) fun _ s d c =>
    ⟨fun k hk => ?bits, ?flags⟩
  case bits => exact hbit d _ k hk
  case flags => rw [BitVec.testBit_toNat]

end

/-- Settles O32: each operation by its shape, the bit number being the immediate or the data register. -/
theorem bitInstructions : Obligations.BitInstructions := by
  refine ⟨fun ea => ⟨fun n h => h ▸ bitSize_dreg n, bitSize_of_ne_dreg⟩, fun _ _ => ?btstImm, fun _ _ => ?btstDn,
    fun _ _ => ?bchgImm, fun _ _ => ?bchgDn, fun _ _ => ?bclrImm, fun _ _ => ?bclrDn, fun _ _ => ?bsetImm,
    fun _ _ => ?bsetDn⟩
  case btstImm => exact readsEa_of_bitTest fun _ => rfl
  case btstDn => exact readsEa_of_bitTest fun _ => rfl
  case bchgImm => exact modifiesEa_of_bitModify (fun _ => rfl) rfl fun v _ _ => getLsbD_bitFlip v
  case bchgDn => exact modifiesEa_of_bitModify (fun _ => rfl) rfl fun v _ _ => getLsbD_bitFlip v
  case bclrImm => exact modifiesEa_of_bitModify (fun _ => rfl) rfl fun v _ _ => getLsbD_bitClear v
  case bclrDn => exact modifiesEa_of_bitModify (fun _ => rfl) rfl fun v _ _ => getLsbD_bitClear v
  case bsetImm => exact modifiesEa_of_bitModify (fun _ => rfl) rfl fun v _ _ => getLsbD_bitSet v
  case bsetDn => exact modifiesEa_of_bitModify (fun _ => rfl) rfl fun v _ _ => getLsbD_bitSet v

end Sys2Proof.Machine
end

/-! SUPPORT. Proofs about program control (spec/46_program_control.md): the condition table, the transfers of control that
only write the program counter, the calls that push it and the returns that pop it. -/

section

namespace Sys2Proof.Machine

open Claims

/-! ### The condition table (R290) -/

section
variable (f : Ccr)

theorem condHolds_hi : condHolds .hi f = true ↔ f.c = false ∧ f.z = false := by simp [condHolds]

theorem condHolds_cc : condHolds .cc f = true ↔ f.c = false := by simp [condHolds]

theorem condHolds_ne : condHolds .ne f = true ↔ f.z = false := by simp [condHolds]

theorem condHolds_vc : condHolds .vc f = true ↔ f.v = false := by simp [condHolds]

theorem condHolds_pl : condHolds .pl f = true ↔ f.n = false := by simp [condHolds]

theorem condHolds_ge : condHolds .ge f = true ↔ f.n = f.v := by simp [condHolds]

theorem condHolds_gt : condHolds .gt f = true ↔ f.z = false ∧ f.n = f.v := by simp [condHolds]

/-- Each odd-numbered condition is the negation of the even one before it. -/
theorem condHolds_odd {k : Nat} (hk : k < 8) :
    condHolds (condOf (2 * k + 1)) f = !condHolds (condOf (2 * k)) f := by
  interval_cases k <;> simp [condOf, condHolds, bne]

/-- The same for the conditions themselves: where the even one says `p`, the odd one says that `p` fails. -/
theorem condHolds_odd_iff {k : Nat} (hk : k < 8) {p : Prop} (h : condHolds (condOf (2 * k)) f = true ↔ p) :
    condHolds (condOf (2 * k + 1)) f = true ↔ ¬p := by
  rw [condHolds_odd f hk, Bool.not_eq_true', ← Bool.not_eq_true, h]

/-- X is never read. -/
theorem condHolds_x (k : Cond) (x : Bool) : condHolds k { f with x := x } = condHolds k f := by cases k <;> rfl

end

theorem ne_of_branchOk {k : Cond} (h : k.branchOk = true) : k ≠ .t ∧ k ≠ .f :=
  ⟨fun e => absurd (e ▸ h) (by decide), fun e => absurd (e ▸ h) (by decide)⟩

/-! ### What the flags of a comparison say (R207, R290) -/

section
variable {n s d : Nat} {old f : Ccr}

/-- A difference reduced to `n` bits wraps at most once. -/
theorem sub_emod_cases {r : Nat} (hs : s < 2 ^ n) (hd : d < 2 ^ n) (h : (r : Int) = ((d : Int) - s) % 2 ^ n) :
    r < 2 ^ n ∧ (r + s = d ∨ r + s = d + 2 ^ n) := by
  obtain ⟨a, rfl⟩ : ∃ a : BitVec n, a.toNat = s := ⟨BitVec.ofNatLT s hs, rfl⟩
  obtain ⟨b, rfl⟩ : ∃ b : BitVec n, b.toNat = d := ⟨BitVec.ofNatLT d hd, rfl⟩
  have hsub : ((subWith b a false).toNat : Int) = ((b.toNat : Int) - a.toNat) % 2 ^ n :=
    (subWith_toNat b a false).trans (by simp)
  obtain rfl : r = (subWith b a false).toNat := by exact_mod_cast h.trans hsub.symm
  exact ⟨BitVec.isLt _, subWith_toNat_cases b a false⟩

/-- The signed value over half the modulus. -/
theorem signed_cases (hn : 0 < n) (a : Nat) :
    Msb n a ∧ signed n a = a - (2 ^ (n - 1) : Nat) * 2 ∨ ¬Msb n a ∧ signed n a = a := by
  have hp : (2 : Int) ^ n = (2 ^ (n - 1) : Nat) * 2 := by exact_mod_cast (Nat.two_pow_pred_mul_two hn).symm
  rw [signed, hp, Msb]
  by_cases h : 2 ^ (n - 1) ≤ a
  · exact .inl ⟨h, if_pos h⟩
  · exact .inr ⟨h, if_neg h⟩

theorem signed_inj (hn : 0 < n) (hs : s < 2 ^ n) (hd : d < 2 ^ n) : signed n s = signed n d ↔ s = d := by
  have hp := Nat.two_pow_pred_mul_two hn
  have hss := signed_cases hn s
  have hds := signed_cases hn d
  simp only [Msb] at hss hds
  omega

/-- C compares the unsigned values, Z tells equality, N and V together compare the signed values. -/
theorem cmpRule_order (hn : 0 < n) (hs : s < 2 ^ n) (hd : d < 2 ^ n) (h : cmpRule n s d old f) :
    (f.c = false ↔ s ≤ d) ∧ (f.z = false ↔ d ≠ s) ∧ (f.n = f.v ↔ signed n s ≤ signed n d) := by
  obtain ⟨r, hr, hc, hv, ⟨hneg, hz⟩, -⟩ := h
  obtain ⟨hrlt, hcases⟩ := sub_emod_cases hs hd hr
  refine ⟨?_, ?_, ?_⟩
  · rw [← Bool.not_eq_true, hc, Nat.not_lt]
  · rw [← Bool.not_eq_true, hz]
    omega
  · have hp := Nat.two_pow_pred_mul_two hn
    have hss := signed_cases hn s
    have hds := signed_cases hn d
    rw [Bool.eq_iff_iff, hneg, hv, OvfSub]
    simp only [Msb] at hss hds ⊢
    omega

end

/-- The conditions after a comparison: the even ones by the flags, the odd ones as their negations. -/
theorem condHolds_of_cmpRule {n s d : Nat} {old f : Ccr} (hn : 0 < n) (hs : s < 2 ^ n) (hd : d < 2 ^ n)
    (h : cmpRule n s d old f) :
    (condHolds .hi f = true ↔ s < d) ∧ (condHolds .ls f = true ↔ d ≤ s) ∧
    (condHolds .cc f = true ↔ s ≤ d) ∧ (condHolds .cs f = true ↔ d < s) ∧
    (condHolds .ne f = true ↔ d ≠ s) ∧ (condHolds .eq f = true ↔ d = s) ∧
    (condHolds .ge f = true ↔ signed n s ≤ signed n d) ∧ (condHolds .lt f = true ↔ signed n d < signed n s) ∧
    (condHolds .gt f = true ↔ signed n s < signed n d) ∧ (condHolds .le f = true ↔ signed n d ≤ signed n s) := by
  obtain ⟨hc, hz, hnv⟩ := cmpRule_order hn hs hd h
  have hinj := signed_inj hn hs hd
  have hhi : condHolds .hi f = true ↔ s < d := by rw [condHolds_hi, hc, hz]; omega
  have hcc : condHolds .cc f = true ↔ s ≤ d := (condHolds_cc f).trans hc
  have hne : condHolds .ne f = true ↔ d ≠ s := (condHolds_ne f).trans hz
  have hge : condHolds .ge f = true ↔ signed n s ≤ signed n d := (condHolds_ge f).trans hnv
  have hgt : condHolds .gt f = true ↔ signed n s < signed n d := by rw [condHolds_gt, hz, hnv]; omega
  have hodd {k : Nat} (hk : k < 8) {p : Prop} := condHolds_odd_iff f hk (p := p)
  exact ⟨hhi, (hodd (k := 1) (by decide) hhi).trans Nat.not_lt, hcc, (hodd (k := 2) (by decide) hcc).trans Nat.not_le,
    hne, (hodd (k := 3) (by decide) hne).trans not_not, hge, (hodd (k := 6) (by decide) hge).trans Int.not_le, hgt,
    (hodd (k := 7) (by decide) hgt).trans Int.not_lt⟩

/-- Settles O33: the even conditions by the flags they read, the odd ones as negations, and after a comparison by what
C, Z and N with V say. -/
theorem conditionTable : Obligations.ConditionTable :=
  ⟨fun f => ⟨rfl, condHolds_hi f, condHolds_cc f, condHolds_ne f, condHolds_vc f, condHolds_pl f, condHolds_ge f,
      condHolds_gt f, fun _ => condHolds_odd f, condHolds_x f⟩,
    fun k => by rw [toNat_cccc, condOf_code], fun _ _ => rfl,
    fun _ => ⟨fun _ h => ne_of_branchOk (Bool.and_eq_true_iff.mp h).1, fun _ _ => rfl, fun _ => rfl⟩,
    fun _ _ _ _ _ => condHolds_of_cmpRule⟩

/-! ### Branches (R295, R296, R297) -/

theorem dispValue_eq_dispOf : ∀ d : Disp, dispValue d = dispOf d
  | .short _ => rfl
  | .long _ => rfl

theorem branchTarget_dispValue (d : Disp) (s : State) : branchTarget (dispValue d) s = s.pc + 2 + dispOf d := by
  rw [branchTarget, dispValue_eq_dispOf]

theorem onlyPc_setPc (s : State) (v : Long) : OnlyPc s (s.setPc v) :=
  ⟨fun _ => rfl, fun _ => rfl, ⟨rfl, fun _ => rfl⟩, rfl, rfl, rfl, rfl⟩

/-- A transfer of control that writes the program counter and nothing else. -/
theorem completes_setPc {i : Instr} {s : State} {v target : Long} (hexec : exec i s = commit s (.ok (s.setPc v)))
    (hv : v = target) : Completes i s fun u => u.pc = target ∧ OnlyPc s u :=
  completes_of hexec rfl ⟨hv, onlyPc_setPc s v⟩

/-- BSR and JSR: the address of the next instruction is pushed, then control goes to the target. -/
theorem pushes_of_call {i : Instr} {s : State} {target : Long} (hexec : exec i s = commit s (call i target s)) :
    Pushes i s (next i s) target :=
  pushes_shape (·.setPc target) (fun _ => ⟨rfl, rfl, rfl, rfl, rfl, rfl, rfl, rfl⟩)
    (by rw [hexec, call, nextPc_eq]; rfl) fun _ _ => rfl

theorem exec_bsr (d : Disp) (s : State) :
    exec (.bsr d) s = commit s (call (.bsr d) (branchTarget (dispValue d) s) s) := rfl

/-- Settles O34: BRA and Bcc write the program counter, BSR is a call. -/
theorem branchesGoToTheirTarget : Obligations.BranchesGoToTheirTarget := by
  refine ⟨fun d => ⟨encoded _, fun s => ?bra⟩, fun d => ⟨encoded _, fun s => ?bsr⟩,
    fun k d => ⟨encoded _, fun s => ?bcc⟩⟩
  case bra => exact completes_setPc rfl (branchTarget_dispValue d s)
  case bsr => exact branchTarget_dispValue d s ▸ pushes_of_call (exec_bsr d s)
  case bcc => exact completes_setPc rfl (by rw [branchTarget_dispValue, nextPc_eq, next])

/-! ### DBcc and Scc (R298, R299) -/

section
variable {k : Cond} {dn : RegNum} {d : Word} {s : State}

theorem exec_dbcc_of_true (h : condHolds k s.ccr = true) :
    exec (.dbcc k dn d) s = commit s (.ok (s.setPc (s.pc + 4))) := by
  show execDbcc k dn d s = _
  rw [execDbcc, if_pos h]
  rfl

theorem exec_dbcc_of_false (h : condHolds k s.ccr = false) :
    exec (.dbcc k dn d) s = commit s (.ok ((s.setDPart dn .w (s.dPart dn .w - 1)).setPc
      (if s.dPart dn .w - 1 = 0xFFFF#16 then s.pc + 4 else s.pc + 2 + d.signExtend 32))) := by
  show execDbcc k dn d s = _
  rw [execDbcc, if_neg (by rw [h]; decide)]
  by_cases hz : s.dPart dn .w - 1 = 0xFFFF#16
  · simp only [if_pos hz]
    rfl
  · simp only [if_neg hz]
    rfl

/-- The counter of DBcc, one less modulo 2^16. -/
theorem toNat_dPart_sub_one (s : State) (dn : RegNum) :
    (s.dPart dn .w - 1).toNat = (low .w (s.dreg dn) + 0xFFFF) % 2 ^ 16 := by
  rw [BitVec.toNat_sub, dPart_toNat, Nat.add_comm]
  rfl

end

/-- The byte that Scc stores. -/
theorem toNat_sccByte (b : Bool) : (if b then 0xFF#8 else 0#8).toNat = if b then 0xFF else 0x00 := by cases b <;> rfl

/-- Settles O35: DBcc by its condition, its counter compared as a number; Scc is a store. -/
theorem dbccCountsDownAndSccStores : Obligations.DbccCountsDownAndSccStores := by
  refine ⟨fun k dn d => ⟨encoded _, fun s => ⟨fun h => ?stops, fun h => ?counts⟩⟩, fun k ea => ?scc⟩
  case stops => exact completes_setPc (exec_dbcc_of_true h) rfl
  case counts =>
    have hcount := toNat_dPart_sub_one s dn
    refine completes_of (exec_dbcc_of_false h) rfl ⟨?_, ?_, fun _ => rfl, ⟨rfl, fun _ => rfl⟩, rfl, rfl, rfl, rfl⟩
    · exact hcount ▸ dStored_setDPart s dn .w (s.dPart dn .w - 1)
    · rw [State.setPc_pc, ← hcount]
      simp only [← BitVec.toNat_inj]
      rfl
  case scc =>
    exact storesEa_of_exec (w := fun s => if condHolds k s.ccr then 0xFF#8 else 0#8) (f := fun s => s.ccr)
      (fun _ => rfl) (fun hwf => Ea.ok_alterable (.inl hwf)) (fun s => toNat_sccByte (condHolds k s.ccr)) fun _ => rfl

/-! ### JMP and JSR (R300, R301) -/

section
variable {ea : Ea} {s : State}

theorem exec_jmp_of_error {c : Cause} (h : eaAddr (.jmp ea) ea s = .error c) :
    exec (.jmp ea) s = commit s (.error c) := by
  show execJmp ea s = _
  rw [execJmp, h]

theorem exec_jmp_of_ok {a : Long} (h : eaAddr (.jmp ea) ea s = .ok a) :
    exec (.jmp ea) s = commit s (.ok (s.setPc a)) := by
  show execJmp ea s = _
  rw [execJmp, h]

theorem exec_jsr_of_error {c : Cause} (h : eaAddr (.jsr ea) ea s = .error c) :
    exec (.jsr ea) s = commit s (.error c) := by
  show execJsr ea s = _
  simp only [execJsr, h]

theorem exec_jsr_of_ok {a : Long} (h : eaAddr (.jsr ea) ea s = .ok a) :
    exec (.jsr ea) s = commit s (call (.jsr ea) a s) := by
  show execJsr ea s = _
  simp only [execJsr, h]

end

/-- Settles O36: the address is `eaAddr`'s in the state before; JMP writes it, JSR is a call of it. -/
theorem jumpsGoToTheOperandAddress : Obligations.JumpsGoToTheOperandAddress :=
  ⟨fun _ => ⟨encoded _, fun _ hwf =>
      ⟨fun _ hc => ⟨faults_of (exec_jmp_of_error hc) rfl, eaAddr_err (isControl_of_ok hwf) hc⟩,
        fun _ ha => completes_setPc (exec_jmp_of_ok ha) rfl⟩⟩,
    fun _ => ⟨encoded _, fun _ _ =>
      ⟨fun _ hc => faults_of (exec_jsr_of_error hc) rfl, fun _ ha => pushes_of_call (exec_jsr_of_ok ha)⟩⟩⟩

/-! ### RTS, RTR and NOP (R302, R303, R304) -/

section
variable {s : State}

theorem exec_rts_of_some {c : Cause} (h : accessFault s.cfg (s.areg 7) 4 .read = some c) :
    exec .rts s = commit s (.error c) := by
  show execRts s = _
  rw [execRts, pop_of_some h]

theorem exec_rts_of_pop {v : Long} {t : State} (h : pop s = .ok (v, t)) :
    exec .rts s = commit s (.ok (t.setPc v)) := by
  show execRts s = _
  rw [execRts, h]

theorem exec_rtr_of_some {c : Cause} (h : accessFault s.cfg (s.areg 7) 2 .read = some c) :
    exec .rtr s = commit s (.error c) := by
  show execRtr s = _
  simp only [execRtr, spNum, memRead_of_some h]

theorem exec_rtr_of_none_some {c : Cause} (hw : accessFault s.cfg (s.areg 7) 2 .read = none)
    (hl : accessFault s.cfg (s.areg 7 + 2) 4 .read = some c) : exec .rtr s = commit s (.error c) := by
  show execRtr s = _
  simp only [execRtr, spNum, memRead_of_none hw, memRead_of_some hl]

theorem exec_rtr_of_none (hw : accessFault s.cfg (s.areg 7) 2 .read = none)
    (hl : accessFault s.cfg (s.areg 7 + 2) 4 .read = none) :
    ∃ (w : Word) (v : Long), w.toNat = valueAt s (s.areg 7) 2 ∧ v.toNat = valueAt s (s.areg 7 + 2) 4 ∧
      exec .rtr s = commit s (.ok
        (((s.setA 7 (s.areg 7 + 6)).setCcr (Ccr.unpack (w.setWidth 5))).setPc v)) := by
  refine ⟨_, _, readNat_toNat s.mem _ 2, readNat_toNat s.mem _ 4, ?_⟩
  show execRtr s = _
  simp only [execRtr, spNum, memRead_of_none hw, memRead_of_none hl]

/-- The low five bits of a word as flags (R28). -/
theorem flagsAre_unpack (w : Word) : FlagsAre w.toNat (Ccr.unpack (w.setWidth 5)) := by
  have hbit (i : Nat) (hi : i < 5) : (w.setWidth 5).getLsbD i = w.toNat.testBit i := by
    rw [BitVec.getLsbD_setWidth, decide_eq_true hi, Bool.true_and, BitVec.testBit_toNat]
  exact ⟨hbit 0 (by decide), hbit 1 (by decide), hbit 2 (by decide), hbit 3 (by decide), hbit 4 (by decide)⟩

end

/-- Settles O37: RTS by whether its pop faults, RTR by whether its first and then its second read does. -/
theorem returnsPopThePc : Obligations.ReturnsPopThePc := by
  refine ⟨⟨encoded _, fun s => ⟨fun c hc => faults_of (exec_rts_of_some hc) rfl, fun hnone => ?rts⟩⟩,
    ⟨encoded _, fun s => ⟨fun c hc => faults_of (exec_rtr_of_some hc) rfl,
      fun hw c hc => faults_of (exec_rtr_of_none_some hw hc) rfl, fun hw hl => ?rtr⟩⟩,
    ⟨encoded _, fun s => completes_setPc rfl rfl⟩⟩
  case rts =>
    obtain ⟨v, hpop, hv⟩ := pop_of_none hnone
    exact completes_of (exec_rts_of_pop hpop) rfl ⟨hv, State.areg_setA_self s 7 _, aKeptBut_setA s 7 _, fun _ => rfl,
      ⟨rfl, fun _ => rfl⟩, rfl, rfl, rfl, rfl⟩
  case rtr =>
    obtain ⟨w, v, hflags, hv, hexec⟩ := exec_rtr_of_none hw hl
    exact completes_of hexec rfl ⟨hflags ▸ flagsAre_unpack w, hv, State.areg_setA_self s 7 _, aKeptBut_setA s 7 _,
      fun _ => rfl, fun _ => rfl, rfl, rfl, rfl, rfl⟩

/-! ### A call and its return (R296, R301, R302) -/

/-- An RTS at the target of a call pops what the call pushed and restores the stack pointer. -/
theorem exec_rts_of_push {s t : State} {v : Long} (target : Long) (h : push s v = .ok t) :
    ∃ w, exec .rts (t.setPc target) = .next w ∧ w.pc = v ∧ AKept s w ∧ DKept s w ∧ w.ccr = s.ccr ∧
      ControlKept s w := by
  have hread : memRead t (s.areg 7 - 4) 4 = .ok v := memRead_memWrite h
  obtain ⟨-, ht⟩ := push_ok h
  have hsp : t.areg 7 = s.areg 7 - 4 := by rw [ht]; exact State.areg_setA_self s 7 _
  have hothers : AKeptBut 7 s t := by rw [ht]; exact aKeptBut_setA s 7 _
  have hpop : pop (t.setPc target) = .ok (v, (t.setPc target).setA 7 (t.areg 7 + 4)) :=
    pop_of_memRead (s := t.setPc target) (hsp ▸ hread)
  refine ⟨_, exec_rts_of_pop hpop, rfl, fun n => ?registers, ?data, ?flags, ?control⟩
  case registers =>
    rw [State.areg_setPc, State.areg_setA]
    by_cases hn : n = 7
    · rw [if_pos hn, hn, hsp, BitVec.sub_add_cancel]
    · rw [if_neg hn]
      exact hothers n hn
  case data => rw [ht]; exact fun _ => rfl
  case flags => rw [ht]; rfl
  case control => rw [ht]; exact ⟨rfl, rfl, rfl, rfl⟩

/-- Settles O59: JSR and BSR are the same call, and the return undoes its push. -/
theorem returnAfterCallComesBack : Obligations.ReturnAfterCallComesBack := by
  intro s i target hcall hnone
  have hexec : exec i s = commit s (call i target s) := by
    obtain ⟨ea, rfl, ha⟩ | ⟨d, rfl, rfl⟩ := hcall
    · exact exec_jsr_of_ok ha
    · rw [exec_bsr, branchTarget_dispValue]
  have hpush := push_of_none (v := nextPc i s) hnone
  obtain ⟨w, hrts, hpc, hrest⟩ := exec_rts_of_push target hpush
  refine ⟨_, w, ?_, rfl, hrts, hpc.trans (nextPc_eq i s), hrest⟩
  rw [hexec, call, hpush, commit_ok]

end Sys2Proof.Machine
end

/-! SUPPORT. Proofs about the system instructions (spec/47_system.md): the four that write the flags as a whole, and the
request half of TRAP with the scan of a text. -/

section

namespace Sys2Proof.Machine

open Claims

/-! ### The flags as a whole (R321 to R324) -/

theorem unpack_low5 (f : Ccr) : Ccr.unpack f.low5 = f := unpack_pack f

/-- Each flag of `old` combined with the same flag of `mask`. -/
def combineFlags (f : Bool → Bool → Bool) (old mask : Ccr) : Ccr :=
  ⟨f old.x mask.x, f old.n mask.n, f old.z mask.z, f old.v mask.v, f old.c mask.c⟩

/-- A bitwise operation on the packed flags is the same operation on each flag. -/
theorem unpack_of_bitwise {op : BitVec 5 → BitVec 5 → BitVec 5} {f : Bool → Bool → Bool}
    (hop : ∀ a b k, (op a b).getLsbD k = f (a.getLsbD k) (b.getLsbD k)) (old : Ccr) (imm : BitVec 5) :
    Ccr.unpack (op old.low5 imm) = combineFlags f old (Ccr.unpack imm) := by
  have hbits (a b : BitVec 5) : Ccr.unpack (op a b) = combineFlags f (Ccr.unpack a) (Ccr.unpack b) := by
    simp only [Ccr.unpack, hop, combineFlags]
  rw [hbits, unpack_low5]

theorem exec_moveToCcr (ea : Ea) (s : State) : exec (.moveToCcr ea) s =
    commit s (flagsFromEa (.moveToCcr ea) .w ea (fun v _ => Ccr.unpack (v.setWidth 5)) s) := by
  rw [exec, execMoveToCcr, flagsFromEa]
  cases readEa (.moveToCcr ea) .w ea s <;> rfl

section
variable (imm : BitVec 5) (s : State)

theorem exec_andiCcr : exec (.andiCcr imm) s = commit s (.ok (advance (.andiCcr imm)
    (s.setCcr (combineFlags (fun old b => old && b) s.ccr (Ccr.unpack imm))))) := by
  rw [← unpack_of_bitwise fun _ _ _ => BitVec.getLsbD_and]
  rfl

theorem exec_oriCcr : exec (.oriCcr imm) s = commit s (.ok (advance (.oriCcr imm)
    (s.setCcr (combineFlags (fun old b => old || b) s.ccr (Ccr.unpack imm))))) := by
  rw [← unpack_of_bitwise fun _ _ _ => BitVec.getLsbD_or]
  rfl

theorem exec_eoriCcr : exec (.eoriCcr imm) s = commit s (.ok (advance (.eoriCcr imm)
    (s.setCcr (combineFlags (fun old b => old != b) s.ccr (Ccr.unpack imm))))) := by
  rw [← unpack_of_bitwise fun _ _ _ => BitVec.getLsbD_xor]
  rfl

end

/-- Settles O38: MOVE to CCR reads its operand and sets the flags from its low bits; each immediate form is one operation
on every flag. -/
theorem ccrInstructions : Obligations.CcrInstructions := by
  refine ⟨fun ea => readsEa_of_flags (exec_moveToCcr ea) fun _ v _ _ _ => flagsAre_unpack v,
    fun imm i f hi => ⟨encoded i, fun s => ?immediate⟩⟩
  case immediate =>
    have hexec : exec i s = commit s (.ok (advance i (s.setCcr (combineFlags f s.ccr (Ccr.unpack imm))))) := by
      obtain ⟨rfl, rfl⟩ | ⟨rfl, rfl⟩ | ⟨rfl, rfl⟩ := hi
      · exact exec_andiCcr imm s
      · exact exec_oriCcr imm s
      · exact exec_eoriCcr imm s
    exact completes_of hexec rfl ⟨rfl, rfl, rfl, rfl, rfl, fun _ => rfl, fun _ => rfl, fun _ => rfl,
      ⟨rfl, rfl, rfl, rfl⟩, pcNext_advance i s _ rfl⟩

/-! ### The scan of a text (R320, R358) -/

section
variable {s : State} {a : Long}

theorem scanString_of_zero {text : List Byte}
    (hbytes : ∀ j, j < text.length → text[j]? = some (s.mem.read (a.toNat + j))) (hne : ∀ b, b ∈ text → b ≠ 0)
    (hend : s.mem.read (a.toNat + text.length) = 0) (hrange : a.toNat + text.length < s.cfg.memSize) :
    scanString s a = .ok text := by
  rw [scanString, scanBytes_some s.mem text _ a.toNat hbytes hne hend (by omega)]

/-- A buffer at or above MEM_SIZE has no byte in range. -/
theorem scanString_of_no_zero (h : ∀ x, a.toNat ≤ x → x < s.cfg.memSize → s.mem.read x ≠ 0) :
    scanString s a = .error (.accessFault (max a.toNat s.cfg.memSize) 1 .read) := by
  rw [scanString, scanBytes_none s.mem _ a.toNat fun x hx hlt => h x hx (by omega)]

end

/-! ### The request half of TRAP (R320) -/

theorem dPart_eq_ofNat (s : State) (n : RegNum) (sz : Size) :
    s.dPart n sz = BitVec.ofNat sz.bits (low sz (s.dreg n)) := by
  rw [← dPart_toNat, BitVec.ofNat_toNat, BitVec.setWidth_eq]

section
variable {s : State}

theorem exec_trap_of_ne {v : Fin 16} (h : v ≠ 15) :
    exec (.trap v) s = commit s (.error (.unimplementedTrap v none)) := by
  rw [exec, execTrap, if_pos h]

theorem exec_trap_readString (h : low .b (s.dreg 0) = 2) :
    exec (.trap 15) s = commit s (publish (.trap 15) (.readString (s.areg 1) s.cfg.rsMax) s) := by
  rw [exec, execTrap, dPart_toNat, h]
  rfl

theorem exec_trap_writeInteger (h : low .b (s.dreg 0) = 3) :
    exec (.trap 15) s = commit s (publish (.trap 15) (.writeInteger (s.dreg 1)) s) := by
  rw [exec, execTrap, dPart_toNat, h]
  rfl

theorem exec_trap_readInteger (h : low .b (s.dreg 0) = 4) :
    exec (.trap 15) s = commit s (publish (.trap 15) .readInteger s) := by
  rw [exec, execTrap, dPart_toNat, h]
  rfl

theorem exec_trap_terminate (h : low .b (s.dreg 0) = 9) :
    exec (.trap 15) s = commit s (.ok { advance (.trap 15) s with status := .terminated }) := by
  rw [exec, execTrap, dPart_toNat, h]
  rfl

theorem exec_trap_writeString (h : low .b (s.dreg 0) = 14) {text : List Byte}
    (hscan : scanString s (s.areg 1) = .ok text) :
    exec (.trap 15) s = commit s (publish (.trap 15) (.writeString text) s) := by
  rw [exec, execTrap, dPart_toNat, h, hscan]
  rfl

theorem exec_trap_of_scan_error (h : low .b (s.dreg 0) = 14) {c : Cause}
    (hscan : scanString s (s.areg 1) = .error c) : exec (.trap 15) s = commit s (.error c) := by
  rw [exec, execTrap, dPart_toNat, h, hscan]
  rfl

theorem exec_trap_of_not_task (h : low .b (s.dreg 0) ∉ [2, 3, 4, 9, 14]) :
    exec (.trap 15) s = commit s (.error (.unimplementedTrap 15 (some (BitVec.ofNat 8 (low .b (s.dreg 0)))))) := by
  simp only [List.mem_cons, List.not_mem_nil, or_false, not_or] at h
  obtain ⟨h2, h3, h4, h9, h14⟩ := h
  rw [exec, execTrap, if_neg (not_not.mpr rfl), dPart_toNat, dPart_eq_ofNat]
  split
  case h_6 => rfl
  all_goals contradiction

end

/-- Settles O39: by the vector, then by the task number; for a text, by what the scan finds. -/
theorem trapPublishesItsRequest : Obligations.TrapPublishesItsRequest := by
  intro v s
  refine ⟨encoded _, fun hv => faults_of (exec_trap_of_ne hv) rfl, ?vector15⟩
  case vector15 =>
    rintro rfl
    refine ⟨exec_trap_readString, exec_trap_writeInteger, exec_trap_readInteger, exec_trap_terminate,
      fun h => ⟨fun text hbytes hne hend hrange => ?text, fun hnone => ?noText⟩,
      fun h => faults_of (exec_trap_of_not_task h) rfl⟩
    case text => exact exec_trap_writeString h (scanString_of_zero hbytes hne hend hrange)
    case noText => exact faults_of (exec_trap_of_scan_error h (scanString_of_no_zero hnone)) rfl

end Sys2Proof.Machine
end

/-! SUPPORT. Proofs about the step and the faults of its fetch, the host port and construction (spec/60_exceptions.md,
spec/70_reset_and_hazards.md). -/

section

namespace Sys2Proof.Machine

open Claims

/-! ### The instruction-start set (R119) -/

section
variable {c : Config}

/-- At word number `k` of the program the test is that of the word. -/
theorem inIStart_word {a : Long} {k : Nat} (ha : a.toNat = c.progBase.toNat + 2 * k) :
    inIStart c a = startsAt c.prog 0 k := by
  have hbounds : c.progBase.toNat ≤ a.toNat ∧ (a.toNat - c.progBase.toNat) % 2 = 0 := by omega
  rw [inIStart, decide_eq_true hbounds, Bool.true_and, show (a.toNat - c.progBase.toNat) / 2 = k by omega]

theorem startsAt_of_inIStart {a : Long} (h : inIStart c a = true) :
    ∃ k, a.toNat = c.progBase.toNat + 2 * k ∧ startsAt c.prog 0 k = true := by
  obtain ⟨hlo, -, hpar⟩ := inIStart_bounds h
  exact ⟨_, by omega, (Bool.and_eq_true_iff.mp h).2⟩

theorem inIStart_eq_false {a : Long} (h : ¬(c.progBase.toNat ≤ a.toNat ∧ a.toNat < c.progEnd ∧
    (a.toNat - c.progBase.toNat) % 2 = 0)) : inIStart c a = false :=
  Bool.eq_false_iff.mpr fun hi => h (inIStart_bounds hi)

theorem inIStart_progBase (h : c.prog ≠ []) : inIStart c c.progBase = true :=
  (inIStart_word rfl).trans (startsAt_zero h)

theorem inIStart_next {a b : Long} {w : Word} (h : inIStart c a = true)
    (hw : c.prog[(a.toNat - c.progBase.toNat) / 2]? = some w) (hb : b.toNat = a.toNat + 2 * lenOf w)
    (hend : b.toNat < c.progEnd) : inIStart c b = true := by
  obtain ⟨k, ha, hs⟩ := startsAt_of_inIStart h
  rw [show (a.toNat - c.progBase.toNat) / 2 = k by omega] at hw
  rw [Config.progEnd] at hend
  rw [inIStart_word (k := k + lenOf w) (by omega)]
  exact startsAt_next (k + 1) (Nat.lt_succ_self k) hs hw (by omega)

theorem inIStart_prev {b : Long} (h : inIStart c b = true) : b = c.progBase ∨
    ∃ (a : Long) (w : Word), inIStart c a = true ∧ c.prog[(a.toNat - c.progBase.toNat) / 2]? = some w ∧
      b.toNat = a.toNat + 2 * lenOf w ∧ b.toNat < c.progEnd := by
  obtain ⟨k, hb, hs⟩ := startsAt_of_inIStart h
  obtain rfl | ⟨j, w, hj, hw, rfl⟩ := startsAt_prev (k + 1) (Nat.lt_succ_self k) hs
  · exact .inl (BitVec.eq_of_toNat_eq hb)
  · have hlt := b.isLt
    have ha : (BitVec.ofNat 32 (c.progBase.toNat + 2 * j)).toNat = c.progBase.toNat + 2 * j :=
      BitVec.toNat_ofNat _ _ ▸ Nat.mod_eq_of_lt (by omega)
    refine .inr ⟨_, w, (inIStart_word ha).trans hj, ?_, by omega, (inIStart_bounds h).2.1⟩
    rw [ha, show (c.progBase.toNat + 2 * j - c.progBase.toNat) / 2 = j by omega, hw]

end

/-! ### A step by what is fetched (R343, R344, R360) -/

section
variable {s t : State} {i : Instr} {c : Cause}

theorem fetchDecode_of_not_start (h : inIStart s.cfg s.pc = false) : fetchDecode s = .error (.fetchFault s.pc) := by
  rw [fetchDecode, if_neg (by simp [h])]

theorem fetchDecode_of_illegal {w : Word} (hi : inIStart s.cfg s.pc = true)
    (hd : decode (fetchWords s.cfg s.pc 5) = .error (.illegal w)) :
    fetchDecode s = .error (.illegalInstruction w none) := by
  simp only [fetchDecode, hi, if_true, hd]

theorem fetchDecode_of_decoded {rest : List Word} (hi : inIStart s.cfg s.pc = true)
    (hd : decode (fetchWords s.cfg s.pc 5) = .ok (i, rest)) : fetchDecode s = .ok i := by
  simp only [fetchDecode, hi, if_true, hd]

theorem step_of_error (hs : s.status = .running) (hf : fetchDecode s = .error c) : step s = .next (raise c s) := by
  rw [step_running hs, hf]

theorem step_of_decoded (hs : s.status = .running) (hf : fetchDecode s = .ok i) : step s = endStep (exec i s) := by
  rw [step_running hs, hf]

theorem stepState_of_decoded (hs : s.status = .running) (hf : fetchDecode s = .ok i) (ht : exec i s = .next t) :
    stepState s = endOfProgram t :=
  stepState_eq ((step_of_decoded hs hf).trans (congrArg endStep ht))

end

/-- Settles O42: the words that begin an instruction, as addresses; then the two faults that precede an instruction. -/
theorem fetchAndOpcodeFaults : Obligations.FetchAndOpcodeFaults := by
  refine ⟨fun c => ⟨inIStart_progBase, fun _ _ _ => inIStart_next, fun b h => ⟨?nonempty, inIStart_prev h⟩⟩,
    fun s hs => ⟨fun h => step_of_error hs (fetchDecode_of_not_start h),
      fun w ws hi hw hd => step_of_error hs (fetchDecode_of_illegal hi (hw ▸ hd)),
      fun _ _ => inIStart_eq_false (by omega), fun _ => inIStart_eq_false (by omega)⟩⟩
  case nonempty =>
    intro hnil
    obtain ⟨k, -, hk⟩ := startsAt_of_inIStart h
    rw [hnil] at hk
    cases hk

/-- Settles O43: the fetch answers the decoded instruction, and every instruction answers a next state. -/
theorem stepRunsTheDecodedInstruction : Obligations.StepRunsTheDecodedInstruction := by
  intro s i rest hs hi hd
  obtain ⟨t, ht⟩ := exec_next i s
  exact ⟨t, ht, (step_of_decoded hs (fetchDecode_of_decoded hi hd)).trans (congrArg endStep ht)⟩

/-- Words that can be fetched one by one are the beginning of a fetch that is long enough. -/
theorem fetchWords_eq_append {c : Config} (ws : List Word) : ∀ {a : Long} {n : Nat}, ws.length ≤ n →
    (∀ k w, ws[k]? = some w → fetch16 c (a + BitVec.ofNat 32 (2 * k)) = some w) →
    ∃ rest, fetchWords c a n = ws ++ rest := by
  induction ws with
  | nil => exact fun _ _ => ⟨_, rfl⟩
  | cons w ws ih =>
    intro a n hn h
    obtain ⟨n, rfl⟩ := Nat.exists_eq_add_one_of_ne_zero (Nat.ne_zero_of_lt hn)
    have hw : fetch16 c a = some w := by simpa using h 0 w rfl
    obtain ⟨rest, hrest⟩ := ih (a := a + 2) (Nat.le_of_succ_le_succ hn) fun k v hv => by
      have := h (k + 1) v hv
      rwa [Nat.mul_add_one, Nat.add_comm, BitVec.ofNat_add, ← BitVec.add_assoc] at this
    exact ⟨rest, by rw [fetchWords, hw, hrest, List.cons_append]⟩

/-- An admitted instruction has at most five words, since it is what its own words decode to (R107). -/
theorem length_encode_le {i : Instr} (h : i.wf = true) : (encode i).length ≤ 5 := by
  have hd := decodeOfEncodeIsTheInstruction i [] h
  obtain ⟨-, -, -, -, hlen, -⟩ := (decodedInstructionsAreAdmitted _ _).1 _ _ hd
  exact (length_encode i).trans_le hlen

/-- Settles O44: the fetch begins with the words of the instruction, and the decoder reads it back from them. -/
theorem placedInstructionRuns : Obligations.PlacedInstructionRuns := by
  intro s i hwf hs hi hw
  obtain ⟨rest, hrest⟩ := fetchWords_eq_append (encode i) (length_encode_le hwf) hw
  have hd : decode (fetchWords s.cfg s.pc 5) = .ok (i, rest) := by
    rw [hrest, decodeOfEncodeIsTheInstruction i rest hwf]
  exact step_of_decoded hs (fetchDecode_of_decoded hi hd)

/-! ### The answer to a trap (R362) -/

section
variable {s t : State} {ans : Answer} {p : Interrupt}

theorem answerInterrupt_of_ne (ans : Answer) (h : s.status ≠ .awaitingInterrupt) :
    answerInterrupt ans s = (s, some .noInterruptPending) := by
  rw [answerInterrupt]
  split
  · contradiction
  all_goals rfl

theorem answerInterrupt_of_pending_none (ans : Answer) (hs : s.status = .awaitingInterrupt) (hp : s.pending = none) :
    answerInterrupt ans s = (s, some .noInterruptPending) := by
  simp only [answerInterrupt, hs, hp]

theorem answerInterrupt_of_fits (hs : s.status = .awaitingInterrupt) (hp : s.pending = some p)
    (hf : ans.fits s.cfg p = true) : answerInterrupt ans s = (resultHalf s p ans, none) := by
  simp only [answerInterrupt, hs, hp, hf, if_true]

theorem answerInterrupt_of_not_fits (hs : s.status = .awaitingInterrupt) (hp : s.pending = some p)
    (hf : ans.fits s.cfg p = false) : answerInterrupt ans s = (s, some .shapeMismatch) := by
  simp only [answerInterrupt, hs, hp, hf, Bool.false_eq_true, if_false]

/-- A result half that does not fault ends the suspension in the status of the end-of-program test (R356). -/
theorem answerInterrupt_of_writes (hs : s.status = .awaitingInterrupt) (hp : s.pending = some p)
    (hf : ans.fits s.cfg p = true) (h : resultWrites s p ans = .ok t) (hpc : t.pc = s.pc) : answerInterrupt ans s =
      ({ t with pending := none, status := if s.pc.toNat = s.cfg.progEnd then .terminated else .running }, none) := by
  rw [answerInterrupt_of_fits hs hp hf, ← hpc, ← (resultWrites_plain h).cfg]
  simp only [resultHalf, h, endOfProgram, true_and]
  split <;> rfl

theorem resultHalf_of_error {c : Cause} (h : resultWrites s p ans = .error c) : resultHalf s p ans =
    { s with pending := none, status := .terminatedByFault, fault := some ⟨c, s.pc - 2⟩ } := by
  simp only [resultHalf, h]

theorem resultWrites_string_of_error {b : Long} {m : Nat} {bs : List Byte} {c : Cause}
    (h : writeBytes s (s.areg 1) (bs ++ [0]) = .error c) :
    resultWrites s (.readString b m) (.bytes bs) = .error c := by
  simp only [resultWrites, h]

theorem resultWrites_string_of_ok {b : Long} {m : Nat} {bs : List Byte}
    (h : writeBytes s (s.areg 1) (bs ++ [0]) = .ok t) : resultWrites s (.readString b m) (.bytes bs) =
      .ok (t.setDPart 1 .w (BitVec.ofNat 16 bs.length)) := by
  simp only [resultWrites, h]

end

/-- Settles O40: an answer is rejected or is the result half, whose writes are `writeBytes` of the string and a zero. -/
theorem answerCompletesTheTrap : Obligations.AnswerCompletesTheTrap := by
  intro ans s
  refine ⟨answerInterrupt_of_ne ans, fun hs => ⟨fun hp => ⟨?value, ?noValue⟩, fun p hk hp => ⟨?empty, ?notEmpty⟩,
    fun b m hp => ⟨fun hlong => ?tooLong, fun bs hans hlen => ?string⟩⟩⟩
  case value =>
    rintro v rfl
    exact answerInterrupt_of_writes hs hp rfl rfl rfl
  case noValue =>
    intro h
    refine answerInterrupt_of_not_fits hs hp ?_
    cases ans with
    | value v => exact absurd rfl (h v)
    | empty | bytes => rfl
  case empty =>
    rintro rfl
    obtain ⟨v, rfl⟩ | ⟨text, rfl⟩ := hk <;> exact answerInterrupt_of_writes hs hp rfl rfl rfl
  case notEmpty =>
    intro h
    refine answerInterrupt_of_not_fits hs hp ?_
    cases ans with
    | empty => exact absurd rfl h
    | value | bytes => obtain ⟨v, rfl⟩ | ⟨text, rfl⟩ := hk <;> rfl
  case tooLong =>
    refine answerInterrupt_of_not_fits hs hp ?_
    cases ans with
    | bytes bs => exact decide_eq_false (Nat.not_le.mpr (hlong bs rfl))
    | empty | value => rfl
  case string =>
    subst hans
    have hlast : (bs ++ [0]).length = bs.length + 1 := List.length_append
    have hfits : (Answer.bytes bs).fits s.cfg (.readString b m) = true := decide_eq_true hlen
    refine ⟨fun j c hj hbefore hfault => ?faults, fun hnone => ?completes⟩
    case faults =>
      have hw := writeBytes_err (bs ++ [0]) s (s.areg 1) j c (by omega) hbefore hfault
      rw [answerInterrupt_of_fits hs hp hfits, resultHalf_of_error (resultWrites_string_of_error hw)]
    case completes =>
      obtain ⟨t, hw, ht, hread, hkept⟩ := writeBytes_ok (bs ++ [0]) s (s.areg 1) fun j hj => hnone j (by omega)
      have hpc : t.pc = s.pc := by rw [ht]
      refine ⟨t.setDPart 1 .w (BitVec.ofNat 16 bs.length),
        answerInterrupt_of_writes hs hp hfits (resultWrites_string_of_ok hw) hpc, ?_, ?_,
        fun j b hb hlater => ?_, ?_, fun x hx => ?_⟩
      · rw [ht]; rfl
      · have hstored := dStored_setDPart t 1 .w (BitVec.ofNat 16 bs.length)
        rw [BitVec.toNat_ofNat] at hstored
        rw [ht] at hstored ⊢
        exact hstored
      · have hb' : (bs ++ [0])[j]? = some b := List.getElem?_append_left (List.getElem?_eq_some_iff.mp hb).1 ▸ hb
        exact hread j b hb' fun k hk hkl => hlater k hk (by omega)
      · exact hread bs.length 0 (by simp) fun k hk hkl => absurd hkl (by omega)
      · exact hkept x fun j hj => hx j (by omega)

/-! ### The transitions of STATUS (R342, R355) -/

theorem endOfProgram_of_ne {t : State} (h : t.status ≠ .running) : endOfProgram t = t := if_neg fun g => h g.1

theorem stepState_of_ended {s t : State} {i : Instr} (hs : s.status = .running) (hf : fetchDecode s = .ok i)
    (ht : exec i s = .next t) (h : t.status ≠ .running) : stepState s = t :=
  (stepState_of_decoded hs hf ht).trans (endOfProgram_of_ne h)

/-- The end-of-program test leaves a running core Running, away from PROG_END, or terminates it there. -/
theorem endOfProgram_status {t : State} (h : t.status = .running) :
    ((endOfProgram t).status = .running ∧ (endOfProgram t).pc.toNat ≠ (endOfProgram t).cfg.progEnd) ∨
      ((endOfProgram t).status = .terminated ∧ (endOfProgram t).pc.toNat = (endOfProgram t).cfg.progEnd) := by
  obtain ⟨he, hne⟩ | ⟨-, hend, he⟩ := endOfProgram_cases t <;> rw [he]
  · exact .inl ⟨h, hne h⟩
  · exact .inr ⟨rfl, hend⟩

/-- The statuses a result half can lead to. -/
theorem resultHalf_status (s : State) (p : Interrupt) (ans : Answer) :
    let u := resultHalf s p ans
    (u.status = .running ∧ u.pc.toNat ≠ u.cfg.progEnd) ∨ (u.status = .terminated ∧ u.pc.toNat = u.cfg.progEnd) ∨
      (u.status = .terminatedByFault ∧ u.fault ≠ none) := by
  cases h : resultWrites s p ans with
  | error c => exact .inr (.inr (by rw [resultHalf_of_error h]; exact ⟨rfl, nofun⟩))
  | ok t =>
    rw [resultHalf, h]
    exact (endOfProgram_status rfl).imp_right .inl

/-- A rejected answer leaves the state; an accepted one is the result half of the pending trap. -/
theorem answerInterrupt_accepted_or_rejected (ans : Answer) (s : State) :
    (∃ e, answerInterrupt ans s = (s, some e)) ∨ ∃ p, answerInterrupt ans s = (resultHalf s p ans, none) := by
  by_cases hs : s.status = .awaitingInterrupt
  · cases hp : s.pending with
    | none => exact .inl ⟨_, answerInterrupt_of_pending_none ans hs hp⟩
    | some p =>
      cases hf : ans.fits s.cfg p with
      | false => exact .inl ⟨_, answerInterrupt_of_not_fits hs hp hf⟩
      | true => exact .inr ⟨p, answerInterrupt_of_fits hs hp hf⟩
  · exact .inl ⟨_, answerInterrupt_of_ne ans hs⟩

/-- The statuses a step of a running core can lead to. -/
theorem stepState_status {s : State} (hs : s.status = .running) :
    let u := stepState s
    (u.status = .running ∧ u.pc.toNat ≠ u.cfg.progEnd) ∨
      (u.status = .terminated ∧ (u.pc.toNat = u.cfg.progEnd ∨
        (fetchDecode s = .ok (.trap 15) ∧ low .b (s.dreg 0) = 9))) ∨
      (u.status = .awaitingInterrupt ∧ u.pending ≠ none ∧ fetchDecode s = .ok (.trap 15) ∧
        low .b (s.dreg 0) ∈ [2, 3, 4, 14]) ∨
      (u.status = .terminatedByFault ∧ ∃ c, u.fault = some ⟨c, s.pc⟩) := by
  cases hf : fetchDecode s with
  | error c =>
    rw [stepState_eq (step_of_error hs hf)]
    exact .inr (.inr (.inr ⟨rfl, c, rfl⟩))
  | ok i =>
    obtain ⟨c, he⟩ | ⟨t, he, ht⟩ | ⟨rfl, htask, p, he, -⟩ | ⟨rfl, htask, he⟩ := exec_cases i s
    · rw [stepState_of_ended hs hf he nofun]
      exact .inr (.inr (.inr ⟨rfl, c, rfl⟩))
    · rw [stepState_of_decoded hs hf he]
      exact (endOfProgram_status (ht.status.trans hs)).imp_right fun ⟨hst, hend⟩ => .inl ⟨hst, .inl hend⟩
    · rw [stepState_of_ended hs hf he nofun]
      exact .inr (.inr (.inl ⟨rfl, nofun, rfl, by simpa using htask⟩))
    · rw [stepState_of_ended hs hf he nofun]
      exact .inr (.inl ⟨rfl, .inr ⟨rfl, htask⟩⟩)

/-- In a status that is neither Running nor AwaitingInterrupt every host call is rejected. -/
theorem hostCall_of_halted {s : State} (hr : s.status ≠ .running) (ha : s.status ≠ .awaitingInterrupt) :
    ∀ call : HostCall, hostCall s call = s
  | .step => step_other hr
  | .answer a => congrArg Prod.fst (answerInterrupt_of_ne a ha)

/-- Settles O46: the calls that a status rejects, and what the two accepted ones lead to. -/
theorem statusTransitions : Obligations.StatusTransitions := by
  intro s call
  refine ⟨fun h => ?halted, fun hs hc => ?stepRejected, fun hs a hc => ?answer, fun hs a hc => ?answerRejected,
    fun hs hc => ?step⟩
  case halted => obtain h | h := h <;> exact hostCall_of_halted (by simp [h]) (by simp [h]) call
  case stepRejected => exact hc ▸ step_other (by simp [hs])
  case answer =>
    subst hc
    obtain ⟨e, he⟩ | ⟨p, he⟩ := answerInterrupt_accepted_or_rejected a s <;> rw [hostCall, he]
    · exact ⟨fun _ => rfl, nofun⟩
    · exact ⟨fun h => absurd rfl h, fun _ => resultHalf_status s p a⟩
  case answerRejected => exact hc ▸ congrArg Prod.fst (answerInterrupt_of_ne a (by simp [hs]))
  case step => exact hc ▸ stepState_status hs

/-! ### Runs (R361) -/

theorem runFuel_of_ne {s : State} (h : s.status ≠ .running) (n : Nat) : runFuel n s = some s := by
  cases n <;> rw [runFuel, if_neg h]

theorem runFuel_zero {s : State} (h : s.status = .running) : runFuel 0 s = none := by
  rw [runFuel, if_pos h]

theorem runFuel_succ {s : State} (h : s.status = .running) (n : Nat) :
    runFuel (n + 1) s = runFuel n (stepState s) := by
  rw [runFuel, if_pos h]

theorem iterate_stepState_of_ne {s : State} (h : s.status ≠ .running) (n : Nat) : stepState^[n] s = s :=
  Function.iterate_fixed (step_other h) n

/-- A run with fuel `n` ends if, and only if, the `n`-fold step does not leave the core Running, and then there. -/
theorem runFuel_eq (n : Nat) (s : State) : runFuel n s =
    if (stepState^[n] s).status = .running then none else some (stepState^[n] s) := by
  induction n generalizing s with
  | zero =>
    by_cases h : s.status = .running
    · rw [runFuel_zero h]; exact (if_pos h).symm
    · rw [runFuel_of_ne h]; exact (if_neg h).symm
  | succ n ih =>
    by_cases h : s.status = .running
    · rw [runFuel_succ h, ih, Function.iterate_succ_apply]
    · rw [runFuel_of_ne h, iterate_stepState_of_ne h, if_neg h]

/-- A run that ends is Running until its last step. -/
theorem runFuel_running_before {n : Nat} {s t : State} (h : runFuel n s = some t) :
    ∃ k, k ≤ n ∧ stepState^[k] s = t ∧ ∀ j, j < k → (stepState^[j] s).status = .running := by
  by_cases hs : s.status = .running
  · induction n generalizing s with
    | zero => rw [runFuel_zero hs] at h; cases h
    | succ n ih =>
      rw [runFuel_succ hs] at h
      by_cases hs' : (stepState s).status = .running
      · obtain ⟨k, hk, hkt, hbefore⟩ := ih h hs'
        refine ⟨k + 1, Nat.succ_le_succ hk, hkt, fun j hj => ?_⟩
        cases j with
        | zero => exact hs
        | succ j => exact hbefore j (Nat.lt_of_succ_lt_succ hj)
      · rw [runFuel_of_ne hs'] at h
        refine ⟨1, Nat.succ_le_succ n.zero_le, Option.some.inj h, fun j hj => ?_⟩
        obtain rfl : j = 0 := Nat.lt_one_iff.mp hj
        exact hs
  · rw [runFuel_of_ne hs] at h
    exact ⟨0, n.zero_le, Option.some.inj h, nofun⟩

/-! ### Responses (R38, R360, R361, R366) -/

section
variable {s : State}

theorem stepResponse_of_running (h : s.status = .running) : stepResponse s =
    ⟨some ⟨s.pc, lineAt s.cfg s.pc, (stepState s).status⟩, (stepState s).status, none⟩ := by
  simp only [stepResponse, h, stepError]

theorem stepResponse_of_error {e : HostError} (h : stepError s.status = some e) :
    stepResponse s = ⟨none, s.status, some e⟩ := by
  simp only [stepResponse, h]

theorem runResponse_of_running (h : s.status = .running) (n : Nat) :
    runResponse n s = (runFuel n s).map fun t => (t.status, none) := by
  simp only [runResponse, h, stepError]

theorem runResponse_of_error {e : HostError} (h : stepError s.status = some e) (n : Nat) :
    runResponse n s = some (s.status, some e) := by
  simp only [runResponse, h]

/-- A step is rejected in every status but Running. -/
theorem stepError_of_ne {st : Status} (h : st ≠ .running) : ∃ e, stepError st = some e := by
  cases st with
  | running => exact absurd rfl h
  | awaitingInterrupt | terminated | terminatedByFault => exact ⟨_, rfl⟩

/-- A rejected step and a rejected run change nothing and report the same host error. -/
theorem step_and_run_rejected {e : HostError} (h : stepError s.status = some e) : stepState s = s ∧
    stepResponse s = ⟨none, s.status, some e⟩ ∧
      ∀ n, runFuel n s = some s ∧ runResponse n s = some (s.status, some e) := by
  have hs : s.status ≠ .running := by
    intro hr
    rw [hr] at h
    cases h
  exact ⟨step_other hs, stepResponse_of_error h, fun n => ⟨runFuel_of_ne hs n, runResponse_of_error h n⟩⟩

end

/-- Settles O47: the run with fuel `n` is `runFuel_eq`; the response repeats its status or the host error of `step`. -/
theorem runIsIteratedStep : Obligations.RunIsIteratedStep := by
  intro n s t
  refine ⟨?runsOut, fun hs => ⟨runFuel_of_ne hs n, ?rejected⟩, fun hs ht => ?response, ?ends, runFuel_running_before⟩
  case runsOut => simp [runFuel_eq]
  case rejected =>
    obtain ⟨e, he⟩ := stepError_of_ne hs
    rw [runResponse_of_error he, stepResponse_of_error he]
  case response => rw [runResponse_of_running hs, ht, Option.map_some]
  case ends =>
    rw [runFuel_eq]
    split
    · next h => exact ⟨nofun, fun ⟨hne, ht⟩ => absurd (ht ▸ h) hne⟩
    · next h => exact ⟨fun ht => Option.some.inj ht ▸ ⟨h, rfl⟩, fun ⟨_, ht⟩ => congrArg some ht⟩

/-- Settles O48: a rejected step and run by `step_and_run_rejected`, an answer by whether its shape fits; the codes by
their tables. -/
theorem hostErrorsAreReportedAndChangeNothing : Obligations.HostErrorsAreReportedAndChangeNothing := by
  refine ⟨fun s => ⟨fun hs => ?running, fun hs => ?awaiting, fun hs => ?halted,
    fun hs a => congrArg Prod.snd (answerInterrupt_of_ne a hs), fun hs a p hp => ?shape, fun a e he => ?rejected,
    fun n sz hn => ⟨dif_neg (Nat.not_lt.mpr hn), dif_neg (Nat.not_lt.mpr hn)⟩,
    fun a len h => if_neg (Nat.not_le.mpr h)⟩, rfl, rfl, rfl, rfl, fun _ => rfl, fun _ _ _ => rfl, fun _ _ _ => rfl,
    fun _ _ => rfl, rfl, fun _ _ => rfl, rfl, rfl, rfl, rfl, rfl, rfl⟩
  case running => rw [stepResponse_of_running hs]; exact ⟨rfl, rfl⟩
  case awaiting => exact hs ▸ step_and_run_rejected (by rw [hs]; rfl)
  case halted => exact step_and_run_rejected (by obtain hs | hs := hs <;> rw [hs] <;> rfl)
  case shape =>
    cases hf : a.fits s.cfg p with
    | false => simp [answerInterrupt_of_not_fits hs hp hf]
    | true => simp [answerInterrupt_of_fits hs hp hf]
  case rejected =>
    obtain ⟨e', h⟩ | ⟨p, h⟩ := answerInterrupt_accepted_or_rejected a s <;> rw [h] at he ⊢
    cases he

/-! ### Accessors (R363 to R365) -/

section
variable {c : Config} {a : Long}

theorem lineAt_of_start (h : inIStart c a = true) : lineAt c a = c.lines[(a.toNat - c.progBase.toNat) / 2]? := if_pos h

theorem lineAt_of_not_start (h : inIStart c a = false) : lineAt c a = none := if_neg (by simp [h])

theorem getInstructionAt_of_not_start (h : inIStart c a = false) : getInstructionAt c a = none := if_neg (by simp [h])

theorem getInstructionAt_of_decoded {i : Instr} {rest : List Word} (h : inIStart c a = true)
    (hd : decode (fetchWords c a 5) = .ok (i, rest)) : getInstructionAt c a = some (.instr i, lineAt c a) := by
  simp only [getInstructionAt, h, if_true, hd]

/-- A well-formed instantiation has a line for every instruction start (R4, R365). -/
theorem exists_lineAt (hc : wellFormedConfig c = true) (h : inIStart c a = true) : ∃ line, lineAt c a = some line := by
  have hlines : c.lines.length = c.prog.length := of_decide_eq_true (Bool.and_eq_true_iff.mp hc).2
  have hlt := startsAt_lt _ _ _ (Bool.and_eq_true_iff.mp h).2
  exact ⟨_, (lineAt_of_start h).trans (List.getElem?_eq_getElem (hlines ▸ hlt))⟩

end

/-- Settles O49: each accessor is its definition; an instruction start of a well-formed instantiation has a line by
`exists_lineAt`. -/
theorem hostAccessorsReadTheState : Obligations.HostAccessorsReadTheState := by
  intro s
  refine ⟨fun n sz => ⟨⟨_, dif_pos n.isLt, lowPart_toNat sz _⟩, _, dif_pos n.isLt, lowPart_toNat sz _⟩,
    fun n => ⟨?data, ?address⟩, fun a len h => ⟨_, if_pos h, ?length, fun j hj => ?byte⟩, rfl, rfl,
    fun _ => rfl, rfl, rfl, fun a h => ⟨getInstructionAt_of_not_start h, lineAt_of_not_start h⟩,
    fun a h => ⟨lineAt_of_start h, fun hc => exists_lineAt hc h, fun _ _ => getInstructionAt_of_decoded h⟩⟩
  case data => simp [registerSnapshot, State.dreg]
  case address => simp [registerSnapshot, State.areg]
  case length => rw [List.length_map, List.length_range]
  case byte => rw [List.getElem?_map, List.getElem?_range hj, Option.map_some]

/-! ### Construction (R4, R390) -/

/-- A constructed core is Terminated or Running. -/
theorem resetOf_status (c : Config) : (State.resetOf c).status = .terminated ∧ c.entry.toNat = c.progEnd ∨
    (State.resetOf c).status = .running ∧ c.entry.toNat ≠ c.progEnd := by
  by_cases h : c.entry.toNat = c.progEnd
  · exact .inl ⟨if_pos h, h⟩
  · exact .inr ⟨if_neg h, h⟩

/-- Construction with a canonical memory image inside MEM_SIZE. -/
theorem resetOf_inv {c : Config} (hw : (Memory.mk c.memInit).wf = true)
    (hb : (Memory.mk c.memInit).below c.memSize = true) : (State.resetOf c).Inv := by
  obtain ⟨hs, -⟩ | ⟨hs, hne⟩ := resetOf_status c
  · exact (State.InvBeforeEnd.of_none hw hb rfl rfl (by simp [hs]) (by simp [hs])).inv (by simp [hs])
  · exact (State.InvBeforeEnd.of_none hw hb rfl rfl (by simp [hs]) (by simp [hs])).inv fun _ => hne

theorem wellFormedConfig_memInit {c : Config} (h : wellFormedConfig c = true) :
    (Memory.mk c.memInit).wf = true ∧ (Memory.mk c.memInit).below c.memSize = true := by
  simp only [wellFormedConfig, Bool.and_eq_true] at h
  obtain ⟨⟨⟨⟨⟨⟨⟨-, hw⟩, hb⟩, -⟩, -⟩, -⟩, -⟩, -⟩ := h
  exact ⟨hw, hb⟩

/-- The default of SP_RESET as a number (R4, D8). -/
theorem defaultSpReset_toNat (memSize : Nat) :
    (Config.defaultSpReset memSize).toNat = 2 * (memSize / 2) % 2 ^ 32 := BitVec.toNat_ofNat ..

/-- Settles O55: well-formed parameters give a canonical memory image inside MEM_SIZE, which is all that `resetOf_inv`
asks; the defaults by evaluation. -/
theorem resetHasTheInvariant : Obligations.ResetHasTheInvariant := by
  refine ⟨fun c hc => ?_, resetOf_inv rfl rfl, rfl, by decide, rfl, by decide, fun _ => rfl,
    fun memSize _ _ _ _ => ⟨rfl, rfl, rfl, rfl, rfl, rfl, rfl, rfl, rfl, 2 * (memSize / 2), by omega, by omega,
      by omega, defaultSpReset_toNat memSize⟩⟩
  obtain ⟨hw, hb⟩ := wellFormedConfig_memInit hc
  exact resetOf_inv hw hb

end Sys2Proof.Machine
end
